-- ==== Sys2Proof/Word.lean ====
section
/-! DEFINITION. The machine's plain word types: 32-bit registers and command words (spec/10_state.md R20,
spec/30_encoding.md R100) and 8-bit symbols (spec/00_scope.md R6, "symbol width 8 bits"). -/

namespace Sys2Proof

/-- A 32-bit register value or command word (R20, R100). Every value is unsigned (R12). -/
abbrev Word := BitVec 32

/-- A byte of a buffer or of a byte stream (R6: symbol width 8 bits). -/
abbrev Byte := BitVec 8

end Sys2Proof
end

