-- ==== Sys2Proof/Config.lean ====
section
/-! DEFINITION. What an implementation fixes (the parameters of spec/00_scope.md R7 and the constants of R6) and
the free values: one opaque constant, with no body, for each value the spec leaves unspecified
(spec/93_implementation_defined.md U1, U2, U3, U7; log entries 2, 3, 5). -/

namespace Sys2Proof

/-- The four implementation parameters of R7, each with the default R7 gives it. R44 makes them an argument of
the step function, not state; the model carries them in a field of State that no step changes (DESIGN CHOICE, log
entry 1). The CRC defaults are the spec's own general knowledge (PRESUMED, log entry 10). -/
structure Params where
  /-- BUF_CAP: capacity in bytes of IBUF and of OBUF (R7, D4). -/
  bufCap : Nat := 16777216
  /-- CRC_POLY: the generator polynomial, bit-reflected form (R7, D10). -/
  crcPoly : Word := 0xEDB88320#32
  /-- CRC_INIT: the initial value of CRCACC (R7, D10). -/
  crcInit : Word := 0xFFFFFFFF#32
  /-- CRC_XOROUT: the value XORed onto CRCACC to give the checksum (R7, D10). -/
  crcXorOut : Word := 0xFFFFFFFF#32
deriving DecidableEq, Repr

/-- R7's constraint on BUF_CAP: 16 <= BUF_CAP <= 2^28. -/
def Params.wf (p : Params) : Bool :=
  decide (16 ≤ p.bufCap) && decide (p.bufCap ≤ 268435456)

namespace Config

/-- LZW_TABLE_SIZE (R6). -/
def lzwTableSize : Nat := 18041

/-- LZW_MAX_VALUE, the end-of-stream marker 2^14 - 1 (R6). -/
def lzwEndMarker : Nat := 16383

/-- LZW_MAX_CODE, the largest dictionary code 2^14 - 2 (R6). -/
def lzwMaxCode : Nat := 16382

/-- The byte an IBUF cell holds that nothing has written since hardware reset number `draw`
(R34, U7: any value). -/
opaque freeIbufByte (draw index : Nat) : Byte

/-- The byte an OBUF cell holds outside what the last byte-producing command defined
(R35, R373, U2, U3, U7: any value). -/
opaque freeObufByte (draw index : Nat) : Byte

/-- The word a SAMEM entry holds that no suffix array now fills (R37, U7: any value). -/
opaque freeSamemWord (draw index : Nat) : Word

/-- The bits of field number `field` of an arena record that is not allocated (R38, U7: any value). -/
opaque freeNodeField (draw record field : Nat) : Word

/-- WEIGHT after the increment of 2^32 - 1: R8 and D38 define no overflow behaviour (log entry 5). -/
opaque freeWeight (draw : Nat) : Word

/-- Byte `index` of what BWT_INV outputs on an input that no BWT_FWD produces (R187, U1: a free draw). -/
opaque freeBwtByte (draw index : Nat) : Byte

end Config
end Sys2Proof
end

