-- ==== Sys2Proof/Syntax.lean ====
section
/-! DEFINITION. The syntax: one constructor per command of spec/30_encoding.md R101 (spec/opcode_table.json), and
the accesses the host makes between commands (spec/10_state.md R44, spec/30_encoding.md R105). -/

namespace Sys2Proof

/-- The 28 commands (R101). No command word carries an operand (R102). -/
inductive Instr where
  /-- 0x01, R362. -/
  | softReset
  /-- 0x02, R363. -/
  | xfer
  /-- 0x10, R154. -/
  | crcReset
  /-- 0x11, R155. -/
  | crcByte
  /-- 0x12, R156. -/
  | crcBuf
  /-- 0x13, R157. -/
  | crcRead
  /-- 0x20, R173. -/
  | saBuild
  /-- 0x30, R183. -/
  | bwtFwd
  /-- 0x31, R185. -/
  | bwtInv
  /-- 0x40, R201. -/
  | mtfEnc
  /-- 0x41, R202. -/
  | mtfDec
  /-- 0x50, R216. -/
  | shufEnc
  /-- 0x51, R218. -/
  | shufDec
  /-- 0x60, R270. -/
  | ahufEnc
  /-- 0x61, R275. -/
  | ahufDec
  /-- 0x62, R257. -/
  | ahufInit
  /-- 0x63, R258. -/
  | ahufUpdate
  /-- 0x70, R310. -/
  | lzwEnc
  /-- 0x71, R316. -/
  | lzwDec
  /-- 0x72, R302. -/
  | lzwInit
  /-- 0x73, R304. -/
  | lzwProbe
  /-- 0x74, R305. -/
  | lzwInsert
  /-- 0x80, R343. -/
  | pBwtLzwC
  /-- 0x81, R344. -/
  | pBwtLzwD
  /-- 0x90, R345. -/
  | pBwtMtfShufC
  /-- 0x91, R346. -/
  | pBwtMtfShufD
  /-- 0xA0, R347. -/
  | pBwtMtfAhufC
  /-- 0xA1, R348. -/
  | pBwtMtfAhufD
deriving DecidableEq, Repr

/-- The buffers and windows the host reaches beside the register block (R73): IBUF and OBUF, and the read-only
windows on CRCTAB, SAMEM, the adaptive arena, AHUF_LEAF and the LZW tables (D34). -/
inductive Window where
  | ibuf
  | obuf
  | crctab
  | samem
  | arena
  | ahufLeaf
  | lzw
deriving DecidableEq, Repr

/-- One access of the host, in the order the host makes them (R9, R79, R105), or the hardware reset input (R400).
A write at register offset 0 is a write of CMD: it issues a command (R21, R360). -/
inductive HostAction where
  /-- Write a 32-bit register at a byte offset of the register block (R20). -/
  | writeReg (offset : Nat) (v : Word)
  /-- Read a 32-bit register: changes nothing (R77). -/
  | readReg (offset : Nat)
  /-- Write a buffer byte or a window entry: only IBUF takes the write, the rest ignore it (R34, U4); what IBUF takes of
  a value above 255 is log entry 13. -/
  | writeWindow (w : Window) (index : Nat) (v : Word)
  /-- Read a buffer byte or a window entry: changes nothing (R77). -/
  | readWindow (w : Window) (index : Nat)
  /-- HOST.LOAD of R105: write the byte string to IBUF[0..n) and n to ILEN. -/
  | load (bytes : List Byte)
  /-- The hardware reset input, between commands (R400). -/
  | hardwareReset
deriving DecidableEq, Repr

end Sys2Proof
end

