-- ==== Sys2Proof/WellFormed.lean ====
section
/-! DEFINITION. Well-formed terms: which host accesses the spec offers, and which ARG0 values the command that
reads them accepts (spec/30_encoding.md R102). A command word carries no operand, so every Instr is
well-formed. -/

namespace Sys2Proof

/-- How many entries a window has under given parameters (R34 to R41). -/
def Window.size (p : Params) : Window → Nat
  | .ibuf => p.bufCap
  | .obuf => p.bufCap
  | .crctab => 256
  | .samem => p.bufCap + 1
  | .arena => 515
  | .ahufLeaf => 258
  | .lzw => Config.lzwTableSize

/-- A register offset the block has: a multiple of 4, at most 0x30 (R20, R77, U6). -/
def registerOffsetWellFormed (offset : Nat) : Bool :=
  decide (offset % 4 = 0) && decide (offset ≤ 0x30)

/-- The accesses the spec offers: the register offset exists (R20), the window entry exists (R34 to R41), a value
written to IBUF is one byte (R76), the loaded byte string fits IBUF (R34). -/
def HostAction.wellFormed (p : Params) : HostAction → Bool
  | .writeReg offset _ => registerOffsetWellFormed offset
  | .readReg offset => registerOffsetWellFormed offset
  | .writeWindow .ibuf index v => decide (index < p.bufCap) && decide (v.toNat < 256)
  | .writeWindow w index _ => decide (index < w.size p)
  | .readWindow w index => decide (index < w.size p)
  | .load bytes => decide (bytes.length ≤ p.bufCap)
  | .hardwareReset => true

/-- A command word has no operand field (R100, R102): every command is well-formed as syntax. -/
def Instr.wellFormed : Instr → Bool
  | .softReset | .xfer | .crcReset | .crcByte | .crcBuf | .crcRead | .saBuild | .bwtFwd | .bwtInv
  | .mtfEnc | .mtfDec | .shufEnc | .shufDec | .ahufEnc | .ahufDec | .ahufInit | .ahufUpdate
  | .lzwEnc | .lzwDec | .lzwInit | .lzwProbe | .lzwInsert | .pBwtLzwC | .pBwtLzwD
  | .pBwtMtfShufC | .pBwtMtfShufD | .pBwtMtfAhufC | .pBwtMtfAhufD => true

/-- The ARG0 range check of R102 (b): a byte for CRC_BYTE and AHUF_UPDATE; a prefix code at most 16382 above a
character for LZW_PROBE and LZW_INSERT; no other command reads ARG0. -/
def Instr.argWellFormed (arg0 : Word) : Instr → Bool
  | .crcByte | .ahufUpdate => decide (arg0.toNat < 256)
  | .lzwProbe | .lzwInsert => decide (arg0.toNat < 16383 * 256)
  | .softReset | .xfer | .crcReset | .crcBuf | .crcRead | .saBuild | .bwtFwd | .bwtInv
  | .mtfEnc | .mtfDec | .shufEnc | .shufDec | .ahufEnc | .ahufDec | .ahufInit
  | .lzwEnc | .lzwDec | .lzwInit | .pBwtLzwC | .pBwtLzwD
  | .pBwtMtfShufC | .pBwtMtfShufD | .pBwtMtfAhufC | .pBwtMtfAhufD => true

end Sys2Proof
end

