-- ==== Sys2Proof/Decode.lean ====
section
/-! DEFINITION. The command decoder and the encoder of spec/30_encoding.md R100, R101 and R104. -/

namespace Sys2Proof

/-- Why a command word is not a command (R104). Both cases are UnsupportedOperation sub-cause 1. -/
inductive DecodeError where
  /-- RSV, bits 31:8, is not 0 (R100). -/
  | reservedBits
  /-- OPC, bits 7:0, is not in the opcode map (R101). -/
  | unknownOpcode
deriving DecidableEq, Repr

/-- RSV = CMD[31:8] (R100). -/
def cmdRsv (w : Word) : BitVec 24 := w.extractLsb' 8 24

/-- UNIT = CMD[7:4] (R100). -/
def cmdUnit (w : Word) : BitVec 4 := w.extractLsb' 4 4

/-- FN = CMD[3:0] (R100). -/
def cmdFn (w : Word) : BitVec 4 := w.extractLsb' 0 4

/-- The opcode map of R101, by UNIT and FN. -/
def opcodeMap (unit fn : Nat) : Option Instr :=
  match unit, fn with
  | 0x0, 0x1 => some .softReset
  | 0x0, 0x2 => some .xfer
  | 0x1, 0x0 => some .crcReset
  | 0x1, 0x1 => some .crcByte
  | 0x1, 0x2 => some .crcBuf
  | 0x1, 0x3 => some .crcRead
  | 0x2, 0x0 => some .saBuild
  | 0x3, 0x0 => some .bwtFwd
  | 0x3, 0x1 => some .bwtInv
  | 0x4, 0x0 => some .mtfEnc
  | 0x4, 0x1 => some .mtfDec
  | 0x5, 0x0 => some .shufEnc
  | 0x5, 0x1 => some .shufDec
  | 0x6, 0x0 => some .ahufEnc
  | 0x6, 0x1 => some .ahufDec
  | 0x6, 0x2 => some .ahufInit
  | 0x6, 0x3 => some .ahufUpdate
  | 0x7, 0x0 => some .lzwEnc
  | 0x7, 0x1 => some .lzwDec
  | 0x7, 0x2 => some .lzwInit
  | 0x7, 0x3 => some .lzwProbe
  | 0x7, 0x4 => some .lzwInsert
  | 0x8, 0x0 => some .pBwtLzwC
  | 0x8, 0x1 => some .pBwtLzwD
  | 0x9, 0x0 => some .pBwtMtfShufC
  | 0x9, 0x1 => some .pBwtMtfShufD
  | 0xA, 0x0 => some .pBwtMtfAhufC
  | 0xA, 0x1 => some .pBwtMtfAhufD
  | _, _ => none

/-- The decoder of R104: check RSV = 0, then look OPC up in the table. -/
def decode (w : Word) : Except DecodeError Instr :=
  if cmdRsv w ≠ 0 then .error .reservedBits
  else
    match opcodeMap (cmdUnit w).toNat (cmdFn w).toNat with
    | some i => .ok i
    | none => .error .unknownOpcode

/-- The opcode of each command (R101). -/
def opcode : Instr → Byte
  | .softReset => 0x01
  | .xfer => 0x02
  | .crcReset => 0x10
  | .crcByte => 0x11
  | .crcBuf => 0x12
  | .crcRead => 0x13
  | .saBuild => 0x20
  | .bwtFwd => 0x30
  | .bwtInv => 0x31
  | .mtfEnc => 0x40
  | .mtfDec => 0x41
  | .shufEnc => 0x50
  | .shufDec => 0x51
  | .ahufEnc => 0x60
  | .ahufDec => 0x61
  | .ahufInit => 0x62
  | .ahufUpdate => 0x63
  | .lzwEnc => 0x70
  | .lzwDec => 0x71
  | .lzwInit => 0x72
  | .lzwProbe => 0x73
  | .lzwInsert => 0x74
  | .pBwtLzwC => 0x80
  | .pBwtLzwD => 0x81
  | .pBwtMtfShufC => 0x90
  | .pBwtMtfShufD => 0x91
  | .pBwtMtfAhufC => 0xA0
  | .pBwtMtfAhufD => 0xA1

/-- The command word `0x000000<OPC>` of a command (R100, R105). -/
def encode (i : Instr) : Word := (opcode i).setWidth 32

/-- The command word made of the low `nbits` bits of `w`, every higher bit 0. -/
def tableWord (nbits w : Nat) : Word := BitVec.ofNat 32 (w % 2 ^ nbits)

/-- The instruction the decoder reads from a row of the opcode table (bit 0 the least significant). A command word
is one 32-bit number written to CMD, so no byte order applies (R76). -/
def decodeTableWord (nbits w : Nat) : Option Instr :=
  match decode (tableWord nbits w) with
  | .ok i => some i
  | .error _ => none

end Sys2Proof
end

