-- ==== Sys2Proof/Machine/State.lean ====
section
/-! DEFINITION. The machine's state as plain data (spec/10_state.md R20 to R41), its stop reasons and its state
after hardware reset (R43). -/

namespace Sys2Proof.Machine

/-- STATUS (R22) by its fields (DESIGN CHOICE, log entry 7, safe); the 32-bit word the host reads is `statusWord` (Machine/Flags.lean), whose
reserved bits 31:11 are 0. -/
structure Status where
  /-- Bit 0, 1 while a command executes; never 1 at an observable instant (R22, R360; log entry 8). -/
  busy : Bool
  /-- Bit 1, a command has completed since reset (R22). -/
  done : Bool
  /-- Bit 2, the last command reported ChecksumMismatch (R22, R376). -/
  warn : Bool
  /-- Bit 3, the last command found the LZW code space exhausted (R22, R377). -/
  dovf : Bool
  /-- Bits 7:4, the error kind code of the last command (R22, R370). -/
  err : BitVec 4
  /-- Bits 10:8, the pipeline stage that reported an error or a warning (R22, R342). -/
  stage : BitVec 3
deriving DecidableEq, Repr

/-- A random access memory as a list of (index, value) pairs with strictly rising indices. An index that is not
listed holds an unspecified value; `draw` numbers the free draw it comes from (DESIGN CHOICE, log entry 2). -/
structure Ram (α : Type) where
  cells : List (Nat × α)
  draw : Nat
deriving DecidableEq, Repr

/-- A byte buffer, IBUF or OBUF (R34, R35): its cells are a list of `Host.Cell`. -/
abbrev Memory := Ram Byte

/-- One record of the adaptive tree arena (R38). -/
structure AhufNode where
  parent : BitVec 10
  left : BitVec 10
  right : BitVec 10
  weight : Word
  order : BitVec 10
  sym : BitVec 9
deriving DecidableEq, Repr

/-- The adaptive Huffman unit's persistent state (R31, R38, R39). -/
structure Ahuf where
  /-- AHUF_NALLOC (R31). -/
  nalloc : Word
  /-- The arena records that have been allocated (R38). -/
  arena : Ram AhufNode
  /-- AHUF_LEAF (R39): a symbol that is not listed has the entry NONE. -/
  leaf : List (Nat × BitVec 10)
  /-- The model's own: how many weight increments had no stated result (log entry 5). -/
  weightDraw : Nat
deriving DecidableEq, Repr

/-- One slot of the three parallel LZW arrays (R41). -/
structure LzwSlot where
  /-- LZW_CODE: 14 bits and a valid bit, `none` is EMPTY. -/
  code : Option (BitVec 14)
  /-- LZW_PREFIX. -/
  pre : BitVec 14
  /-- LZW_CHAR. -/
  char : Byte
deriving DecidableEq, Repr

/-- The LZW unit's persistent state (R32, R41). -/
structure Lzw where
  /-- LZW_NEXT (R32). -/
  next : Word
  /-- The slots, indices strictly rising; a slot that is not listed holds (EMPTY, 0, 0), and no listed slot does. -/
  slots : List (Nat × LzwSlot)
deriving DecidableEq, Repr

/-- The whole machine (R20 to R41), the parameters it was built with (R7, R44), and the model's own fields: the
accesses the host has still to make and the numbers of the free draws (log entries 1, 2, 3, 4). -/
structure State where
  /-- The implementation parameters (R7): no step changes them. -/
  params : Params
  /-- STATUS (R22). -/
  status : Status
  /-- ARG0 (R23). -/
  arg0 : Word
  /-- RES0 (R24). -/
  res0 : Word
  /-- RES1 (R24). -/
  res1 : Word
  /-- ILEN (R25). -/
  ilen : Word
  /-- OLEN (R26). -/
  olen : Word
  /-- ERRINFO (R27). -/
  errinfo : Word
  /-- FAULTLOG (R28). -/
  faultlog : Word
  /-- CRCACC (R29). -/
  crcacc : Word
  /-- SALEN (R30). -/
  salen : Word
  /-- AHUF_NALLOC, the arena and AHUF_LEAF (R31, R38, R39). -/
  ahuf : Ahuf
  /-- LZW_NEXT and the LZW tables (R32, R41). -/
  lzw : Lzw
  /-- IBUF (R34). -/
  ibuf : Memory
  /-- OBUF (R35). -/
  obuf : Memory
  /-- SAMEM (R37). -/
  samem : Ram Word
  /-- The model's own: how many BWT_INV outputs were a free draw (R187, log entry 3). -/
  bwtDraw : Nat
  /-- The model's own: the accesses the host makes next, in order (R44, R79, log entry 4). -/
  hostQueue : List HostAction
deriving DecidableEq, Repr

/-- Why a step stops with a fault. -/
inductive Fault where
  /-- The host accesses an entry that a buffer or window does not have (index at or above its size, R34 to R41), or
  loads more than BUF_CAP bytes. Raised by the host access steps, by no command. DESIGN CHOICE (log entry 9), safe: the
  machine stops where the spec gives no such address. -/
  | noSuchEntry (w : Window) (index : Nat)
deriving DecidableEq, Repr

/-- Why a step is refused. -/
inductive Refusal where
  /-- The command has no meaning in this model. Raised by no arm of `exec`: every command is modelled. Safe. -/
  | notModelled (mnemonic : String)
deriving DecidableEq, Repr

/-- NONE of the 10-bit index fields (R38). -/
def noIndex : BitVec 10 := 0x3FF#10

/-- NONE of SYM (R38). -/
def noSym : BitVec 9 := 0x1FF#9

/-- The three records of the initial tree (R251). -/
def initialArena : List (Nat × AhufNode) :=
  [(0, { parent := noIndex, left := 2, right := 1, weight := 1, order := 516, sym := noSym }),
   (1, { parent := 0, left := noIndex, right := noIndex, weight := 1, order := 515, sym := 256 }),
   (2, { parent := 0, left := noIndex, right := noIndex, weight := 0, order := 514, sym := 257 })]

/-- AHUF_LEAF of the initial tree (R251): EOF at record 1, NYT at record 2, every byte NONE. -/
def initialLeaf : List (Nat × BitVec 10) := [(256, 1), (257, 2)]

/-- The machine right after hardware reset (R43, R400, R401), with given parameters. -/
def State.resetWith (p : Params) : State where
  params := p
  status := { busy := false, done := false, warn := false, dovf := false, err := 0, stage := 0 }
  arg0 := 0
  res0 := 0
  res1 := 0
  ilen := 0
  olen := 0
  errinfo := 0
  faultlog := 0
  crcacc := p.crcInit
  salen := 0
  ahuf :=
    { nalloc := 3
      arena := { cells := initialArena, draw := 0 }
      leaf := initialLeaf
      weightDraw := 0 }
  lzw := { next := 256, slots := [] }
  ibuf := { cells := [], draw := 0 }
  obuf := { cells := [], draw := 0 }
  samem := { cells := [], draw := 0 }
  bwtDraw := 0
  hostQueue := []

/-- The machine right after hardware reset with the default parameters of R7, before the host has made any access. -/
def State.reset : State := State.resetWith {}

end Sys2Proof.Machine
end

