-- ==== Sys2Proof/Machine/Flags.lean ====
section
/-! DEFINITION. STATUS, ERRINFO and FAULTLOG: the only flags of the machine (spec/10_state.md R22, R27, R28), and the
parts of a command's life that write them (spec/49_system.md R360, spec/60_exceptions.md R376, R377). -/

namespace Sys2Proof.Machine

/-- STATUS as the 32-bit word the host reads (R22): reserved bits 31:11 are 0. -/
def statusWord (st : Status) : Word :=
  BitVec.ofNat 32
    (st.busy.toNat + 2 * st.done.toNat + 4 * st.warn.toNat + 8 * st.dovf.toNat
      + 16 * st.err.toNat + 256 * st.stage.toNat)

/-- A fatal error kind (R370): the kinds that may appear in STATUS.ERR. -/
inductive FatalKind where
  | malformedContainer
  | treeCorruption
  | unsupportedOperation
  | capacityExceeded
deriving DecidableEq, Repr

/-- The code of a fatal kind (R370): the value of STATUS.ERR and the bit number in FAULTLOG. -/
def fatalCode : FatalKind → Nat
  | .malformedContainer => 1
  | .treeCorruption => 4
  | .unsupportedOperation => 5
  | .capacityExceeded => 6

/-- The code of the warning ChecksumMismatch (R370). -/
def checksumMismatchCode : Nat := 2

/-- FAULTLOG with the bit of one code set (R28). -/
def logFault (code : Nat) (faultlog : Word) : Word := faultlog ||| BitVec.twoPow 32 code

/-- The start of every accepted CMD write (R360, R22): WARN, DOVF, ERR, STAGE and ERRINFO cleared. -/
def beginCommand (s : State) : State :=
  { s with
    status := { s.status with warn := false, dovf := false, err := 0, stage := 0 }
    errinfo := 0 }

/-- The end of every command but SOFT_RESET (R360): DONE set, BUSY clear. -/
def completeCommand (s : State) : State :=
  { s with status := { s.status with done := true, busy := false } }

/-- `warn ChecksumMismatch` (R376), in stage `k` of a pipeline or with `k = 0` outside one. -/
def warnChecksumMismatch (k : Nat) (s : State) : State :=
  { s with
    status := { s.status with warn := true, stage := BitVec.ofNat 3 k }
    errinfo := 1
    faultlog := logFault checksumMismatchCode s.faultlog }

/-- DictionaryOverflow (R377): STATUS.DOVF and nothing else. -/
def setDictionaryOverflow (s : State) : State :=
  { s with status := { s.status with dovf := true } }

end Sys2Proof.Machine
end

