-- ==== Sys2Proof/Machine/Ops.lean ====
section
/-! DEFINITION. The shared operations: sparse memories (spec/20_memory.md), byte order (R74), error entry
(spec/60_exceptions.md R373), the working state of a command with `emit` and `raise` (R13, R42, R72), and how a
byte-producing command commits its output (R26, R71). -/

namespace Sys2Proof.Machine

/-! ## Sparse memories -/

/-- The value listed for an index, if any; the indices of `cells` rise. -/
def getCell {α : Type} : List (Nat × α) → Nat → Option α
  | [], _ => none
  | (k, v) :: t, a => if k = a then some v else if a < k then none else getCell t a

/-- `cells` with the value of index `a` set to `v`. -/
def putCell {α : Type} : List (Nat × α) → Nat → α → List (Nat × α)
  | [], a, v => [(a, v)]
  | (k, w) :: t, a, v =>
    if a < k then (a, v) :: (k, w) :: t
    else if a = k then (a, v) :: t
    else (k, w) :: putCell t a v

/-- `cells` with index `a` not listed. -/
def eraseCell {α : Type} : List (Nat × α) → Nat → List (Nat × α)
  | [], _ => []
  | (k, w) :: t, a =>
    if a < k then (k, w) :: t
    else if a = k then t
    else (k, w) :: eraseCell t a

/-- Whether the indices of `cells` are strictly rising: the canonical form. -/
def rising {α : Type} : List (Nat × α) → Bool
  | [] => true
  | [_] => true
  | (a, _) :: (b, y) :: t => decide (a < b) && rising ((b, y) :: t)

/-- The cells `a`, `a + 1`, … filled with the values of a list. -/
def cellsFrom {α : Type} (a : Nat) : List α → List (Nat × α)
  | [] => []
  | v :: t => (a, v) :: cellsFrom (a + 1) t

/-- `cells` with indices `0 .. vs.length - 1` set to `vs` and every other index as before. -/
def overlay {α : Type} (vs : List α) (cells : List (Nat × α)) : List (Nat × α) :=
  cellsFrom 0 vs ++ cells.filter (fun c => decide (vs.length ≤ c.1))

/-- The value at an index: the listed one, else the free draw `free` numbers. -/
def Ram.read {α : Type} (free : Nat → Nat → α) (m : Ram α) (a : Nat) : α :=
  (getCell m.cells a).getD (free m.draw a)

/-- Write one entry. -/
def Ram.write {α : Type} (m : Ram α) (a : Nat) (v : α) : Ram α :=
  { m with cells := putCell m.cells a v }

/-- Write the entries `0 .. vs.length - 1`; the others keep their values. -/
def Ram.load {α : Type} (m : Ram α) (vs : List α) : Ram α :=
  { m with cells := overlay vs m.cells }

/-- Fill the entries `0 .. vs.length - 1`; every other entry becomes unspecified. -/
def Ram.refill {α : Type} (m : Ram α) (vs : List α) : Ram α :=
  { cells := cellsFrom 0 vs, draw := m.draw + 1 }

/-- The canonical form of a memory: its indices strictly rise. -/
def Ram.wf {α : Type} (m : Ram α) : Bool := rising m.cells

/-- The canonical form of a byte buffer: addresses strictly rise. An unlisted address has no value of its own, so
no listed entry can equal it (log entry 2). -/
def Memory.wf (m : Memory) : Bool := Ram.wf m

/-- IBUF[i] (R70); a byte nothing has written is a free draw (U7). -/
def readIbuf (s : State) (i : Nat) : Byte := Ram.read Config.freeIbufByte s.ibuf i

/-- OBUF[i] (R71); a byte outside the committed output is a free draw (U2, U3, U7). -/
def readObuf (s : State) (i : Nat) : Byte := Ram.read Config.freeObufByte s.obuf i

/-- SAMEM[r] (R37); an entry no suffix array fills is a free draw (U7). -/
def readSamem (s : State) (r : Nat) : Word := Ram.read Config.freeSamemWord s.samem r

/-! ## Byte order (R12, R74) -/

/-- The `n` low bytes of a number, least significant first: LE32 and LE64. -/
def leBytes (n v : Nat) : List Byte :=
  match n with
  | 0 => []
  | n + 1 => BitVec.ofNat 8 v :: leBytes n (v / 256)

/-- UNLE32 and UNLE64. -/
def unle : List Byte → Nat
  | [] => 0
  | b :: t => b.toNat + 256 * unle t

/-! ## Error entry -/

/-- A fatal error: its kind and its sub-cause (R374). -/
structure FatalError where
  kind : FatalKind
  sub : BitVec 8
deriving DecidableEq, Repr

/-- Error entry (R373, R381), what plays the part of a trap: the kind into STATUS.ERR, the sub-cause into
ERRINFO.SUB, the kind's bit into FAULTLOG, the pipeline stage (0 outside a pipeline) into STATUS.STAGE. Nothing
is saved and there is nothing to return from (R382). -/
def raiseFatal (e : FatalError) (k : Nat) (s : State) : State :=
  { s with
    status :=
      { s.status with
        err := BitVec.ofNat 4 (fatalCode e.kind)
        stage := BitVec.ofNat 3 k }
    errinfo := e.sub.setWidth 32
    faultlog := logFault (fatalCode e.kind) s.faultlog }

/-- UnsupportedOperation(1): the command word is not in the opcode map (R375). -/
def badCommand : FatalError := ⟨.unsupportedOperation, 1⟩

/-- UnsupportedOperation(2): ARG0 is out of range (R375). -/
def badOperand : FatalError := ⟨.unsupportedOperation, 2⟩

/-- CapacityExceeded(1): ILEN > BUF_CAP (R378). -/
def inputTooLong : FatalError := ⟨.capacityExceeded, 1⟩

/-- CapacityExceeded(2): the output would exceed BUF_CAP bytes (R378). -/
def outputTooLong : FatalError := ⟨.capacityExceeded, 2⟩

/-- MalformedContainer with a sub-cause of the table of R374. -/
def malformed (sub : BitVec 8) : FatalError := ⟨.malformedContainer, sub⟩

/-- TreeCorruption with a sub-cause of the table of R374. -/
def corrupt (sub : BitVec 8) : FatalError := ⟨.treeCorruption, sub⟩

/-! ## The working state of a command -/

/-- What exists only inside one command, or one pipeline stage (R42), beside the machine it changes. -/
structure Work where
  /-- The machine, with the persistent unit state as changed so far. -/
  mach : State
  /-- The sequencer's stage index (R33), 0 outside a pipeline. -/
  stage : Nat
  /-- The bytes emitted so far, newest first. -/
  out : List Byte
  /-- OLEN', the working output length (R71). -/
  olen : Nat
  /-- WACC, the bit writer's accumulator (R130). -/
  wacc : Byte
  /-- WCNT, the number of bits in it (R130). -/
  wcnt : Nat
  /-- RACC, the bit reader's shift register (R130). -/
  racc : Byte
  /-- RCNT, the number of unread bits in it (R130). -/
  rcnt : Nat
  /-- RPOS, the reader's byte position (R130). -/
  rpos : Nat
  /-- The input bytes from RPOS up to REND (R130). -/
  rest : List Byte
deriving DecidableEq, Repr

/-- A command body: it changes the working state and may stop at a `raise`, keeping what it has changed (R373). -/
abbrev Cmd := EStateM FatalError Work

/-- The working state at the start of stage `k` (R42): nothing emitted, empty bit writer and reader. -/
def Work.start (k : Nat) (s : State) : Work :=
  { mach := s, stage := k, out := [], olen := 0, wacc := 0, wcnt := 0,
    racc := 0, rcnt := 0, rpos := 0, rest := [] }

/-- `raise K(sub)` (R13, R373): stop the command. -/
def raise {α : Type} (e : FatalError) : Cmd α := throw e

/-- Change the machine. -/
def onMachine (f : State → State) : Cmd Unit := modify fun w => { w with mach := f w.mach }

/-- `emit(b)` (R72). -/
def emit (b : Byte) : Cmd Unit := do
  let w ← get
  if w.olen = w.mach.params.bufCap then raise outputTooLong
  else set { w with out := b :: w.out, olen := w.olen + 1 }

/-- `emit` of each byte of a string in order. -/
def emitAll : List Byte → Cmd Unit
  | [] => pure ()
  | b :: t => do
    emit b
    emitAll t

/-- A byte string with the bytes from `off` on replaced by `v`. -/
def overwrite (off : Nat) (v bytes : List Byte) : List Byte :=
  bytes.take off ++ v ++ bytes.drop (off + v.length)

/-- `MemWrite(OBUF, off, n, v)` on bytes already emitted (R71). -/
def memWriteOut (off : Nat) (v : List Byte) : Cmd Unit :=
  modify fun w => { w with out := (overwrite off v w.out.reverse).reverse }

/-- The first statement of every rule that reads the input (R378): CapacityExceeded(1) when the input is longer
than BUF_CAP. -/
def checkInputLength (n : Nat) : Cmd Unit := do
  let w ← get
  if w.mach.params.bufCap < n then raise inputTooLong else pure ()

/-! ## The outcome of a byte-producing command -/

/-- Commit a byte string as the output (R26, R71): OBUF[0..OLEN) holds it, every other OBUF byte is unspecified
(U2). -/
def commitOutput (bytes : List Byte) (s : State) : State :=
  { s with obuf := s.obuf.refill bytes, olen := BitVec.ofNat 32 bytes.length }

/-- Discard the output after a fatal error (R373): OLEN 0, all of OBUF unspecified (U3). -/
def discardOutput (s : State) : State := commitOutput [] s

/-- The end of a byte-producing command run alone: commit on success; on a fatal error discard the output, unless
`keep` says that the command keeps its partial output on that error (R318, R373). -/
def finishCodec (keep : FatalError → Bool) : EStateM.Result FatalError Work Unit → State
  | .ok _ w => completeCommand (commitOutput w.out.reverse w.mach)
  | .error e w =>
    completeCommand
      (raiseFatal e 0 (if keep e then commitOutput w.out.reverse w.mach else discardOutput w.mach))

/-- No fatal error keeps the output: every byte-producing command but LZW_DEC (R373). -/
def keepNothing (_ : FatalError) : Bool := false

/-! ## Host-visible records that are not bytes -/

/-- An arena record that is not allocated (U7): every field is a free draw. -/
def freeNode (draw i : Nat) : AhufNode :=
  { parent := (Config.freeNodeField draw i 0).setWidth 10
    left := (Config.freeNodeField draw i 1).setWidth 10
    right := (Config.freeNodeField draw i 2).setWidth 10
    weight := Config.freeNodeField draw i 3
    order := (Config.freeNodeField draw i 4).setWidth 10
    sym := (Config.freeNodeField draw i 5).setWidth 9 }

end Sys2Proof.Machine
end

