-- ==== Sys2Proof/Machine/Operands.lean ====
section
/-! DEFINITION. Operand forms (spec/30_encoding.md R102): the input byte string IBUF[0..ILEN) and the two formats of
ARG0. -/

namespace Sys2Proof.Machine

/-- The input byte string IBUF[0..ILEN) (R70, R102 (a)). -/
def State.input (s : State) : List Byte := (List.range s.ilen.toNat).map (readIbuf s)

/-- The output byte string OBUF[0..OLEN) (R71). -/
def State.output (s : State) : List Byte := (List.range s.olen.toNat).map (readObuf s)

/-- The input of a command that reads IBUF, after the check of R378. -/
def readInput : Cmd (List Byte) := do
  let w ← get
  checkInputLength w.mach.ilen.toNat
  pure w.mach.input

/-- ARG0 of CRC_BYTE and AHUF_UPDATE: bits 7:0 the byte, bits 31:8 must be 0 (R102 (b)). -/
def argByte (arg0 : Word) : Option Byte :=
  if arg0.extractLsb' 8 24 = 0 then some (arg0.extractLsb' 0 8) else none

/-- ARG0 of LZW_PROBE and LZW_INSERT: bits 21:8 the prefix code, at most 16382, bits 7:0 the character, bits 31:22
must be 0 (R102 (b)). -/
def argPair (arg0 : Word) : Option (BitVec 14 × Byte) :=
  if arg0.extractLsb' 22 10 = 0 ∧ (arg0.extractLsb' 8 14).toNat ≤ Config.lzwMaxCode then
    some (arg0.extractLsb' 8 14, arg0.extractLsb' 0 8)
  else none

/-- The end of a command that produces no byte string and stops at a fatal error: OLEN and OBUF are left alone
(R373). -/
def failUnit (e : FatalError) (s : State) : State := completeCommand (raiseFatal e 0 s)

/-- A byte-producing command run alone (R360): begin, read the input, run the body, commit. -/
def runCodec (keep : FatalError → Bool) (body : List Byte → Cmd Unit) (s : State) : State :=
  finishCodec keep ((readInput >>= body) (Work.start 0 (beginCommand s)))

end Sys2Proof.Machine
end

