-- ==== Sys2Proof/Machine/BitIo.lean ====
section
/-! DEFINITION. The bit I/O unit (spec/40_bitio.md R130 to R138): most significant bit of each byte first (R75). -/

namespace Sys2Proof.Machine

/-- `PutBit(b)` (R131). -/
def putBit (b : Bool) : Cmd Unit := do
  let w ← get
  let acc : Byte := (w.wacc <<< 1) ||| (BitVec.ofBool b).setWidth 8
  if w.wcnt + 1 = 8 then do
    emit acc
    modify fun w => { w with wacc := 0, wcnt := 0 }
  else set { w with wacc := acc, wcnt := w.wcnt + 1 }

/-- `PutBit` of each bit of a list in order. -/
def putBitList : List Bool → Cmd Unit
  | [] => pure ()
  | b :: t => do
    putBit b
    putBitList t

/-- The `n` low bits of a value, most significant first. -/
def msbBits (v : Nat) : Nat → List Bool
  | 0 => []
  | n + 1 => v.testBit n :: msbBits v n

/-- `PutBits(v, n)` (R132). -/
def putBits (v n : Nat) : Cmd Unit := putBitList (msbBits v n)

/-- `FlushBits()` (R133): zero bits up to the byte boundary. -/
def flushBits : Cmd Unit := do
  let w ← get
  if w.wcnt = 0 then pure () else putBitList (List.replicate (8 - w.wcnt) false)

/-- `DropBits()` (R134). -/
def dropBits : Cmd Unit := modify fun w => { w with wacc := 0, wcnt := 0 }

/-- `OpenBits(start, end)` over an input byte string (R135), with end its length. -/
def openBits (x : List Byte) (start : Nat) : Cmd Unit :=
  modify fun w => { w with rpos := start, rest := x.drop start, racc := 0, rcnt := 0 }

/-- `BitsBytePos()` (R135). -/
def bitsBytePos : Cmd Nat := do
  let w ← get
  pure w.rpos

/-- Take the most significant bit of RACC (R136, its last four statements). -/
def shiftBit (w : Work) : Bool × Work :=
  (w.racc.msb, { w with racc := w.racc <<< 1, rcnt := w.rcnt - 1 })

/-- `GetBit()` (R136). EndOfStream becomes the error `onEnd` that the calling rule names. -/
def getBit (onEnd : FatalError) : Cmd Bool := do
  let w ← get
  if w.rcnt = 0 then
    match w.rest with
    | [] => raise onEnd
    | b :: t => do
      let r := shiftBit { w with racc := b, rpos := w.rpos + 1, rcnt := 8, rest := t }
      set r.2
      pure r.1
  else do
    let r := shiftBit w
    set r.2
    pure r.1

/-- The bits of `GetBits(n)` (R137) shifted into the value read so far. -/
def getBitsInto (onEnd : FatalError) (v : Nat) : Nat → Cmd Nat
  | 0 => pure v
  | n + 1 => do
    let b ← getBit onEnd
    getBitsInto onEnd (2 * v + b.toNat) n

/-- `GetBits(n)` (R137). -/
def getBits (onEnd : FatalError) (n : Nat) : Cmd Nat := getBitsInto onEnd 0 n

end Sys2Proof.Machine
end

