-- ==== Sys2Proof/Machine/Crc.lean ====
section
/-! DEFINITION. The CRC-32 rolling checksum unit (spec/41_crc32.md R150 to R158). -/

namespace Sys2Proof.Machine

/-- One shift of the reflected CRC register (R151). -/
def crcShift (poly c : Word) : Word :=
  if c.getLsbD 0 then (c >>> 1) ^^^ poly else c >>> 1

/-- `n` shifts (R151). -/
def crcShifts (poly : Word) : Nat → Word → Word
  | 0, c => c
  | n + 1, c => crcShifts poly n (crcShift poly c)

/-- CRCTAB[i] (R36, R151): a function of CRC_POLY, not state. -/
def crcTab (poly : Word) (i : Byte) : Word := crcShifts poly 8 (i.setWidth 32)

/-- `CrcStep(acc, b)` (R152). -/
def crcStep (p : Params) (acc : Word) (b : Byte) : Word :=
  crcTab p.crcPoly ((acc ^^^ b.setWidth 32).setWidth 8) ^^^ (acc >>> 8)

/-- The accumulator after a byte string (R156). -/
def crcSteps (p : Params) (acc : Word) (bytes : List Byte) : Word := bytes.foldl (crcStep p) acc

/-- `Crc32(B)` (R153). -/
def crc32 (p : Params) (bytes : List Byte) : Word := crcSteps p p.crcInit bytes ^^^ p.crcXorOut

/-- CRCACC <- CRC_INIT. -/
def startCrc (s : State) : State := { s with crcacc := s.params.crcInit }

/-- CRCACC <- CrcStep(CRCACC, b). -/
def feedCrc (b : Byte) (s : State) : State := { s with crcacc := crcStep s.params s.crcacc b }

/-- CRCACC XOR CRC_XOROUT, the checksum of the bytes fed so far. -/
def checksum (s : State) : Word := s.crcacc ^^^ s.params.crcXorOut

/-- CRC_RESET (R154). -/
def execCrcReset (s : State) : Host.Outcome State Fault Refusal :=
  .next (completeCommand (startCrc (beginCommand s)))

/-- CRC_BYTE (R155). -/
def execCrcByte (s : State) : Host.Outcome State Fault Refusal :=
  match argByte s.arg0 with
  | none => .next (failUnit badOperand (beginCommand s))
  | some b => .next (completeCommand (feedCrc b (beginCommand s)))

/-- CRC_BUF (R156). -/
def execCrcBuf (s : State) : Host.Outcome State Fault Refusal :=
  if s.params.bufCap < s.ilen.toNat then .next (failUnit inputTooLong (beginCommand s))
  else
    .next (completeCommand
      { beginCommand s with crcacc := crcSteps s.params s.crcacc s.input })

/-- CRC_READ (R157). -/
def execCrcRead (s : State) : Host.Outcome State Fault Refusal :=
  .next (completeCommand { beginCommand s with res0 := checksum s })

end Sys2Proof.Machine
end

