-- ==== Sys2Proof/Machine/AdaptiveHuffman.lean ====
section
/-! DEFINITION. The adaptive Huffman coder and its tree updater (spec/46_adaptive_huffman.md R250 to R279). -/

namespace Sys2Proof.Machine

/-! ## The tree -/

/-- Record i of the arena (R38, R250); a record that is not allocated is a free draw (U7). -/
def ahufNode (u : Ahuf) (i : BitVec 10) : AhufNode := Ram.read freeNode u.arena i.toNat

/-- Replace record i. -/
def setNode (u : Ahuf) (i : BitVec 10) (n : AhufNode) : Ahuf :=
  { u with arena := u.arena.write i.toNat n }

/-- AHUF_LEAF[s] (R39): NONE when symbol s is not in the tree. -/
def ahufLeaf (u : Ahuf) (sym : Nat) : BitVec 10 := (getCell u.leaf sym).getD noIndex

/-- AHUF_LEAF[s] <- i. -/
def setLeaf (u : Ahuf) (sym : Nat) (i : BitVec 10) : Ahuf :=
  { u with leaf := putCell u.leaf sym i }

/-- The symbol number of the EOF leaf (R16). -/
def eofSymbol : Nat := 256

/-- The symbol number of the NYT leaf (R16). -/
def nytSymbol : Nat := 257

/-- `InitTree()` (R251): records 3 .. 514 become unspecified. -/
def initTree (u : Ahuf) : Ahuf :=
  { nalloc := 3
    arena := { cells := initialArena, draw := u.arena.draw + 1 }
    leaf := initialLeaf
    weightDraw := u.weightDraw }

/-- How many levels a walk along the tree follows at most: no path of a tree of 515 records is longer, so the
bound never ends a walk in a tree of R40 (R252, R256; log entry 6). -/
def treeFuel : Nat := 515

/-- The bits of `Code(i)` (R252) in front of the bits already found. -/
def codeInto (u : Ahuf) : Nat → BitVec 10 → List Bool → List Bool
  | 0, _, bits => bits
  | fuel + 1, i, bits =>
    if (ahufNode u i).parent = noIndex then bits
    else
      codeInto u fuel (ahufNode u i).parent
        (decide ((ahufNode u (ahufNode u i).parent).right = i) :: bits)

/-- `Code(i)` (R252): the path from the root to record i, 0 left and 1 right. -/
def ahufCode (u : Ahuf) (i : BitVec 10) : List Bool := codeInto u treeFuel i []

/-- The better leader of weight w among one record and the best found so far (R253). -/
def leaderStep (nalloc : Nat) (w : Word) (best : Option (Nat × AhufNode)) (c : Nat × AhufNode) :
    Option (Nat × AhufNode) :=
  if c.1 < nalloc ∧ c.2.weight = w then
    match best with
    | none => some c
    | some d => if d.2.order.toNat < c.2.order.toNat then some c else some d
  else best

/-- `Leader(w)` (R253): the allocated record of weight w with the greatest ORDER. -/
def leader (u : Ahuf) (w : Word) : Option (BitVec 10) :=
  (u.arena.cells.foldl (leaderStep u.nalloc.toNat w) none).map fun c => BitVec.ofNat 10 c.1

/-- Make `b` the child of `p` in the slot named by `right`. -/
def setChild (u : Ahuf) (p : BitVec 10) (right : Bool) (b : BitVec 10) : Ahuf :=
  if right then setNode u p { ahufNode u p with right := b }
  else setNode u p { ahufNode u p with left := b }

/-- `Swap(a, b)` (R254): the two records exchange their places in the tree and their numbers. -/
def swapNodes (u : Ahuf) (a b : BitVec 10) : Ahuf :=
  let pa := (ahufNode u a).parent
  let pb := (ahufNode u b).parent
  let aRight := decide ((ahufNode u pa).right = a)
  let bRight := decide ((ahufNode u pb).right = b)
  let oa := (ahufNode u a).order
  let ob := (ahufNode u b).order
  let u1 := setChild u pa aRight b
  let u2 := setChild u1 pb bRight a
  let u3 := setNode u2 a { ahufNode u2 a with parent := pb, order := ob }
  setNode u3 b { ahufNode u3 b with parent := pa, order := oa }

/-- `Split(s)` (R255): the NYT leaf becomes an internal node with a new NYT leaf and a leaf for s; the index of the
new symbol leaf is the second part. -/
def splitNyt (u : Ahuf) (sym : Byte) : Ahuf × BitVec 10 :=
  let q := ahufLeaf u nytSymbol
  let k := (ahufNode u q).order
  let a := u.nalloc.setWidth 10
  let u1 := setNode u a
    { parent := q, left := noIndex, right := noIndex, weight := 0, order := k - 2, sym := 257 }
  let u2 := setNode u1 (a + 1)
    { parent := q, left := noIndex, right := noIndex, weight := 0, order := k - 1, sym := sym.setWidth 9 }
  let u3 := setNode u2 q { ahufNode u2 q with left := a, right := a + 1, sym := noSym }
  let u4 := setLeaf (setLeaf u3 nytSymbol a) sym.toNat (a + 1)
  ({ u4 with nalloc := u4.nalloc + 2 }, a + 1)

/-- WEIGHT[x] <- WEIGHT[x] + 1 (R256). The increment of 2^32 - 1 has no stated result (R8, D38): a free draw
(DESIGN CHOICE, log entry 5). -/
def incrementWeight (u : Ahuf) (x : BitVec 10) : Ahuf :=
  if (ahufNode u x).weight = 0xFFFFFFFF#32 then
    { setNode u x { ahufNode u x with weight := Config.freeWeight u.weightDraw } with
      weightDraw := u.weightDraw + 1 }
  else setNode u x { ahufNode u x with weight := (ahufNode u x).weight + 1 }

/-- The swap of one level of the update (R256): with the leader of x's weight class, unless that is x itself or x's
parent. -/
def swapWithLeader (u : Ahuf) (x : BitVec 10) : Ahuf :=
  match leader u (ahufNode u x).weight with
  | none => u
  | some b => if b ≠ x ∧ b ≠ (ahufNode u x).parent then swapNodes u x b else u

/-- One level of the loop of R256. -/
def updateLevel (u : Ahuf) (x : BitVec 10) : Ahuf := incrementWeight (swapWithLeader u x) x

/-- The loop of R256 from record x up to the root. -/
def updateFrom : Nat → Ahuf → BitVec 10 → Ahuf
  | 0, u, _ => u
  | fuel + 1, u, x =>
    if x = noIndex then u
    else updateFrom fuel (updateLevel u x) (ahufNode (updateLevel u x) x).parent

/-- `Update(s)` (R256). -/
def ahufUpdateTree (u : Ahuf) (sym : Byte) : Ahuf :=
  if ahufLeaf u sym.toNat = noIndex then
    updateFrom treeFuel (splitNyt u sym).1 (splitNyt u sym).2
  else updateFrom treeFuel u (ahufLeaf u sym.toNat)

/-- Change the adaptive tree. -/
def onAhuf (f : Ahuf → Ahuf) (s : State) : State := { s with ahuf := f s.ahuf }

/-! ## The bitstream -/

/-- The bits `EncodeByte(s)` writes (R260), in the tree before its update. -/
def encodeByteBits (u : Ahuf) (sym : Byte) : List Bool :=
  if ahufLeaf u sym.toNat ≠ noIndex then ahufCode u (ahufLeaf u sym.toNat)
  else ahufCode u (ahufLeaf u nytSymbol) ++ msbBits sym.toNat 8

/-- `EncodeByte(s)` (R260). -/
def encodeByte (sym : Byte) : Cmd Unit := do
  let w ← get
  putBitList (encodeByteBits w.mach.ahuf sym)
  onMachine (onAhuf fun u => ahufUpdateTree u sym)

/-- `EncodeEnd()` (R261). -/
def encodeEnd : Cmd Unit := do
  let w ← get
  putBitList (ahufCode w.mach.ahuf (ahufLeaf w.mach.ahuf eofSymbol))
  flushBits

/-- The walk of `DecodeSymbol()` (R262) from record i. -/
def decodeSymbolFrom : Nat → BitVec 10 → Cmd (BitVec 9)
  | 0, _ => raise (corrupt 1)
  | fuel + 1, i => do
    let w ← get
    if (ahufNode w.mach.ahuf i).left = noIndex then pure (ahufNode w.mach.ahuf i).sym
    else do
      let c ← getBit (corrupt 1)
      decodeSymbolFrom fuel (if c then (ahufNode w.mach.ahuf i).right else (ahufNode w.mach.ahuf i).left)

/-- `DecodeSymbol()` (R262). -/
def decodeSymbol : Cmd (BitVec 9) := decodeSymbolFrom treeFuel 0

/-! ## The container -/

/-- The magic `5A 52 41 48` (R6, R265). -/
def ahufMagic : List Byte := [0x5A, 0x52, 0x41, 0x48]

/-- The start of both codec commands (R270, R275): a fresh tree and a fresh checksum. -/
def startAhuf (s : State) : State := startCrc (onAhuf initTree s)

/-- The loop of AHUF_ENC over the block (R270). -/
def ahufEncBytes : List Byte → Cmd Unit
  | [] => pure ()
  | b :: x => do
    onMachine (feedCrc b)
    encodeByte b
    ahufEncBytes x

/-- The last statements of AHUF_ENC (R270): the two header fields and RES0, RES1. -/
def ahufEncFinish : Cmd Unit := do
  let w ← get
  memWriteOut 4 (leBytes 8 w.olen)
  memWriteOut 12 (leBytes 4 (checksum w.mach).toNat)
  onMachine fun s => { s with res0 := checksum s, res1 := checksum s }

/-- The body of AHUF_ENC (R270) on an input byte string. -/
def ahufEncStage (x : List Byte) : Cmd Unit := do
  onMachine startAhuf
  emitAll ahufMagic
  emitAll (List.replicate 12 0)
  ahufEncBytes x
  encodeEnd
  ahufEncFinish

/-- AHUF_ENC (R270). -/
def execAhufEnc (s : State) : Host.Outcome State Fault Refusal :=
  .next (runCodec keepNothing ahufEncStage s)

/-- A decoded byte (R275): emitted, fed to the checksum, and the tree updated. -/
def acceptByte (b : Byte) : Cmd Unit := do
  emit b
  onMachine (feedCrc b)
  onMachine (onAhuf fun u => ahufUpdateTree u b)

/-- The raw byte after the NYT code (R275). -/
def rawByte : Cmd Byte := do
  let v ← getBits (corrupt 1) 8
  let w ← get
  if ahufLeaf w.mach.ahuf v ≠ noIndex then raise (corrupt 2) else pure (BitVec.ofNat 8 v)

/-- The loop of AHUF_DEC (R275). Each pass takes at least one bit, so `fuel`, one more than the number of bits, never
ends it before the bits do. -/
def ahufDecLoop : Nat → Cmd Unit
  | 0 => raise (corrupt 1)
  | fuel + 1 => do
    let sym ← decodeSymbol
    if sym.toNat = eofSymbol then pure ()
    else do
      let b ← if sym.toNat = nytSymbol then rawByte else pure (sym.setWidth 8)
      acceptByte b
      ahufDecLoop fuel

/-- The last statements of AHUF_DEC (R275): RES0, RES1 and the checksum warning (R376). -/
def ahufDecFinish (stored : Word) : Cmd Unit := do
  onMachine fun s => { s with res0 := checksum s, res1 := stored }
  let w ← get
  if w.mach.res0 ≠ w.mach.res1 then onMachine (warnChecksumMismatch w.stage) else pure ()

/-- The body of AHUF_DEC (R275) on an input byte string. -/
def ahufDecStage (x : List Byte) : Cmd Unit := do
  if x.length < 16 then raise (malformed 1)
  else if x.take 4 ≠ ahufMagic then raise (malformed 2)
  else if unle ((x.drop 4).take 8) ≠ x.length then raise (malformed 3)
  else do
    onMachine startAhuf
    openBits x 16
    ahufDecLoop (8 * x.length + 1)
    ahufDecFinish (BitVec.ofNat 32 (unle ((x.drop 12).take 4)))

/-- AHUF_DEC (R275). -/
def execAhufDec (s : State) : Host.Outcome State Fault Refusal :=
  .next (runCodec keepNothing ahufDecStage s)

/-- AHUF_INIT (R257). -/
def execAhufInit (s : State) : Host.Outcome State Fault Refusal :=
  .next (completeCommand (onAhuf initTree (beginCommand s)))

/-- AHUF_UPDATE (R258). -/
def execAhufUpdate (s : State) : Host.Outcome State Fault Refusal :=
  match argByte s.arg0 with
  | none => .next (failUnit badOperand (beginCommand s))
  | some b => .next (completeCommand (onAhuf (fun u => ahufUpdateTree u b) (beginCommand s)))

end Sys2Proof.Machine
end

