-- ==== Sys2Proof/Machine/SuffixArray.lean ====
section
/-! DEFINITION. The suffix array builder (spec/42_suffix_array.md R170 to R173). -/

namespace Sys2Proof.Machine

/-- The augmented symbol sequence S(B) (R170). -/
def symbols (block : List Byte) : List Nat := block.map (fun b => b.toNat + 1) ++ [0]

/-- The order of suffixes as symbol sequences (R171): the first differing symbol decides. -/
def suffixLess : List Nat → List Nat → Bool
  | a :: x, b :: y => if a = b then suffixLess x y else decide (a < b)
  | [], _ :: _ => true
  | _, [] => false

/-- The suffixes of a symbol sequence with their start offsets, the first at offset `i`. -/
def suffixesFrom (i : Nat) : List Nat → List (Nat × List Nat)
  | [] => []
  | a :: t => (i, a :: t) :: suffixesFrom (i + 1) t

/-- Insert a suffix into a list in suffix order. -/
def insertSuffix (p : Nat × List Nat) : List (Nat × List Nat) → List (Nat × List Nat)
  | [] => [p]
  | q :: t => if suffixLess p.2 q.2 then p :: q :: t else q :: insertSuffix p t

/-- The suffixes in suffix order. -/
def sortSuffixes : List (Nat × List Nat) → List (Nat × List Nat)
  | [] => []
  | p :: t => insertSuffix p (sortSuffixes t)

/-- SA(B) (R172), by insertion sort as R173 allows. -/
def suffixArray (block : List Byte) : List Nat :=
  (sortSuffixes (suffixesFrom 0 (symbols block))).map Prod.fst

/-- SAMEM[0..n] <- SA(B), SALEN <- n + 1; the other entries become unspecified (R173). -/
def storeSuffixArray (block : List Byte) (s : State) : State :=
  { s with
    samem := s.samem.refill ((suffixArray block).map (BitVec.ofNat 32))
    salen := BitVec.ofNat 32 (block.length + 1) }

/-- SA_BUILD (R173). -/
def execSaBuild (s : State) : Host.Outcome State Fault Refusal :=
  if s.params.bufCap < s.ilen.toNat then .next (failUnit inputTooLong (beginCommand s))
  else .next (completeCommand (storeSuffixArray s.input (beginCommand s)))

end Sys2Proof.Machine
end

