-- ==== Sys2Proof/Machine/Bwt.lean ====
section
/-! DEFINITION. The Burrows-Wheeler transform unit (spec/43_bwt.md R180 to R187). -/

namespace Sys2Proof.Machine

/-- L' (R181): for each row, the byte before the suffix; the row of suffix 0 gives none. -/
def bwtColumn (block : List Byte) : List Nat → List Byte
  | [] => []
  | 0 :: t => bwtColumn block t
  | (i + 1) :: t => block.getD i 0 :: bwtColumn block t

/-- sentinelIndex (R181, R182): the row r with SA[r] = 0. -/
def sentinelIndex (sa : List Nat) : Nat := sa.idxOf 0

/-- `Bwt(B)` (R180): L' then LE32(sentinelIndex). -/
def bwt (block : List Byte) : List Byte :=
  bwtColumn block (suffixArray block) ++ leBytes 4 (sentinelIndex (suffixArray block))

/-- The body of BWT_FWD (R183) on an input byte string. -/
def bwtFwdStage (x : List Byte) : Cmd Unit := do
  let w ← get
  if w.mach.params.bufCap < x.length + 4 then raise outputTooLong
  else do
    onMachine (storeSuffixArray x)
    emitAll (bwtColumn x (suffixArray x))
    emitAll (leBytes 4 (sentinelIndex (suffixArray x)))
    onMachine fun s => { s with res0 := BitVec.ofNat 32 (sentinelIndex (suffixArray x)) }

/-- BWT_FWD (R183). -/
def execBwtFwd (s : State) : Host.Outcome State Fault Refusal :=
  .next (runCodec keepNothing bwtFwdStage s)

/-- T1[i] (R184): how often L'[i] occurs before position i. -/
def bwtT1 (col : List Byte) (i : Nat) : Nat := (col.take i).count (col.getD i 0)

/-- T2[v] (R184): 1 + the number of bytes of L' less than v. -/
def bwtT2 (col : List Byte) (v : Byte) : Nat :=
  1 + col.countP (fun b => decide (b.toNat < v.toNat))

/-- T1[i] + T2[L'[i]] for every i (R184). -/
def bwtRows (col : List Byte) : List Nat :=
  (List.range col.length).map fun i => bwtT1 col i + bwtT2 col (col.getD i 0)

/-- The loop of R185 for `k` more bytes, from row `cur`, in front of the bytes already found. -/
def bwtWalk (col : List Byte) (rows : List Nat) (si : Nat) : Nat → Nat → List Byte → List Byte
  | 0, _, found => found
  | k + 1, cur, found =>
    let next := rows.getD cur 0
    bwtWalk col rows si k (if si ≤ next then next - 1 else next) (col.getD cur 0 :: found)

/-- The byte string the loop of R185 leaves in `res`. -/
def bwtUndo (col : List Byte) (si : Nat) : List Byte :=
  bwtWalk col (bwtRows col) si col.length 0 []

/-- Whether sentinelIndex is possible for a block of n bytes (R182, the two checks of R185). -/
def sentinelPossible (n si : Nat) : Bool :=
  if n = 0 then decide (si = 0) else decide (1 ≤ si) && decide (si ≤ n)

/-- The n bytes of a free draw (R187, U1). -/
def freeBwtBytes (draw n : Nat) : List Byte := (List.range n).map (Config.freeBwtByte draw)

/-- The output of BWT_INV on an input that passes its checks: the walk of R185 if the input is `Bwt` of what the
walk gives, that is if some BWT_FWD produces it (R186), else n free bytes (R187; DEDUCED, log
entry 3). -/
def bwtInvOutput (col : List Byte) (si : Nat) : Cmd (List Byte) := do
  if bwt (bwtUndo col si) = col ++ leBytes 4 si then pure (bwtUndo col si)
  else do
    let w ← get
    set { w with mach := { w.mach with bwtDraw := w.mach.bwtDraw + 1 } }
    pure (freeBwtBytes w.mach.bwtDraw col.length)

/-- The body of BWT_INV (R185) on an input byte string. -/
def bwtInvStage (x : List Byte) : Cmd Unit := do
  if x.length < 4 then raise (malformed 13)
  else if sentinelPossible (x.length - 4) (unle (x.drop (x.length - 4))) then do
    let res ← bwtInvOutput (x.take (x.length - 4)) (unle (x.drop (x.length - 4)))
    emitAll res
  else raise (malformed 14)

/-- BWT_INV (R185). -/
def execBwtInv (s : State) : Host.Outcome State Fault Refusal :=
  .next (runCodec keepNothing bwtInvStage s)

end Sys2Proof.Machine
end

