-- ==== Sys2Proof/Machine/LzwCoder.lean ====
section
/-! DEFINITION. The LZW dictionary coder (spec/47_lzw.md R300 to R321). -/

namespace Sys2Proof.Machine

/-! ## The dictionary -/

/-- What a slot holds after LzwInit (R301): EMPTY, 0, 0. -/
def emptySlot : LzwSlot := { code := none, pre := 0, char := 0 }

/-- Slot i of the three arrays (R41). -/
def lzwSlot (u : Lzw) (i : Nat) : LzwSlot := (getCell u.slots i).getD emptySlot

/-- Write slot i; a slot that becomes (EMPTY, 0, 0) is no longer listed. -/
def setSlot (u : Lzw) (i : Nat) (x : LzwSlot) : Lzw :=
  { u with slots := if x = emptySlot then eraseCell u.slots i else putCell u.slots i x }

/-- `LzwInit()` (R301). -/
def freshLzw : Lzw := { next := 256, slots := [] }

/-- The first index of a search (R303): (ch << 6) XOR prefix. -/
def lzwHash (pre : BitVec 14) (ch : Byte) : Nat :=
  ((ch.setWidth 14 <<< 6) ^^^ pre).toNat

/-- The step of a search, fixed by its first index (R303). -/
def lzwOffset (index : Nat) : Nat := if index = 0 then 1 else Config.lzwTableSize - index

/-- The next index of a search (R303). -/
def lzwNextIndex (offset index : Nat) : Nat :=
  if offset ≤ index then index - offset else index + Config.lzwTableSize - offset

/-- What a search returns (R303). -/
structure LzwFound where
  slot : Nat
  hit : Bool
  probes : Nat
deriving DecidableEq, Repr

/-- The loop of `Find` (R303) from an index, `probes` slots having been looked at. A search that has looked at all
18041 slots ends as a miss; with a slot EMPTY, as R300 guarantees, it has ended before (R306; log entry 6). -/
def findFrom (u : Lzw) (pre : BitVec 14) (ch : Byte) (offset : Nat) : Nat → Nat → Nat → LzwFound
  | 0, index, probes => ⟨index, false, probes⟩
  | fuel + 1, index, probes =>
    if (lzwSlot u index).code = none then ⟨index, false, probes + 1⟩
    else if (lzwSlot u index).pre = pre ∧ (lzwSlot u index).char = ch then ⟨index, true, probes + 1⟩
    else findFrom u pre ch offset fuel (lzwNextIndex offset index) (probes + 1)

/-- `Find(prefix, ch)` (R303). -/
def lzwFind (u : Lzw) (pre : BitVec 14) (ch : Byte) : LzwFound :=
  findFrom u pre ch (lzwOffset (lzwHash pre ch)) Config.lzwTableSize (lzwHash pre ch) 0

/-- LZW_NEXT as a 14-bit code. -/
def nextCode (u : Lzw) : BitVec 14 := u.next.setWidth 14

/-- Whether a code is left to assign: LZW_NEXT <= 16382 (R305). -/
def codeLeft (u : Lzw) : Bool := decide (u.next.toNat ≤ Config.lzwMaxCode)

/-- Store an entry with the next code in a slot of the encoder's table (R305, R310). -/
def storeEntry (u : Lzw) (slot : Nat) (pre : BitVec 14) (ch : Byte) : Lzw :=
  { setSlot u slot { code := some (nextCode u), pre := pre, char := ch } with next := u.next + 1 }

/-- Store a pair that the dictionary lacks, or report DictionaryOverflow (R305, R310, R319). -/
def insertOrOverflow (slot : Nat) (pre : BitVec 14) (ch : Byte) (s : State) : State :=
  if codeLeft s.lzw then { s with lzw := storeEntry s.lzw slot pre ch } else setDictionaryOverflow s

/-- RES0 of LZW_PROBE and LZW_INSERT (R304): bit 31 HIT, bits 14:0 the slot. -/
def probeRes0 (f : LzwFound) : Word :=
  (BitVec.ofBool f.hit) ++ (BitVec.ofNat 31 f.slot)

/-- RES1 of LZW_PROBE and LZW_INSERT (R304): bits 31:16 PROBES, bits 13:0 CODE. -/
def probeRes1 (f : LzwFound) (code : BitVec 14) : Word :=
  (BitVec.ofNat 16 f.probes) ++ (0#2 ++ code)

/-- CODE (R304, R305): the stored code on a hit, else the code the pair would get. -/
def probeCode (u : Lzw) (f : LzwFound) : BitVec 14 :=
  if f.hit then ((lzwSlot u f.slot).code).getD 0 else nextCode u

/-- LZW_INIT (R302). -/
def execLzwInit (s : State) : Host.Outcome State Fault Refusal :=
  .next (completeCommand { beginCommand s with lzw := freshLzw })

/-- LZW_PROBE (R304). -/
def execLzwProbe (s : State) : Host.Outcome State Fault Refusal :=
  match argPair s.arg0 with
  | none => .next (failUnit badOperand (beginCommand s))
  | some (pre, ch) =>
    let f := lzwFind s.lzw pre ch
    .next (completeCommand
      { beginCommand s with res0 := probeRes0 f, res1 := probeRes1 f (probeCode s.lzw f) })

/-- LZW_INSERT (R305). -/
def execLzwInsert (s : State) : Host.Outcome State Fault Refusal :=
  match argPair s.arg0 with
  | none => .next (failUnit badOperand (beginCommand s))
  | some (pre, ch) =>
    let f := lzwFind s.lzw pre ch
    let s1 := if f.hit then beginCommand s else insertOrOverflow f.slot pre ch (beginCommand s)
    .next (completeCommand
      { s1 with res0 := probeRes0 f, res1 := probeRes1 f (probeCode s.lzw f) })

/-! ## The encoder -/

/-- `PutBits(code, 14)`. -/
def putCode (code : Nat) : Cmd Unit := putBits code 14

/-- The loop of LZW_ENC (R310) with the current prefix code, and the final prefix code. -/
def lzwEncFrom (pre : BitVec 14) : List Byte → Cmd Unit
  | [] => putCode pre.toNat
  | ch :: x => do
    let w ← get
    let f := lzwFind w.mach.lzw pre ch
    if f.hit then lzwEncFrom (((lzwSlot w.mach.lzw f.slot).code).getD 0) x
    else do
      putCode pre.toNat
      onMachine (insertOrOverflow f.slot pre ch)
      lzwEncFrom (ch.setWidth 14) x

/-- The data codes of a block (R310): none for the empty block. -/
def lzwEncBlock : List Byte → Cmd Unit
  | [] => pure ()
  | b :: x => lzwEncFrom (b.setWidth 14) x

/-- The body of LZW_ENC (R310) on an input byte string. -/
def lzwEncStage (x : List Byte) : Cmd Unit := do
  onMachine fun s => { s with lzw := freshLzw }
  lzwEncBlock x
  putCode Config.lzwEndMarker
  putCode 0
  dropBits

/-- LZW_ENC (R310). -/
def execLzwEnc (s : State) : Host.Outcome State Fault Refusal :=
  .next (runCodec keepNothing lzwEncStage s)

/-! ## The decoder -/

/-- The loop of `Expand(c)` (R315) in front of the bytes already pushed; a chain is at most 16127 entries long. -/
def expandInto (u : Lzw) : Nat → Nat → List Byte → List Byte
  | 0, c, st => BitVec.ofNat 8 c :: st
  | fuel + 1, c, st =>
    if c < 256 then BitVec.ofNat 8 c :: st
    else expandInto u fuel (lzwSlot u c).pre.toNat ((lzwSlot u c).char :: st)

/-- `Expand(c)` (R315): the byte string of a code. -/
def lzwExpand (u : Lzw) (c : Nat) : List Byte := expandInto u 16128 c []

/-- Store the decoder's next entry at the index of its code, LZW_CODE staying EMPTY, or report DictionaryOverflow
(R315, R316). -/
def recordOrOverflow (old : Nat) (first : Byte) (s : State) : State :=
  if codeLeft s.lzw then
    { s with
      lzw :=
        { setSlot s.lzw s.lzw.next.toNat
            { code := (lzwSlot s.lzw s.lzw.next.toNat).code, pre := BitVec.ofNat 14 old, char := first } with
          next := s.lzw.next + 1 } }
  else setDictionaryOverflow s

/-- The byte string of a code read by LZW_DEC (R316), with the not-yet-defined code. -/
def lzwString (u : Lzw) (old : Nat) (first : Byte) (new : Nat) : List Byte :=
  if new = u.next.toNat then lzwExpand u old ++ [first] else lzwExpand u new

/-- The loop of LZW_DEC (R316). Each pass takes 14 bits, so `fuel`, the number of bits, never ends it before the
bits do. -/
def lzwDecLoop : Nat → Nat → Byte → Cmd Unit
  | 0, _, _ => raise (malformed 10)
  | fuel + 1, old, first => do
    let new ← getBits (malformed 10) 14
    if new = Config.lzwEndMarker then pure ()
    else do
      let w ← get
      if w.mach.lzw.next.toNat < new then raise (malformed 12)
      else do
        let str := lzwString w.mach.lzw old first new
        emitAll str
        onMachine (recordOrOverflow old (str.headD 0))
        lzwDecLoop fuel new (str.headD 0)

/-- The body of LZW_DEC (R316) on an input byte string. -/
def lzwDecStage (x : List Byte) : Cmd Unit := do
  onMachine fun s => { s with lzw := freshLzw }
  openBits x 0
  let old ← getBits (malformed 10) 14
  if old = Config.lzwEndMarker then pure ()
  else if 255 < old then raise (malformed 11)
  else do
    emit (BitVec.ofNat 8 old)
    lzwDecLoop (8 * x.length) old (BitVec.ofNat 8 old)

/-- LZW_DEC run alone keeps the bytes decoded so far on MalformedContainer (R318). -/
def keepDecoded (e : FatalError) : Bool := decide (e.kind = .malformedContainer)

/-- LZW_DEC (R316, R318). -/
def execLzwDec (s : State) : Host.Outcome State Fault Refusal :=
  .next (runCodec keepDecoded lzwDecStage s)

end Sys2Proof.Machine
end

