-- ==== Sys2Proof/Machine/Mtf.lean ====
section
/-! DEFINITION. The move-to-front coder (spec/44_mtf.md R200 to R203). -/

namespace Sys2Proof.Machine

/-- The MTF table at the start of every pass (R200): T[p] = p. -/
def mtfTable : List Byte := (List.range 256).map (BitVec.ofNat 8)

/-- `MoveToFront(p)` (R200). -/
def moveToFront (p : Nat) (t : List Byte) : List Byte := t.getD p 0 :: t.eraseIdx p

/-- The loop of MTF_ENC (R201) from a table. -/
def mtfEncFrom (t : List Byte) : List Byte → Cmd Unit
  | [] => pure ()
  | b :: x => do
    emit (BitVec.ofNat 8 (t.idxOf b))
    mtfEncFrom (moveToFront (t.idxOf b) t) x

/-- The body of MTF_ENC (R201) on an input byte string. -/
def mtfEncStage (x : List Byte) : Cmd Unit := mtfEncFrom mtfTable x

/-- MTF_ENC (R201). -/
def execMtfEnc (s : State) : Host.Outcome State Fault Refusal :=
  .next (runCodec keepNothing mtfEncStage s)

/-- The loop of MTF_DEC (R202) from a table. -/
def mtfDecFrom (t : List Byte) : List Byte → Cmd Unit
  | [] => pure ()
  | p :: x => do
    emit (t.getD p.toNat 0)
    mtfDecFrom (moveToFront p.toNat t) x

/-- The body of MTF_DEC (R202) on an input byte string. -/
def mtfDecStage (x : List Byte) : Cmd Unit := mtfDecFrom mtfTable x

/-- MTF_DEC (R202). -/
def execMtfDec (s : State) : Host.Outcome State Fault Refusal :=
  .next (runCodec keepNothing mtfDecStage s)

end Sys2Proof.Machine
end

