-- ==== Sys2Proof/Machine/StaticHuffman.lean ====
section
/-! DEFINITION. The static Huffman coder (spec/45_static_huffman.md R210 to R221). -/

namespace Sys2Proof.Machine

/-- The code tree (R211). -/
inductive HuffTree where
  | leaf (v : Byte)
  | node (l r : HuffTree)
deriving DecidableEq, Repr

/-- A node of the queue Q of R211 with its frequency and its key. -/
structure QueueNode where
  freq : Nat
  key : Nat
  tree : HuffTree
deriving DecidableEq, Repr

/-- Less by (freq, key), compared first by freq then by key (R211). -/
def queueLess (a b : QueueNode) : Bool :=
  decide (a.freq < b.freq) || (decide (a.freq = b.freq) && decide (a.key < b.key))

/-- The least node of a queue and the rest of it (R211). -/
def popLeast : List QueueNode → Option (QueueNode × List QueueNode)
  | [] => none
  | a :: t =>
    match popLeast t with
    | none => some (a, [])
    | some (b, r) => if queueLess a b then some (a, b :: r) else some (b, a :: r)

/-- The internal node made of the first and the second node removed (R211). -/
def mergeNodes (a b : QueueNode) : QueueNode :=
  { freq := a.freq + b.freq, key := min a.key b.key, tree := .node a.tree b.tree }

/-- The merge loop of R211 for at most `fuel` merges; a queue of `fuel + 1` nodes ends with one. -/
def mergeQueue : Nat → List QueueNode → Option HuffTree
  | 0, q => q.head?.map QueueNode.tree
  | fuel + 1, q =>
    match popLeast q with
    | none => none
    | some (a, q1) =>
      match popLeast q1 with
      | none => some a.tree
      | some (b, q2) => mergeQueue fuel (mergeNodes a b :: q2)

/-- FREQ[v] of a block (R210). -/
def byteFreq (block : List Byte) (v : Byte) : Nat := block.count v

/-- The queue of leaves of the used byte values (R210, R211). -/
def leafQueue (block : List Byte) : List QueueNode :=
  ((List.range 256).filter fun v => decide (0 < byteFreq block (BitVec.ofNat 8 v))).map fun v =>
    { freq := byteFreq block (BitVec.ofNat 8 v), key := v, tree := .leaf (BitVec.ofNat 8 v) }

/-- The tree of a block (R211); none for the empty block (R214). -/
def huffTree (block : List Byte) : Option HuffTree := mergeQueue 256 (leafQueue block)

/-- The path from the root to the leaf of a byte value, left 0, right 1 (R212). -/
def huffPath : HuffTree → Byte → Option (List Bool)
  | .leaf w, v => if w = v then some [] else none
  | .node l r, v =>
    match huffPath l v with
    | some c => some (false :: c)
    | none => (huffPath r v).map (true :: ·)

/-- CODE[v] (R212), with the forced 1-bit code of a single leaf (R213). -/
def huffCode (t : HuffTree) (v : Byte) : List Bool :=
  match t with
  | .leaf _ => [false]
  | .node _ _ => (huffPath t v).getD []

/-- The preorder shape, 1 for a leaf and 0 for an internal node (R215). -/
def huffShape : HuffTree → List Bool
  | .leaf _ => [true]
  | .node l r => false :: (huffShape l ++ huffShape r)

/-- The leaf values in preorder (R215). -/
def huffLeaves : HuffTree → List Byte
  | .leaf v => [v]
  | .node l r => huffLeaves l ++ huffLeaves r

/-- P (R215): the payload length in bits. -/
def payloadBits (t : HuffTree) (block : List Byte) : Nat :=
  (block.map fun b => (huffCode t b).length).sum

/-- PAYLOAD (R216): the code of each byte in input order. -/
def putCodes (t : HuffTree) : List Byte → Cmd Unit
  | [] => pure ()
  | b :: x => do
    putBitList (huffCode t b)
    putCodes t x

/-- The body of SHUF_ENC (R216) on an input byte string. -/
def shufEncStage (x : List Byte) : Cmd Unit :=
  match huffTree x with
  | none => pure ()
  | some t => do
    putBitList (huffShape t)
    flushBits
    emitAll (huffLeaves t)
    emitAll (leBytes 4 (payloadBits t x))
    putCodes t x
    flushBits

/-- SHUF_ENC (R216). -/
def execShufEnc (s : State) : Host.Outcome State Fault Refusal :=
  .next (runCodec keepNothing shufEncStage s)

/-- A tree whose leaf values are not yet known (R217). -/
inductive HuffShape where
  | leaf
  | node (l r : HuffShape)
deriving DecidableEq, Repr

/-- `ParseShape()` (R217) with its counters nleaf and nint; `fuel` bounds the depth, which the check on nint keeps
below 257. -/
def parseShape : Nat → Nat → Nat → Cmd (HuffShape × Nat × Nat)
  | 0, _, _ => raise (malformed 5)
  | fuel + 1, nleaf, nint => do
    let b ← getBit (malformed 4)
    if b then
      if 256 < nleaf + 1 then raise (malformed 5) else pure (.leaf, nleaf + 1, nint)
    else
      if 255 < nint + 1 then raise (malformed 5)
      else do
        let l ← parseShape fuel nleaf (nint + 1)
        let r ← parseShape fuel l.2.1 l.2.2
        pure (.node l.1 r.1, r.2.1, r.2.2)

/-- Give the leaves of a shape their values in preorder (R218); the values not used come back. -/
def fillShape : HuffShape → List Byte → HuffTree × List Byte
  | .leaf, vs => (.leaf (vs.headD 0), vs.tail)
  | .node l r, vs =>
    let fl := fillShape l vs
    let fr := fillShape r fl.2
    (.node fl.1 fr.1, fr.2)

/-- The payload loop under a single-leaf tree (R218). -/
def decodeSingle (v : Byte) : Nat → Cmd Unit
  | 0 => pure ()
  | p + 1 => do
    let b ← getBit (malformed 8)
    if b then raise (corrupt 3)
    else do
      emit v
      decodeSingle v p

/-- One step down the tree (R218). -/
def huffChild (t : HuffTree) (b : Bool) : HuffTree :=
  match t with
  | .leaf v => .leaf v
  | .node l r => if b then r else l

/-- The payload loop under a tree with two leaves or more (R218): `node` is where the walk stands. -/
def decodeWalk (root : HuffTree) : Nat → HuffTree → Bool → Cmd Unit
  | 0, _, atRoot => if atRoot then pure () else raise (malformed 9)
  | p + 1, node, _ => do
    let b ← getBit (malformed 8)
    match huffChild node b with
    | .leaf v => do
      emit v
      decodeWalk root p root true
    | .node l r => decodeWalk root p (.node l r) false

/-- The payload of SHUF_DEC (R218). -/
def decodePayload (root : HuffTree) (p : Nat) : Cmd Unit :=
  match root with
  | .leaf v => decodeSingle v p
  | .node l r => decodeWalk (.node l r) p (.node l r) true

/-- What follows SHAPE in SHUF_DEC (R218): leaf values, length field and payload, from byte `pos`. -/
def decodeBody (x : List Byte) (shape : HuffShape) (nleaf pos : Nat) : Cmd Unit := do
  if x.length < pos + nleaf + 4 then raise (malformed 6)
  else
    let values := (x.drop pos).take nleaf
    if ¬ values.Nodup then raise (malformed 7)
    else
      let p := unle ((x.drop (pos + nleaf)).take 4)
      if x.length - (pos + nleaf + 4) ≠ (p + 7) / 8 then raise (malformed 8)
      else do
        openBits x (pos + nleaf + 4)
        decodePayload (fillShape shape values).1 p

/-- The body of SHUF_DEC (R218) on an input byte string. -/
def shufDecStage (x : List Byte) : Cmd Unit := do
  if x.length = 0 then pure ()
  else do
    openBits x 0
    let parsed ← parseShape 257 0 0
    let pos ← bitsBytePos
    decodeBody x parsed.1 parsed.2.1 pos

/-- SHUF_DEC (R218). -/
def execShufDec (s : State) : Host.Outcome State Fault Refusal :=
  .next (runCodec keepNothing shufDecStage s)

end Sys2Proof.Machine
end

