-- ==== Sys2Proof/Machine/Pipelines.lean ====
section
/-! DEFINITION. The pipeline sequencer and the six pipeline commands (spec/48_pipelines.md R340 to R350). -/

namespace Sys2Proof.Machine

/-- How a run of the sequencer ends (R341): with the last intermediate, or with the fatal error of stage k. -/
inductive PipeEnd where
  | finished (s : State) (x : List Byte)
  | failed (e : FatalError) (k : Nat) (s : State)
deriving DecidableEq, Repr

/-- One stage (R341): its own checks on its own input, its bytes collected. -/
def runStage (body : List Byte → Cmd Unit) (k : Nat) (s : State) (x : List Byte) :
    EStateM.Result FatalError Work Unit :=
  (checkInputLength x.length >>= fun _ => body x) (Work.start k s)

/-- The stages from number k on (R341). -/
def runStages : List (List Byte → Cmd Unit) → Nat → State → List Byte → PipeEnd
  | [], _, s, x => .finished s x
  | body :: more, k, s, x =>
    match runStage body k s x with
    | .ok _ w => runStages more (k + 1) w.mach w.out.reverse
    | .error e w => .failed e k w.mach

/-- The end of a pipeline command (R341, R342). -/
def finishPipeline : PipeEnd → State
  | .finished s x => completeCommand (commitOutput x s)
  | .failed e k s => completeCommand (raiseFatal e k (discardOutput s))

/-- `RunPipeline(stage_1, ..., stage_m)` (R341); stage 1 checks ILEN. -/
def runPipeline (stages : List (List Byte → Cmd Unit)) (s : State) : State :=
  if s.params.bufCap < s.ilen.toNat then finishPipeline (.failed inputTooLong 1 (beginCommand s))
  else finishPipeline (runStages stages 1 (beginCommand s) s.input)

/-- P_BWT_LZW_C (R343). -/
def execPBwtLzwC (s : State) : Host.Outcome State Fault Refusal :=
  .next (runPipeline [bwtFwdStage, lzwEncStage] s)

/-- P_BWT_LZW_D (R344). -/
def execPBwtLzwD (s : State) : Host.Outcome State Fault Refusal :=
  .next (runPipeline [lzwDecStage, bwtInvStage] s)

/-- P_BWT_MTF_SHUF_C (R345). -/
def execPBwtMtfShufC (s : State) : Host.Outcome State Fault Refusal :=
  .next (runPipeline [bwtFwdStage, mtfEncStage, shufEncStage] s)

/-- P_BWT_MTF_SHUF_D (R346). -/
def execPBwtMtfShufD (s : State) : Host.Outcome State Fault Refusal :=
  .next (runPipeline [shufDecStage, mtfDecStage, bwtInvStage] s)

/-- P_BWT_MTF_AHUF_C (R347). -/
def execPBwtMtfAhufC (s : State) : Host.Outcome State Fault Refusal :=
  .next (runPipeline [bwtFwdStage, mtfEncStage, ahufEncStage] s)

/-- P_BWT_MTF_AHUF_D (R348). -/
def execPBwtMtfAhufD (s : State) : Host.Outcome State Fault Refusal :=
  .next (runPipeline [ahufDecStage, mtfDecStage, bwtInvStage] s)

end Sys2Proof.Machine
end

