-- ==== Sys2Proof/Machine/System.lean ====
section
/-! DEFINITION. The system commands (spec/49_system.md R362, R363) and hardware reset (spec/70_reset_and_hazards.md
R400). -/

namespace Sys2Proof.Machine

/-- SOFT_RESET (R362): every item of R43 at its reset value, but the contents of IBUF, OBUF and SAMEM; DONE is 0
afterwards too. -/
def softReset (s : State) : State :=
  { State.resetWith s.params with
    ahuf := initTree s.ahuf
    lzw := freshLzw
    ibuf := s.ibuf
    obuf := s.obuf
    samem := s.samem
    bwtDraw := s.bwtDraw
    hostQueue := s.hostQueue }

/-- A memory whose every entry has become unspecified. -/
def forgetRam {α : Type} (m : Ram α) : Ram α := { cells := [], draw := m.draw + 1 }

/-- Hardware reset (R43, R400): as SOFT_RESET, and IBUF, OBUF and SAMEM become unspecified. It lands between two steps
(DEDUCED, log entry 8). -/
def hardReset (s : State) : State :=
  { softReset s with
    ibuf := forgetRam s.ibuf
    obuf := forgetRam s.obuf
    samem := forgetRam s.samem }

/-- SOFT_RESET (R362). -/
def execSoftReset (s : State) : Host.Outcome State Fault Refusal := .next (softReset s)

/-- XFER (R363): the last output becomes the next input; the other IBUF bytes keep their values. -/
def execXfer (s : State) : Host.Outcome State Fault Refusal :=
  .next (completeCommand { beginCommand s with ibuf := s.ibuf.load s.output, ilen := s.olen })

end Sys2Proof.Machine
end

