-- ==== Sys2Proof/Machine/Dispatch.lean ====
section
/-! DEFINITION. The dispatch: one arm per command of spec/30_encoding.md R101. -/

namespace Sys2Proof.Machine

/-- What each command does to the machine when the host writes its word to CMD (spec/49_system.md R360). -/
def exec (i : Instr) (s : State) : Host.Outcome State Fault Refusal :=
  match i with
  | .softReset => Sys2Proof.Machine.execSoftReset s
  | .xfer => Sys2Proof.Machine.execXfer s
  | .crcReset => Sys2Proof.Machine.execCrcReset s
  | .crcByte => Sys2Proof.Machine.execCrcByte s
  | .crcBuf => Sys2Proof.Machine.execCrcBuf s
  | .crcRead => Sys2Proof.Machine.execCrcRead s
  | .saBuild => Sys2Proof.Machine.execSaBuild s
  | .bwtFwd => Sys2Proof.Machine.execBwtFwd s
  | .bwtInv => Sys2Proof.Machine.execBwtInv s
  | .mtfEnc => Sys2Proof.Machine.execMtfEnc s
  | .mtfDec => Sys2Proof.Machine.execMtfDec s
  | .shufEnc => Sys2Proof.Machine.execShufEnc s
  | .shufDec => Sys2Proof.Machine.execShufDec s
  | .ahufEnc => Sys2Proof.Machine.execAhufEnc s
  | .ahufDec => Sys2Proof.Machine.execAhufDec s
  | .ahufInit => Sys2Proof.Machine.execAhufInit s
  | .ahufUpdate => Sys2Proof.Machine.execAhufUpdate s
  | .lzwEnc => Sys2Proof.Machine.execLzwEnc s
  | .lzwDec => Sys2Proof.Machine.execLzwDec s
  | .lzwInit => Sys2Proof.Machine.execLzwInit s
  | .lzwProbe => Sys2Proof.Machine.execLzwProbe s
  | .lzwInsert => Sys2Proof.Machine.execLzwInsert s
  | .pBwtLzwC => Sys2Proof.Machine.execPBwtLzwC s
  | .pBwtLzwD => Sys2Proof.Machine.execPBwtLzwD s
  | .pBwtMtfShufC => Sys2Proof.Machine.execPBwtMtfShufC s
  | .pBwtMtfShufD => Sys2Proof.Machine.execPBwtMtfShufD s
  | .pBwtMtfAhufC => Sys2Proof.Machine.execPBwtMtfAhufC s
  | .pBwtMtfAhufD => Sys2Proof.Machine.execPBwtMtfAhufD s

end Sys2Proof.Machine
end

