-- ==== Sys2Proof/Machine/HostPort.lean ====
section
/-! DEFINITION. The host's accesses between commands (spec/10_state.md R20, R44, spec/20_memory.md R70 to R82) and
command issue (spec/49_system.md R360). -/

namespace Sys2Proof.Machine

/-- The thirteen registers (R20). -/
inductive Register where
  | cmd
  | status
  | arg0
  | res0
  | res1
  | ilen
  | olen
  | errinfo
  | faultlog
  | crcacc
  | salen
  | ahufNalloc
  | lzwNext
deriving DecidableEq, Repr

/-- The register at a byte offset of the register block (R20). -/
def registerAt (offset : Nat) : Option Register :=
  match offset with
  | 0x00 => some .cmd
  | 0x04 => some .status
  | 0x08 => some .arg0
  | 0x0C => some .res0
  | 0x10 => some .res1
  | 0x14 => some .ilen
  | 0x18 => some .olen
  | 0x1C => some .errinfo
  | 0x20 => some .faultlog
  | 0x24 => some .crcacc
  | 0x28 => some .salen
  | 0x2C => some .ahufNalloc
  | 0x30 => some .lzwNext
  | _ => none

/-- What a host read of a register returns (R20): CMD reads 0. -/
def registerValue (s : State) : Register → Word
  | .cmd => 0
  | .status => statusWord s.status
  | .arg0 => s.arg0
  | .res0 => s.res0
  | .res1 => s.res1
  | .ilen => s.ilen
  | .olen => s.olen
  | .errinfo => s.errinfo
  | .faultlog => s.faultlog
  | .crcacc => s.crcacc
  | .salen => s.salen
  | .ahufNalloc => s.ahuf.nalloc
  | .lzwNext => s.lzw.next

/-- What a host read at an offset returns (R20); an offset with no register reads 0 (U6; log entry 9). -/
def hostReadReg (s : State) (offset : Nat) : Word :=
  match registerAt offset with
  | some r => registerValue s r
  | none => 0

/-- The host's window on CRCTAB (R36, D34). -/
def hostReadCrctab (s : State) (i : Nat) : Word := crcTab s.params.crcPoly (BitVec.ofNat 8 i)

/-- The host's window on an arena record (R38, D34). -/
def hostReadNode (s : State) (i : Nat) : AhufNode := Ram.read freeNode s.ahuf.arena i

/-- The host's window on AHUF_LEAF (R39, D34). -/
def hostReadLeaf (s : State) (sym : Nat) : BitVec 10 := ahufLeaf s.ahuf sym

/-- The host's window on a slot of the LZW tables (R41, D34). -/
def hostReadLzw (s : State) (i : Nat) : LzwSlot := lzwSlot s.lzw i

/-- A command word that is not in the opcode map (R360, R375): UnsupportedOperation(1), and no other state
changes. -/
def rejectCommand (s : State) : State := failUnit badCommand (beginCommand s)

/-- `Issue(w)` (R360): a host write of `w` to CMD. -/
def issue (w : Word) (s : State) : Host.Outcome State Fault Refusal :=
  match decode w with
  | .ok i => exec i s
  | .error _ => .next (rejectCommand s)

/-- A host write of a register that does not start a command (R20): ARG0 and ILEN take the value, every other
register ignores it. -/
def writeRegister (r : Register) (v : Word) (s : State) : State :=
  match r with
  | .arg0 => { s with arg0 := v }
  | .ilen => { s with ilen := v }
  | .cmd | .status | .res0 | .res1 | .olen | .errinfo | .faultlog | .crcacc | .salen
  | .ahufNalloc | .lzwNext => s

/-- A host write at an offset of the register block (R20, R77): a write to CMD issues a command; an offset with no
register ignores the write (U6). -/
def hostWriteReg (offset : Nat) (v : Word) (s : State) : Host.Outcome State Fault Refusal :=
  match registerAt offset with
  | some .cmd => issue v s
  | some r => .next (writeRegister r v s)
  | none => .next s

/-- A host write of a buffer byte or window entry: IBUF takes it (R34), the others ignore it (U4). IBUF is written one
byte at a time (R76); of a value above 255, which the spec does not offer and `HostAction.wellFormed` refuses,
bits 7:0 are taken and bits 31:8 dropped (DESIGN CHOICE, log entry 13, unsafe). -/
def hostWriteWindow (w : Window) (i : Nat) (v : Word) (s : State) : State :=
  match w with
  | .ibuf => { s with ibuf := s.ibuf.write i (v.setWidth 8) }
  | .obuf | .crctab | .samem | .arena | .ahufLeaf | .lzw => s

/-- HOST.LOAD (R105): the byte string into IBUF[0..n) and n into ILEN. -/
def hostLoad (bytes : List Byte) (s : State) : State :=
  { s with ibuf := s.ibuf.load bytes, ilen := BitVec.ofNat 32 bytes.length }

/-- One access of the host (R44, R105). Reading changes nothing (R77); an access to an entry that does not exist faults
(DESIGN CHOICE, log entry 9). -/
def hostAccess (a : HostAction) (s : State) : Host.Outcome State Fault Refusal :=
  match a with
  | .writeReg offset v => hostWriteReg offset v s
  | .readReg _ => .next s
  | .writeWindow w i v =>
    if i < w.size s.params then .next (hostWriteWindow w i v s) else .fault (.noSuchEntry w i)
  | .readWindow w i =>
    if i < w.size s.params then .next s else .fault (.noSuchEntry w i)
  | .load bytes =>
    if bytes.length ≤ s.params.bufCap then .next (hostLoad bytes s)
    else .fault (.noSuchEntry .ibuf bytes.length)
  | .hardwareReset => .next (hardReset s)

/-- The machine after the host has started its next access. -/
def dropAccess (s : State) : State := { s with hostQueue := s.hostQueue.tail }

/-- The access the host makes next; with none left the engine is idle and nothing changes (R381; DESIGN CHOICE, log
entry 4). -/
def nextAccess (s : State) : Host.Outcome State Fault Refusal :=
  match s.hostQueue.head? with
  | some a => hostAccess a (dropAccess s)
  | none => .next s

/-- The machine with a write of the command word `w` to CMD as the host's next access. -/
def queueCommand (w : Word) (s : State) : State :=
  { s with hostQueue := .writeReg 0x00 w :: s.hostQueue }

end Sys2Proof.Machine
end

