-- ==== Sys2Proof/Machine/Step.lean ====
section
/-! DEFINITION. One step of the machine: the host's next access, which for a write to CMD is one whole command
(spec/49_system.md R360). -/

namespace Sys2Proof.Machine

/-- One step (R9, R44, R79). -/
def step (s : State) : Host.Outcome State Fault Refusal := nextAccess s

/-- `s` with the command word of an opcode-table row as the host's next write to CMD (log entry 4). -/
def State.withFetchWord (s : State) (nbits w : Nat) : State := queueCommand (tableWord nbits w) s

end Sys2Proof.Machine
end

