-- ==== Sys2Proof/Safety.lean ====
section
/-! DEFINITION. The vocabulary of the claims: what a command leaves when it succeeds or fails (spec/49_system.md R361,
spec/60_exceptions.md R373), the byte formats as plain functions of the block (R180, R201, R215, R265, R308), a
dictionary coder with no hash table (R300), a hand-made chain of primitives (R349), and the invariants of the
state (R22, R27, R28, R31, R32, R38 to R41). -/

namespace Sys2Proof.Safety

open Sys2Proof.Machine

/-! ## How a command ends -/

/-- STATUS after a command that reported nothing: DONE only (R361 (a)). -/
def doneStatus : Status :=
  { busy := false, done := true, warn := false, dovf := false, err := 0, stage := 0 }

/-- The machine after a command that succeeded and whose other effects are already in `s` (R361 (a)). -/
def succeeded (s : State) : State := { s with status := doneStatus, errinfo := 0 }

/-- As `succeeded`, with STATUS.DOVF (R377). -/
def succeededOverflow (dovf : Bool) (s : State) : State :=
  { s with status := { doneStatus with dovf := dovf }, errinfo := 0 }

/-- The machine after a command that stopped at a fatal error in stage `k`, 0 outside a pipeline (R373). -/
def failed (e : FatalError) (k : Nat) (s : State) : State :=
  { s with
    status :=
      { doneStatus with err := BitVec.ofNat 4 (fatalCode e.kind), stage := BitVec.ofNat 3 k }
    errinfo := e.sub.setWidth 32
    faultlog := s.faultlog ||| BitVec.twoPow 32 (fatalCode e.kind) }

/-- As `failed` outside a pipeline, with STATUS.DOVF (R361, R377). -/
def failedOverflow (dovf : Bool) (e : FatalError) (s : State) : State :=
  { failed e 0 s with status := { (failed e 0 s).status with dovf := dovf } }

/-- ILEN <= BUF_CAP: the input passes the check of R378. -/
def InputFits (s : State) : Prop := s.ilen.toNat ≤ s.params.bufCap

/-- The commands that produce a byte string (R26, R374). -/
def producesBytes : Instr → Bool
  | .bwtFwd | .bwtInv | .mtfEnc | .mtfDec | .shufEnc | .shufDec | .ahufEnc | .ahufDec | .lzwEnc | .lzwDec
  | .pBwtLzwC | .pBwtLzwD | .pBwtMtfShufC | .pBwtMtfShufD | .pBwtMtfAhufC | .pBwtMtfAhufD => true
  | .softReset | .xfer | .crcReset | .crcByte | .crcBuf | .crcRead | .saBuild | .ahufInit | .ahufUpdate
  | .lzwInit | .lzwProbe | .lzwInsert => false

/-- The commands that read IBUF (R101, column "reads"). -/
def readsInput : Instr → Bool
  | .crcBuf | .saBuild => true
  | .softReset | .xfer | .crcReset | .crcByte | .crcRead | .ahufInit | .ahufUpdate
  | .lzwInit | .lzwProbe | .lzwInsert => false
  | .bwtFwd | .bwtInv | .mtfEnc | .mtfDec | .shufEnc | .shufDec | .ahufEnc | .ahufDec | .lzwEnc | .lzwDec
  | .pBwtLzwC | .pBwtLzwD | .pBwtMtfShufC | .pBwtMtfShufD | .pBwtMtfAhufC | .pBwtMtfAhufD => true

/-- The primitive stages of a pipeline command (R343 to R348); any other command has none. -/
def pipelineStages : Instr → List Instr
  | .pBwtLzwC => [.bwtFwd, .lzwEnc]
  | .pBwtLzwD => [.lzwDec, .bwtInv]
  | .pBwtMtfShufC => [.bwtFwd, .mtfEnc, .shufEnc]
  | .pBwtMtfShufD => [.shufDec, .mtfDec, .bwtInv]
  | .pBwtMtfAhufC => [.bwtFwd, .mtfEnc, .ahufEnc]
  | .pBwtMtfAhufD => [.ahufDec, .mtfDec, .bwtInv]
  | .softReset | .xfer | .crcReset | .crcByte | .crcBuf | .crcRead | .saBuild | .bwtFwd | .bwtInv
  | .mtfEnc | .mtfDec | .shufEnc | .shufDec | .ahufEnc | .ahufDec | .ahufInit | .ahufUpdate
  | .lzwEnc | .lzwDec | .lzwInit | .lzwProbe | .lzwInsert => []

/-- The chain `s_1 ; XFER ; s_2 ; ... ; XFER ; s_m` (R349), in which the host stops at the first command that reports a
fatal error; `none` if a command answers no next state. -/
def chain : List Instr → State → Option State
  | [], s => some s
  | i :: more, s =>
    match exec i s with
    | .next t =>
      match more with
      | [] => some t
      | j :: rest =>
        if t.status.err ≠ 0 then some t
        else
          match exec .xfer t with
          | .next u => chain (j :: rest) u
          | .fault _ => none
          | .refused _ => none
    | .fault _ => none
    | .refused _ => none

/-! ## Bit strings as bytes (R75) -/

/-- The byte whose bits 7, 6, ..., 0 are the first eight of a bit string, missing ones 0. -/
def byteOfBits (bits : List Bool) : Byte :=
  BitVec.ofNat 8 ((List.range 8).foldl (fun v j => 2 * v + (bits.getD j false).toNat) 0)

/-- Byte number `i` of a bit string. -/
def byteAt (bits : List Bool) (i : Nat) : Byte := byteOfBits (bits.drop (8 * i))

/-- The bytes of a bit string padded with zero bits to whole bytes (R133). -/
def packBits (bits : List Bool) : List Byte :=
  (List.range ((bits.length + 7) / 8)).map (byteAt bits)

/-- The whole bytes of a bit string, the last 0 to 7 bits dropped (R134). -/
def packWhole (bits : List Bool) : List Byte :=
  (List.range (bits.length / 8)).map (byteAt bits)

/-- The bits of a byte string, most significant bit of each byte first. -/
def bitsOf (bytes : List Byte) : List Bool := bytes.flatMap fun b => msbBits b.toNat 8

/-! ## The formats -/

/-- MTF_ENC (R201) as a function, from a table. -/
def mtfEncodeFrom (t : List Byte) : List Byte → List Byte
  | [] => []
  | b :: x => BitVec.ofNat 8 (t.idxOf b) :: mtfEncodeFrom (moveToFront (t.idxOf b) t) x

/-- MTF_DEC (R202) as a function, from a table. -/
def mtfDecodeFrom (t : List Byte) : List Byte → List Byte
  | [] => []
  | p :: x => t.getD p.toNat 0 :: mtfDecodeFrom (moveToFront p.toNat t) x

/-- MTF_ENC of a byte string (R201). -/
def mtfEncode (x : List Byte) : List Byte := mtfEncodeFrom mtfTable x

/-- MTF_DEC of a byte string (R202). -/
def mtfDecode (x : List Byte) : List Byte := mtfDecodeFrom mtfTable x

/-- The static container of a block (R214, R215). -/
def shufContainer (block : List Byte) : List Byte :=
  match huffTree block with
  | none => []
  | some t =>
    packBits (huffShape t) ++ huffLeaves t ++ leBytes 4 (payloadBits t block)
      ++ packBits (block.flatMap (huffCode t))

/-- Of two nodes of the queue of R211, `a` is the one removed first: by freq, then by key. -/
def RemovedBefore (a b : QueueNode) : Prop := a.freq < b.freq ∨ a.freq = b.freq ∧ a.key < b.key

/-- The merge loop of R211 as a relation: from a queue, in whatever order it is listed, to the tree of the one node
left. -/
inductive MergesTo : List QueueNode → HuffTree → Prop where
  /-- One node is left. -/
  | last (a : QueueNode) : MergesTo [a] a.tree
  /-- The two nodes removed first give way to their parent. -/
  | merge {q rest : List QueueNode} {a b : QueueNode} {t : HuffTree} (perm : q.Perm (a :: b :: rest))
      (first : ∀ c ∈ b :: rest, RemovedBefore a c) (second : ∀ c ∈ rest, RemovedBefore b c)
      (more : MergesTo ({ freq := a.freq + b.freq, key := min a.key b.key, tree := .node a.tree b.tree } :: rest) t) :
      MergesTo q t

/-- The adaptive bitstream of a block from a tree, the EOF code included (R261). -/
def ahufBits (u : Ahuf) : List Byte → List Bool
  | [] => ahufCode u (ahufLeaf u eofSymbol)
  | b :: x => encodeByteBits u b ++ ahufBits (ahufUpdateTree u b) x

/-- The adaptive bits of a block from a tree, without the EOF code (R260). -/
def ahufDataBits (u : Ahuf) : List Byte → List Bool
  | [] => []
  | b :: x => encodeByteBits u b ++ ahufDataBits (ahufUpdateTree u b) x

/-- The tree after the updates for a block (R278). -/
def ahufTreeAfter (u : Ahuf) (block : List Byte) : Ahuf := block.foldl ahufUpdateTree u

/-- The payload of the adaptive container (R265). -/
def ahufPayload (u : Ahuf) (block : List Byte) : List Byte := packBits (ahufBits (initTree u) block)

/-- The adaptive container of a block (R265) with the value `crc` in its CRC field; `u` is the unit before the
command, whose tree the command discards. -/
def ahufContainerWith (crc : Word) (u : Ahuf) (block : List Byte) : List Byte :=
  ahufMagic ++ leBytes 8 (16 + (ahufPayload u block).length) ++ leBytes 4 crc.toNat ++ ahufPayload u block

/-- The adaptive container of a block (R265, R266). -/
def ahufContainer (p : Params) (u : Ahuf) (block : List Byte) : List Byte :=
  ahufContainerWith (crc32 p block) u block

/-- The machine after AHUF_ENC or AHUF_DEC has coded a block, `stored` being the CRC field (R270, R275): the tree after
the updates for the block, its checksum, the two results. -/
def ahufCoded (block : List Byte) (stored : Word) (s : State) : State :=
  { s with
    ahuf := ahufTreeAfter (initTree s.ahuf) block
    crcacc := crcSteps s.params s.params.crcInit block
    res0 := crc32 s.params block
    res1 := stored }

/-- The machine after AHUF_DEC found that the recomputed checksum differs from the CRC field, in stage `k` of a
pipeline or with `k = 0` outside one (R376). -/
def warned (k : Nat) (s : State) : State :=
  { s with
    status := { doneStatus with warn := true, stage := BitVec.ofNat 3 k }
    errinfo := 1
    faultlog := s.faultlog ||| 4 }

/-- A run of an LZW encoder over a block: its data codes, what is left of its dictionary, and whether an insertion was
skipped. -/
structure LzwRun (α : Type) where
  codes : List Nat
  dict : α
  overflow : Bool

/-- The encoder of R310 over the hash table, from a current prefix code. -/
def tableRunFrom (u : Lzw) (pre : BitVec 14) : List Byte → LzwRun Lzw
  | [] => ⟨[pre.toNat], u, false⟩
  | ch :: x =>
    if (lzwFind u pre ch).hit then
      tableRunFrom u (((lzwSlot u (lzwFind u pre ch).slot).code).getD 0) x
    else if codeLeft u then
      let r := tableRunFrom (storeEntry u (lzwFind u pre ch).slot pre ch) (ch.setWidth 14) x
      ⟨pre.toNat :: r.codes, r.dict, r.overflow⟩
    else
      let r := tableRunFrom u (ch.setWidth 14) x
      ⟨pre.toNat :: r.codes, r.dict, true⟩

/-- The encoder of R310 over the hash table. -/
def tableRun : List Byte → LzwRun Lzw
  | [] => ⟨[], freshLzw, false⟩
  | b :: x => tableRunFrom freshLzw (b.setWidth 14) x

/-- The code of a pair in a dictionary that is the list of its (prefix, char) entries in order of creation, entry k
having code 256 + k (R300). -/
def dictCode (dict : List (Nat × Byte)) (pre : Nat) (ch : Byte) : Option Nat :=
  (dict.idxOf? (pre, ch)).map (256 + ·)

/-- The classic LZW encoder over such a dictionary of at most 16127 entries (R300, R310), from a current prefix
code. -/
def dictRunFrom (dict : List (Nat × Byte)) (pre : Nat) : List Byte → LzwRun (List (Nat × Byte))
  | [] => ⟨[pre], dict, false⟩
  | ch :: x =>
    match dictCode dict pre ch with
    | some c => dictRunFrom dict c x
    | none =>
      if dict.length < 16127 then
        let r := dictRunFrom (dict ++ [(pre, ch)]) ch.toNat x
        ⟨pre :: r.codes, r.dict, r.overflow⟩
      else
        let r := dictRunFrom dict ch.toNat x
        ⟨pre :: r.codes, r.dict, true⟩

/-- The classic LZW encoder (R300, R310). -/
def dictRun : List Byte → LzwRun (List (Nat × Byte))
  | [] => ⟨[], [], false⟩
  | b :: x => dictRunFrom [] b.toNat x

/-- The LZW stream of data codes (R308): each code, the end marker and the flush code in 14 bits, cut to whole
bytes. -/
def lzwStream (codes : List Nat) : List Byte :=
  packWhole ((codes ++ [16383, 0]).flatMap fun c => msbBits c 14)

/-- The whole 14-bit codes of a byte string (R308), the last 0 to 13 bits left over. -/
def codesOf (bytes : List Byte) : List Nat :=
  (List.range (8 * bytes.length / 14)).map fun j =>
    (((bitsOf bytes).drop (14 * j)).take 14).foldl (fun v b => 2 * v + b.toNat) 0

/-- The byte string of a code in a dictionary, following at most `fuel` prefixes (R300). -/
def dictString (dict : List (Nat × Byte)) : Nat → Nat → List Byte
  | 0, c => [BitVec.ofNat 8 c]
  | fuel + 1, c =>
    if c < 256 then [BitVec.ofNat 8 c]
    else
      match dict[c - 256]? with
      | some e => dictString dict fuel e.1 ++ [e.2]
      | none => []

/-- The byte string of a code in a dictionary, in which every prefix is less than the code of its entry (R300, R315). -/
def codeString (dict : List (Nat × Byte)) (c : Nat) : List Byte := dictString dict c c

/-- How a classic LZW decoder stops (R316). -/
inductive LzwStop where
  /-- It has read the end marker. -/
  | marker
  /-- The codes ran out before the end marker. -/
  | cut
  /-- The first code is neither a literal nor the end marker. -/
  | badFirst
  /-- A code is greater than the next code to assign. -/
  | badCode
deriving DecidableEq, Repr

/-- The error of a stop (R316). -/
def LzwStop.error : LzwStop → Option FatalError
  | .marker => none
  | .cut => some (malformed 10)
  | .badFirst => some (malformed 11)
  | .badCode => some (malformed 12)

/-- What a classic LZW decoder has made of a sequence of codes when it stops. -/
structure LzwText where
  bytes : List Byte
  dict : List (Nat × Byte)
  overflow : Bool
  stop : LzwStop
deriving DecidableEq, Repr

/-- The string of a code that is at most the next code to assign, `old` being the code before it (R316). -/
def nextString (dict : List (Nat × Byte)) (old c : Nat) : List Byte :=
  if c = 256 + dict.length then codeString dict old ++ (codeString dict old).take 1 else codeString dict c

/-- The classic LZW decoder over a plain-list dictionary of at most 16127 entries (R300, R316), `old` being the code
before the ones given. -/
def dictDecodeFrom (dict : List (Nat × Byte)) (old : Nat) : List Nat → LzwText
  | [] => ⟨[], dict, false, .cut⟩
  | c :: more =>
    if c = 16383 then ⟨[], dict, false, .marker⟩
    else if 256 + dict.length < c then ⟨[], dict, false, .badCode⟩
    else if dict.length < 16127 then
      let r := dictDecodeFrom (dict ++ [(old, (nextString dict old c).headD 0)]) c more
      ⟨nextString dict old c ++ r.bytes, r.dict, r.overflow, r.stop⟩
    else
      let r := dictDecodeFrom dict c more
      ⟨nextString dict old c ++ r.bytes, r.dict, true, r.stop⟩

/-- The classic LZW decoder (R300, R316). -/
def dictDecode : List Nat → LzwText
  | [] => ⟨[], [], false, .cut⟩
  | c :: more =>
    if c = 16383 then ⟨[], [], false, .marker⟩
    else if 255 < c then ⟨[], [], false, .badFirst⟩
    else
      let r := dictDecodeFrom [] c more
      ⟨BitVec.ofNat 8 c :: r.bytes, r.dict, r.overflow, r.stop⟩

/-- The byte string of a block after BWT_FWD with the machine's other effects (R183). -/
def bwtDone (block : List Byte) (s : State) : State :=
  { storeSuffixArray block s with res0 := BitVec.ofNat 32 (sentinelIndex (suffixArray block)) }

/-- Suffix i comes before suffix j of a symbol sequence (R171): at the first position where they differ, the symbol of
suffix i is the smaller. -/
def SuffixBefore (x : List Nat) (i j : Nat) : Prop :=
  ∃ k a b, x[i + k]? = some a ∧ x[j + k]? = some b ∧ a < b ∧ ∀ m < k, x[i + m]? = x[j + m]?

/-- The byte values a block uses (R210), in rising order. -/
def usedBytes (block : List Byte) : List Byte :=
  ((List.range 256).map (BitVec.ofNat 8)).filter fun v => decide (v ∈ block)

/-! ## Invariants -/

/-- Every memory and table is in its canonical form. -/
def MemoriesCanonical (s : State) : Prop :=
  Memory.wf s.ibuf = true ∧ Memory.wf s.obuf = true ∧ Ram.wf s.samem = true ∧ Ram.wf s.ahuf.arena = true
    ∧ rising s.ahuf.leaf = true ∧ rising s.lzw.slots = true ∧ ∀ c ∈ s.lzw.slots, c.2 ≠ emptySlot

/-- STATUS.BUSY is 0, STATUS.ERR holds a fatal code or 0, STATUS.STAGE at most 3, an error or a warning comes with DONE,
ERRINFO is a sub-cause, and FAULTLOG has no bit but 1, 2, 4, 5, 6 (R22, R27, R28, R370). -/
def ReportsLegal (s : State) : Prop :=
  s.status.busy = false ∧ s.status.err.toNat ∈ [0, 1, 4, 5, 6] ∧ s.status.stage.toNat ≤ 3
    ∧ (s.status.err ≠ 0 → s.status.done = true) ∧ (s.status.warn = true → s.status.done = true)
    ∧ s.errinfo.toNat ≤ 14 ∧ s.faultlog &&& 0xFFFFFF89#32 = 0

/-- The buffers stay inside BUF_CAP, and OBUF[0..OLEN) and SAMEM[0..SALEN) are defined (R34, R35, R37). -/
def BuffersFilled (s : State) : Prop :=
  s.params.wf = true ∧ s.olen.toNat ≤ s.params.bufCap ∧ s.salen.toNat ≤ s.params.bufCap + 1
    ∧ (∀ c ∈ s.ibuf.cells, c.1 < s.params.bufCap) ∧ (∀ c ∈ s.obuf.cells, c.1 < s.params.bufCap)
    ∧ (∀ c ∈ s.samem.cells, c.1 < s.params.bufCap + 1)
    ∧ (∀ i < s.olen.toNat, (getCell s.obuf.cells i).isSome = true)
    ∧ ∀ r < s.salen.toNat, (getCell s.samem.cells r).isSome = true

/-- 256 <= LZW_NEXT <= 16383, the slots have rising indices below 18041, and no more slots are listed than codes have
been assigned since the tables were emptied (R32, R41, R300). -/
def LzwLegal (u : Lzw) : Prop :=
  256 ≤ u.next.toNat ∧ u.next.toNat ≤ 16383 ∧ rising u.slots = true
    ∧ (∀ c ∈ u.slots, c.1 < Config.lzwTableSize) ∧ u.slots.length + 256 ≤ u.next.toNat

/-- Record `i` of the arena. -/
def record (u : Ahuf) (i : Nat) : AhufNode := ahufNode u (BitVec.ofNat 10 i)

/-- The invariants of the adaptive tree between updates: R31, R38, R39, R40 (a) to (g), the lemma of R259, and the place
of the NYT leaf's parent, which rules out trees that no run reaches (log entry 14). -/
structure AhufInv (u : Ahuf) : Prop where
  /-- R31: always odd, 3 <= AHUF_NALLOC <= 515. -/
  count : u.nalloc.toNat % 2 = 1 ∧ 3 ≤ u.nalloc.toNat ∧ u.nalloc.toNat ≤ 515
  /-- R38: exactly the records 0 .. AHUF_NALLOC-1 are allocated. -/
  allocated : u.arena.cells.map Prod.fst = List.range u.nalloc.toNat
  /-- R39: the table is in its canonical form and has entries for symbols 0 .. 257 only. -/
  leafKeys : rising u.leaf = true ∧ ∀ c ∈ u.leaf, c.1 ≤ 257
  /-- R38: a full binary tree, so AHUF_NALLOC is twice the number of leaves less one. -/
  full : 2 * u.leaf.length = u.nalloc.toNat + 1 ∧ ∀ c ∈ u.leaf, c.2 ≠ noIndex
  /-- R40 (a). -/
  root : (record u 0).parent = noIndex ∧ (record u 0).order = 516
  /-- R40 (b). -/
  child : ∀ i < u.nalloc.toNat, i ≠ 0 →
    (record u i).parent.toNat < u.nalloc.toNat
      ∧ ((ahufNode u (record u i).parent).left.toNat = i ∨ (ahufNode u (record u i).parent).right.toNat = i)
  /-- R38, R40 (c), (d): an internal record has two allocated children whose parent it is. -/
  internal : ∀ p < u.nalloc.toNat, (record u p).left ≠ noIndex →
    (record u p).left.toNat < u.nalloc.toNat ∧ (record u p).right.toNat < u.nalloc.toNat
      ∧ (ahufNode u (record u p).left).parent.toNat = p ∧ (ahufNode u (record u p).right).parent.toNat = p
      ∧ (record u p).sym = noSym
      ∧ (record u p).weight.toNat
          = (ahufNode u (record u p).left).weight.toNat + (ahufNode u (record u p).right).weight.toNat
      ∧ (ahufNode u (record u p).left).order.toNat + 1 = (ahufNode u (record u p).right).order.toNat
      ∧ (ahufNode u (record u p).right).order.toNat < (record u p).order.toNat
  /-- R38, R39: a leaf has no child and a symbol whose AHUF_LEAF entry is the record. -/
  leaf : ∀ i < u.nalloc.toNat, (record u i).left = noIndex →
    (record u i).right = noIndex ∧ (record u i).sym.toNat ≤ 257
      ∧ (ahufLeaf u (record u i).sym.toNat).toNat = i
  /-- R39: an AHUF_LEAF entry that is not NONE names an allocated leaf with that symbol. -/
  inverse : ∀ sym < 258, ahufLeaf u sym ≠ noIndex →
    (ahufLeaf u sym).toNat < u.nalloc.toNat ∧ (ahufNode u (ahufLeaf u sym)).left = noIndex
      ∧ (ahufNode u (ahufLeaf u sym)).sym.toNat = sym
  /-- R40 (e): the ORDER values are distinct and lie in 516 - AHUF_NALLOC + 1 .. 516. -/
  orders : ∀ i < u.nalloc.toNat,
    (record u i).order.toNat ≤ 516 ∧ 516 < (record u i).order.toNat + u.nalloc.toNat
      ∧ ∀ j < u.nalloc.toNat, (record u i).order = (record u j).order → i = j
  /-- R40 (f), the sibling property. -/
  sibling : ∀ i < u.nalloc.toNat, ∀ j < u.nalloc.toNat,
    (record u i).order.toNat < (record u j).order.toNat →
      (record u i).weight.toNat ≤ (record u j).weight.toNat
  /-- R40 (g): the NYT leaf weighs 0 and has the lowest ORDER. -/
  nyt : ahufLeaf u 257 ≠ noIndex ∧ (ahufNode u (ahufLeaf u 257)).weight = 0
    ∧ (ahufNode u (ahufLeaf u 257)).order.toNat + u.nalloc.toNat = 517
  /-- R40 (g): there is an EOF leaf. -/
  eof : ahufLeaf u 256 ≠ noIndex
  /-- R259: the NYT leaf is the only allocated record of weight 0. -/
  positive : ∀ i < u.nalloc.toNat, (record u i).weight = 0 → (record u i).sym = 257
  /-- The parent of the NYT leaf stands just above the two children: R251 makes it so, R255 again at each split, and no
  swap of R256 moves it. No rule states it and R259 does not ask for it (DEDUCED, log entry 14). -/
  nytParent :
    (ahufNode u (ahufNode u (ahufLeaf u 257)).parent).order.toNat
      = (ahufNode u (ahufLeaf u 257)).order.toNat + 2

end Sys2Proof.Safety
end

