-- ==== Sys2Proof/Certificates/Slice0/Obligations.lean ====
section
/-! DEFINITION. The statements for the provers, from the numbered rules of spec/. The model's own fields that some
statements name (`hostQueue`, the numbers of the free draws inside `Ram` and `Ahuf`, `bwtDraw`) are those of log
entries 2 to 5; no statement rests on the value of a free draw. -/

open Sys2Proof Sys2Proof.Machine Sys2Proof.Safety

/-! ## Encoding and issue -/

/-- R100, R101: words written out from the opcode map decode to their commands, and every command's word decodes to
it. -/
def Obligations.OpcodeWordsDecode : Prop :=
  decode 0x00000001#32 = .ok .softReset ∧ decode 0x00000012#32 = .ok .crcBuf
    ∧ decode 0x00000020#32 = .ok .saBuild ∧ decode 0x00000031#32 = .ok .bwtInv
    ∧ decode 0x00000040#32 = .ok .mtfEnc ∧ decode 0x00000051#32 = .ok .shufDec
    ∧ decode 0x00000063#32 = .ok .ahufUpdate ∧ decode 0x00000074#32 = .ok .lzwInsert
    ∧ decode 0x00000080#32 = .ok .pBwtLzwC ∧ decode 0x00000091#32 = .ok .pBwtMtfShufD
    ∧ decode 0x000000A1#32 = .ok .pBwtMtfAhufD
    ∧ ∀ i : Instr, decode (encode i) = .ok i

/-- R100, R101: a word that decodes to a command is that command's encoding, so exactly 28 words decode and no bit of a
word is dropped. -/
def Obligations.DecodedWordIsItsEncoding : Prop :=
  ∀ (w : Word) (i : Instr), decode w = .ok i → w = encode i

/-- R104: a host write to CMD of a word that encodes no command is rejected with UnsupportedOperation(1): STATUS,
ERRINFO and FAULTLOG change and nothing else (but the access is used up). The decoder checks RSV first, then OPC. -/
def Obligations.IllegalWordRejected : Prop :=
  (∀ w : Word, cmdRsv w ≠ 0 → decode w = .error .reservedBits)
    ∧ (∀ w : Word, cmdRsv w = 0 → (∀ i : Instr, w ≠ encode i) → decode w = .error .unknownOpcode)
    ∧ ∀ (s : State) (w : Word) (q : List HostAction),
        s.hostQueue = .writeReg 0x00 w :: q → (∀ i : Instr, w ≠ encode i) →
          step s = .next (failed badCommand 0 { s with hostQueue := q })

/-- R360: when the host's next access writes to CMD a word that decodes to a command, the step is that command, at the
state in which the access is used up. The queue of accesses is the model's own (log entry 4). -/
def Obligations.StepRunsDecodedCommand : Prop :=
  ∀ (s : State) (w : Word) (q : List HostAction) (i : Instr),
    s.hostQueue = .writeReg 0x00 w :: q → decode w = .ok i → step s = exec i { s with hostQueue := q }

/-! ## Host accesses and reset -/

/-- R20, R22, R76, R77, U6: a host read changes nothing, and returns the register at its offset: CMD reads 0, STATUS its
fields in their places with bits 31:11 zero, the others their value, an offset with no register 0. A host write of
ARG0 or ILEN stores the value; a write of any other register but CMD, or at an offset with no register, changes
nothing. With no access left nothing changes (log entry 4). -/
def Obligations.HostRegisterAccess : Prop :=
  (∀ (s : State) (q : List HostAction) (v : Word),
    (∀ offset, s.hostQueue = .readReg offset :: q → step s = .next { s with hostQueue := q })
      ∧ (∀ w i, i < Window.size s.params w → s.hostQueue = .readWindow w i :: q →
          step s = .next { s with hostQueue := q })
      ∧ (s.hostQueue = .writeReg 0x08 v :: q → step s = .next { s with arg0 := v, hostQueue := q })
      ∧ (s.hostQueue = .writeReg 0x14 v :: q → step s = .next { s with ilen := v, hostQueue := q })
      ∧ (∀ offset, offset ∉ [0x00, 0x08, 0x14] →
          s.hostQueue = .writeReg offset v :: q → step s = .next { s with hostQueue := q })
      ∧ (s.hostQueue = [] → step s = .next s))
    ∧ ∀ s : State,
      (hostReadReg s 0x00 = 0 ∧ hostReadReg s 0x08 = s.arg0 ∧ hostReadReg s 0x0C = s.res0
        ∧ hostReadReg s 0x10 = s.res1 ∧ hostReadReg s 0x14 = s.ilen ∧ hostReadReg s 0x18 = s.olen
        ∧ hostReadReg s 0x1C = s.errinfo ∧ hostReadReg s 0x20 = s.faultlog ∧ hostReadReg s 0x24 = s.crcacc
        ∧ hostReadReg s 0x28 = s.salen ∧ hostReadReg s 0x2C = s.ahuf.nalloc ∧ hostReadReg s 0x30 = s.lzw.next)
      ∧ ((hostReadReg s 0x04).getLsbD 0 = s.status.busy ∧ (hostReadReg s 0x04).getLsbD 1 = s.status.done
        ∧ (hostReadReg s 0x04).getLsbD 2 = s.status.warn ∧ (hostReadReg s 0x04).getLsbD 3 = s.status.dovf
        ∧ (hostReadReg s 0x04).extractLsb' 4 4 = s.status.err
        ∧ (hostReadReg s 0x04).extractLsb' 8 3 = s.status.stage
        ∧ (hostReadReg s 0x04).extractLsb' 11 21 = 0)
      ∧ ∀ offset, (offset % 4 ≠ 0 ∨ 0x30 < offset) → hostReadReg s offset = 0

/-- R70, R105: loading a byte string makes it the input, one byte write sets that byte, and every other IBUF byte reads
as before; nothing else changes. That a write takes bits 7:0 of a value above 255 is the model's choice (log entry
13). -/
def Obligations.HostWritesInputBuffer : Prop :=
  (∀ (s : State) (bytes : List Byte) (q : List HostAction),
      s.params.wf = true → bytes.length ≤ s.params.bufCap → s.hostQueue = .load bytes :: q →
        ∃ t, step s = .next t ∧ t.input = bytes
          ∧ (∀ a, bytes.length ≤ a → readIbuf t a = readIbuf s a)
          ∧ t = { s with ibuf := t.ibuf, ilen := t.ilen, hostQueue := q })
    ∧ ∀ (s : State) (i : Nat) (v : Word) (q : List HostAction),
        i < s.params.bufCap → s.hostQueue = .writeWindow .ibuf i v :: q →
          ∃ t, step s = .next t ∧ readIbuf t i = v.setWidth 8
            ∧ (∀ a, a ≠ i → readIbuf t a = readIbuf s a)
            ∧ t = { s with ibuf := t.ibuf, hostQueue := q }

/-- The model's choice (log entry 9): an access to an entry that a buffer or window of R34 to R41 does not have, or a load
longer than BUF_CAP, faults. U4: a write to a read-only window that exists changes nothing. -/
def Obligations.HostAccessBounds : Prop :=
  ∀ (s : State) (w : Window) (i : Nat) (v : Word) (bytes : List Byte) (q : List HostAction),
    (s.hostQueue = .writeWindow w i v :: q → Window.size s.params w ≤ i → step s = .fault (.noSuchEntry w i))
      ∧ (s.hostQueue = .readWindow w i :: q → Window.size s.params w ≤ i → step s = .fault (.noSuchEntry w i))
      ∧ (s.hostQueue = .load bytes :: q → s.params.bufCap < bytes.length →
          step s = .fault (.noSuchEntry .ibuf bytes.length))
      ∧ (s.hostQueue = .writeWindow w i v :: q → i < Window.size s.params w → w ≠ .ibuf →
          step s = .next { s with hostQueue := q })

/-- R43, R401: what hardware reset leaves, for the initial state and for the reset input: every register at its
stated value, the initial tree, empty LZW tables, and nothing listed in IBUF, OBUF and SAMEM. -/
def Obligations.HardwareResetState : Prop :=
  let atReset (t : State) : Prop :=
    statusWord t.status = 0 ∧ t.arg0 = 0 ∧ t.res0 = 0 ∧ t.res1 = 0 ∧ t.ilen = 0 ∧ t.olen = 0 ∧ t.errinfo = 0
      ∧ t.faultlog = 0 ∧ t.crcacc = t.params.crcInit ∧ t.salen = 0 ∧ t.ahuf.nalloc = 3
      ∧ t.ahuf.arena.cells = initialArena ∧ t.ahuf.leaf = initialLeaf ∧ t.lzw.next = 256
      ∧ (∀ i, lzwSlot t.lzw i = emptySlot)
      ∧ t.ibuf.cells = [] ∧ t.obuf.cells = [] ∧ t.samem.cells = []
  atReset State.reset
    ∧ ∀ (s : State) (q : List HostAction), s.hostQueue = .hardwareReset :: q →
        ∃ t, step s = .next t ∧ atReset t ∧ t.params = s.params ∧ t.hostQueue = q

/-! ## System commands -/

/-- R362: SOFT_RESET, from every state. -/
def Obligations.SoftResetEffect : Prop :=
  ∀ s : State, ∃ t, exec .softReset s = .next t
    ∧ statusWord t.status = 0 ∧ t.arg0 = 0 ∧ t.res0 = 0 ∧ t.res1 = 0 ∧ t.ilen = 0 ∧ t.olen = 0
    ∧ t.errinfo = 0 ∧ t.faultlog = 0 ∧ t.crcacc = s.params.crcInit ∧ t.salen = 0 ∧ t.ahuf.nalloc = 3
    ∧ t.ahuf.arena.cells = initialArena ∧ t.ahuf.leaf = initialLeaf
    ∧ t.lzw.next = 256 ∧ (∀ i, lzwSlot t.lzw i = emptySlot)
    ∧ t.ibuf = s.ibuf ∧ t.obuf = s.obuf ∧ t.samem = s.samem ∧ t.params = s.params
    ∧ t.hostQueue = s.hostQueue

/-- R363: XFER, from every state: IBUF[0..OLEN) takes the output, ILEN takes OLEN, IBUF bytes from OLEN on read as
before, and nothing else changes but STATUS and ERRINFO. -/
def Obligations.XferCopiesOutput : Prop :=
  ∀ s : State, ∃ t, exec .xfer s = .next t
    ∧ t = succeeded { s with ibuf := t.ibuf, ilen := s.olen }
    ∧ (∀ i < s.olen.toNat, readIbuf t i = readObuf s i)
    ∧ (∀ a, s.olen.toNat ≤ a → readIbuf t a = readIbuf s a)

/-! ## CRC-32 -/

/-- R154, R157: CRC_RESET and CRC_READ, from every state, and all they change. -/
def Obligations.CrcResetAndRead : Prop :=
  ∀ s : State,
    exec .crcReset s = .next (succeeded { s with crcacc := s.params.crcInit })
      ∧ exec .crcRead s = .next (succeeded { s with res0 := s.crcacc ^^^ s.params.crcXorOut })

/-- R155: CRC_BYTE, from every state: with ARG0[31:8] = 0 the byte is fed, else UnsupportedOperation(2). -/
def Obligations.CrcByteFeedsArgument : Prop :=
  ∀ s : State,
    (s.arg0.toNat < 256 →
        exec .crcByte s
          = .next (succeeded { s with crcacc := crcStep s.params s.crcacc (s.arg0.setWidth 8) }))
      ∧ (256 ≤ s.arg0.toNat → exec .crcByte s = .next (failed badOperand 0 s))

/-- R156: CRC_BUF, from every state: the input bytes are fed in order, or CapacityExceeded(1). -/
def Obligations.CrcBufFeedsInput : Prop :=
  ∀ s : State,
    (InputFits s →
        exec .crcBuf s
          = .next (succeeded { s with crcacc := s.input.foldl (crcStep s.params) s.crcacc }))
      ∧ (s.params.bufCap < s.ilen.toNat → exec .crcBuf s = .next (failed inputTooLong 0 s))

/-- R152: the table step equals eight shifts of the accumulator with the byte XORed in, for every polynomial. -/
def Obligations.CrcTableStepIsEightShifts : Prop :=
  ∀ (p : Params) (acc : Word) (b : Byte),
    crcStep p acc b = crcShifts p.crcPoly 8 (acc ^^^ b.setWidth 32)

/-- R153, R158: the check value with the default parameters, the checksum of the empty string, and that
CRC_RESET ; CRC_BUF ; CRC_READ leaves Crc32 of the input in RES0. -/
def Obligations.ChecksumOfInput : Prop :=
  crc32 {} [0x31, 0x32, 0x33, 0x34, 0x35, 0x36, 0x37, 0x38, 0x39] = 0xCBF43926#32
    ∧ (∀ p : Params, crc32 p [] = p.crcInit ^^^ p.crcXorOut)
    ∧ ∀ s : State, InputFits s →
        ∃ t u v, exec .crcReset s = .next t ∧ exec .crcBuf t = .next u ∧ exec .crcRead u = .next v
          ∧ v.res0 = crc32 s.params s.input

/-! ## Suffix array and Burrows-Wheeler transform -/

/-- R172: the suffix array is a permutation of 0 .. n in strictly rising suffix order (R171), the only such sequence, and
starts with n. -/
def Obligations.SuffixArrayIsTheSortedPermutation : Prop :=
  ∀ block : List Byte,
    (suffixArray block).Perm (List.range (block.length + 1))
      ∧ (suffixArray block).Pairwise (SuffixBefore (symbols block))
      ∧ (suffixArray block).head? = some block.length
      ∧ ∀ l : List Nat, l.Perm (List.range (block.length + 1)) →
          l.Pairwise (SuffixBefore (symbols block)) → l = suffixArray block

/-- R173: SA_BUILD, from every state with legal parameters: SAMEM[0..n] holds the suffix array of the input, SALEN is
n + 1, and nothing else changes but STATUS and ERRINFO; or CapacityExceeded(1). -/
def Obligations.SaBuildStoresSuffixArray : Prop :=
  ∀ s : State, s.params.wf = true →
    (InputFits s →
        ∃ t, exec .saBuild s = .next t
          ∧ t = succeeded { s with samem := t.samem, salen := BitVec.ofNat 32 (s.ilen.toNat + 1) }
          ∧ ∀ r ≤ s.ilen.toNat, (readSamem t r).toNat = (suffixArray s.input).getD r 0)
      ∧ (s.params.bufCap < s.ilen.toNat → exec .saBuild s = .next (failed inputTooLong 0 s))

/-- R182: exactly one row of the suffix array is 0; sentinelIndex is that row; it is 0 for the empty block and in 1 .. n
otherwise. -/
def Obligations.SentinelIndexRange : Prop :=
  ∀ block : List Byte,
    (suffixArray block).count 0 = 1
      ∧ (suffixArray block)[sentinelIndex (suffixArray block)]? = some 0
      ∧ (block = [] → suffixArray block = [0] ∧ sentinelIndex (suffixArray block) = 0)
      ∧ (block ≠ [] →
          1 ≤ sentinelIndex (suffixArray block) ∧ sentinelIndex (suffixArray block) ≤ block.length)

/-- R183: BWT_FWD, from every state: the serialized transform in OBUF, sentinelIndex in RES0, the suffix array in SAMEM;
or CapacityExceeded(1) or (2) with OLEN 0. -/
def Obligations.BwtFwdOutput : Prop :=
  ∀ s : State,
    (s.ilen.toNat + 4 ≤ s.params.bufCap →
        exec .bwtFwd s = .next (succeeded (commitOutput (bwt s.input) (bwtDone s.input s))))
      ∧ (InputFits s → s.params.bufCap < s.ilen.toNat + 4 →
          exec .bwtFwd s = .next (failed outputTooLong 0 (discardOutput s)))
      ∧ (s.params.bufCap < s.ilen.toNat →
          exec .bwtFwd s = .next (failed inputTooLong 0 (discardOutput s)))

/-- R185, R186: BWT_INV on the serialized transform of any block answers the block, and changes nothing but OBUF, OLEN,
STATUS and ERRINFO; so BWT_INV applied to the output of BWT_FWD gives the input back. -/
def Obligations.BwtInvUndoesBwtFwd : Prop :=
  (∀ (s : State) (block : List Byte),
      s.params.wf = true → InputFits s → s.input = bwt block →
        exec .bwtInv s = .next (succeeded (commitOutput block s)))
    ∧ ∀ s : State, s.params.wf = true → s.ilen.toNat + 4 ≤ s.params.bufCap →
        ∃ t, chain [.bwtFwd, .bwtInv] s = some t ∧ t.status = doneStatus ∧ t.output = s.input

/-- R185: BWT_INV without a trailer raises MalformedContainer(13); with n = ILEN - 4 and si the trailer's number, it raises
MalformedContainer(14) when n = 0 and si is not 0, and when n > 0 and si < 1 or si > n; OLEN is 0. -/
def Obligations.BwtInvRejectsBadTrailer : Prop :=
  ∀ s : State, InputFits s →
    (s.ilen.toNat < 4 → exec .bwtInv s = .next (failed (malformed 13) 0 (discardOutput s)))
      ∧ (s.ilen.toNat = 4 → unle s.input ≠ 0 →
          exec .bwtInv s = .next (failed (malformed 14) 0 (discardOutput s)))
      ∧ (4 < s.ilen.toNat →
          (unle (s.input.drop (s.ilen.toNat - 4)) < 1
            ∨ s.ilen.toNat - 4 < unle (s.input.drop (s.ilen.toNat - 4))) →
          exec .bwtInv s = .next (failed (malformed 14) 0 (discardOutput s)))

/-- R187: BWT_INV on any input that passes its checks succeeds with OLEN = n, image or not; the bytes are not stated
here, and the model's own number of free draws may change (log entry 3). -/
def Obligations.BwtInvCompletesOnPossibleTrailer : Prop :=
  ∀ s : State, s.params.wf = true → InputFits s → 4 ≤ s.ilen.toNat →
    sentinelPossible (s.ilen.toNat - 4) (unle (s.input.drop (s.ilen.toNat - 4))) = true →
      ∃ t, exec .bwtInv s = .next t ∧ t.olen.toNat = s.ilen.toNat - 4
        ∧ t = succeeded { s with obuf := t.obuf, olen := t.olen, bwtDraw := t.bwtDraw }

/-! ## Move to front -/

/-- R201: MTF_ENC, from every state. -/
def Obligations.MtfEncOutput : Prop :=
  ∀ s : State,
    (InputFits s → exec .mtfEnc s = .next (succeeded (commitOutput (mtfEncode s.input) s)))
      ∧ (s.params.bufCap < s.ilen.toNat →
          exec .mtfEnc s = .next (failed inputTooLong 0 (discardOutput s)))

/-- R202: MTF_DEC, from every state: no input is malformed. -/
def Obligations.MtfDecOutput : Prop :=
  ∀ s : State,
    (InputFits s → exec .mtfDec s = .next (succeeded (commitOutput (mtfDecode s.input) s)))
      ∧ (s.params.bufCap < s.ilen.toNat →
          exec .mtfDec s = .next (failed inputTooLong 0 (discardOutput s)))

/-- R203: MTF_DEC after MTF_ENC, and MTF_ENC after MTF_DEC, is the identity on every input of length at most BUF_CAP, and
the output is as long as the input. -/
def Obligations.MtfRoundTrips : Prop :=
  ∀ s : State, s.params.wf = true → InputFits s →
    (∃ t, chain [.mtfEnc, .mtfDec] s = some t ∧ t.status = doneStatus ∧ t.output = s.input)
      ∧ (∃ t, chain [.mtfDec, .mtfEnc] s = some t ∧ t.status = doneStatus ∧ t.output = s.input)
      ∧ (∃ t, exec .mtfEnc s = .next t ∧ t.olen = s.ilen)
      ∧ ∃ t, exec .mtfDec s = .next t ∧ t.olen = s.ilen

/-! ## Bit I/O -/

/-- R138 (a), (b): the bits a writer is given, then FlushBits, come out as ceil(k / 8) bytes packed most significant bit
first with zero padding, and with DropBits as floor(k / 8) bytes; a reader over the flushed bytes returns the
same bits, then the padding, then EndOfStream. -/
def Obligations.BitsWrittenAreBitsRead : Prop :=
  (∀ (bits : List Bool) (s : State), (bits.length + 7) / 8 ≤ s.params.bufCap →
      (∃ w, (putBitList bits >>= fun _ => flushBits) (Work.start 0 s) = .ok () w
          ∧ w.out.reverse = packBits bits ∧ w.olen = (bits.length + 7) / 8 ∧ w.wcnt = 0 ∧ w.mach = s)
        ∧ ∃ w, (putBitList bits >>= fun _ => dropBits) (Work.start 0 s) = .ok () w
          ∧ w.out.reverse = packWhole bits ∧ w.olen = bits.length / 8 ∧ w.wcnt = 0 ∧ w.mach = s)
    ∧ (∀ bits : List Bool,
        bitsOf (packBits bits) = bits ++ List.replicate ((8 - bits.length % 8) % 8) false)
    ∧ ∀ (bytes : List Byte) (s : State) (e : FatalError) (k : Nat), k ≤ 8 * bytes.length →
        ∃ w, (openBits bytes 0 >>= fun _ => getBits e k) (Work.start 0 s)
            = .ok (((bitsOf bytes).take k).foldl (fun v b => 2 * v + b.toNat) 0) w
          ∧ w.rpos = (k + 7) / 8 ∧ w.mach = s
          ∧ (k = 8 * bytes.length → getBit e w = .error e w)

/-! ## Static Huffman -/

/-- R210, R211: the tree of a non-empty block is what merging gives, always the two nodes that come first by frequency
and then by key, the first removed as left child, from one leaf for each used byte value with the number of its
occurrences; it has exactly the used byte values as its leaves, each once. -/
def Obligations.HuffTreeMergesLeastFrequent : Prop :=
  ∀ block : List Byte, block ≠ [] →
    ∃ t, huffTree block = some t ∧ (huffLeaves t).Perm (usedBytes block)
      ∧ MergesTo ((usedBytes block).map fun v => { freq := block.count v, key := v.toNat, tree := .leaf v }) t

/-- R212, R213: with two leaves or more no code is a prefix of another leaf's code, and every code has at least one bit;
a single leaf has the code 0. From R211: a byte value that occurs less often than another has a code at least as
long. -/
def Obligations.HuffCodesArePrefixFree : Prop :=
  ∀ (block : List Byte) (t : HuffTree), huffTree block = some t →
    (∀ v ∈ usedBytes block, 1 ≤ (huffCode t v).length)
      ∧ (∀ v ∈ usedBytes block, ∀ w ∈ usedBytes block, v ≠ w → ¬ huffCode t v <+: huffCode t w)
      ∧ (∀ v, usedBytes block = [v] → huffCode t v = [false])
      ∧ ∀ v ∈ usedBytes block, ∀ w ∈ usedBytes block, block.count v < block.count w →
          (huffCode t w).length ≤ (huffCode t v).length

/-- R215, R216: SHUF_ENC, from every state: the container of the input, or CapacityExceeded with OLEN 0. -/
def Obligations.ShufEncWritesContainer : Prop :=
  ∀ s : State,
    (InputFits s → (shufContainer s.input).length ≤ s.params.bufCap →
        exec .shufEnc s = .next (succeeded (commitOutput (shufContainer s.input) s)))
      ∧ (InputFits s → s.params.bufCap < (shufContainer s.input).length →
          exec .shufEnc s = .next (failed outputTooLong 0 (discardOutput s)))
      ∧ (s.params.bufCap < s.ilen.toNat →
          exec .shufEnc s = .next (failed inputTooLong 0 (discardOutput s)))

/-- R218, R219: SHUF_DEC on the container of any block answers the block; so SHUF_DEC applied to the output of SHUF_ENC
gives the input back. R217, R218: SHUF_DEC on any other input that fits and is not empty: with no complete shape at its
start MalformedContainer(4), or (5) when it has more than 255 bits 0; with the shape of a tree `t` at its start,
MalformedContainer(5) for more than 256 leaves, (6) when leaf values or the length field are missing, (7) for a value
that stands on two leaves, (8) when the payload is not ceil(P / 8) bytes; then, `t` having the leaf values of the input
and the P payload bits being the codes of a block and a remainder `r`: the block if `r` is empty,
MalformedContainer(9) if `r` is the beginning of a code, TreeCorruption(3) if a single-leaf tree meets a 1 bit,
CapacityExceeded(2) if the block exceeds BUF_CAP. -/
def Obligations.ShufDecReadsContainer : Prop :=
  (∀ (s : State) (block : List Byte),
      s.params.wf = true → InputFits s → block.length ≤ s.params.bufCap → s.input = shufContainer block →
        exec .shufDec s = .next (succeeded (commitOutput block s)))
    ∧ (∀ s : State, s.params.wf = true → InputFits s → (shufContainer s.input).length ≤ s.params.bufCap →
        ∃ t, chain [.shufEnc, .shufDec] s = some t ∧ t.status = doneStatus ∧ t.output = s.input)
    ∧ ∀ s : State, InputFits s → s.input ≠ [] →
        let rejected (e : FatalError) : Prop := exec .shufDec s = .next (failed e 0 (discardOutput s))
        ((∀ t : HuffTree, ¬ huffShape t <+: bitsOf s.input) →
            ((bitsOf s.input).count false ≤ 255 → rejected (malformed 4))
              ∧ (255 < (bitsOf s.input).count false → rejected (malformed 5)))
          ∧ ∀ t : HuffTree, huffShape t <+: bitsOf s.input →
            let leaves := (huffLeaves t).length
            let pos := ((huffShape t).length + 7) / 8
            let body := pos + leaves + 4
            let values := (s.input.drop pos).take leaves
            let p := unle ((s.input.drop (pos + leaves)).take 4)
            (256 < leaves → rejected (malformed 5))
              ∧ (leaves ≤ 256 → s.input.length < body → rejected (malformed 6))
              ∧ (leaves ≤ 256 → body ≤ s.input.length → ¬ values.Nodup → rejected (malformed 7))
              ∧ (leaves ≤ 256 → body ≤ s.input.length → values.Nodup →
                  s.input.length - body ≠ (p + 7) / 8 → rejected (malformed 8))
              ∧ (body ≤ s.input.length → values.Nodup → s.input.length - body = (p + 7) / 8 →
                  huffLeaves t = values →
                  ∀ block r, (∀ b ∈ block, b ∈ values) →
                    (bitsOf (s.input.drop body)).take p = block.flatMap (huffCode t) ++ r →
                      (block.length ≤ s.params.bufCap → r = [] →
                          exec .shufDec s = .next (succeeded (commitOutput block s)))
                        ∧ (block.length ≤ s.params.bufCap → 2 ≤ leaves → r ≠ [] →
                          (∃ v ∈ values, r <+: huffCode t v ∧ r ≠ huffCode t v) → rejected (malformed 9))
                        ∧ (block.length ≤ s.params.bufCap → leaves = 1 → r.head? = some true →
                          rejected (corrupt 3))
                        ∧ (s.params.bufCap < block.length → rejected outputTooLong))

/-! ## Adaptive Huffman -/

/-- R257, R302: AHUF_INIT and LZW_INIT, from every state, and all they change. -/
def Obligations.InitCommands : Prop :=
  ∀ s : State,
    (∃ t, exec .ahufInit s = .next t ∧ t = succeeded { s with ahuf := t.ahuf } ∧ t.ahuf.nalloc = 3
        ∧ t.ahuf.arena.cells = initialArena ∧ t.ahuf.leaf = initialLeaf)
      ∧ ∃ t, exec .lzwInit s = .next t ∧ t = succeeded { s with lzw := t.lzw } ∧ t.lzw.next = 256
        ∧ ∀ i, lzwSlot t.lzw i = emptySlot

/-- R258: AHUF_UPDATE, from every state: with ARG0[31:8] = 0 one update of the tree, else UnsupportedOperation(2). -/
def Obligations.AhufUpdateCommand : Prop :=
  ∀ s : State,
    (s.arg0.toNat < 256 →
        exec .ahufUpdate s
          = .next (succeeded { s with ahuf := ahufUpdateTree s.ahuf (s.arg0.setWidth 8) }))
      ∧ (256 ≤ s.arg0.toNat → exec .ahufUpdate s = .next (failed badOperand 0 s))

/-- R259: the initial tree has the invariants of R40, and one update keeps them while the root's weight has room; the
root's weight grows by one; an unseen byte allocates two records and a seen one none (R255, R256). AhufInv asks for
one property more than R40, which rules out trees that no run reaches and whose update would break R40 (f): the
parent of the NYT leaf has the ORDER of that leaf + 2 (DEDUCED, log entry 14). -/
def Obligations.AhufUpdateKeepsSiblingProperty : Prop :=
  (∀ u : Ahuf, AhufInv (initTree u))
    ∧ ∀ (u : Ahuf) (b : Byte), AhufInv u → (record u 0).weight.toNat + 1 < 4294967296 →
        AhufInv (ahufUpdateTree u b)
          ∧ (record (ahufUpdateTree u b) 0).weight.toNat = (record u 0).weight.toNat + 1
          ∧ (ahufUpdateTree u b).nalloc.toNat
              = u.nalloc.toNat + (if ahufLeaf u b.toNat = noIndex then 2 else 0)
          ∧ ahufLeaf (ahufUpdateTree u b) b.toNat ≠ noIndex

/-- R265, R270: AHUF_ENC, from every state: the adaptive container of the input, the checksum in RES0, RES1 and CRCACC,
and the tree after one update per byte; or CapacityExceeded with OLEN 0 and RES0, RES1 as before. -/
def Obligations.AhufEncWritesContainer : Prop :=
  ∀ s : State,
    (InputFits s → (ahufContainer s.params s.ahuf s.input).length ≤ s.params.bufCap →
        exec .ahufEnc s
          = .next (succeeded (commitOutput (ahufContainer s.params s.ahuf s.input)
              (ahufCoded s.input (crc32 s.params s.input) s))))
      ∧ (InputFits s → s.params.bufCap < (ahufContainer s.params s.ahuf s.input).length →
          ∃ t, exec .ahufEnc s = .next t
            ∧ t = failed outputTooLong 0 (discardOutput { s with ahuf := t.ahuf, crcacc := t.crcacc }))
      ∧ (s.params.bufCap < s.ilen.toNat →
          exec .ahufEnc s = .next (failed inputTooLong 0 (discardOutput s)))

/-- R275, R276, R277, R376: AHUF_DEC on the container of any block, whatever unit `u` encoded it, answers the block with
the encoder's tree and checksum; with another value in the CRC field, the same with the warning
ChecksumMismatch; so AHUF_DEC applied to the output of AHUF_ENC gives the input back with no warning. R275: AHUF_DEC on
any input that fits: MalformedContainer(1) for less than 16 bytes, (2) for another magic, (3) when LENGTH is not the
input's length; else, the payload bits being those of a block and a remainder `r`: the block if `r` starts with the EOF
code, TreeCorruption(1) if `r` is the beginning of a code or of the NYT code with its raw byte, TreeCorruption(2) if `r`
starts with the NYT code and a byte that has a leaf, CapacityExceeded(2) if the block fills BUF_CAP and `r` starts with
one byte more; on these three the tree and CRCACC are those of the block. -/
def Obligations.AhufDecReadsContainer : Prop :=
  (∀ (s : State) (u : Ahuf) (block : List Byte) (crc : Word),
      s.params.wf = true → InputFits s → block.length ≤ s.params.bufCap →
        s.input = ahufContainerWith crc u block →
          (crc = crc32 s.params block →
              exec .ahufDec s = .next (succeeded (commitOutput block (ahufCoded block crc s))))
            ∧ (crc ≠ crc32 s.params block →
              exec .ahufDec s = .next (warned 0 (commitOutput block (ahufCoded block crc s)))))
    ∧ (∀ s : State, s.params.wf = true → InputFits s →
        (ahufContainer s.params s.ahuf s.input).length ≤ s.params.bufCap →
          ∃ t, chain [.ahufEnc, .ahufDec] s = some t ∧ t.status = doneStatus ∧ t.output = s.input)
    ∧ ∀ s : State, s.params.wf = true → InputFits s →
        (s.input.length < 16 → exec .ahufDec s = .next (failed (malformed 1) 0 (discardOutput s)))
          ∧ (16 ≤ s.input.length → s.input.take 4 ≠ [0x5A, 0x52, 0x41, 0x48] →
              exec .ahufDec s = .next (failed (malformed 2) 0 (discardOutput s)))
          ∧ (16 ≤ s.input.length → s.input.take 4 = [0x5A, 0x52, 0x41, 0x48] →
              unle ((s.input.drop 4).take 8) ≠ s.input.length →
              exec .ahufDec s = .next (failed (malformed 3) 0 (discardOutput s)))
          ∧ (16 ≤ s.input.length → s.input.take 4 = [0x5A, 0x52, 0x41, 0x48] →
              unle ((s.input.drop 4).take 8) = s.input.length →
              ∀ block r, block.length ≤ s.params.bufCap →
                bitsOf (s.input.drop 16) = ahufDataBits (initTree s.ahuf) block ++ r →
                  let u := ahufTreeAfter (initTree s.ahuf) block
                  let stored : Word := BitVec.ofNat 32 (unle ((s.input.drop 12).take 4))
                  let eof := ahufCode u (ahufLeaf u 256)
                  let nyt := ahufCode u (ahufLeaf u 257)
                  let stopped (e : FatalError) : Prop :=
                    exec .ahufDec s
                      = .next (failed e 0 (discardOutput
                          { s with ahuf := u, crcacc := crcSteps s.params s.params.crcInit block }))
                  (eof <+: r →
                      exec .ahufDec s
                        = .next (if stored = crc32 s.params block then
                            succeeded (commitOutput block (ahufCoded block stored s))
                          else warned 0 (commitOutput block (ahufCoded block stored s))))
                    ∧ ((∃ c : List Bool, r <+: c ∧ r ≠ c
                          ∧ (c = eof ∨ (∃ v < 256, ahufLeaf u v ≠ noIndex ∧ c = ahufCode u (ahufLeaf u v))
                            ∨ ∃ v < 256, c = nyt ++ msbBits v 8)) →
                        stopped (corrupt 1))
                    ∧ (∀ v < 256, ahufLeaf u v ≠ noIndex → nyt ++ msbBits v 8 <+: r → stopped (corrupt 2))
                    ∧ (block.length = s.params.bufCap → ∀ b : Byte, encodeByteBits u b <+: r →
                        stopped outputTooLong))

/-! ## LZW -/

/-- R304: LZW_PROBE, from every state: RES0 and RES1 as the search finds, and nothing else changes but STATUS and ERRINFO;
or UnsupportedOperation(2). In legal tables a miss reports an EMPTY slot, and with a code left LZW_INSERT of the same pair
stores the pair in that slot with the code the probe reports. -/
def Obligations.LzwProbeReports : Prop :=
  ∀ s : State,
    (s.arg0.toNat < 16383 * 256 →
        let f := lzwFind s.lzw ((s.arg0 >>> 8).setWidth 14) (s.arg0.setWidth 8)
        ∃ t, exec .lzwProbe s = .next t ∧ t = succeeded { s with res0 := t.res0, res1 := t.res1 }
          ∧ t.res0.toNat = 2147483648 * f.hit.toNat + f.slot
          ∧ t.res1.toNat = 65536 * f.probes
              + (if f.hit then ((lzwSlot s.lzw f.slot).code).getD 0 else s.lzw.next.setWidth 14).toNat
          ∧ (LzwLegal s.lzw → f.hit = false →
              (lzwSlot s.lzw f.slot).code = none
                ∧ (s.lzw.next.toNat ≤ 16382 →
                  ∃ v, exec .lzwInsert s = .next v ∧ v.res0 = t.res0 ∧ v.res1 = t.res1
                    ∧ lzwSlot v.lzw f.slot
                        = { code := some (s.lzw.next.setWidth 14), pre := (s.arg0 >>> 8).setWidth 14,
                            char := s.arg0.setWidth 8 })))
      ∧ (16383 * 256 ≤ s.arg0.toNat → exec .lzwProbe s = .next (failed badOperand 0 s))

/-- R305: LZW_INSERT, from every state: a pair found is left alone, a pair not found is stored with the next code, and
with no code left STATUS.DOVF is set; or UnsupportedOperation(2). -/
def Obligations.LzwInsertStores : Prop :=
  ∀ s : State,
    (s.arg0.toNat < 16383 * 256 →
        let pre : BitVec 14 := (s.arg0 >>> 8).setWidth 14
        let ch : Byte := s.arg0.setWidth 8
        let f := lzwFind s.lzw pre ch
        (f.hit = true →
            ∃ t, exec .lzwInsert s = .next t ∧ t = succeeded { s with res0 := t.res0, res1 := t.res1 }
              ∧ t.res0.toNat = 2147483648 + f.slot
              ∧ t.res1.toNat = 65536 * f.probes + (((lzwSlot s.lzw f.slot).code).getD 0).toNat)
          ∧ (f.hit = false → s.lzw.next.toNat ≤ 16382 →
            ∃ t, exec .lzwInsert s = .next t
              ∧ t = succeeded { s with lzw := t.lzw, res0 := t.res0, res1 := t.res1 }
              ∧ t.res0.toNat = f.slot
              ∧ t.res1.toNat = 65536 * f.probes + s.lzw.next.toNat
              ∧ t.lzw.next = s.lzw.next + 1
              ∧ lzwSlot t.lzw f.slot
                  = { code := some (s.lzw.next.setWidth 14), pre := pre, char := ch }
              ∧ ∀ i, i ≠ f.slot → lzwSlot t.lzw i = lzwSlot s.lzw i)
          ∧ (f.hit = false → 16382 < s.lzw.next.toNat →
            ∃ t, exec .lzwInsert s = .next t
              ∧ t = succeededOverflow true { s with res0 := t.res0, res1 := t.res1 }
              ∧ t.res0.toNat = f.slot
              ∧ t.res1.toNat = 65536 * f.probes + (s.lzw.next.setWidth 14 : BitVec 14).toNat))
      ∧ (16383 * 256 ≤ s.arg0.toNat → exec .lzwInsert s = .next (failed badOperand 0 s))

/-- R305, R306: after a pair that was missing has been inserted, probing it finds it: the same slot, the same number of
probes and the code it was given. -/
def Obligations.ProbeFindsInsertedPair : Prop :=
  ∀ (s t v : State),
    s.arg0.toNat < 16383 * 256 → s.lzw.next.toNat ≤ 16382 →
      (lzwFind s.lzw ((s.arg0 >>> 8).setWidth 14) (s.arg0.setWidth 8)).hit = false →
      (lzwFind s.lzw ((s.arg0 >>> 8).setWidth 14) (s.arg0.setWidth 8)).probes < 18041 →
      exec .lzwInsert s = .next t → exec .lzwProbe t = .next v →
        v.res0.toNat = t.res0.toNat + 2147483648 ∧ v.res1 = t.res1 ∧ v.lzw = t.lzw

/-- R303, R306: in tables with no more slots listed than codes assigned, a search looks at no more than 18041 - 1913 slots
and ends at an EMPTY slot, a miss, or at a slot that holds the pair, a hit. -/
def Obligations.LzwSearchTerminates : Prop :=
  ∀ (u : Lzw) (pre : BitVec 14) (ch : Byte), LzwLegal u →
    (lzwFind u pre ch).slot < 18041 ∧ (lzwFind u pre ch).probes ≤ 18041 - 1913
      ∧ ((lzwFind u pre ch).hit = false → (lzwSlot u (lzwFind u pre ch).slot).code = none)
      ∧ ((lzwFind u pre ch).hit = true →
          (lzwSlot u (lzwFind u pre ch).slot).code ≠ none
            ∧ (lzwSlot u (lzwFind u pre ch).slot).pre = pre
            ∧ (lzwSlot u (lzwFind u pre ch).slot).char = ch)

/-- R308, R310: LZW_ENC, from every state: the stream of the codes of the encoder's run over the hash table, the tables as
the run leaves them and STATUS.DOVF when it skipped an insertion; or CapacityExceeded with OLEN 0. -/
def Obligations.LzwEncWritesStream : Prop :=
  ∀ s : State,
    (InputFits s → (lzwStream (tableRun s.input).codes).length ≤ s.params.bufCap →
        exec .lzwEnc s
          = .next (succeededOverflow (tableRun s.input).overflow
              (commitOutput (lzwStream (tableRun s.input).codes) { s with lzw := (tableRun s.input).dict })))
      ∧ (InputFits s → s.params.bufCap < (lzwStream (tableRun s.input).codes).length →
          ∃ t d, exec .lzwEnc s = .next t
            ∧ t = { failed outputTooLong 0 (discardOutput { s with lzw := t.lzw }) with
                    status := { (failed outputTooLong 0 s).status with dovf := d } })
      ∧ (s.params.bufCap < s.ilen.toNat →
          exec .lzwEnc s = .next (failed inputTooLong 0 (discardOutput s)))

/-- R300, R303, R306: the run over the hash table gives the codes of the classic LZW encoder, whose dictionary is a plain
list of pairs, and ends with the same number of entries and the same overflow; every entry is found under its
code. -/
def Obligations.HashTableIsTheDictionary : Prop :=
  ∀ block : List Byte,
    (tableRun block).codes = (dictRun block).codes
      ∧ (tableRun block).overflow = (dictRun block).overflow
      ∧ (tableRun block).dict.next.toNat = 256 + (dictRun block).dict.length
      ∧ ∀ (k : Nat) (e : Nat × Byte), (dictRun block).dict[k]? = some e →
          (lzwFind (tableRun block).dict (BitVec.ofNat 14 e.1) e.2).hit = true
            ∧ (lzwSlot (tableRun block).dict (lzwFind (tableRun block).dict (BitVec.ofNat 14 e.1) e.2).slot).code
                = some (BitVec.ofNat 14 (256 + k))

/-- R316, R319, R320: LZW_DEC on the stream of any block answers the block; its entry of each code is the encoder's entry
of that code, its LZW_NEXT and STATUS.DOVF are the encoder's; so LZW_DEC applied to the output of LZW_ENC gives
the input back. -/
def Obligations.LzwDecReadsStream : Prop :=
  (∀ (s : State) (block : List Byte),
      s.params.wf = true → InputFits s → block.length ≤ s.params.bufCap →
        s.input = lzwStream (dictRun block).codes →
          ∃ t, exec .lzwDec s = .next t
            ∧ t = succeededOverflow (dictRun block).overflow (commitOutput block { s with lzw := t.lzw })
            ∧ t.lzw.next.toNat = 256 + (dictRun block).dict.length
            ∧ ∀ (k : Nat) (e : Nat × Byte), (dictRun block).dict[k]? = some e →
                lzwSlot t.lzw (256 + k) = { code := none, pre := BitVec.ofNat 14 e.1, char := e.2 })
    ∧ ∀ s : State, s.params.wf = true → InputFits s →
        (lzwStream (dictRun s.input).codes).length ≤ s.params.bufCap →
          ∃ t, chain [.lzwEnc, .lzwDec] s = some t ∧ t.output = s.input
            ∧ t.status = { doneStatus with dovf := (dictRun s.input).overflow }

/-- R316, R318: LZW_DEC on any input that fits does what a plain-list decoder makes of its whole 14-bit codes: it succeeds at
the end marker, and otherwise raises MalformedContainer(10) when the codes run out, (11) for a first code that is neither
a literal nor the end marker, (12) for a code above LZW_NEXT, and in each of these cases keeps exactly the bytes of the
codes before; or CapacityExceeded(2) with OLEN 0. On the stream of a block cut after any number of bytes, j whole codes of
14 bits being left, the output is the strings of the first j data codes, and it ends well exactly when the end
marker is among the j. -/
def Obligations.LzwDecKeepsDecodedBytes : Prop :=
  (∀ s : State, s.params.wf = true → InputFits s →
      ((dictDecode (codesOf s.input)).bytes.length ≤ s.params.bufCap →
          ∃ t, exec .lzwDec s = .next t
            ∧ t.lzw.next.toNat = 256 + (dictDecode (codesOf s.input)).dict.length
            ∧ (∀ (k : Nat) (e : Nat × Byte), (dictDecode (codesOf s.input)).dict[k]? = some e →
                lzwSlot t.lzw (256 + k) = { code := none, pre := BitVec.ofNat 14 e.1, char := e.2 })
            ∧ t =
              match (dictDecode (codesOf s.input)).stop.error with
              | none =>
                succeededOverflow (dictDecode (codesOf s.input)).overflow
                  (commitOutput (dictDecode (codesOf s.input)).bytes { s with lzw := t.lzw })
              | some e =>
                failedOverflow (dictDecode (codesOf s.input)).overflow e
                  (commitOutput (dictDecode (codesOf s.input)).bytes { s with lzw := t.lzw }))
        ∧ (s.params.bufCap < (dictDecode (codesOf s.input)).bytes.length →
          ∃ t d, exec .lzwDec s = .next t
            ∧ t = failedOverflow d outputTooLong (discardOutput { s with lzw := t.lzw })))
    ∧ ∀ (s : State) (block : List Byte) (k : Nat),
        s.params.wf = true → InputFits s → block.length ≤ s.params.bufCap →
          s.input = (lzwStream (dictRun block).codes).take k →
            ∃ t, exec .lzwDec s = .next t
              ∧ t.output
                  = ((dictRun block).codes.take (8 * s.input.length / 14)).flatMap
                      (codeString (dictRun block).dict)
              ∧ ((dictRun block).codes.length < 8 * s.input.length / 14 →
                  t.status.err = 0 ∧ t.errinfo = 0 ∧ t.faultlog = s.faultlog ∧ t.output = block)
              ∧ (8 * s.input.length / 14 ≤ (dictRun block).codes.length →
                  t.status.err = 1 ∧ t.errinfo = 10 ∧ t.faultlog = s.faultlog ||| 2)

/-! ## Pipelines -/

/-- R343, R345, R347: the three compress pipelines, from every state in which each stage's output fits BUF_CAP: the last
stage's format of the earlier stages' output, and the side effects of the stages in order. -/
def Obligations.CompressPipelines : Prop :=
  ∀ s : State, s.ilen.toNat + 4 ≤ s.params.bufCap →
    ((lzwStream (tableRun (bwt s.input)).codes).length ≤ s.params.bufCap →
        exec .pBwtLzwC s
          = .next (succeededOverflow (tableRun (bwt s.input)).overflow
              (commitOutput (lzwStream (tableRun (bwt s.input)).codes)
                { bwtDone s.input s with lzw := (tableRun (bwt s.input)).dict })))
      ∧ ((shufContainer (mtfEncode (bwt s.input))).length ≤ s.params.bufCap →
        exec .pBwtMtfShufC s
          = .next (succeeded (commitOutput (shufContainer (mtfEncode (bwt s.input))) (bwtDone s.input s))))
      ∧ ((ahufContainer s.params s.ahuf (mtfEncode (bwt s.input))).length ≤ s.params.bufCap →
        exec .pBwtMtfAhufC s
          = .next (succeeded (commitOutput (ahufContainer s.params s.ahuf (mtfEncode (bwt s.input)))
              (ahufCoded (mtfEncode (bwt s.input)) (crc32 s.params (mtfEncode (bwt s.input)))
                (bwtDone s.input s)))))

/-- R344, R350: P_BWT_LZW_D on the compressed form of any block answers the block. -/
def Obligations.BwtLzwPipelineRoundTrip : Prop :=
  ∀ (s : State) (block : List Byte),
    s.params.wf = true → InputFits s → block.length + 4 ≤ s.params.bufCap →
      s.input = lzwStream (dictRun (bwt block)).codes →
        ∃ t, exec .pBwtLzwD s = .next t
          ∧ t = succeededOverflow (dictRun (bwt block)).overflow (commitOutput block { s with lzw := t.lzw })

/-- R346, R350: P_BWT_MTF_SHUF_D on the compressed form of any block answers the block. -/
def Obligations.BwtMtfShufPipelineRoundTrip : Prop :=
  ∀ (s : State) (block : List Byte),
    s.params.wf = true → InputFits s → block.length + 4 ≤ s.params.bufCap →
      s.input = shufContainer (mtfEncode (bwt block)) →
        exec .pBwtMtfShufD s = .next (succeeded (commitOutput block s))

/-- R348, R350, R376: P_BWT_MTF_AHUF_D on the compressed form of any block, whatever unit `u` encoded it, answers the
block; with another value in the CRC field, the same with the warning ChecksumMismatch of stage 1. -/
def Obligations.BwtMtfAhufPipelineRoundTrip : Prop :=
  ∀ (s : State) (u : Ahuf) (block : List Byte) (crc : Word),
    s.params.wf = true → InputFits s → block.length + 4 ≤ s.params.bufCap →
      s.input = ahufContainerWith crc u (mtfEncode (bwt block)) →
        (crc = crc32 s.params (mtfEncode (bwt block)) →
            exec .pBwtMtfAhufD s
              = .next (succeeded (commitOutput block (ahufCoded (mtfEncode (bwt block)) crc s))))
          ∧ (crc ≠ crc32 s.params (mtfEncode (bwt block)) →
            exec .pBwtMtfAhufD s
              = .next (warned 1 (commitOutput block (ahufCoded (mtfEncode (bwt block)) crc s))))

/-- R349: a pipeline command and the chain of its primitives with XFER between leave the same results and unit state and
the same FAULTLOG, and the same output when the pipeline does not fail. Where samem, ahuf or an output of BWT_INV outside
the image hold free draws, that the two runs agree on them rests on their equal draw numbers, the model's choice (log
entries 2 and 3), and says nothing of hardware. R341, R342: when a stage raises a fatal error, STATUS.STAGE is its number
k: the chain of the stages before k ends well and the chain of the first k ends with that error. STATUS.WARN is what
AHUF_DEC alone reports as stage 1 of P_BWT_MTF_AHUF_D, whether or not a later stage fails, and 0 in every other
pipeline; STATUS.DOVF is what the LZW stage alone reports. -/
def Obligations.PipelineEqualsChain : Prop :=
  ∀ (i : Instr) (s t c : State),
    pipelineStages i ≠ [] → s.params.wf = true → InputFits s →
      exec i s = .next t → chain (pipelineStages i) s = some c →
        c.res0 = t.res0 ∧ c.res1 = t.res1 ∧ c.crcacc = t.crcacc ∧ c.samem = t.samem ∧ c.salen = t.salen
          ∧ c.ahuf = t.ahuf ∧ c.lzw = t.lzw ∧ c.faultlog = t.faultlog
          ∧ c.status.err = t.status.err ∧ (c.status.err ≠ 0 → c.errinfo = t.errinfo)
          ∧ (t.status.err = 0 → c.olen = t.olen ∧ c.output = t.output)
          ∧ (t.status.err ≠ 0 →
              1 ≤ t.status.stage.toNat ∧ t.status.stage.toNat ≤ (pipelineStages i).length
                ∧ chain ((pipelineStages i).take t.status.stage.toNat) s = some c
                ∧ ∀ j, 1 ≤ j → j < t.status.stage.toNat →
                    ∃ d, chain ((pipelineStages i).take j) s = some d ∧ d.status.err = 0)
          ∧ (i = .pBwtMtfAhufD → ∃ d, exec .ahufDec s = .next d ∧ t.status.warn = d.status.warn)
          ∧ (i ≠ .pBwtMtfAhufD → t.status.warn = false)
          ∧ (i = .pBwtLzwC → t.status.dovf = c.status.dovf)
          ∧ (i = .pBwtLzwD → ∃ d, exec .lzwDec s = .next d ∧ t.status.dovf = d.status.dovf)

/-! ## Rules over all commands -/

/-- R360, R361: every command but SOFT_RESET completes from every state with DONE set and BUSY clear, in one of three
ways: success with no report; success with the warning (AHUF_DEC and P_BWT_MTF_AHUF_D only); a fatal error with a
code, a sub-cause and its FAULTLOG bit, and OLEN 0 for a byte-producing command other than LZW_DEC. -/
def Obligations.EveryCommandEndsInOneOfThreeWays : Prop :=
  ∀ (i : Instr) (s : State), i ≠ .softReset →
    ∃ t, exec i s = .next t ∧ t.status.done = true ∧ t.status.busy = false
      ∧ ((t.status.err = 0 ∧ t.status.warn = false ∧ t.errinfo = 0 ∧ t.status.stage = 0
            ∧ t.faultlog = s.faultlog)
          ∨ (t.status.err = 0 ∧ t.status.warn = true ∧ t.errinfo = 1 ∧ t.faultlog = s.faultlog ||| 4
            ∧ ((i = .ahufDec ∧ t.status.stage = 0) ∨ (i = .pBwtMtfAhufD ∧ t.status.stage = 1)))
          ∨ (t.status.err.toNat ∈ [1, 4, 5, 6] ∧ t.errinfo ≠ 0
            ∧ t.faultlog.getLsbD t.status.err.toNat = true
            ∧ (producesBytes i = true → i ≠ .lzwDec → t.olen = 0)
            ∧ (pipelineStages i = [] ↔ t.status.stage = 0)))

/-- R373, R378: every command that reads IBUF raises CapacityExceeded(1) when ILEN > BUF_CAP, before any other effect; a
byte-producing one discards its output, a pipeline names stage 1. -/
def Obligations.TooLongInputIsRefusedFirst : Prop :=
  ∀ (i : Instr) (s : State), readsInput i = true → s.params.bufCap < s.ilen.toNat →
    exec i s
      = .next (failed inputTooLong (if pipelineStages i = [] then 0 else 1)
          (if producesBytes i then discardOutput s else s))

/-- R28: no command but SOFT_RESET clears a FAULTLOG bit. -/
def Obligations.FaultlogIsSticky : Prop :=
  ∀ (i : Instr) (s t : State), i ≠ .softReset → exec i s = .next t →
    ∀ k < 32, s.faultlog.getLsbD k = true → t.faultlog.getLsbD k = true

/-- R23, R25, R26, R70, R101: no command changes the parameters or the host's accesses (the model's own fields, log
entries 1 and 4); ARG0 changes only in SOFT_RESET,
ILEN and IBUF only in XFER and SOFT_RESET (IBUF not even there); OBUF and OLEN only in byte-producing commands
(OLEN also in SOFT_RESET). -/
def Obligations.BufferFrames : Prop :=
  ∀ (i : Instr) (s t : State), exec i s = .next t →
    t.params = s.params ∧ t.hostQueue = s.hostQueue
      ∧ (i ≠ .softReset → t.arg0 = s.arg0)
      ∧ (i ≠ .softReset → i ≠ .xfer → t.ilen = s.ilen)
      ∧ (i ≠ .xfer → t.ibuf = s.ibuf)
      ∧ (producesBytes i = false → t.obuf = s.obuf)
      ∧ (producesBytes i = false → i ≠ .softReset → t.olen = s.olen)

/-- R24, R29, R404, R405: CRCACC and the results change only in the commands listed for them; a command that stops at a
fatal error and is no pipeline leaves both results alone. -/
def Obligations.ResultFrames : Prop :=
  ∀ (i : Instr) (s t : State), exec i s = .next t →
    (i ∉ [Instr.softReset, .crcReset, .crcByte, .crcBuf, .ahufEnc, .ahufDec, .pBwtMtfAhufC, .pBwtMtfAhufD] →
        t.crcacc = s.crcacc)
      ∧ (i ∉ [Instr.softReset, .crcRead, .bwtFwd, .ahufEnc, .ahufDec, .lzwProbe, .lzwInsert, .pBwtLzwC,
            .pBwtMtfShufC, .pBwtMtfAhufC, .pBwtMtfAhufD] → t.res0 = s.res0)
      ∧ (i ∉ [Instr.softReset, .ahufEnc, .ahufDec, .lzwProbe, .lzwInsert, .pBwtMtfAhufC, .pBwtMtfAhufD] →
        t.res1 = s.res1)
      ∧ (pipelineStages i = [] → t.status.err ≠ 0 → t.res0 = s.res0 ∧ t.res1 = s.res1)

/-- R30, R31, R32, R37 to R41, R101: the suffix array, the adaptive tree and the LZW tables change only in the commands
listed for them, STATUS.DOVF is set only by an LZW command, and the number of free draws of BWT_INV (the model's
own, log entry 3) changes only where BWT_INV runs. -/
def Obligations.UnitFrames : Prop :=
  ∀ (i : Instr) (s t : State), exec i s = .next t →
    (i ∉ [Instr.softReset, .saBuild, .bwtFwd, .pBwtLzwC, .pBwtMtfShufC, .pBwtMtfAhufC] →
        t.samem = s.samem ∧ t.salen = s.salen)
      ∧ (i ∉ [Instr.softReset, .ahufEnc, .ahufDec, .ahufInit, .ahufUpdate, .pBwtMtfAhufC, .pBwtMtfAhufD] →
        t.ahuf = s.ahuf)
      ∧ (i ∉ [Instr.softReset, .lzwEnc, .lzwDec, .lzwInit, .lzwInsert, .pBwtLzwC, .pBwtLzwD] →
        t.lzw = s.lzw)
      ∧ (i ∉ [Instr.lzwEnc, .lzwDec, .lzwInsert, .pBwtLzwC, .pBwtLzwD] → t.status.dovf = false)
      ∧ (i ∉ [Instr.bwtInv, .pBwtLzwD, .pBwtMtfShufD, .pBwtMtfAhufD] → t.bwtDraw = s.bwtDraw)

/-! ## Invariants of every step -/

/-- The state after reset has every invariant stated below. -/
def Obligations.ResetHasTheInvariants : Prop :=
  MemoriesCanonical State.reset ∧ ReportsLegal State.reset ∧ BuffersFilled State.reset ∧ LzwLegal State.reset.lzw
    ∧ AhufInv State.reset.ahuf

/-- The canonical form of every memory and table is kept by every step (log entry 2). -/
def Obligations.StepKeepsMemoriesCanonical : Prop :=
  ∀ s t : State, MemoriesCanonical s → step s = .next t → MemoriesCanonical t

/-- R22, R27, R28, R370: every step keeps STATUS, ERRINFO and FAULTLOG legal: BUSY 0, only fatal codes in ERR, reserved
FAULTLOG bits 0. -/
def Obligations.StepKeepsReportsLegal : Prop :=
  ∀ s t : State, ReportsLegal s → step s = .next t → ReportsLegal t

/-- R34, R35, R37: every step keeps the buffers inside BUF_CAP, the output bytes and the suffix array defined. -/
def Obligations.StepKeepsBuffersFilled : Prop :=
  ∀ s t : State, BuffersFilled s → step s = .next t → BuffersFilled t

/-- R32, R41, R300: every step keeps 256 <= LZW_NEXT <= 16383, the LZW slots in range, and no more slots in use than codes
assigned (LZW_NEXT - 256). -/
def Obligations.StepKeepsLzwLegal : Prop :=
  ∀ s t : State, LzwLegal s.lzw → step s = .next t → LzwLegal t.lzw

/-- R31, R38, R39, R40: every step keeps the invariants of the adaptive tree, the place of the NYT leaf's parent among them
(DEDUCED, log entry 14), while the root's weight has room for one more update. -/
def Obligations.StepKeepsAdaptiveTree : Prop :=
  ∀ s t : State, s.params.wf = true → AhufInv s.ahuf → (record s.ahuf 0).weight.toNat + 1 < 4294967296 →
    step s = .next t → AhufInv t.ahuf
end

