-- ==== Sys2Proof/Laws/Memory.lean ====
section
/-! SUPPORT. The laws of the sparse memories: what a read gives after each operation, and that every operation keeps
the canonical form. -/

namespace Sys2Proof.Machine

variable {α : Type}

/-! ## Reading after an operation -/

/-- Reading after one entry was written. -/
theorem getCell_putCell (cells : List (Nat × α)) (a b : Nat) (v : α) :
    getCell (putCell cells a v) b = if b = a then some v else getCell cells b := by
  induction cells with
  | nil => simp only [putCell, getCell]; split_ifs <;> first | rfl | omega
  | cons c t ih =>
    obtain ⟨k, x⟩ := c
    simp only [putCell]
    split_ifs with h1 h2 h3
    all_goals simp only [getCell, ih]
    all_goals (split_ifs <;> first | rfl | omega)

@[simp] theorem getCell_putCell_same (cells : List (Nat × α)) (a : Nat) (v : α) :
    getCell (putCell cells a v) a = some v := by simp [getCell_putCell]

/-- Reading the cells filled from index `a` on. -/
theorem getCell_cellsFrom (vs : List α) (a b : Nat) :
    getCell (cellsFrom a vs) b = if b < a then none else vs[b - a]? := by
  induction vs generalizing a with
  | nil => simp [cellsFrom, getCell]
  | cons v t ih =>
    simp only [cellsFrom, getCell, ih]
    rcases Nat.lt_trichotomy a b with h | h | h
    · have : b - a = (b - (a + 1)) + 1 := by omega
      rw [if_neg (by omega), if_neg (by omega), if_neg (by omega), if_neg (by omega), this]
      simp
    · subst h; simp
    · rw [if_neg (by omega), if_pos h, if_pos h]

/-! ## The canonical form -/

/-- The indices of a canonical list lie above every smaller bound of its first one. -/
theorem rising_cons {a : Nat} {v : α} {t : List (Nat × α)} :
    rising ((a, v) :: t) = true ↔ (∀ c ∈ t, a < c.1) ∧ rising t = true := by
  induction t generalizing a v with
  | nil => simp [rising]
  | cons c t ih =>
    obtain ⟨b, y⟩ := c
    simp only [rising, Bool.and_eq_true, decide_eq_true_eq]
    constructor
    · rintro ⟨hab, hr⟩
      refine ⟨?_, hr⟩
      intro c hc
      rcases List.mem_cons.mp hc with rfl | hc
      · exact hab
      · exact Nat.lt_trans hab ((ih.mp hr).1 c hc)
    · rintro ⟨h, hr⟩
      exact ⟨h _ (List.mem_cons_self ..), hr⟩

theorem mem_putCell {cells : List (Nat × α)} {a : Nat} {v : α} {c : Nat × α} (h : c ∈ putCell cells a v) :
    c = (a, v) ∨ c ∈ cells := by
  induction cells with
  | nil => simpa [putCell] using h
  | cons d t ih =>
    obtain ⟨k, x⟩ := d
    simp only [putCell] at h
    split_ifs at h
    · simpa using h
    · rcases List.mem_cons.mp h with h | h
      · exact .inl h
      · exact .inr (List.mem_cons_of_mem _ h)
    · rcases List.mem_cons.mp h with h | h
      · exact .inr (h ▸ List.mem_cons_self ..)
      · exact (ih h).imp id (List.mem_cons_of_mem _)

theorem mem_eraseCell {cells : List (Nat × α)} {a : Nat} {c : Nat × α} (h : c ∈ eraseCell cells a) : c ∈ cells := by
  induction cells with
  | nil => simp [eraseCell] at h
  | cons d t ih =>
    obtain ⟨k, x⟩ := d
    simp only [eraseCell] at h
    split_ifs at h
    · exact h
    · exact List.mem_cons_of_mem _ h
    · rcases List.mem_cons.mp h with h | h
      · exact h ▸ List.mem_cons_self ..
      · exact List.mem_cons_of_mem _ (ih h)

theorem mem_cellsFrom {vs : List α} {a : Nat} {c : Nat × α} (h : c ∈ cellsFrom a vs) :
    a ≤ c.1 ∧ c.1 < a + vs.length := by
  induction vs generalizing a with
  | nil => simp [cellsFrom] at h
  | cons v t ih =>
    rcases List.mem_cons.mp h with h | h
    · subst h; simp
    · have := ih h
      simp only [List.length_cons]
      omega

/-- Writing one entry keeps the canonical form. -/
theorem rising_putCell {cells : List (Nat × α)} (h : rising cells = true) (a : Nat) (v : α) :
    rising (putCell cells a v) = true := by
  induction cells with
  | nil => rfl
  | cons d t ih =>
    obtain ⟨k, x⟩ := d
    have hk := rising_cons.mp h
    simp only [putCell]
    split_ifs with h1 h2
    · refine rising_cons.mpr ⟨?_, h⟩
      intro c hc
      rcases List.mem_cons.mp hc with rfl | hc
      · exact h1
      · exact Nat.lt_trans h1 (hk.1 c hc)
    · subst h2
      exact rising_cons.mpr hk
    · refine rising_cons.mpr ⟨?_, ih hk.2⟩
      intro c hc
      rcases mem_putCell hc with rfl | hc
      · simp only; omega
      · exact hk.1 c hc

/-- Taking an entry away keeps the canonical form. -/
theorem rising_eraseCell {cells : List (Nat × α)} (h : rising cells = true) (a : Nat) :
    rising (eraseCell cells a) = true := by
  induction cells with
  | nil => rfl
  | cons d t ih =>
    obtain ⟨k, x⟩ := d
    have hk := rising_cons.mp h
    simp only [eraseCell]
    split_ifs
    · exact h
    · exact hk.2
    · exact rising_cons.mpr ⟨fun c hc => hk.1 c (mem_eraseCell hc), ih hk.2⟩

/-- Filling consecutive entries gives the canonical form. -/
theorem rising_cellsFrom (vs : List α) (a : Nat) : rising (cellsFrom a vs) = true := by
  induction vs generalizing a with
  | nil => rfl
  | cons v t ih => exact rising_cons.mpr ⟨fun c hc => by have := mem_cellsFrom hc; omega, ih (a + 1)⟩

theorem rising_filter {cells : List (Nat × α)} (h : rising cells = true) (p : Nat × α → Bool) :
    rising (cells.filter p) = true := by
  induction cells with
  | nil => rfl
  | cons d t ih =>
    have hk := rising_cons.mp h
    rw [List.filter_cons]
    split
    · exact rising_cons.mpr ⟨fun c hc => hk.1 c (List.mem_of_mem_filter hc), ih hk.2⟩
    · exact ih hk.2

theorem rising_append {x y : List (Nat × α)} (hx : rising x = true) (hy : rising y = true)
    (h : ∀ c ∈ x, ∀ d ∈ y, c.1 < d.1) : rising (x ++ y) = true := by
  induction x with
  | nil => exact hy
  | cons c t ih =>
    have hk := rising_cons.mp hx
    refine rising_cons.mpr ⟨?_, ih hk.2 fun c hc => h c (List.mem_cons_of_mem _ hc)⟩
    intro d hd
    rcases List.mem_append.mp hd with hd | hd
    · exact hk.1 d hd
    · exact h c (List.mem_cons_self ..) d hd

/-- Overwriting the first entries keeps the canonical form. -/
theorem rising_overlay {cells : List (Nat × α)} (h : rising cells = true) (vs : List α) :
    rising (overlay vs cells) = true := by
  refine rising_append (rising_cellsFrom vs 0) (rising_filter h _) ?_
  intro c hc d hd
  have h1 := mem_cellsFrom hc
  have h2 := List.of_mem_filter hd
  simp only [decide_eq_true_eq] at h2
  omega

/-- A listed entry is what a read gives, in the canonical form. -/
theorem getCell_of_mem {cells : List (Nat × α)} (h : rising cells = true) {a : Nat} {v : α} (hm : (a, v) ∈ cells) :
    getCell cells a = some v := by
  induction cells with
  | nil => simp at hm
  | cons d t ih =>
    obtain ⟨k, x⟩ := d
    have hk := rising_cons.mp h
    rcases List.mem_cons.mp hm with he | hm
    · cases he; simp [getCell]
    · have := hk.1 _ hm
      simp only at this
      rw [getCell, if_neg (by omega), if_neg (by omega)]
      exact ih hk.2 hm

/-- No entry is listed at an index that a read gives nothing for. -/
theorem getCell_eq_none {cells : List (Nat × α)} {a : Nat} (h : ∀ c ∈ cells, c.1 ≠ a) : getCell cells a = none := by
  induction cells with
  | nil => rfl
  | cons d t ih =>
    obtain ⟨k, x⟩ := d
    have h0 : k ≠ a := h (k, x) (List.mem_cons_self ..)
    rw [getCell, if_neg h0]
    split_ifs
    · rfl
    · exact ih fun c hc => h c (List.mem_cons_of_mem _ hc)

/-- What a read gives is listed. -/
theorem mem_of_getCell {cells : List (Nat × α)} {a : Nat} {v : α} (h : getCell cells a = some v) : (a, v) ∈ cells := by
  induction cells with
  | nil => simp [getCell] at h
  | cons d t ih =>
    obtain ⟨k, x⟩ := d
    rw [getCell] at h
    split_ifs at h with h1
    · cases h; subst h1; exact List.mem_cons_self ..
    · exact List.mem_cons_of_mem _ (ih h)

/-- Reading after an entry was taken away. -/
theorem getCell_eraseCell {cells : List (Nat × α)} (hr : rising cells = true) (a b : Nat) :
    getCell (eraseCell cells a) b = if b = a then none else getCell cells b := by
  induction cells with
  | nil => simp [eraseCell, getCell]
  | cons d t ih =>
    obtain ⟨k, x⟩ := d
    have hk := rising_cons.mp hr
    simp only [eraseCell]
    split_ifs with h1 h2 h3 h4
    · subst h2; rw [getCell, if_neg (by omega), if_pos h1]
    · rfl
    · subst h3
      subst h4
      exact getCell_eq_none fun c hc => Nat.ne_of_gt (hk.1 c hc)
    · subst h3
      rw [getCell]
      split_ifs with h5 h6
      · exact absurd h5.symm h4
      · exact getCell_eq_none fun c hc => by have := hk.1 c hc; omega
      · rfl
    · subst_vars
      rw [getCell, if_neg (by omega), if_neg (by omega), ih hk.2, if_pos rfl]
    · rename_i hb
      rw [getCell, getCell, ih hk.2, if_neg hb]

/-- Reading after the first entries were overwritten. -/
theorem getCell_overlay {cells : List (Nat × α)} (hr : rising cells = true) (vs : List α) (a : Nat) :
    getCell (overlay vs cells) a = if a < vs.length then vs[a]? else getCell cells a := by
  cases hg : getCell (overlay vs cells) a with
  | some v =>
    have hm := mem_of_getCell hg
    rcases List.mem_append.mp hm with hm | hm
    · have h1 := mem_cellsFrom hm
      have h2 := getCell_of_mem (rising_cellsFrom vs 0) hm
      rw [getCell_cellsFrom] at h2
      simp only [Nat.not_lt_zero, if_false, Nat.sub_zero] at h2
      rw [if_pos (by simp only at h1; omega), h2]
    · have h1 := List.of_mem_filter hm
      simp only [decide_eq_true_eq] at h1
      rw [if_neg (by omega), getCell_of_mem hr (List.mem_of_mem_filter hm)]
  | none =>
    have hro := rising_overlay hr vs
    split_ifs with h
    · exfalso
      have hm : (a, vs[a]) ∈ cellsFrom 0 vs := by
        refine mem_of_getCell ?_
        rw [getCell_cellsFrom]
        simp [h]
      rw [getCell_of_mem hro (List.mem_append_left _ hm)] at hg
      cases hg
    · cases hc : getCell cells a with
      | none => rfl
      | some v =>
        have hm : (a, v) ∈ cells.filter (fun c => decide (vs.length ≤ c.1)) :=
          List.mem_filter.mpr ⟨mem_of_getCell hc, by simpa using h⟩
        rw [getCell_of_mem hro (List.mem_append_right _ hm)] at hg
        cases hg

/-! ## The memories of the machine -/

@[simp] theorem Ram.write_draw (m : Ram α) (a : Nat) (v : α) : (m.write a v).draw = m.draw := rfl
@[simp] theorem Ram.load_draw (m : Ram α) (vs : List α) : (m.load vs).draw = m.draw := rfl
@[simp] theorem Ram.refill_draw (m : Ram α) (vs : List α) : (m.refill vs).draw = m.draw + 1 := rfl

/-- Reading after a write. -/
theorem Ram.read_write (free : Nat → Nat → α) (m : Ram α) (a b : Nat) (v : α) :
    (m.write a v).read free b = if b = a then v else m.read free b := by
  simp only [Ram.read, Ram.write, getCell_putCell]
  split_ifs <;> rfl

/-- Reading after the first entries were overwritten: the others keep their values. -/
theorem Ram.read_load (free : Nat → Nat → α) {m : Ram α} (hm : m.wf = true) (vs : List α) (a : Nat) :
    (m.load vs).read free a = if h : a < vs.length then vs[a] else m.read free a := by
  simp only [Ram.read, Ram.load, getCell_overlay hm]
  split_ifs with h
  · simp [h]
  · rfl

/-- Reading after a refill: the others are a new free draw. -/
theorem Ram.read_refill (free : Nat → Nat → α) (m : Ram α) (vs : List α) (a : Nat) :
    (m.refill vs).read free a = if h : a < vs.length then vs[a] else free (m.draw + 1) a := by
  simp only [Ram.read, Ram.refill, getCell_cellsFrom, Nat.not_lt_zero, if_false, Nat.sub_zero]
  split_ifs with h
  · simp [h]
  · simp [List.getElem?_eq_none (Nat.le_of_not_lt h)]

theorem Ram.wf_write {m : Ram α} (h : m.wf = true) (a : Nat) (v : α) : (m.write a v).wf = true :=
  rising_putCell h a v

theorem Ram.wf_load {m : Ram α} (h : m.wf = true) (vs : List α) : (m.load vs).wf = true := rising_overlay h vs

theorem Ram.wf_refill (m : Ram α) (vs : List α) : (m.refill vs).wf = true := rising_cellsFrom vs 0

theorem Ram.wf_forgetRam (m : Ram α) : (forgetRam m).wf = true := rfl

/-- Every operation on a byte buffer keeps the canonical form. -/
theorem Memory.wf_ops {m : Memory} (h : Memory.wf m = true) (a : Nat) (v : Byte) (vs : List Byte) :
    Memory.wf (m.write a v) = true ∧ Memory.wf (m.load vs) = true ∧ Memory.wf (m.refill vs) = true
      ∧ Memory.wf (forgetRam m) = true :=
  ⟨Ram.wf_write h a v, Ram.wf_load h vs, Ram.wf_refill m vs, rfl⟩

/-- The memories of the state after reset are in the canonical form. -/
theorem Memory.wf_reset :
    Memory.wf State.reset.ibuf = true ∧ Memory.wf State.reset.obuf = true ∧ Ram.wf State.reset.samem = true
      ∧ Ram.wf State.reset.ahuf.arena = true := ⟨rfl, rfl, rfl, rfl⟩

/-! ## Byte order -/

@[simp] theorem leBytes_length (n v : Nat) : (leBytes n v).length = n := by
  induction n generalizing v with
  | zero => rfl
  | succ n ih => simp [leBytes, ih]

/-- LE32 and LE64 are undone by UNLE32 and UNLE64. -/
theorem unle_leBytes (n v : Nat) : unle (leBytes n v) = v % 256 ^ n := by
  induction n generalizing v with
  | zero => simp [leBytes, unle, Nat.mod_one]
  | succ n ih =>
    have h : (256 : Nat) ^ (n + 1) = 256 * 256 ^ n := by rw [Nat.pow_succ, Nat.mul_comm]
    rw [leBytes, unle, ih, BitVec.toNat_ofNat, h, Nat.mod_mul]

end Sys2Proof.Machine
end

