-- ==== Sys2Proof/Laws/State.lean ====
section
/-! SUPPORT. One lemma per field per update of the state, true by `rfl`, so that no proof unfolds a record update. -/

namespace Sys2Proof.Machine

@[simp] theorem beginCommand_params (s : State) : (beginCommand s).params = s.params := rfl
@[simp] theorem beginCommand_status (s : State) :
    (beginCommand s).status = { s.status with warn := false, dovf := false, err := 0, stage := 0 } := rfl
@[simp] theorem beginCommand_arg0 (s : State) : (beginCommand s).arg0 = s.arg0 := rfl
@[simp] theorem beginCommand_res0 (s : State) : (beginCommand s).res0 = s.res0 := rfl
@[simp] theorem beginCommand_res1 (s : State) : (beginCommand s).res1 = s.res1 := rfl
@[simp] theorem beginCommand_ilen (s : State) : (beginCommand s).ilen = s.ilen := rfl
@[simp] theorem beginCommand_olen (s : State) : (beginCommand s).olen = s.olen := rfl
@[simp] theorem beginCommand_errinfo (s : State) : (beginCommand s).errinfo = 0 := rfl
@[simp] theorem beginCommand_faultlog (s : State) : (beginCommand s).faultlog = s.faultlog := rfl
@[simp] theorem beginCommand_crcacc (s : State) : (beginCommand s).crcacc = s.crcacc := rfl
@[simp] theorem beginCommand_salen (s : State) : (beginCommand s).salen = s.salen := rfl
@[simp] theorem beginCommand_ahuf (s : State) : (beginCommand s).ahuf = s.ahuf := rfl
@[simp] theorem beginCommand_lzw (s : State) : (beginCommand s).lzw = s.lzw := rfl
@[simp] theorem beginCommand_ibuf (s : State) : (beginCommand s).ibuf = s.ibuf := rfl
@[simp] theorem beginCommand_obuf (s : State) : (beginCommand s).obuf = s.obuf := rfl
@[simp] theorem beginCommand_samem (s : State) : (beginCommand s).samem = s.samem := rfl
@[simp] theorem beginCommand_bwtDraw (s : State) : (beginCommand s).bwtDraw = s.bwtDraw := rfl
@[simp] theorem beginCommand_hostQueue (s : State) : (beginCommand s).hostQueue = s.hostQueue := rfl
@[simp] theorem beginCommand_input (s : State) : (beginCommand s).input = s.input := rfl

@[simp] theorem completeCommand_params (s : State) : (completeCommand s).params = s.params := rfl
@[simp] theorem completeCommand_status (s : State) :
    (completeCommand s).status = { s.status with done := true, busy := false } := rfl
@[simp] theorem completeCommand_arg0 (s : State) : (completeCommand s).arg0 = s.arg0 := rfl
@[simp] theorem completeCommand_res0 (s : State) : (completeCommand s).res0 = s.res0 := rfl
@[simp] theorem completeCommand_res1 (s : State) : (completeCommand s).res1 = s.res1 := rfl
@[simp] theorem completeCommand_ilen (s : State) : (completeCommand s).ilen = s.ilen := rfl
@[simp] theorem completeCommand_olen (s : State) : (completeCommand s).olen = s.olen := rfl
@[simp] theorem completeCommand_errinfo (s : State) : (completeCommand s).errinfo = s.errinfo := rfl
@[simp] theorem completeCommand_faultlog (s : State) : (completeCommand s).faultlog = s.faultlog := rfl
@[simp] theorem completeCommand_crcacc (s : State) : (completeCommand s).crcacc = s.crcacc := rfl
@[simp] theorem completeCommand_salen (s : State) : (completeCommand s).salen = s.salen := rfl
@[simp] theorem completeCommand_ahuf (s : State) : (completeCommand s).ahuf = s.ahuf := rfl
@[simp] theorem completeCommand_lzw (s : State) : (completeCommand s).lzw = s.lzw := rfl
@[simp] theorem completeCommand_ibuf (s : State) : (completeCommand s).ibuf = s.ibuf := rfl
@[simp] theorem completeCommand_obuf (s : State) : (completeCommand s).obuf = s.obuf := rfl
@[simp] theorem completeCommand_samem (s : State) : (completeCommand s).samem = s.samem := rfl
@[simp] theorem completeCommand_bwtDraw (s : State) : (completeCommand s).bwtDraw = s.bwtDraw := rfl
@[simp] theorem completeCommand_hostQueue (s : State) : (completeCommand s).hostQueue = s.hostQueue := rfl
@[simp] theorem completeCommand_input (s : State) : (completeCommand s).input = s.input := rfl

@[simp] theorem warnChecksumMismatch_params (k : Nat) (s : State) : (warnChecksumMismatch k s).params = s.params := rfl
@[simp] theorem warnChecksumMismatch_status (k : Nat) (s : State) :
    (warnChecksumMismatch k s).status = { s.status with warn := true, stage := BitVec.ofNat 3 k } := rfl
@[simp] theorem warnChecksumMismatch_arg0 (k : Nat) (s : State) : (warnChecksumMismatch k s).arg0 = s.arg0 := rfl
@[simp] theorem warnChecksumMismatch_res0 (k : Nat) (s : State) : (warnChecksumMismatch k s).res0 = s.res0 := rfl
@[simp] theorem warnChecksumMismatch_res1 (k : Nat) (s : State) : (warnChecksumMismatch k s).res1 = s.res1 := rfl
@[simp] theorem warnChecksumMismatch_ilen (k : Nat) (s : State) : (warnChecksumMismatch k s).ilen = s.ilen := rfl
@[simp] theorem warnChecksumMismatch_olen (k : Nat) (s : State) : (warnChecksumMismatch k s).olen = s.olen := rfl
@[simp] theorem warnChecksumMismatch_errinfo (k : Nat) (s : State) : (warnChecksumMismatch k s).errinfo = 1 := rfl
@[simp] theorem warnChecksumMismatch_faultlog (k : Nat) (s : State) :
    (warnChecksumMismatch k s).faultlog = logFault checksumMismatchCode s.faultlog := rfl
@[simp] theorem warnChecksumMismatch_crcacc (k : Nat) (s : State) : (warnChecksumMismatch k s).crcacc = s.crcacc := rfl
@[simp] theorem warnChecksumMismatch_salen (k : Nat) (s : State) : (warnChecksumMismatch k s).salen = s.salen := rfl
@[simp] theorem warnChecksumMismatch_ahuf (k : Nat) (s : State) : (warnChecksumMismatch k s).ahuf = s.ahuf := rfl
@[simp] theorem warnChecksumMismatch_lzw (k : Nat) (s : State) : (warnChecksumMismatch k s).lzw = s.lzw := rfl
@[simp] theorem warnChecksumMismatch_ibuf (k : Nat) (s : State) : (warnChecksumMismatch k s).ibuf = s.ibuf := rfl
@[simp] theorem warnChecksumMismatch_obuf (k : Nat) (s : State) : (warnChecksumMismatch k s).obuf = s.obuf := rfl
@[simp] theorem warnChecksumMismatch_samem (k : Nat) (s : State) : (warnChecksumMismatch k s).samem = s.samem := rfl
@[simp] theorem warnChecksumMismatch_bwtDraw (k : Nat) (s : State) : (warnChecksumMismatch k s).bwtDraw = s.bwtDraw := rfl
@[simp] theorem warnChecksumMismatch_hostQueue (k : Nat) (s : State) : (warnChecksumMismatch k s).hostQueue = s.hostQueue := rfl
@[simp] theorem warnChecksumMismatch_input (k : Nat) (s : State) : (warnChecksumMismatch k s).input = s.input := rfl

@[simp] theorem setDictionaryOverflow_params (s : State) : (setDictionaryOverflow s).params = s.params := rfl
@[simp] theorem setDictionaryOverflow_status (s : State) : (setDictionaryOverflow s).status = { s.status with dovf := true } := rfl
@[simp] theorem setDictionaryOverflow_arg0 (s : State) : (setDictionaryOverflow s).arg0 = s.arg0 := rfl
@[simp] theorem setDictionaryOverflow_res0 (s : State) : (setDictionaryOverflow s).res0 = s.res0 := rfl
@[simp] theorem setDictionaryOverflow_res1 (s : State) : (setDictionaryOverflow s).res1 = s.res1 := rfl
@[simp] theorem setDictionaryOverflow_ilen (s : State) : (setDictionaryOverflow s).ilen = s.ilen := rfl
@[simp] theorem setDictionaryOverflow_olen (s : State) : (setDictionaryOverflow s).olen = s.olen := rfl
@[simp] theorem setDictionaryOverflow_errinfo (s : State) : (setDictionaryOverflow s).errinfo = s.errinfo := rfl
@[simp] theorem setDictionaryOverflow_faultlog (s : State) : (setDictionaryOverflow s).faultlog = s.faultlog := rfl
@[simp] theorem setDictionaryOverflow_crcacc (s : State) : (setDictionaryOverflow s).crcacc = s.crcacc := rfl
@[simp] theorem setDictionaryOverflow_salen (s : State) : (setDictionaryOverflow s).salen = s.salen := rfl
@[simp] theorem setDictionaryOverflow_ahuf (s : State) : (setDictionaryOverflow s).ahuf = s.ahuf := rfl
@[simp] theorem setDictionaryOverflow_lzw (s : State) : (setDictionaryOverflow s).lzw = s.lzw := rfl
@[simp] theorem setDictionaryOverflow_ibuf (s : State) : (setDictionaryOverflow s).ibuf = s.ibuf := rfl
@[simp] theorem setDictionaryOverflow_obuf (s : State) : (setDictionaryOverflow s).obuf = s.obuf := rfl
@[simp] theorem setDictionaryOverflow_samem (s : State) : (setDictionaryOverflow s).samem = s.samem := rfl
@[simp] theorem setDictionaryOverflow_bwtDraw (s : State) : (setDictionaryOverflow s).bwtDraw = s.bwtDraw := rfl
@[simp] theorem setDictionaryOverflow_hostQueue (s : State) : (setDictionaryOverflow s).hostQueue = s.hostQueue := rfl
@[simp] theorem setDictionaryOverflow_input (s : State) : (setDictionaryOverflow s).input = s.input := rfl

@[simp] theorem raiseFatal_params (e : FatalError) (k : Nat) (s : State) : (raiseFatal e k s).params = s.params := rfl
@[simp] theorem raiseFatal_status (e : FatalError) (k : Nat) (s : State) :
    (raiseFatal e k s).status = { s.status with err := BitVec.ofNat 4 (fatalCode e.kind), stage := BitVec.ofNat 3 k } := rfl
@[simp] theorem raiseFatal_arg0 (e : FatalError) (k : Nat) (s : State) : (raiseFatal e k s).arg0 = s.arg0 := rfl
@[simp] theorem raiseFatal_res0 (e : FatalError) (k : Nat) (s : State) : (raiseFatal e k s).res0 = s.res0 := rfl
@[simp] theorem raiseFatal_res1 (e : FatalError) (k : Nat) (s : State) : (raiseFatal e k s).res1 = s.res1 := rfl
@[simp] theorem raiseFatal_ilen (e : FatalError) (k : Nat) (s : State) : (raiseFatal e k s).ilen = s.ilen := rfl
@[simp] theorem raiseFatal_olen (e : FatalError) (k : Nat) (s : State) : (raiseFatal e k s).olen = s.olen := rfl
@[simp] theorem raiseFatal_errinfo (e : FatalError) (k : Nat) (s : State) : (raiseFatal e k s).errinfo = e.sub.setWidth 32 := rfl
@[simp] theorem raiseFatal_faultlog (e : FatalError) (k : Nat) (s : State) :
    (raiseFatal e k s).faultlog = logFault (fatalCode e.kind) s.faultlog := rfl
@[simp] theorem raiseFatal_crcacc (e : FatalError) (k : Nat) (s : State) : (raiseFatal e k s).crcacc = s.crcacc := rfl
@[simp] theorem raiseFatal_salen (e : FatalError) (k : Nat) (s : State) : (raiseFatal e k s).salen = s.salen := rfl
@[simp] theorem raiseFatal_ahuf (e : FatalError) (k : Nat) (s : State) : (raiseFatal e k s).ahuf = s.ahuf := rfl
@[simp] theorem raiseFatal_lzw (e : FatalError) (k : Nat) (s : State) : (raiseFatal e k s).lzw = s.lzw := rfl
@[simp] theorem raiseFatal_ibuf (e : FatalError) (k : Nat) (s : State) : (raiseFatal e k s).ibuf = s.ibuf := rfl
@[simp] theorem raiseFatal_obuf (e : FatalError) (k : Nat) (s : State) : (raiseFatal e k s).obuf = s.obuf := rfl
@[simp] theorem raiseFatal_samem (e : FatalError) (k : Nat) (s : State) : (raiseFatal e k s).samem = s.samem := rfl
@[simp] theorem raiseFatal_bwtDraw (e : FatalError) (k : Nat) (s : State) : (raiseFatal e k s).bwtDraw = s.bwtDraw := rfl
@[simp] theorem raiseFatal_hostQueue (e : FatalError) (k : Nat) (s : State) : (raiseFatal e k s).hostQueue = s.hostQueue := rfl
@[simp] theorem raiseFatal_input (e : FatalError) (k : Nat) (s : State) : (raiseFatal e k s).input = s.input := rfl

@[simp] theorem commitOutput_params (x : List Byte) (s : State) : (commitOutput x s).params = s.params := rfl
@[simp] theorem commitOutput_status (x : List Byte) (s : State) : (commitOutput x s).status = s.status := rfl
@[simp] theorem commitOutput_arg0 (x : List Byte) (s : State) : (commitOutput x s).arg0 = s.arg0 := rfl
@[simp] theorem commitOutput_res0 (x : List Byte) (s : State) : (commitOutput x s).res0 = s.res0 := rfl
@[simp] theorem commitOutput_res1 (x : List Byte) (s : State) : (commitOutput x s).res1 = s.res1 := rfl
@[simp] theorem commitOutput_ilen (x : List Byte) (s : State) : (commitOutput x s).ilen = s.ilen := rfl
@[simp] theorem commitOutput_olen (x : List Byte) (s : State) : (commitOutput x s).olen = BitVec.ofNat 32 x.length := rfl
@[simp] theorem commitOutput_errinfo (x : List Byte) (s : State) : (commitOutput x s).errinfo = s.errinfo := rfl
@[simp] theorem commitOutput_faultlog (x : List Byte) (s : State) : (commitOutput x s).faultlog = s.faultlog := rfl
@[simp] theorem commitOutput_crcacc (x : List Byte) (s : State) : (commitOutput x s).crcacc = s.crcacc := rfl
@[simp] theorem commitOutput_salen (x : List Byte) (s : State) : (commitOutput x s).salen = s.salen := rfl
@[simp] theorem commitOutput_ahuf (x : List Byte) (s : State) : (commitOutput x s).ahuf = s.ahuf := rfl
@[simp] theorem commitOutput_lzw (x : List Byte) (s : State) : (commitOutput x s).lzw = s.lzw := rfl
@[simp] theorem commitOutput_ibuf (x : List Byte) (s : State) : (commitOutput x s).ibuf = s.ibuf := rfl
@[simp] theorem commitOutput_obuf (x : List Byte) (s : State) : (commitOutput x s).obuf = s.obuf.refill x := rfl
@[simp] theorem commitOutput_samem (x : List Byte) (s : State) : (commitOutput x s).samem = s.samem := rfl
@[simp] theorem commitOutput_bwtDraw (x : List Byte) (s : State) : (commitOutput x s).bwtDraw = s.bwtDraw := rfl
@[simp] theorem commitOutput_hostQueue (x : List Byte) (s : State) : (commitOutput x s).hostQueue = s.hostQueue := rfl
@[simp] theorem commitOutput_input (x : List Byte) (s : State) : (commitOutput x s).input = s.input := rfl

@[simp] theorem discardOutput_params (s : State) : (discardOutput s).params = s.params := rfl
@[simp] theorem discardOutput_status (s : State) : (discardOutput s).status = s.status := rfl
@[simp] theorem discardOutput_arg0 (s : State) : (discardOutput s).arg0 = s.arg0 := rfl
@[simp] theorem discardOutput_res0 (s : State) : (discardOutput s).res0 = s.res0 := rfl
@[simp] theorem discardOutput_res1 (s : State) : (discardOutput s).res1 = s.res1 := rfl
@[simp] theorem discardOutput_ilen (s : State) : (discardOutput s).ilen = s.ilen := rfl
@[simp] theorem discardOutput_olen (s : State) : (discardOutput s).olen = 0 := rfl
@[simp] theorem discardOutput_errinfo (s : State) : (discardOutput s).errinfo = s.errinfo := rfl
@[simp] theorem discardOutput_faultlog (s : State) : (discardOutput s).faultlog = s.faultlog := rfl
@[simp] theorem discardOutput_crcacc (s : State) : (discardOutput s).crcacc = s.crcacc := rfl
@[simp] theorem discardOutput_salen (s : State) : (discardOutput s).salen = s.salen := rfl
@[simp] theorem discardOutput_ahuf (s : State) : (discardOutput s).ahuf = s.ahuf := rfl
@[simp] theorem discardOutput_lzw (s : State) : (discardOutput s).lzw = s.lzw := rfl
@[simp] theorem discardOutput_ibuf (s : State) : (discardOutput s).ibuf = s.ibuf := rfl
@[simp] theorem discardOutput_obuf (s : State) : (discardOutput s).obuf = s.obuf.refill [] := rfl
@[simp] theorem discardOutput_samem (s : State) : (discardOutput s).samem = s.samem := rfl
@[simp] theorem discardOutput_bwtDraw (s : State) : (discardOutput s).bwtDraw = s.bwtDraw := rfl
@[simp] theorem discardOutput_hostQueue (s : State) : (discardOutput s).hostQueue = s.hostQueue := rfl
@[simp] theorem discardOutput_input (s : State) : (discardOutput s).input = s.input := rfl

@[simp] theorem failUnit_params (e : FatalError) (s : State) : (failUnit e s).params = s.params := rfl
@[simp] theorem failUnit_status (e : FatalError) (s : State) :
    (failUnit e s).status = { s.status with done := true, busy := false, err := BitVec.ofNat 4 (fatalCode e.kind), stage := 0 } := rfl
@[simp] theorem failUnit_arg0 (e : FatalError) (s : State) : (failUnit e s).arg0 = s.arg0 := rfl
@[simp] theorem failUnit_res0 (e : FatalError) (s : State) : (failUnit e s).res0 = s.res0 := rfl
@[simp] theorem failUnit_res1 (e : FatalError) (s : State) : (failUnit e s).res1 = s.res1 := rfl
@[simp] theorem failUnit_ilen (e : FatalError) (s : State) : (failUnit e s).ilen = s.ilen := rfl
@[simp] theorem failUnit_olen (e : FatalError) (s : State) : (failUnit e s).olen = s.olen := rfl
@[simp] theorem failUnit_errinfo (e : FatalError) (s : State) : (failUnit e s).errinfo = e.sub.setWidth 32 := rfl
@[simp] theorem failUnit_faultlog (e : FatalError) (s : State) :
    (failUnit e s).faultlog = logFault (fatalCode e.kind) s.faultlog := rfl
@[simp] theorem failUnit_crcacc (e : FatalError) (s : State) : (failUnit e s).crcacc = s.crcacc := rfl
@[simp] theorem failUnit_salen (e : FatalError) (s : State) : (failUnit e s).salen = s.salen := rfl
@[simp] theorem failUnit_ahuf (e : FatalError) (s : State) : (failUnit e s).ahuf = s.ahuf := rfl
@[simp] theorem failUnit_lzw (e : FatalError) (s : State) : (failUnit e s).lzw = s.lzw := rfl
@[simp] theorem failUnit_ibuf (e : FatalError) (s : State) : (failUnit e s).ibuf = s.ibuf := rfl
@[simp] theorem failUnit_obuf (e : FatalError) (s : State) : (failUnit e s).obuf = s.obuf := rfl
@[simp] theorem failUnit_samem (e : FatalError) (s : State) : (failUnit e s).samem = s.samem := rfl
@[simp] theorem failUnit_bwtDraw (e : FatalError) (s : State) : (failUnit e s).bwtDraw = s.bwtDraw := rfl
@[simp] theorem failUnit_hostQueue (e : FatalError) (s : State) : (failUnit e s).hostQueue = s.hostQueue := rfl
@[simp] theorem failUnit_input (e : FatalError) (s : State) : (failUnit e s).input = s.input := rfl

@[simp] theorem startCrc_params (s : State) : (startCrc s).params = s.params := rfl
@[simp] theorem startCrc_status (s : State) : (startCrc s).status = s.status := rfl
@[simp] theorem startCrc_arg0 (s : State) : (startCrc s).arg0 = s.arg0 := rfl
@[simp] theorem startCrc_res0 (s : State) : (startCrc s).res0 = s.res0 := rfl
@[simp] theorem startCrc_res1 (s : State) : (startCrc s).res1 = s.res1 := rfl
@[simp] theorem startCrc_ilen (s : State) : (startCrc s).ilen = s.ilen := rfl
@[simp] theorem startCrc_olen (s : State) : (startCrc s).olen = s.olen := rfl
@[simp] theorem startCrc_errinfo (s : State) : (startCrc s).errinfo = s.errinfo := rfl
@[simp] theorem startCrc_faultlog (s : State) : (startCrc s).faultlog = s.faultlog := rfl
@[simp] theorem startCrc_crcacc (s : State) : (startCrc s).crcacc = s.params.crcInit := rfl
@[simp] theorem startCrc_salen (s : State) : (startCrc s).salen = s.salen := rfl
@[simp] theorem startCrc_ahuf (s : State) : (startCrc s).ahuf = s.ahuf := rfl
@[simp] theorem startCrc_lzw (s : State) : (startCrc s).lzw = s.lzw := rfl
@[simp] theorem startCrc_ibuf (s : State) : (startCrc s).ibuf = s.ibuf := rfl
@[simp] theorem startCrc_obuf (s : State) : (startCrc s).obuf = s.obuf := rfl
@[simp] theorem startCrc_samem (s : State) : (startCrc s).samem = s.samem := rfl
@[simp] theorem startCrc_bwtDraw (s : State) : (startCrc s).bwtDraw = s.bwtDraw := rfl
@[simp] theorem startCrc_hostQueue (s : State) : (startCrc s).hostQueue = s.hostQueue := rfl
@[simp] theorem startCrc_input (s : State) : (startCrc s).input = s.input := rfl

@[simp] theorem feedCrc_params (b : Byte) (s : State) : (feedCrc b s).params = s.params := rfl
@[simp] theorem feedCrc_status (b : Byte) (s : State) : (feedCrc b s).status = s.status := rfl
@[simp] theorem feedCrc_arg0 (b : Byte) (s : State) : (feedCrc b s).arg0 = s.arg0 := rfl
@[simp] theorem feedCrc_res0 (b : Byte) (s : State) : (feedCrc b s).res0 = s.res0 := rfl
@[simp] theorem feedCrc_res1 (b : Byte) (s : State) : (feedCrc b s).res1 = s.res1 := rfl
@[simp] theorem feedCrc_ilen (b : Byte) (s : State) : (feedCrc b s).ilen = s.ilen := rfl
@[simp] theorem feedCrc_olen (b : Byte) (s : State) : (feedCrc b s).olen = s.olen := rfl
@[simp] theorem feedCrc_errinfo (b : Byte) (s : State) : (feedCrc b s).errinfo = s.errinfo := rfl
@[simp] theorem feedCrc_faultlog (b : Byte) (s : State) : (feedCrc b s).faultlog = s.faultlog := rfl
@[simp] theorem feedCrc_crcacc (b : Byte) (s : State) : (feedCrc b s).crcacc = crcStep s.params s.crcacc b := rfl
@[simp] theorem feedCrc_salen (b : Byte) (s : State) : (feedCrc b s).salen = s.salen := rfl
@[simp] theorem feedCrc_ahuf (b : Byte) (s : State) : (feedCrc b s).ahuf = s.ahuf := rfl
@[simp] theorem feedCrc_lzw (b : Byte) (s : State) : (feedCrc b s).lzw = s.lzw := rfl
@[simp] theorem feedCrc_ibuf (b : Byte) (s : State) : (feedCrc b s).ibuf = s.ibuf := rfl
@[simp] theorem feedCrc_obuf (b : Byte) (s : State) : (feedCrc b s).obuf = s.obuf := rfl
@[simp] theorem feedCrc_samem (b : Byte) (s : State) : (feedCrc b s).samem = s.samem := rfl
@[simp] theorem feedCrc_bwtDraw (b : Byte) (s : State) : (feedCrc b s).bwtDraw = s.bwtDraw := rfl
@[simp] theorem feedCrc_hostQueue (b : Byte) (s : State) : (feedCrc b s).hostQueue = s.hostQueue := rfl
@[simp] theorem feedCrc_input (b : Byte) (s : State) : (feedCrc b s).input = s.input := rfl

@[simp] theorem storeSuffixArray_params (x : List Byte) (s : State) : (storeSuffixArray x s).params = s.params := rfl
@[simp] theorem storeSuffixArray_status (x : List Byte) (s : State) : (storeSuffixArray x s).status = s.status := rfl
@[simp] theorem storeSuffixArray_arg0 (x : List Byte) (s : State) : (storeSuffixArray x s).arg0 = s.arg0 := rfl
@[simp] theorem storeSuffixArray_res0 (x : List Byte) (s : State) : (storeSuffixArray x s).res0 = s.res0 := rfl
@[simp] theorem storeSuffixArray_res1 (x : List Byte) (s : State) : (storeSuffixArray x s).res1 = s.res1 := rfl
@[simp] theorem storeSuffixArray_ilen (x : List Byte) (s : State) : (storeSuffixArray x s).ilen = s.ilen := rfl
@[simp] theorem storeSuffixArray_olen (x : List Byte) (s : State) : (storeSuffixArray x s).olen = s.olen := rfl
@[simp] theorem storeSuffixArray_errinfo (x : List Byte) (s : State) : (storeSuffixArray x s).errinfo = s.errinfo := rfl
@[simp] theorem storeSuffixArray_faultlog (x : List Byte) (s : State) : (storeSuffixArray x s).faultlog = s.faultlog := rfl
@[simp] theorem storeSuffixArray_crcacc (x : List Byte) (s : State) : (storeSuffixArray x s).crcacc = s.crcacc := rfl
@[simp] theorem storeSuffixArray_salen (x : List Byte) (s : State) : (storeSuffixArray x s).salen = BitVec.ofNat 32 (x.length + 1) := rfl
@[simp] theorem storeSuffixArray_ahuf (x : List Byte) (s : State) : (storeSuffixArray x s).ahuf = s.ahuf := rfl
@[simp] theorem storeSuffixArray_lzw (x : List Byte) (s : State) : (storeSuffixArray x s).lzw = s.lzw := rfl
@[simp] theorem storeSuffixArray_ibuf (x : List Byte) (s : State) : (storeSuffixArray x s).ibuf = s.ibuf := rfl
@[simp] theorem storeSuffixArray_obuf (x : List Byte) (s : State) : (storeSuffixArray x s).obuf = s.obuf := rfl
@[simp] theorem storeSuffixArray_samem (x : List Byte) (s : State) :
    (storeSuffixArray x s).samem = s.samem.refill ((suffixArray x).map (BitVec.ofNat 32)) := rfl
@[simp] theorem storeSuffixArray_bwtDraw (x : List Byte) (s : State) : (storeSuffixArray x s).bwtDraw = s.bwtDraw := rfl
@[simp] theorem storeSuffixArray_hostQueue (x : List Byte) (s : State) : (storeSuffixArray x s).hostQueue = s.hostQueue := rfl
@[simp] theorem storeSuffixArray_input (x : List Byte) (s : State) : (storeSuffixArray x s).input = s.input := rfl

@[simp] theorem onAhuf_params (f : Ahuf → Ahuf) (s : State) : (onAhuf f s).params = s.params := rfl
@[simp] theorem onAhuf_status (f : Ahuf → Ahuf) (s : State) : (onAhuf f s).status = s.status := rfl
@[simp] theorem onAhuf_arg0 (f : Ahuf → Ahuf) (s : State) : (onAhuf f s).arg0 = s.arg0 := rfl
@[simp] theorem onAhuf_res0 (f : Ahuf → Ahuf) (s : State) : (onAhuf f s).res0 = s.res0 := rfl
@[simp] theorem onAhuf_res1 (f : Ahuf → Ahuf) (s : State) : (onAhuf f s).res1 = s.res1 := rfl
@[simp] theorem onAhuf_ilen (f : Ahuf → Ahuf) (s : State) : (onAhuf f s).ilen = s.ilen := rfl
@[simp] theorem onAhuf_olen (f : Ahuf → Ahuf) (s : State) : (onAhuf f s).olen = s.olen := rfl
@[simp] theorem onAhuf_errinfo (f : Ahuf → Ahuf) (s : State) : (onAhuf f s).errinfo = s.errinfo := rfl
@[simp] theorem onAhuf_faultlog (f : Ahuf → Ahuf) (s : State) : (onAhuf f s).faultlog = s.faultlog := rfl
@[simp] theorem onAhuf_crcacc (f : Ahuf → Ahuf) (s : State) : (onAhuf f s).crcacc = s.crcacc := rfl
@[simp] theorem onAhuf_salen (f : Ahuf → Ahuf) (s : State) : (onAhuf f s).salen = s.salen := rfl
@[simp] theorem onAhuf_ahuf (f : Ahuf → Ahuf) (s : State) : (onAhuf f s).ahuf = f s.ahuf := rfl
@[simp] theorem onAhuf_lzw (f : Ahuf → Ahuf) (s : State) : (onAhuf f s).lzw = s.lzw := rfl
@[simp] theorem onAhuf_ibuf (f : Ahuf → Ahuf) (s : State) : (onAhuf f s).ibuf = s.ibuf := rfl
@[simp] theorem onAhuf_obuf (f : Ahuf → Ahuf) (s : State) : (onAhuf f s).obuf = s.obuf := rfl
@[simp] theorem onAhuf_samem (f : Ahuf → Ahuf) (s : State) : (onAhuf f s).samem = s.samem := rfl
@[simp] theorem onAhuf_bwtDraw (f : Ahuf → Ahuf) (s : State) : (onAhuf f s).bwtDraw = s.bwtDraw := rfl
@[simp] theorem onAhuf_hostQueue (f : Ahuf → Ahuf) (s : State) : (onAhuf f s).hostQueue = s.hostQueue := rfl
@[simp] theorem onAhuf_input (f : Ahuf → Ahuf) (s : State) : (onAhuf f s).input = s.input := rfl

@[simp] theorem dropAccess_params (s : State) : (dropAccess s).params = s.params := rfl
@[simp] theorem dropAccess_status (s : State) : (dropAccess s).status = s.status := rfl
@[simp] theorem dropAccess_arg0 (s : State) : (dropAccess s).arg0 = s.arg0 := rfl
@[simp] theorem dropAccess_res0 (s : State) : (dropAccess s).res0 = s.res0 := rfl
@[simp] theorem dropAccess_res1 (s : State) : (dropAccess s).res1 = s.res1 := rfl
@[simp] theorem dropAccess_ilen (s : State) : (dropAccess s).ilen = s.ilen := rfl
@[simp] theorem dropAccess_olen (s : State) : (dropAccess s).olen = s.olen := rfl
@[simp] theorem dropAccess_errinfo (s : State) : (dropAccess s).errinfo = s.errinfo := rfl
@[simp] theorem dropAccess_faultlog (s : State) : (dropAccess s).faultlog = s.faultlog := rfl
@[simp] theorem dropAccess_crcacc (s : State) : (dropAccess s).crcacc = s.crcacc := rfl
@[simp] theorem dropAccess_salen (s : State) : (dropAccess s).salen = s.salen := rfl
@[simp] theorem dropAccess_ahuf (s : State) : (dropAccess s).ahuf = s.ahuf := rfl
@[simp] theorem dropAccess_lzw (s : State) : (dropAccess s).lzw = s.lzw := rfl
@[simp] theorem dropAccess_ibuf (s : State) : (dropAccess s).ibuf = s.ibuf := rfl
@[simp] theorem dropAccess_obuf (s : State) : (dropAccess s).obuf = s.obuf := rfl
@[simp] theorem dropAccess_samem (s : State) : (dropAccess s).samem = s.samem := rfl
@[simp] theorem dropAccess_bwtDraw (s : State) : (dropAccess s).bwtDraw = s.bwtDraw := rfl
@[simp] theorem dropAccess_hostQueue (s : State) : (dropAccess s).hostQueue = s.hostQueue.tail := rfl
@[simp] theorem dropAccess_input (s : State) : (dropAccess s).input = s.input := rfl

@[simp] theorem setNode_nalloc (u : Ahuf) (i : BitVec 10) (n : AhufNode) : (setNode u i n).nalloc = u.nalloc := rfl
@[simp] theorem setNode_arena (u : Ahuf) (i : BitVec 10) (n : AhufNode) : (setNode u i n).arena = u.arena.write i.toNat n := rfl
@[simp] theorem setNode_leaf (u : Ahuf) (i : BitVec 10) (n : AhufNode) : (setNode u i n).leaf = u.leaf := rfl
@[simp] theorem setNode_weightDraw (u : Ahuf) (i : BitVec 10) (n : AhufNode) : (setNode u i n).weightDraw = u.weightDraw := rfl

@[simp] theorem setLeaf_nalloc (u : Ahuf) (sym : Nat) (i : BitVec 10) : (setLeaf u sym i).nalloc = u.nalloc := rfl
@[simp] theorem setLeaf_arena (u : Ahuf) (sym : Nat) (i : BitVec 10) : (setLeaf u sym i).arena = u.arena := rfl
@[simp] theorem setLeaf_leaf (u : Ahuf) (sym : Nat) (i : BitVec 10) : (setLeaf u sym i).leaf = putCell u.leaf sym i := rfl
@[simp] theorem setLeaf_weightDraw (u : Ahuf) (sym : Nat) (i : BitVec 10) : (setLeaf u sym i).weightDraw = u.weightDraw := rfl

@[simp] theorem initTree_nalloc (u : Ahuf) : (initTree u).nalloc = 3 := rfl
@[simp] theorem initTree_arena (u : Ahuf) : (initTree u).arena = { cells := initialArena, draw := u.arena.draw + 1 } := rfl
@[simp] theorem initTree_leaf (u : Ahuf) : (initTree u).leaf = initialLeaf := rfl
@[simp] theorem initTree_weightDraw (u : Ahuf) : (initTree u).weightDraw = u.weightDraw := rfl

@[simp] theorem setSlot_next (u : Lzw) (i : Nat) (x : LzwSlot) : (setSlot u i x).next = u.next := rfl
@[simp] theorem storeEntry_next (u : Lzw) (i : Nat) (pre : BitVec 14) (ch : Byte) :
    (storeEntry u i pre ch).next = u.next + 1 := rfl

end Sys2Proof.Machine
end

