-- ==== Sys2Proof/Laws/Cmd.lean ====
section
/-! SUPPORT. The laws of command bodies: how they compose, and for each shared operation one lemma that says what it
answers. -/

namespace Sys2Proof.Machine

variable {α β : Type}

/-! ## Composition -/

@[simp] theorem Cmd.pure_run (a : α) (w : Work) : (pure a : Cmd α) w = .ok a w := rfl
@[simp] theorem Cmd.raise_run (e : FatalError) (w : Work) : (raise e : Cmd α) w = .error e w := rfl
@[simp] theorem Cmd.get_run (w : Work) : (get : Cmd Work) w = .ok w w := rfl
@[simp] theorem Cmd.set_run (v w : Work) : (set v : Cmd Unit) w = .ok () v := rfl
@[simp] theorem Cmd.modify_run (f : Work → Work) (w : Work) : (modify f : Cmd Unit) w = .ok () (f w) := rfl

/-- What a sequence answers. -/
theorem Cmd.bind_run (x : Cmd α) (f : α → Cmd β) (w : Work) :
    (x >>= f) w = match x w with
      | .ok a v => f a v
      | .error e v => .error e v := by
  change EStateM.bind x f w = _
  unfold EStateM.bind
  cases x w <;> rfl

theorem Cmd.bind_ok {x : Cmd α} {w v : Work} {a : α} (h : x w = .ok a v) (f : α → Cmd β) :
    (x >>= f) w = f a v := by rw [Cmd.bind_run, h]

theorem Cmd.bind_error {x : Cmd α} {w v : Work} {e : FatalError} (h : x w = .error e v) (f : α → Cmd β) :
    (x >>= f) w = .error e v := by rw [Cmd.bind_run, h]

@[simp] theorem Cmd.get_bind (f : Work → Cmd β) (w : Work) : (get >>= f) w = f w w := rfl
@[simp] theorem Cmd.set_bind (v : Work) (f : Unit → Cmd β) (w : Work) : ((set v : Cmd Unit) >>= f) w = f () v := rfl
@[simp] theorem Cmd.modify_bind (g : Work → Work) (f : Unit → Cmd β) (w : Work) :
    ((modify g : Cmd Unit) >>= f) w = f () (g w) := rfl
@[simp] theorem Cmd.raise_bind (e : FatalError) (f : α → Cmd β) (w : Work) :
    ((raise e : Cmd α) >>= f) w = .error e w := rfl

/-- A sequence that ends well: both parts do. -/
theorem Cmd.of_bind_ok {x : Cmd α} {f : α → Cmd β} {w v : Work} {b : β} (h : (x >>= f) w = .ok b v) :
    ∃ a u, x w = .ok a u ∧ f a u = .ok b v := by
  rw [Cmd.bind_run] at h
  cases hx : x w with
  | ok a u => rw [hx] at h; exact ⟨a, u, rfl, h⟩
  | error e u => rw [hx] at h; cases h

/-- A sequence that raises: one of the two parts does. -/
theorem Cmd.of_bind_error {x : Cmd α} {f : α → Cmd β} {w v : Work} {e : FatalError}
    (h : (x >>= f) w = .error e v) :
    x w = .error e v ∨ ∃ a u, x w = .ok a u ∧ f a u = .error e v := by
  rw [Cmd.bind_run] at h
  cases hx : x w with
  | ok a u => rw [hx] at h; exact .inr ⟨a, u, rfl, h⟩
  | error d u => rw [hx] at h; cases h; exact .inl rfl

/-! ## Emitting bytes -/

@[simp] theorem onMachine_run (f : State → State) (w : Work) :
    onMachine f w = .ok () { w with mach := f w.mach } := rfl

/-- R72: one byte more, or CapacityExceeded(2). -/
theorem emit_run (b : Byte) (w : Work) :
    emit b w = if w.olen = w.mach.params.bufCap then .error outputTooLong w
      else .ok () { w with out := b :: w.out, olen := w.olen + 1 } := by
  simp only [emit, Cmd.get_bind]
  split_ifs <;> rfl

/-- A byte string that fits is emitted whole. -/
theorem emitAll_ok (bytes : List Byte) (w : Work) (h : w.olen + bytes.length ≤ w.mach.params.bufCap) :
    emitAll bytes w = .ok () { w with out := bytes.reverse ++ w.out, olen := w.olen + bytes.length } := by
  induction bytes generalizing w with
  | nil => rfl
  | cons b t ih =>
    simp only [List.length_cons] at h
    rw [emitAll, Cmd.bind_ok (v := { w with out := b :: w.out, olen := w.olen + 1 })
      (by rw [emit_run, if_neg (by omega)])]
    rw [ih _ (by simp only; omega)]
    simp only [List.reverse_cons, List.append_assoc, List.singleton_append, List.length_cons,
      Nat.add_assoc, Nat.add_comm 1]

/-- A byte string that does not fit fills the buffer and raises CapacityExceeded(2). -/
theorem emitAll_error (bytes : List Byte) (w : Work) (h0 : w.olen ≤ w.mach.params.bufCap)
    (h : w.mach.params.bufCap < w.olen + bytes.length) :
    emitAll bytes w = .error outputTooLong
      { w with
        out := (bytes.take (w.mach.params.bufCap - w.olen)).reverse ++ w.out
        olen := w.mach.params.bufCap } := by
  induction bytes generalizing w with
  | nil => simp only [List.length_nil] at h; omega
  | cons b t ih =>
    simp only [List.length_cons] at h
    by_cases he : w.olen = w.mach.params.bufCap
    · rw [emitAll, Cmd.bind_error (v := w) (by rw [emit_run, if_pos he])]
      rw [he]
      simp [← he]
    · rw [emitAll, Cmd.bind_ok (v := { w with out := b :: w.out, olen := w.olen + 1 })
        (by rw [emit_run, if_neg he])]
      rw [ih _ (by simp only; omega) (by simp only; omega)]
      have hs : w.mach.params.bufCap - w.olen = (w.mach.params.bufCap - (w.olen + 1)) + 1 := by omega
      rw [hs]
      simp

@[simp] theorem memWriteOut_run (off : Nat) (v : List Byte) (w : Work) :
    memWriteOut off v w = .ok () { w with out := (overwrite off v w.out.reverse).reverse } := rfl

/-! ## Reading the input -/

/-- R378: the check that starts every command that reads the input. -/
theorem checkInputLength_run (n : Nat) (w : Work) :
    checkInputLength n w = if w.mach.params.bufCap < n then .error inputTooLong w else .ok () w := by
  simp only [checkInputLength, Cmd.get_bind]
  split_ifs <;> rfl

theorem readInput_run (w : Work) :
    readInput w = if w.mach.params.bufCap < w.mach.ilen.toNat then .error inputTooLong w
      else .ok w.mach.input w := by
  rw [readInput, Cmd.get_bind, Cmd.bind_run, checkInputLength_run]
  split_ifs <;> rfl

@[simp] theorem input_length (s : State) : s.input.length = s.ilen.toNat := by simp [State.input]

@[simp] theorem output_length (s : State) : s.output.length = s.olen.toNat := by simp [State.output]

/-! ## Bits -/

/-- R131: one bit more in WACC, or a whole byte emitted. -/
theorem putBit_run (b : Bool) (w : Work) :
    putBit b w =
      if w.wcnt + 1 = 8 then
        if w.olen = w.mach.params.bufCap then .error outputTooLong w
        else .ok () { w with
          out := (w.wacc <<< 1 ||| (BitVec.ofBool b).setWidth 8) :: w.out, olen := w.olen + 1, wacc := 0, wcnt := 0 }
      else .ok () { w with wacc := w.wacc <<< 1 ||| (BitVec.ofBool b).setWidth 8, wcnt := w.wcnt + 1 } := by
  simp only [putBit, Cmd.get_bind]
  split_ifs with h1 h2
  · rw [Cmd.bind_error (v := w) (by rw [emit_run, if_pos h2])]
  · rw [Cmd.bind_ok (by rw [emit_run, if_neg h2])]
    rfl
  · rfl

theorem putBitList_append (x y : List Bool) (w : Work) :
    putBitList (x ++ y) w = (putBitList x >>= fun _ => putBitList y) w := by
  induction x generalizing w with
  | nil => rfl
  | cons b t ih =>
    simp only [List.cons_append, putBitList]
    rw [Cmd.bind_run, Cmd.bind_run, Cmd.bind_run]
    cases putBit b w with
    | ok a v => simpa [Cmd.bind_run] using ih v
    | error e v => rfl

@[simp] theorem msbBits_length (v n : Nat) : (msbBits v n).length = n := by
  induction n with
  | zero => rfl
  | succ n ih => simp [msbBits, ih]

@[simp] theorem dropBits_run (w : Work) : dropBits w = .ok () { w with wacc := 0, wcnt := 0 } := rfl

@[simp] theorem openBits_run (x : List Byte) (start : Nat) (w : Work) :
    openBits x start w = .ok () { w with rpos := start, rest := x.drop start, racc := 0, rcnt := 0 } := rfl

@[simp] theorem bitsBytePos_run (w : Work) : bitsBytePos w = .ok w.rpos w := rfl

/-- R136: the next bit, from RACC or from the next input byte, or the caller's error at the end of the input. -/
theorem getBit_run (e : FatalError) (w : Work) :
    getBit e w =
      if w.rcnt = 0 then
        match w.rest with
        | [] => .error e w
        | b :: t => .ok b.msb { w with racc := b <<< 1, rpos := w.rpos + 1, rcnt := 7, rest := t }
      else .ok w.racc.msb { w with racc := w.racc <<< 1, rcnt := w.rcnt - 1 } := by
  simp only [getBit, Cmd.get_bind]
  split_ifs
  · cases w.rest <;> rfl
  · rfl

/-! ## The frame of a command -/

/-- A byte-producing command whose input is too long (R378). -/
theorem runCodec_tooLong (keep : FatalError → Bool) (body : List Byte → Cmd Unit) {s : State}
    (h : s.params.bufCap < s.ilen.toNat) :
    runCodec keep body s = finishCodec keep (.error inputTooLong (Work.start 0 (beginCommand s))) := by
  rw [runCodec, Cmd.bind_error]
  rw [readInput_run]
  exact if_pos h

/-- A byte-producing command whose input fits runs its body on the input (R360). -/
theorem runCodec_fits (keep : FatalError → Bool) (body : List Byte → Cmd Unit) {s : State}
    (h : s.ilen.toNat ≤ s.params.bufCap) :
    runCodec keep body s = finishCodec keep (body s.input (Work.start 0 (beginCommand s))) := by
  have hr : readInput (Work.start 0 (beginCommand s)) = .ok s.input (Work.start 0 (beginCommand s)) := by
    rw [readInput_run]
    exact if_neg (Nat.not_lt.mpr h)
  rw [runCodec, Cmd.bind_ok hr]

/-- A stage whose input is too long (R341, R378). -/
theorem runStage_tooLong (body : List Byte → Cmd Unit) (k : Nat) {s : State} {x : List Byte}
    (h : s.params.bufCap < x.length) : runStage body k s x = .error inputTooLong (Work.start k s) := by
  rw [runStage, Cmd.bind_error]
  rw [checkInputLength_run]
  exact if_pos h

/-- A stage whose input fits is its body (R341). -/
theorem runStage_fits (body : List Byte → Cmd Unit) (k : Nat) {s : State} {x : List Byte}
    (h : x.length ≤ s.params.bufCap) : runStage body k s x = body x (Work.start k s) := by
  have hc : checkInputLength x.length (Work.start k s) = .ok () (Work.start k s) := by
    rw [checkInputLength_run]
    exact if_neg (Nat.not_lt.mpr h)
  rw [runStage, Cmd.bind_ok hc]

theorem runStages_ok {body : List Byte → Cmd Unit} {k : Nat} {s : State} {x : List Byte} {w : Work}
    (h : runStage body k s x = .ok () w) (more : List (List Byte → Cmd Unit)) :
    runStages (body :: more) k s x = runStages more (k + 1) w.mach w.out.reverse := by
  simp only [runStages, h]

theorem runStages_error {body : List Byte → Cmd Unit} {k : Nat} {s : State} {x : List Byte} {e : FatalError}
    {w : Work} (h : runStage body k s x = .error e w) (more : List (List Byte → Cmd Unit)) :
    runStages (body :: more) k s x = .failed e k w.mach := by
  simp only [runStages, h]

/-! ## What bit and byte operations leave alone -/

/-- The working state a command body ends in, well or not. -/
def endWork : EStateM.Result FatalError Work α → Work
  | .ok _ w => w
  | .error _ w => w

/-- A sequence leaves the machine alone if both parts do. -/
theorem mach_bind {x : Cmd α} {f : α → Cmd β} {w : Work} (hx : (endWork (x w)).mach = w.mach)
    (hf : ∀ a v, (endWork (f a v)).mach = v.mach) : (endWork ((x >>= f) w)).mach = w.mach := by
  rw [Cmd.bind_run]
  cases h : x w with
  | ok a v => rw [h] at hx; exact (hf a v).trans hx
  | error e v => rw [h] at hx; exact hx

theorem emit_mach (b : Byte) (w : Work) : (endWork (emit b w)).mach = w.mach := by
  rw [emit_run]
  split_ifs <;> rfl

theorem emitAll_mach (bytes : List Byte) (w : Work) : (endWork (emitAll bytes w)).mach = w.mach := by
  induction bytes generalizing w with
  | nil => rfl
  | cons b t ih => exact mach_bind (emit_mach b w) fun _ v => ih v

theorem putBit_mach (b : Bool) (w : Work) : (endWork (putBit b w)).mach = w.mach := by
  rw [putBit_run]
  split_ifs <;> rfl

theorem putBitList_mach (bits : List Bool) (w : Work) : (endWork (putBitList bits w)).mach = w.mach := by
  induction bits generalizing w with
  | nil => rfl
  | cons b t ih => exact mach_bind (putBit_mach b w) fun _ v => ih v

/-- R133: nothing on a byte boundary, else zero bits up to it. -/
theorem flushBits_run (w : Work) :
    flushBits w = if w.wcnt = 0 then .ok () w else putBitList (List.replicate (8 - w.wcnt) false) w := by
  simp only [flushBits, Cmd.get_bind]
  split_ifs <;> rfl

theorem flushBits_mach (w : Work) : (endWork (flushBits w)).mach = w.mach := by
  rw [flushBits_run]
  split_ifs
  · rfl
  · exact putBitList_mach _ w

theorem getBit_mach (e : FatalError) (w : Work) : (endWork (getBit e w)).mach = w.mach := by
  rw [getBit_run]
  split_ifs
  · cases w.rest <;> rfl
  · rfl

theorem getBits_mach (e : FatalError) (n : Nat) (w : Work) : (endWork (getBits e n w)).mach = w.mach := by
  suffices h : ∀ v u, (endWork (getBitsInto e v n u)).mach = u.mach from h 0 w
  induction n with
  | zero => intro v u; rfl
  | succ n ih => intro v u; exact mach_bind (getBit_mach e u) fun b t => ih _ t

/-! ## The pipeline command -/

/-- A pipeline whose input is too long fails in stage 1 (R341). -/
theorem runPipeline_tooLong (stages : List (List Byte → Cmd Unit)) {s : State}
    (h : s.params.bufCap < s.ilen.toNat) :
    runPipeline stages s = finishPipeline (.failed inputTooLong 1 (beginCommand s)) := if_pos h

/-- A pipeline whose input fits runs its stages (R341). -/
theorem runPipeline_fits (stages : List (List Byte → Cmd Unit)) {s : State}
    (h : s.ilen.toNat ≤ s.params.bufCap) :
    runPipeline stages s = finishPipeline (runStages stages 1 (beginCommand s) s.input) :=
  if_neg (Nat.not_lt.mpr h)

/-! ## Reading a committed output -/

/-- A byte of the committed output (R71). -/
theorem readObuf_commitOutput {x : List Byte} (s : State) {i : Nat} (h : i < x.length) :
    readObuf (commitOutput x s) i = x[i] := by
  simp only [readObuf, commitOutput_obuf, Ram.read_refill, dif_pos h]

/-- OBUF[0..OLEN) holds the committed bytes (R26, R71). -/
theorem output_commitOutput {x : List Byte} (s : State) (h : x.length < 4294967296) :
    (commitOutput x s).output = x := by
  have hl : (commitOutput x s).olen.toNat = x.length := by
    simp only [commitOutput_olen, BitVec.toNat_ofNat]
    omega
  apply List.ext_getElem
  · rw [output_length, hl]
  · intro i h1 h2
    simp only [State.output, List.getElem_map, List.getElem_range]
    exact readObuf_commitOutput s h2

end Sys2Proof.Machine
end

