-- ==== Sys2Proof/Laws/Outcome.lean ====
section
/-! SUPPORT. How the ends of a command read in the words of the claims, and what a read of a unit's table gives after
one update. -/

namespace Sys2Proof.Machine

open Sys2Proof.Safety

/-! ## Ends of a command -/

@[simp] theorem finishCodec_ok (keep : FatalError → Bool) (w : Work) :
    finishCodec keep (.ok () w) = completeCommand (commitOutput w.out.reverse w.mach) := rfl

@[simp] theorem finishCodec_error (keep : FatalError → Bool) (e : FatalError) (w : Work) :
    finishCodec keep (.error e w)
      = completeCommand
          (raiseFatal e 0 (if keep e then commitOutput w.out.reverse w.mach else discardOutput w.mach)) := rfl

@[simp] theorem finishPipeline_finished (s : State) (x : List Byte) :
    finishPipeline (.finished s x) = completeCommand (commitOutput x s) := rfl

@[simp] theorem finishPipeline_failed (e : FatalError) (k : Nat) (s : State) :
    finishPipeline (.failed e k s) = completeCommand (raiseFatal e k (discardOutput s)) := rfl

/-- Begin and complete with nothing reported is success (R361). -/
theorem complete_begin (s : State) : completeCommand (beginCommand s) = succeeded s := rfl

/-- Error entry of a command that produces no bytes (R373). -/
theorem failUnit_begin (e : FatalError) (s : State) : failUnit e (beginCommand s) = failed e 0 s := rfl

/-- Error entry of a command that discards its output (R373). -/
theorem fail_discard_begin (e : FatalError) (k : Nat) (s : State) :
    completeCommand (raiseFatal e k (discardOutput (beginCommand s))) = failed e k (discardOutput s) := rfl

/-- Success of a command that commits its output (R361). -/
theorem complete_commit_begin (x : List Byte) (s : State) :
    completeCommand (commitOutput x (beginCommand s)) = succeeded (commitOutput x s) := rfl

/-- With no overflow the two ends that name STATUS.DOVF are the plain ones (R377). -/
@[simp] theorem succeededOverflow_false (s : State) : succeededOverflow false s = succeeded s := rfl

@[simp] theorem failedOverflow_false (e : FatalError) (s : State) : failedOverflow false e s = failed e 0 s := rfl

/-- A dictionary overflow reported before the command ends is the DOVF of either end (R377). -/
theorem complete_overflow_begin (s : State) :
    completeCommand (setDictionaryOverflow (beginCommand s)) = succeededOverflow true s := rfl

theorem fail_overflow_begin (e : FatalError) (s : State) :
    completeCommand (raiseFatal e 0 (setDictionaryOverflow (beginCommand s))) = failedOverflow true e s := rfl

/-- Updates of a unit commute with the start of a command. -/
theorem onAhuf_begin (f : Ahuf → Ahuf) (s : State) : onAhuf f (beginCommand s) = beginCommand (onAhuf f s) := rfl

theorem storeSuffixArray_begin (x : List Byte) (s : State) :
    storeSuffixArray x (beginCommand s) = beginCommand (storeSuffixArray x s) := rfl

theorem startCrc_begin (s : State) : startCrc (beginCommand s) = beginCommand (startCrc s) := rfl

theorem feedCrc_begin (b : Byte) (s : State) : feedCrc b (beginCommand s) = beginCommand (feedCrc b s) := rfl

/-! ## Reads after updates -/

/-- A record after one was replaced. -/
theorem ahufNode_setNode (u : Ahuf) (i j : BitVec 10) (n : AhufNode) :
    ahufNode (setNode u i n) j = if j = i then n else ahufNode u j := by
  simp only [ahufNode, setNode, Ram.read_write, BitVec.toNat_inj]

/-- An AHUF_LEAF entry after one was written. -/
theorem ahufLeaf_setLeaf (u : Ahuf) (x y : Nat) (i : BitVec 10) :
    ahufLeaf (setLeaf u x i) y = if y = x then i else ahufLeaf u y := by
  simp only [ahufLeaf, setLeaf, getCell_putCell]
  split_ifs <;> rfl

@[simp] theorem ahufNode_setLeaf (u : Ahuf) (x : Nat) (i j : BitVec 10) :
    ahufNode (setLeaf u x i) j = ahufNode u j := rfl

@[simp] theorem ahufLeaf_setNode (u : Ahuf) (i : BitVec 10) (n : AhufNode) (y : Nat) :
    ahufLeaf (setNode u i n) y = ahufLeaf u y := rfl

/-- A slot of the LZW tables after one was written. -/
theorem lzwSlot_setSlot {u : Lzw} (h : rising u.slots = true) (i j : Nat) (x : LzwSlot) :
    lzwSlot (setSlot u i x) j = if j = i then x else lzwSlot u j := by
  simp only [lzwSlot, setSlot]
  split_ifs with h1 h2 h2
  · rw [getCell_eraseCell h, if_pos h2, h1]; rfl
  · rw [getCell_eraseCell h, if_neg h2]
  · rw [getCell_putCell, if_pos h2]; rfl
  · rw [getCell_putCell, if_neg h2]

/-- Writing a slot keeps the canonical form of the LZW tables. -/
theorem rising_setSlot {u : Lzw} (h : rising u.slots = true) (i : Nat) (x : LzwSlot) :
    rising (setSlot u i x).slots = true := by
  simp only [setSlot]
  split_ifs
  · exact rising_eraseCell h i
  · exact rising_putCell h i x

/-! ## Checksums -/

@[simp] theorem crcSteps_nil (p : Params) (acc : Word) : crcSteps p acc [] = acc := rfl

@[simp] theorem crcSteps_cons (p : Params) (acc : Word) (b : Byte) (x : List Byte) :
    crcSteps p acc (b :: x) = crcSteps p (crcStep p acc b) x := rfl

theorem crcSteps_append (p : Params) (acc : Word) (x y : List Byte) :
    crcSteps p acc (x ++ y) = crcSteps p (crcSteps p acc x) y := by simp [crcSteps]

/-! ## The plain-list LZW decoder -/

@[simp] theorem dictDecode_nil : dictDecode [] = ⟨[], [], false, .cut⟩ := rfl

@[simp] theorem dictDecodeFrom_nil (dict : List (Nat × Byte)) (old : Nat) :
    dictDecodeFrom dict old [] = ⟨[], dict, false, .cut⟩ := rfl

/-- The end marker ends the decoding (R316). -/
@[simp] theorem dictDecodeFrom_marker (dict : List (Nat × Byte)) (old : Nat) (more : List Nat) :
    dictDecodeFrom dict old (16383 :: more) = ⟨[], dict, false, .marker⟩ := rfl

/-- A literal is its own string (R300). -/
theorem codeString_literal (dict : List (Nat × Byte)) {c : Nat} (h : c < 256) :
    codeString dict c = [BitVec.ofNat 8 c] := by
  cases c with
  | zero => rfl
  | succ n => simp [codeString, dictString, h]

/-! ## The queue of the static Huffman tree -/

/-- Only the empty queue has no least node (R211). -/
theorem popLeast_eq_none {q : List QueueNode} : popLeast q = none ↔ q = [] := by
  cases q with
  | nil => simp [popLeast]
  | cons a t =>
    simp only [popLeast, reduceCtorEq, iff_false]
    split
    · simp
    · split <;> simp

/-- Removing a node leaves the others (R211). -/
theorem popLeast_perm {q r : List QueueNode} {a : QueueNode} (h : popLeast q = some (a, r)) : q.Perm (a :: r) := by
  induction q generalizing a r with
  | nil => simp [popLeast] at h
  | cons c t ih =>
    simp only [popLeast] at h
    split at h
    · rename_i hn
      obtain ⟨rfl, rfl⟩ : c = a ∧ [] = r := by simpa using h
      rw [popLeast_eq_none.mp hn]
    · rename_i b x hb
      split at h <;> obtain ⟨rfl, rfl⟩ := Prod.mk.inj (Option.some.inj h)
      · exact (ih hb).cons _
      · exact ((ih hb).cons _).trans (List.Perm.swap _ _ _)

/-- `queueLess` is the order of R211. -/
theorem queueLess_iff {a b : QueueNode} : queueLess a b = true ↔ RemovedBefore a b := by
  simp [queueLess, RemovedBefore]

/-- No node left comes before the node removed (R211). -/
theorem popLeast_least {q r : List QueueNode} {a : QueueNode} (h : popLeast q = some (a, r)) :
    ∀ c ∈ r, ¬ RemovedBefore c a := by
  induction q generalizing a r with
  | nil => simp [popLeast] at h
  | cons d t ih =>
    simp only [popLeast] at h
    split at h
    · obtain ⟨rfl, rfl⟩ : d = a ∧ [] = r := by simpa using h
      simp
    · rename_i b x hb
      split at h <;> rename_i hl <;> obtain ⟨rfl, rfl⟩ := Prod.mk.inj (Option.some.inj h)
      · rw [queueLess_iff] at hl
        intro c hc hca
        rcases List.mem_cons.mp hc with rfl | hc
        · unfold RemovedBefore at hl hca; omega
        · have := ih hb c hc
          unfold RemovedBefore at hl hca this; omega
      · rw [queueLess_iff] at hl
        intro c hc
        rcases List.mem_cons.mp hc with rfl | hc
        · exact hl
        · exact ih hb c hc

end Sys2Proof.Machine
end

