-- ==== Sys2Proof/Laws/PerInstr.lean ====
section
/-! SUPPORT. A family of lemmas, one per command: the shape of its command word (spec/30_encoding.md R100). -/

namespace Sys2Proof.Laws.WordShape

/-- The word of a command: RSV is 0, and its number is the opcode. -/
def Statement (i : Instr) : Prop :=
  cmdRsv (encode i) = 0 ∧ (encode i).toNat = (opcode i).toNat ∧ i.wellFormed = true

theorem softReset : Statement .softReset := ⟨rfl, rfl, rfl⟩
theorem xfer : Statement .xfer := ⟨rfl, rfl, rfl⟩
theorem crcReset : Statement .crcReset := ⟨rfl, rfl, rfl⟩
theorem crcByte : Statement .crcByte := ⟨rfl, rfl, rfl⟩
theorem crcBuf : Statement .crcBuf := ⟨rfl, rfl, rfl⟩
theorem crcRead : Statement .crcRead := ⟨rfl, rfl, rfl⟩
theorem saBuild : Statement .saBuild := ⟨rfl, rfl, rfl⟩
theorem bwtFwd : Statement .bwtFwd := ⟨rfl, rfl, rfl⟩
theorem bwtInv : Statement .bwtInv := ⟨rfl, rfl, rfl⟩
theorem mtfEnc : Statement .mtfEnc := ⟨rfl, rfl, rfl⟩
theorem mtfDec : Statement .mtfDec := ⟨rfl, rfl, rfl⟩
theorem shufEnc : Statement .shufEnc := ⟨rfl, rfl, rfl⟩
theorem shufDec : Statement .shufDec := ⟨rfl, rfl, rfl⟩
theorem ahufEnc : Statement .ahufEnc := ⟨rfl, rfl, rfl⟩
theorem ahufDec : Statement .ahufDec := ⟨rfl, rfl, rfl⟩
theorem ahufInit : Statement .ahufInit := ⟨rfl, rfl, rfl⟩
theorem ahufUpdate : Statement .ahufUpdate := ⟨rfl, rfl, rfl⟩
theorem lzwEnc : Statement .lzwEnc := ⟨rfl, rfl, rfl⟩
theorem lzwDec : Statement .lzwDec := ⟨rfl, rfl, rfl⟩
theorem lzwInit : Statement .lzwInit := ⟨rfl, rfl, rfl⟩
theorem lzwProbe : Statement .lzwProbe := ⟨rfl, rfl, rfl⟩
theorem lzwInsert : Statement .lzwInsert := ⟨rfl, rfl, rfl⟩
theorem pBwtLzwC : Statement .pBwtLzwC := ⟨rfl, rfl, rfl⟩
theorem pBwtLzwD : Statement .pBwtLzwD := ⟨rfl, rfl, rfl⟩
theorem pBwtMtfShufC : Statement .pBwtMtfShufC := ⟨rfl, rfl, rfl⟩
theorem pBwtMtfShufD : Statement .pBwtMtfShufD := ⟨rfl, rfl, rfl⟩
theorem pBwtMtfAhufC : Statement .pBwtMtfAhufC := ⟨rfl, rfl, rfl⟩
theorem pBwtMtfAhufD : Statement .pBwtMtfAhufD := ⟨rfl, rfl, rfl⟩

end Sys2Proof.Laws.WordShape
end

