-- ==== Sys2Proof/Tests/Slice0.lean ====
section
/-! SUPPORT. Tests: the well-formedness checks refuse ill-formed terms; every command word written out from
spec/30_encoding.md R101 decodes to its command; one or two steps per command with the results of
spec/95_test_vectors.md; and for every obligation with hypotheses, states that meet them. -/

namespace Sys2Proof.Tests

set_option Elab.async false

open Sys2Proof.Machine Sys2Proof.Safety

/-! ## Helpers -/

/-- A machine with a small BUF_CAP, after reset. -/
def machine (cap : Nat) : State := State.resetWith { bufCap := cap }

/-- With an input. -/
def loaded (x : List Byte) (cap : Nat := 64) : State := hostLoad x (machine cap)

/-- With an operand. -/
def withArg (v : Word) : State := { machine 16 with arg0 := v }

/-- With one access of the host to come. -/
def queued (a : HostAction) (s : State) : State := { s with hostQueue := [a] }

/-- The state after a command. -/
def after (i : Instr) (s : State) : State :=
  match exec i s with
  | .next t => t
  | .fault _ => s
  | .refused _ => s

/-- The state after a step. -/
def stepped (s : State) : State :=
  match step s with
  | .next t => t
  | .fault _ => s
  | .refused _ => s

/-- What the tests look at: STATUS, ERRINFO and the output. -/
def report (s : State) : Nat × Nat × List Byte := ((statusWord s.status).toNat, s.errinfo.toNat, s.output)

/-- The bytes of "ab". -/
def ab : List Byte := [0x61, 0x62]

/-- The bytes of "banana". -/
def banana : List Byte := [0x62, 0x61, 0x6E, 0x61, 0x6E, 0x61]

/-- An adaptive container whose header is right but for the CRC field 0. -/
def container (payload : List Byte) : List Byte :=
  [0x5A, 0x52, 0x41, 0x48, BitVec.ofNat 8 (16 + payload.length), 0, 0, 0, 0, 0, 0, 0, 0, 0, 0, 0] ++ payload

/-- An adaptive container of the empty block whose CRC field is wrong. -/
def emptyWarned : List Byte := (container [0x80]).set 12 1

/-! ## Well-formedness -/

theorem test_wf_params_small : Params.wf { bufCap := 15 } = false := by decide
theorem test_wf_params_large : Params.wf { bufCap := 268435457 } = false := by decide
theorem test_wf_register_unaligned : registerOffsetWellFormed 0x0A = false := by decide
theorem test_wf_register_beyond : registerOffsetWellFormed 0x34 = false := by decide
theorem test_wf_write_register : (HostAction.writeReg 0x35 0).wellFormed {} = false := by decide
theorem test_wf_read_register : (HostAction.readReg 0x34).wellFormed {} = false := by decide
theorem test_wf_write_window : (HostAction.writeWindow .ibuf 16 0).wellFormed { bufCap := 16 } = false := by decide
theorem test_wf_write_byte : (HostAction.writeWindow .ibuf 15 0x100).wellFormed { bufCap := 16 } = false := by decide
theorem test_wf_read_window : (HostAction.readWindow .samem 17).wellFormed { bufCap := 16 } = false := by decide
theorem test_wf_load :
    (HostAction.load (List.replicate 17 0)).wellFormed { bufCap := 16 } = false := by decide
theorem test_wf_arg_byte : Instr.argWellFormed 0x100#32 .crcByte = false := by decide
theorem test_wf_arg_pair : Instr.argWellFormed 0x3FFF00#32 .lzwProbe = false := by decide
theorem test_wf_accepts :
    Params.wf {} = true ∧ registerOffsetWellFormed 0x30 = true ∧ Instr.argWellFormed 0xFF#32 .crcByte = true
      ∧ Instr.argWellFormed 0x3FFEFF#32 .lzwInsert = true ∧ Instr.wellFormed .lzwInsert = true := by decide

/-! ## Decoding: words written out from R101 -/

theorem test_decode_system :
    decode 0b00000000_00000000_00000000_0000_0001#32 = .ok .softReset
      ∧ decode 0b00000000_00000000_00000000_0000_0010#32 = .ok .xfer := by decide
theorem test_decode_crc :
    decode 0b00000000_00000000_00000000_0001_0000#32 = .ok .crcReset
      ∧ decode 0b00000000_00000000_00000000_0001_0001#32 = .ok .crcByte
      ∧ decode 0b00000000_00000000_00000000_0001_0010#32 = .ok .crcBuf
      ∧ decode 0b00000000_00000000_00000000_0001_0011#32 = .ok .crcRead := by decide
theorem test_decode_sa : decode 0b00000000_00000000_00000000_0010_0000#32 = .ok .saBuild := by decide
theorem test_decode_bwt :
    decode 0b00000000_00000000_00000000_0011_0000#32 = .ok .bwtFwd
      ∧ decode 0b00000000_00000000_00000000_0011_0001#32 = .ok .bwtInv := by decide
theorem test_decode_mtf :
    decode 0b00000000_00000000_00000000_0100_0000#32 = .ok .mtfEnc
      ∧ decode 0b00000000_00000000_00000000_0100_0001#32 = .ok .mtfDec := by decide
theorem test_decode_shuf :
    decode 0b00000000_00000000_00000000_0101_0000#32 = .ok .shufEnc
      ∧ decode 0b00000000_00000000_00000000_0101_0001#32 = .ok .shufDec := by decide
theorem test_decode_ahuf :
    decode 0b00000000_00000000_00000000_0110_0000#32 = .ok .ahufEnc
      ∧ decode 0b00000000_00000000_00000000_0110_0001#32 = .ok .ahufDec
      ∧ decode 0b00000000_00000000_00000000_0110_0010#32 = .ok .ahufInit
      ∧ decode 0b00000000_00000000_00000000_0110_0011#32 = .ok .ahufUpdate := by decide
theorem test_decode_lzw :
    decode 0b00000000_00000000_00000000_0111_0000#32 = .ok .lzwEnc
      ∧ decode 0b00000000_00000000_00000000_0111_0001#32 = .ok .lzwDec
      ∧ decode 0b00000000_00000000_00000000_0111_0010#32 = .ok .lzwInit
      ∧ decode 0b00000000_00000000_00000000_0111_0011#32 = .ok .lzwProbe
      ∧ decode 0b00000000_00000000_00000000_0111_0100#32 = .ok .lzwInsert := by decide
theorem test_decode_pipelines :
    decode 0b00000000_00000000_00000000_1000_0000#32 = .ok .pBwtLzwC
      ∧ decode 0b00000000_00000000_00000000_1000_0001#32 = .ok .pBwtLzwD
      ∧ decode 0b00000000_00000000_00000000_1001_0000#32 = .ok .pBwtMtfShufC
      ∧ decode 0b00000000_00000000_00000000_1001_0001#32 = .ok .pBwtMtfShufD
      ∧ decode 0b00000000_00000000_00000000_1010_0000#32 = .ok .pBwtMtfAhufC
      ∧ decode 0b00000000_00000000_00000000_1010_0001#32 = .ok .pBwtMtfAhufD := by decide
theorem test_decode_rejects :
    decode 0x00000000#32 = .error .unknownOpcode ∧ decode 0x00000003#32 = .error .unknownOpcode
      ∧ decode 0x00000075#32 = .error .unknownOpcode ∧ decode 0x00000130#32 = .error .reservedBits
      ∧ decode 0x80000001#32 = .error .reservedBits := by decide
theorem test_table_word : decodeTableWord 32 0x74 = some .lzwInsert := by decide
theorem test_fetch_word :
    stepped (State.reset.withFetchWord 32 0x13) = after .crcRead State.reset := by decide +kernel

/-! ## The commands, with the values of spec/95_test_vectors.md -/

/-- Program 5, last command: a used machine goes back to STATUS 0 and an empty log. -/
theorem test_soft_reset :
    let t := after .softReset { machine 16 with faultlog := 0x24, ilen := 27, res0 := 5, crcacc := 0xDBB9C5E7 }
    (statusWord t.status, t.faultlog, t.ilen, t.res0, t.crcacc) = (0, 0, 0, 0, 0xFFFFFFFF#32) := by decide +kernel

/-- Program 2: XFER after BWT_FWD of "ab". -/
theorem test_xfer :
    (after .xfer (after .bwtFwd (loaded ab))).input = [0x62, 0x61, 1, 0, 0, 0] := by decide +kernel

theorem test_crc_reset : (after .crcReset { machine 16 with crcacc := 7 }).crcacc = 0xFFFFFFFF#32 := by decide +kernel

/-- C2. -/
theorem test_crc_byte : (after .crcByte (withArg 0x61)).crcacc = 0x174841BC#32 := by decide +kernel

/-- Section 9: UnsupportedOperation(2). -/
theorem test_crc_byte_rejected :
    (report (after .crcByte (withArg 0x100)), (after .crcByte (withArg 0x100)).crcacc)
      = ((0x52, 2, []), 0xFFFFFFFF#32) := by decide +kernel

/-- C3. -/
theorem test_crc_buf : (after .crcBuf (loaded ab)).crcacc = 0x617CB792#32 := by decide +kernel

/-- C4. -/
theorem test_crc_read :
    (after .crcRead { machine 16 with crcacc := 0xCADBBE3D }).res0 = 0x352441C2#32 := by decide +kernel

/-- T8. -/
theorem test_sa_build :
    ((List.range 7).map fun r => readSamem (after .saBuild (loaded banana)) r) = [6, 5, 3, 1, 0, 4, 2] := by
  decide +kernel

/-- T8. -/
theorem test_bwt_fwd :
    (report (after .bwtFwd (loaded banana)), (after .bwtFwd (loaded banana)).res0)
      = ((2, 0, [0x61, 0x6E, 0x6E, 0x62, 0x61, 0x61, 4, 0, 0, 0]), 4#32) := by decide +kernel

/-- Section 9: BUF_CAP = 16 and ILEN = 13. -/
theorem test_bwt_fwd_capacity :
    report (after .bwtFwd (loaded (List.replicate 13 7) 16)) = (0x62, 2, []) := by decide +kernel

/-- T8. -/
theorem test_bwt_inv :
    report (after .bwtInv (loaded [0x61, 0x6E, 0x6E, 0x62, 0x61, 0x61, 4, 0, 0, 0])) = (2, 0, banana) := by
  decide +kernel

/-- Section 9: sub-cause 14. -/
theorem test_bwt_inv_sentinel :
    report (after .bwtInv (loaded [0x61, 0x61, 3, 0, 0, 0])) = (0x12, 14, []) := by decide +kernel

/-- Section 4. -/
theorem test_mtf_enc :
    report (after .mtfEnc (loaded banana)) = (2, 0, [0x62, 0x62, 0x6E, 1, 1, 1]) := by decide +kernel

/-- Section 4. -/
theorem test_mtf_dec :
    report (after .mtfDec (loaded [0xFF, 0, 0xFF])) = (2, 0, [0xFF, 0xFF, 0xFE]) := by decide +kernel

/-- H8: ties broken by key. -/
theorem test_shuf_enc :
    report (after .shufEnc (loaded [0x61, 0x62, 0x63]))
      = (2, 0, [0x58, 0x63, 0x61, 0x62, 5, 0, 0, 0, 0xB0]) := by decide +kernel

/-- H2: the single leaf. -/
theorem test_shuf_enc_single :
    report (after .shufEnc (loaded [0x61])) = (2, 0, [0x80, 0x61, 1, 0, 0, 0, 0]) := by decide +kernel

/-- H8. -/
theorem test_shuf_dec :
    report (after .shufDec (loaded [0x58, 0x63, 0x61, 0x62, 5, 0, 0, 0, 0xB0]))
      = (2, 0, [0x61, 0x62, 0x63]) := by decide +kernel

/-- HE10. -/
theorem test_shuf_dec_corrupt :
    report (after .shufDec (loaded [0x80, 0x61, 1, 0, 0, 0, 0x80])) = (0x42, 3, []) := by decide +kernel

/-- A6. -/
theorem test_ahuf_enc :
    report (after .ahufEnc (loaded [0x61, 0x62, 0x61]))
      = (2, 0, [0x5A, 0x52, 0x41, 0x48, 0x13, 0, 0, 0, 0, 0, 0, 0, 0xEE, 0x20, 0x2A, 0xDB, 0x30, 0x8C, 0x5E]) := by
  decide +kernel

/-- AD9: the warning. -/
theorem test_ahuf_dec_warns :
    report (after .ahufDec
        (loaded [0x5A, 0x52, 0x41, 0x48, 0x12, 0, 0, 0, 0, 0, 0, 0, 0x44, 0xBE, 0xB7, 0xE8, 0x30, 0xC0]))
      = (6, 1, [0x61]) := by decide +kernel

/-- AD10: the tree is A2's. -/
theorem test_ahuf_dec_corrupt :
    let t := after .ahufDec
      (loaded [0x5A, 0x52, 0x41, 0x48, 0x13, 0, 0, 0, 0, 0, 0, 0, 0, 0, 0, 0, 0x30, 0x8C, 0x20])
    (report t, t.ahuf.nalloc) = ((0x42, 2, []), 5#32) := by decide +kernel

theorem test_ahuf_init :
    (after .ahufInit (after .ahufUpdate (withArg 0x61))).ahuf.nalloc = 3#32 := by decide +kernel

/-- A2: the tree after one byte, as (PARENT, LEFT, RIGHT, WEIGHT, ORDER, SYM). -/
theorem test_ahuf_update :
    let u := (after .ahufUpdate (withArg 0x61)).ahuf
    (u.nalloc, record u 0, record u 4)
      = (5#32, ⟨noIndex, 2, 1, 2, 516, noSym⟩, ⟨2, noIndex, noIndex, 1, 513, 0x61⟩) := by decide +kernel

/-- Program 3, fourth line: the second 'a' changes places with the EOF leaf. -/
theorem test_ahuf_update_swaps :
    let u := ahufTreeAfter (initTree State.reset.ahuf) [0x61, 0x62, 0x61]
    (record u 4, record u 1, record u 3)
      = (⟨0, noIndex, noIndex, 2, 514, 0x61⟩, ⟨2, noIndex, noIndex, 1, 513, 256⟩,
          ⟨2, 5, 6, 1, 512, noSym⟩) := by decide +kernel

/-- L4. -/
theorem test_lzw_enc :
    report (after .lzwEnc (loaded [0x61, 0x61, 0x61])) = (2, 0, [1, 0x84, 0x10, 0x0F, 0xFF, 0xC0, 0]) := by
  decide +kernel

/-- L4: the not-yet-defined code. -/
theorem test_lzw_dec :
    let t := after .lzwDec (loaded [1, 0x84, 0x10, 0x0F, 0xFF, 0xC0, 0])
    (report t, lzwSlot t.lzw 256) = ((2, 0, [0x61, 0x61, 0x61]), ⟨none, 97, 0x61⟩) := by decide +kernel

/-- LE6: the bytes decoded so far are kept. -/
theorem test_lzw_dec_keeps :
    report (after .lzwDec (loaded [1, 0x84, 0x10, 0x14, 0xFF, 0xFF, 0])) = (0x12, 12, [0x61]) := by decide +kernel

theorem test_lzw_init : (after .lzwInit (after .lzwInsert (withArg 0))).lzw = ⟨256, []⟩ := by decide +kernel

/-- Program 4: a probe after two inserts that collide. -/
theorem test_lzw_probe :
    let s := after .lzwInsert { after .lzwInsert (withArg 0) with arg0 := 0x4001 }
    let t := after .lzwProbe { s with arg0 := 0x8002 }
    (t.res0, t.res1) = (0x00004677#32, 0x00030102#32) := by decide +kernel

/-- Program 4: the collision takes the step 1 from slot 0. -/
theorem test_lzw_insert :
    let t := after .lzwInsert { after .lzwInsert (withArg 0) with arg0 := 0x4001 }
    (t.res0, t.res1, lzwSlot t.lzw 18040) = (0x00004678#32, 0x00020101#32, ⟨some 257, 64, 1⟩) := by decide +kernel

/-- P1c. -/
theorem test_p_bwt_lzw_c :
    let t := after .pBwtLzwC (loaded ab)
    (report t, t.res0) = ((2, 0, [1, 0x88, 6, 0x10, 0, 0x40, 0, 4, 0x0F, 0xFF, 0xF0, 0]), 1#32) := by decide +kernel

/-- P1c. -/
theorem test_p_bwt_lzw_d :
    report (after .pBwtLzwD (loaded [1, 0x88, 6, 0x10, 0, 0x40, 0, 4, 0x0F, 0xFF, 0xF0, 0])) = (2, 0, ab) := by
  decide +kernel

/-- Section 8: stage 2 rejects the intermediate. -/
theorem test_p_bwt_lzw_d_stage :
    report (after .pBwtLzwD (loaded [1, 0x87, 0xFF, 0xF0, 0])) = (0x212, 13, []) := by decide +kernel

/-- P2d. -/
theorem test_p_bwt_mtf_shuf_c :
    report (after .pBwtMtfShufC (loaded ab))
      = (2, 0, [0x58, 0x62, 0, 3, 0x0A, 0, 0, 0, 0x3E, 0x80]) := by decide +kernel

/-- P2d. -/
theorem test_p_bwt_mtf_shuf_d :
    report (after .pBwtMtfShufD (loaded [0x58, 0x62, 0, 3, 0x0A, 0, 0, 0, 0x3E, 0x80])) = (2, 0, ab) := by
  decide +kernel

/-- P3c. -/
theorem test_p_bwt_mtf_ahuf_c :
    report (after .pBwtMtfAhufC (loaded ab))
      = (2, 0, [0x5A, 0x52, 0x41, 0x48, 0x16, 0, 0, 0, 0, 0, 0, 0, 0x68, 0x3A, 0xFF, 7, 0x31, 0x20, 0x19, 0x80, 0x12,
          0x40]) := by decide +kernel

/-- Program 5, first command, on P3c with byte 12 changed: the warning of stage 1. -/
theorem test_p_bwt_mtf_ahuf_d :
    report (after .pBwtMtfAhufD (loaded [0x5A, 0x52, 0x41, 0x48, 0x16, 0, 0, 0, 0, 0, 0, 0, 0x69, 0x3A, 0xFF, 7, 0x31,
        0x20, 0x19, 0x80, 0x12, 0x40])) = (0x106, 1, ab) := by decide +kernel

/-- R342: the warning of stage 1 and then MalformedContainer(13) of stage 3; STATUS is DONE, WARN, ERR 1, STAGE 3. -/
theorem test_p_bwt_mtf_ahuf_d_warns_and_fails :
    let t := after .pBwtMtfAhufD (loaded emptyWarned)
    (report t, t.faultlog) = ((0x316, 13, []), 6#32) := by decide +kernel

/-- R346: the empty input is no compressed form, and stage 3 says so. -/
theorem test_p_bwt_mtf_shuf_d_empty : report (after .pBwtMtfShufD (loaded [])) = (0x312, 13, []) := by decide +kernel

/-- R20: a host read of CMD gives 0, of AHUF_NALLOC the count. -/
theorem test_host_reads :
    hostReadReg (machine 16) 0 = 0 ∧ hostReadReg (machine 16) 0x2C = 3 ∧ hostReadReg (machine 16) 0x24 = 0xFFFFFFFF#32
      ∧ hostReadReg (machine 16) 0x30 = 256 ∧ hostReadCrctab (machine 16) 0x43 = 0xEFD5102A#32 := by decide +kernel

/-! ## States that meet the hypotheses of the obligations, by obligation and clause -/

/-- An input of 16 bytes fits a BUF_CAP of 16, one of 17 does not. -/
theorem witness_InputFits :
    (machine 16).params.wf = true ∧ InputFits (loaded (List.replicate 16 7) 16)
      ∧ InputFits (loaded [] 16) ∧ ¬ InputFits { machine 16 with ilen := 17 }
      ∧ (machine 16).params.bufCap < ({ machine 16 with ilen := 17 } : State).ilen.toNat := by
  unfold InputFits
  decide +kernel

theorem witness_DecodedWordIsItsEncoding : decode 0x74#32 = .ok .lzwInsert := by decide

/-- A word with a reserved bit, the words just outside the opcode map, and a host write of one. -/
theorem witness_IllegalWordRejected :
    cmdRsv 0x101#32 ≠ 0 ∧ (cmdRsv 0x75#32 = 0 ∧ ∀ i : Instr, 0x75#32 ≠ encode i)
      ∧ (cmdRsv 0#32 = 0 ∧ ∀ i : Instr, 0#32 ≠ encode i)
      ∧ (queued (.writeReg 0x00 0x101) (machine 16)).hostQueue = .writeReg 0x00 0x101#32 :: []
      ∧ ∀ i : Instr, 0x101#32 ≠ encode i := by
  refine ⟨by decide, ⟨by decide, fun i => ?_⟩, ⟨by decide, fun i => ?_⟩, rfl, fun i => ?_⟩ <;>
    cases i <;> decide

theorem witness_StepRunsDecodedCommand :
    (queued (.writeReg 0x00 0xA1) (machine 16)).hostQueue = .writeReg 0x00 0xA1#32 :: []
      ∧ decode 0xA1#32 = .ok .pBwtMtfAhufD := by decide

/-- Each kind of access, at the last register, the first offset past it and the last window entry. -/
theorem witness_HostRegisterAccess :
    (queued (.readReg 0x30) (machine 16)).hostQueue = .readReg 0x30 :: []
      ∧ (16 < Window.size (machine 16).params .samem
        ∧ (queued (.readWindow .samem 16) (machine 16)).hostQueue = .readWindow .samem 16 :: [])
      ∧ (queued (.writeReg 0x08 5) (machine 16)).hostQueue = .writeReg 0x08 5 :: []
      ∧ (queued (.writeReg 0x14 5) (machine 16)).hostQueue = .writeReg 0x14 5 :: []
      ∧ (queued (.writeReg 0x30 5) (machine 16)).hostQueue = .writeReg 0x30 5 :: [] ∧ 0x30 ∉ [0x00, 0x08, 0x14]
      ∧ (queued (.writeReg 0x34 5) (machine 16)).hostQueue = .writeReg 0x34 5 :: [] ∧ 0x34 ∉ [0x00, 0x08, 0x14]
      ∧ (machine 16).hostQueue = [] ∧ 0x30 < 0x34 ∧ 0x0A % 4 ≠ 0 := by decide

/-- A load that fills IBUF, and a write of its last byte. -/
theorem witness_HostWritesInputBuffer :
    ((machine 16).params.wf = true ∧ (List.replicate 16 (7 : Byte)).length ≤ (machine 16).params.bufCap
        ∧ (queued (.load (List.replicate 16 7)) (machine 16)).hostQueue = .load (List.replicate 16 7) :: [])
      ∧ 15 < (machine 16).params.bufCap
      ∧ (queued (.writeWindow .ibuf 15 7) (machine 16)).hostQueue = .writeWindow .ibuf 15 7 :: [] := by decide

/-- The first entry past a window, a load one byte too long, and a write to the last entry of a read-only window. -/
theorem witness_HostAccessBounds :
    ((queued (.writeWindow .obuf 16 7) (machine 16)).hostQueue = .writeWindow .obuf 16 7 :: []
        ∧ Window.size (machine 16).params .obuf ≤ 16)
      ∧ ((queued (.readWindow .lzw 18041) (machine 16)).hostQueue = .readWindow .lzw 18041 :: []
        ∧ Window.size (machine 16).params .lzw ≤ 18041)
      ∧ ((queued (.load (List.replicate 17 0)) (machine 16)).hostQueue = .load (List.replicate 17 0) :: []
        ∧ (machine 16).params.bufCap < (List.replicate 17 (0 : Byte)).length)
      ∧ ((queued (.writeWindow .arena 514 7) (machine 16)).hostQueue = .writeWindow .arena 514 7 :: []
        ∧ 514 < Window.size (machine 16).params .arena ∧ Window.arena ≠ .ibuf) := by decide

theorem witness_HardwareResetState :
    (queued .hardwareReset (machine 16)).hostQueue = .hardwareReset :: [] := by decide

/-- The last operand that is a byte and the first that is not (CRC_BYTE, AHUF_UPDATE). -/
theorem witness_argument_byte :
    (withArg 0xFF).arg0.toNat < 256 ∧ 256 ≤ (withArg 0x100).arg0.toNat := by decide

/-- CRC_BUF, SA_BUILD, MTF_ENC, MTF_DEC, CRC programs, round trips of move-to-front: see `witness_InputFits`. -/
theorem witness_ChecksumOfInput : InputFits (loaded banana) := by unfold InputFits; decide +kernel

/-- The suffix array of the byte 05, as any list in suffix order. -/
theorem witness_SuffixArrayIsTheSortedPermutation :
    [1, 0].Perm (List.range (([5] : List Byte).length + 1)) ∧ [1, 0].Pairwise (SuffixBefore (symbols [5])) := by
  refine ⟨by decide, List.pairwise_pair.mpr ⟨0, 0, 6, rfl, rfl, by decide, ?_⟩⟩
  intro m hm
  omega

theorem witness_SentinelIndexRange : ([] : List Byte) = [] ∧ ab ≠ [] := by decide

/-- BWT_FWD at 12, 13, 16 and 17 bytes with BUF_CAP 16. -/
theorem witness_BwtFwdOutput :
    (loaded (List.replicate 12 7) 16).ilen.toNat + 4 ≤ (machine 16).params.bufCap
      ∧ (InputFits (loaded (List.replicate 13 7) 16)
        ∧ (machine 16).params.bufCap < (loaded (List.replicate 13 7) 16).ilen.toNat + 4)
      ∧ (InputFits (loaded (List.replicate 16 7) 16)
        ∧ (machine 16).params.bufCap < (loaded (List.replicate 16 7) 16).ilen.toNat + 4)
      ∧ (machine 16).params.bufCap < ({ machine 16 with ilen := 17 } : State).ilen.toNat := by
  unfold InputFits
  decide +kernel

theorem witness_BwtInvUndoesBwtFwd :
    (loaded (bwt banana)).params.wf = true ∧ InputFits (loaded (bwt banana))
      ∧ (loaded (bwt banana)).input = bwt banana := by
  unfold InputFits
  decide +kernel

/-- Three bytes; four bytes with sentinelIndex 1; one byte with sentinelIndex 0 and with 2. -/
theorem witness_BwtInvRejectsBadTrailer :
    (InputFits (loaded [0x61, 0, 0]) ∧ (loaded [0x61, 0, 0]).ilen.toNat < 4)
      ∧ (InputFits (loaded [1, 0, 0, 0]) ∧ (loaded [1, 0, 0, 0]).ilen.toNat = 4
        ∧ unle (loaded [1, 0, 0, 0]).input ≠ 0)
      ∧ ∀ x ∈ ([[0x61, 0, 0, 0, 0], [0x61, 2, 0, 0, 0]] : List (List Byte)),
        InputFits (loaded x) ∧ 4 < (loaded x).ilen.toNat
          ∧ (unle ((loaded x).input.drop ((loaded x).ilen.toNat - 4)) < 1
            ∨ (loaded x).ilen.toNat - 4 < unle ((loaded x).input.drop ((loaded x).ilen.toNat - 4))) := by
  unfold InputFits
  decide +kernel

/-- No byte; two bytes at both ends of the range, the first of them no image of BWT_FWD. -/
theorem witness_BwtInvCompletesOnPossibleTrailer :
    ∀ x ∈ ([[0, 0, 0, 0], [0x61, 0x61, 1, 0, 0, 0], [0x61, 0x61, 2, 0, 0, 0]] : List (List Byte)),
      (loaded x).params.wf = true ∧ InputFits (loaded x) ∧ 4 ≤ (loaded x).ilen.toNat
        ∧ sentinelPossible ((loaded x).ilen.toNat - 4)
            (unle ((loaded x).input.drop ((loaded x).ilen.toNat - 4))) = true := by
  unfold InputFits
  decide +kernel

/-- Nine bits take two bytes; sixteen bits are the whole of two bytes. -/
theorem witness_BitsWrittenAreBitsRead :
    (([true, true, false, true, false, false, true, false, true].length + 7) / 8 ≤ (machine 16).params.bufCap)
      ∧ 16 ≤ 8 * ([0xA5, 0x0F] : List Byte).length ∧ 16 = 8 * ([0xA5, 0x0F] : List Byte).length := by decide

theorem witness_HuffTreeMergesLeastFrequent : ab ≠ [] := by decide

/-- Two leaves, and the single leaf; a value that occurs less often than another. -/
theorem witness_HuffCodesArePrefixFree :
    (huffTree ab = some (.node (.leaf 0x61) (.leaf 0x62)) ∧ (0x61 : Byte) ∈ usedBytes ab ∧ (0x62 : Byte) ∈ usedBytes ab
        ∧ (0x61 : Byte) ≠ 0x62)
      ∧ huffTree [0x61, 0x61] = some (.leaf 0x61) ∧ usedBytes [0x61, 0x61] = [0x61]
      ∧ (huffTree banana ≠ none ∧ (0x62 : Byte) ∈ usedBytes banana ∧ (0x6E : Byte) ∈ usedBytes banana
        ∧ banana.count 0x62 < banana.count 0x6E) := by decide +kernel

/-- The container of "abcdefg" takes 16 bytes and that of "abcdefgh" 17. -/
theorem witness_ShufEncWritesContainer :
    (InputFits (loaded [0x61, 0x62, 0x63, 0x64, 0x65, 0x66, 0x67] 16)
        ∧ (shufContainer (loaded [0x61, 0x62, 0x63, 0x64, 0x65, 0x66, 0x67] 16).input).length
            ≤ (machine 16).params.bufCap)
      ∧ (InputFits (loaded [0x61, 0x62, 0x63, 0x64, 0x65, 0x66, 0x67, 0x68] 16)
        ∧ (machine 16).params.bufCap
            < (shufContainer (loaded [0x61, 0x62, 0x63, 0x64, 0x65, 0x66, 0x67, 0x68] 16).input).length) := by
  unfold InputFits
  decide +kernel

theorem witness_ShufDecReadsContainer :
    ∀ block ∈ [[], [0x61], banana],
      (loaded (shufContainer block)).params.wf = true ∧ InputFits (loaded (shufContainer block))
        ∧ block.length ≤ (machine 64).params.bufCap
        ∧ (loaded (shufContainer block)).input = shufContainer block := by
  unfold InputFits
  decide +kernel

/-- A shape has one bit 1 more than bits 0. -/
theorem shape_count (t : HuffTree) : (huffShape t).count true = (huffShape t).count false + 1 := by
  induction t with
  | leaf v => rfl
  | node l r hl hr => simp only [huffShape, List.count_cons, List.count_append, hl, hr]; simp; omega

/-- Bits that begin with 0 and hold at most one bit 1 begin with no shape. -/
theorem no_shape {bits : List Bool} (h : bits.head? = some false) (h1 : bits.count true ≤ 1) (t : HuffTree) :
    ¬ huffShape t <+: bits := by
  intro hp
  have hc := shape_count t
  have ht := hp.sublist.count_le true
  cases hs : huffShape t with
  | nil => rw [hs] at hc; simp at hc
  | cons b x =>
    rw [hs] at hc hp ht
    obtain ⟨y, rfl⟩ := hp
    simp only [List.cons_append, List.head?_cons, Option.some.injEq] at h
    subst h
    simp only [List.count_cons_self] at hc
    omega

/-- 255 bits 0 and a last bit 1; 256 bits 0: no shape. -/
theorem witness_ShufDecReadsContainer_no_shape :
    (InputFits (loaded (List.replicate 31 0 ++ [1])) ∧ (loaded (List.replicate 31 0 ++ [1])).input ≠ []
        ∧ (∀ t, ¬ huffShape t <+: bitsOf (loaded (List.replicate 31 0 ++ [1])).input)
        ∧ (bitsOf (loaded (List.replicate 31 0 ++ [1])).input).count false ≤ 255)
      ∧ InputFits (loaded (List.replicate 32 0)) ∧ (loaded (List.replicate 32 0)).input ≠ []
        ∧ (∀ t, ¬ huffShape t <+: bitsOf (loaded (List.replicate 32 0)).input)
        ∧ 255 < (bitsOf (loaded (List.replicate 32 0)).input).count false := by
  unfold InputFits
  refine ⟨⟨by decide +kernel, by decide +kernel, fun t => no_shape (by decide +kernel) (by decide +kernel) t,
    by decide +kernel⟩, by decide +kernel, by decide +kernel,
    fun t => no_shape (by decide +kernel) (by decide +kernel) t, by decide +kernel⟩

/-- A tree with `n + 1` leaves, one at each level. -/
def comb : Nat → HuffTree
  | 0 => .leaf 0
  | n + 1 => .node (.leaf 0) (comb n)

/-- The shape of 257 leaves at the start, and that of 256. -/
theorem witness_ShufDecReadsContainer_leaves :
    (InputFits (loaded (List.replicate 64 0x55 ++ [0x80]) 128)
        ∧ huffShape (comb 256) <+: bitsOf (loaded (List.replicate 64 0x55 ++ [0x80]) 128).input
        ∧ 256 < (huffLeaves (comb 256)).length)
      ∧ InputFits (loaded (List.replicate 63 0x55 ++ [0x56]) 128)
        ∧ huffShape (comb 255) <+: bitsOf (loaded (List.replicate 63 0x55 ++ [0x56]) 128).input
        ∧ (huffLeaves (comb 255)).length ≤ 256
        ∧ (loaded (List.replicate 63 0x55 ++ [0x56]) 128).input.length < 64 + 256 + 4 := by
  unfold InputFits
  decide +kernel

/-- The tree of the leaves 61 and 62. -/
def treeAb : HuffTree := .node (.leaf 0x61) (.leaf 0x62)

/-- Under the shape of two leaves: one byte too few for the length field, a value on two leaves, a payload byte too
many, and the first byte count that none of these clauses takes. -/
theorem witness_ShufDecReadsContainer_header :
    (huffShape treeAb <+: bitsOf (loaded [0x60, 0x61, 0x62, 2, 0, 0]).input
        ∧ (loaded [0x60, 0x61, 0x62, 2, 0, 0]).input.length < 1 + 2 + 4)
      ∧ (huffShape treeAb <+: bitsOf (loaded [0x60, 0x61, 0x61, 0, 0, 0, 0]).input
        ∧ 1 + 2 + 4 ≤ (loaded [0x60, 0x61, 0x61, 0, 0, 0, 0]).input.length
        ∧ ¬ (((loaded [0x60, 0x61, 0x61, 0, 0, 0, 0]).input.drop 1).take 2).Nodup)
      ∧ (huffShape treeAb <+: bitsOf (loaded [0x60, 0x61, 0x62, 8, 0, 0, 0, 0x40, 0]).input
        ∧ (((loaded [0x60, 0x61, 0x62, 8, 0, 0, 0, 0x40, 0]).input.drop 1).take 2).Nodup
        ∧ (loaded [0x60, 0x61, 0x62, 8, 0, 0, 0, 0x40, 0]).input.length - (1 + 2 + 4)
            ≠ (unle (((loaded [0x60, 0x61, 0x62, 8, 0, 0, 0, 0x40, 0]).input.drop 3).take 4) + 7) / 8)
      ∧ (loaded [0x60, 0x61, 0x62, 8, 0, 0, 0, 0x40]).input.length - (1 + 2 + 4)
          = (unle (((loaded [0x60, 0x61, 0x62, 8, 0, 0, 0, 0x40]).input.drop 3).take 4) + 7) / 8 := by decide +kernel

/-- The tree of the leaves 63, 61 and 62. -/
def treeCab : HuffTree := .node (.leaf 0x63) treeAb

/-- Under the shape of three leaves, three payload bits 0 1 1 1: the block "cb", then with a fourth bit a remainder that
begins a code. -/
theorem witness_ShufDecReadsContainer_payload :
    ∀ c ∈ ([(3, []), (4, [true])] : List (Nat × List Bool)),
      let x : List Byte := [0x58, 0x63, 0x61, 0x62, BitVec.ofNat 8 c.1, 0, 0, 0, 0x70]
      InputFits (loaded x) ∧ huffShape treeCab <+: bitsOf (loaded x).input
        ∧ 1 + 3 + 4 ≤ (loaded x).input.length ∧ (((loaded x).input.drop 1).take 3).Nodup
        ∧ (loaded x).input.length - (1 + 3 + 4) = (unle (((loaded x).input.drop 4).take 4) + 7) / 8
        ∧ huffLeaves treeCab = ((loaded x).input.drop 1).take 3
        ∧ (bitsOf ((loaded x).input.drop 8)).take (unle (((loaded x).input.drop 4).take 4))
            = ([0x63, 0x62] : List Byte).flatMap (huffCode treeCab) ++ c.2
        ∧ (c.2 = [] ∨ (0x61 : Byte) ∈ ((loaded x).input.drop 1).take 3 ∧ c.2 <+: huffCode treeCab 0x61
            ∧ c.2 ≠ huffCode treeCab 0x61) := by
  unfold InputFits
  decide +kernel

/-- Under a single leaf with BUF_CAP 16: sixteen bits 0 are a block that fits, with a seventeenth bit 1 they end in
TreeCorruption(3), and seventeen bits 0 are a block that does not fit. -/
theorem witness_ShufDecReadsContainer_single :
    ∀ c ∈ ([(16, 16, 0, []), (17, 16, 0x80, [true]), (17, 17, 0, [])] : List (Nat × Nat × Byte × List Bool)),
      let x : List Byte := [0x80, 0x61, BitVec.ofNat 8 c.1, 0, 0, 0, 0, 0] ++ (if c.1 = 17 then [c.2.2.1] else [])
      InputFits (loaded x 16) ∧ huffShape (.leaf 0x61) <+: bitsOf (loaded x 16).input
        ∧ (loaded x 16).input.length - (1 + 1 + 4) = (unle (((loaded x 16).input.drop 2).take 4) + 7) / 8
        ∧ huffLeaves (.leaf 0x61) = ((loaded x 16).input.drop 1).take 1
        ∧ (bitsOf ((loaded x 16).input.drop 6)).take (unle (((loaded x 16).input.drop 2).take 4))
            = (List.replicate c.2.1 (0x61 : Byte)).flatMap (huffCode (.leaf 0x61)) ++ c.2.2.2 := by
  unfold InputFits
  decide +kernel

/-- The tree of the reset state has the invariants and room. -/
theorem witness_AhufInv :
    AhufInv State.reset.ahuf ∧ (record State.reset.ahuf 0).weight.toNat + 1 < 4294967296 := by
  refine ⟨⟨?_, ?_, ?_, ?_, ?_, ?_, ?_, ?_, ?_, ?_, ?_, ?_, ?_, ?_, ?_⟩, ?_⟩ <;> decide +kernel

/-- The container of the empty block takes 17 bytes. -/
theorem witness_AhufEncWritesContainer :
    (InputFits (loaded [] 17) ∧ (ahufContainer (machine 17).params (machine 17).ahuf (loaded [] 17).input).length
        ≤ (machine 17).params.bufCap)
      ∧ (InputFits (loaded [] 16) ∧ (machine 16).params.bufCap
        < (ahufContainer (machine 16).params (machine 16).ahuf (loaded [] 16).input).length) := by
  unfold InputFits
  decide +kernel

/-- The right CRC field and a wrong one. -/
theorem witness_AhufDecReadsContainer :
    ∀ n ∈ [0x9E83486D, 0x9E83486E],
      (loaded (ahufContainerWith (BitVec.ofNat 32 n) (machine 64).ahuf ab)).params.wf = true
        ∧ InputFits (loaded (ahufContainerWith (BitVec.ofNat 32 n) (machine 64).ahuf ab))
        ∧ ab.length ≤ (machine 64).params.bufCap
        ∧ (loaded (ahufContainerWith (BitVec.ofNat 32 n) (machine 64).ahuf ab)).input
            = ahufContainerWith (BitVec.ofNat 32 n) (machine 64).ahuf ab
        ∧ (BitVec.ofNat 32 n = crc32 (machine 64).params ab ↔ n = 0x9E83486D) := by
  unfold InputFits
  decide +kernel

/-- Fifteen bytes; sixteen with another magic; sixteen with LENGTH 17; and a right header. -/
theorem witness_AhufDecReadsContainer_header :
    (loaded (List.replicate 15 0)).input.length < 16
      ∧ (16 ≤ (loaded (List.replicate 16 0)).input.length
        ∧ (loaded (List.replicate 16 0)).input.take 4 ≠ [0x5A, 0x52, 0x41, 0x48])
      ∧ (let x := (container []).set 4 0x11
        16 ≤ (loaded x).input.length ∧ (loaded x).input.take 4 = [0x5A, 0x52, 0x41, 0x48]
          ∧ unle (((loaded x).input.drop 4).take 8) ≠ (loaded x).input.length)
      ∧ 16 ≤ (loaded (container [])).input.length
        ∧ (loaded (container [])).input.take 4 = [0x5A, 0x52, 0x41, 0x48]
        ∧ unle (((loaded (container [])).input.drop 4).take 8) = (loaded (container [])).input.length := by
  decide +kernel

/-- The tree before the first byte, and after the byte 61. -/
theorem witness_AhufDecReadsContainer_codes :
    let u := initTree (machine 64).ahuf
    let v := ahufTreeAfter u [0x61]
    (ahufCode u (ahufLeaf u 256) = [true] ∧ ahufCode u (ahufLeaf u 257) = [false])
      ∧ (ahufCode v (ahufLeaf v 256) = [true] ∧ ahufCode v (ahufLeaf v 257) = [false, false]
        ∧ ahufLeaf v 0x61 ≠ noIndex ∧ ahufCode v (ahufLeaf v 0x61) = [false, true]) := by decide +kernel

/-- After the byte 61: the EOF code; the NYT code with the first five bits of the byte 62; the NYT code with the byte 61,
that has a leaf. With no payload the remainder is the beginning of the first EOF code. -/
theorem witness_AhufDecReadsContainer_payload :
    let u := initTree (machine 64).ahuf
    let bits (x : List Byte) := bitsOf ((loaded (container x)).input.drop 16)
    (bits [] = ahufDataBits u [] ++ [] ∧ ([] : List Bool) <+: [true])
      ∧ (bits [0x30, 0xC0] = ahufDataBits u [0x61] ++ (bits [0x30, 0xC0]).drop 9
        ∧ [true] <+: (bits [0x30, 0xC0]).drop 9)
      ∧ (bits [0x30, 0x8C] = ahufDataBits u [0x61] ++ [false, false, false, true, true, false, false]
        ∧ [false, false, false, true, true, false, false] <+: [false, false] ++ msbBits 0x62 8)
      ∧ bits [0x30, 0x8C, 0x20] = ahufDataBits u [0x61] ++ (bits [0x30, 0x8C, 0x20]).drop 9
        ∧ [false, false] ++ msbBits 0x61 8 <+: (bits [0x30, 0x8C, 0x20]).drop 9 := by decide +kernel

/-- A container of 20 bytes whose payload is twenty bytes 61, which fill a BUF_CAP of 20, and the code of one more. -/
theorem witness_AhufDecReadsContainer_capacity :
    let s := loaded (container [0x30, 0xBF, 0xFF, 0xFF]) 20
    let block := List.replicate 20 (0x61 : Byte)
    let u := initTree s.ahuf
    s.params.wf = true ∧ InputFits s ∧ block.length = s.params.bufCap
      ∧ bitsOf (s.input.drop 16) = ahufDataBits u block ++ (bitsOf (s.input.drop 16)).drop (ahufDataBits u block).length
      ∧ encodeByteBits (ahufTreeAfter u block) 0x61 <+: (bitsOf (s.input.drop 16)).drop (ahufDataBits u block).length := by
  unfold InputFits
  decide +kernel

/-- The last pair an operand can name and the first number that names none; a pair found, a pair missing with a code
left, the last code, and none left. -/
theorem witness_LzwCommands :
    (withArg 0x3FFEFF).arg0.toNat < 16383 * 256 ∧ 16383 * 256 ≤ (withArg 0x3FFF00).arg0.toNat
      ∧ (lzwFind (after .lzwInsert (withArg 0)).lzw 0 0).hit = true
      ∧ (lzwFind (withArg 0x3FFEFF).lzw 0x3FFE 0xFF).hit = false
      ∧ ((withArg 0x3FFEFF).arg0 >>> 8).setWidth 14 = 0x3FFE#14
      ∧ (withArg 0x3FFEFF).lzw.next.toNat ≤ 16382
      ∧ (lzwFind ⟨16382, []⟩ 0 0).hit = false ∧ (16382#32).toNat ≤ 16382
      ∧ (lzwFind ⟨16383, []⟩ 0 0).hit = false ∧ 16382 < (16383#32).toNat := by decide +kernel

/-- The clauses of LZW_PROBE about legal tables: a pair missing with a code left, and a pair missing with none left. -/
theorem witness_LzwProbeReports :
    LzwLegal (withArg 0x6162).lzw ∧ (withArg 0x6162).arg0.toNat < 16383 * 256
      ∧ (lzwFind (withArg 0x6162).lzw 0x61 0x62).hit = false ∧ (withArg 0x6162).lzw.next.toNat ≤ 16382
      ∧ LzwLegal ⟨16383, []⟩ ∧ (lzwFind ⟨16383, []⟩ 0x61 0x62).hit = false := by
  unfold LzwLegal
  decide +kernel

theorem witness_ProbeFindsInsertedPair :
    (withArg 0x6162).arg0.toNat < 16383 * 256 ∧ (withArg 0x6162).lzw.next.toNat ≤ 16382
      ∧ (lzwFind (withArg 0x6162).lzw (((withArg 0x6162).arg0 >>> 8).setWidth 14)
          ((withArg 0x6162).arg0.setWidth 8)).hit = false
      ∧ (lzwFind (withArg 0x6162).lzw (((withArg 0x6162).arg0 >>> 8).setWidth 14)
          ((withArg 0x6162).arg0.setWidth 8)).probes < 18041
      ∧ exec .lzwInsert (withArg 0x6162) = .next (after .lzwInsert (withArg 0x6162))
      ∧ exec .lzwProbe (after .lzwInsert (withArg 0x6162))
          = .next (after .lzwProbe (after .lzwInsert (withArg 0x6162))) := by
  refine ⟨?_, ?_, ?_, ?_, rfl, rfl⟩ <;> decide +kernel

/-- The tables after reset, and with one pair stored. -/
theorem witness_LzwLegal :
    LzwLegal State.reset.lzw ∧ LzwLegal (after .lzwInsert (withArg 0x6162)).lzw := by
  unfold LzwLegal
  decide +kernel

/-- The stream of "abcdefg" fits 16 bytes, that of "abcdefgh" does not. -/
theorem witness_LzwEncWritesStream :
    (InputFits (loaded [0x61, 0x62, 0x63, 0x64, 0x65, 0x66, 0x67] 16)
        ∧ (lzwStream (tableRun (loaded [0x61, 0x62, 0x63, 0x64, 0x65, 0x66, 0x67] 16).input).codes).length
            ≤ (machine 16).params.bufCap)
      ∧ (InputFits (loaded [0x61, 0x62, 0x63, 0x64, 0x65, 0x66, 0x67, 0x68] 16)
        ∧ (machine 16).params.bufCap
            < (lzwStream (tableRun (loaded [0x61, 0x62, 0x63, 0x64, 0x65, 0x66, 0x67, 0x68] 16).input).codes).length) := by
  unfold InputFits
  decide +kernel

theorem witness_HashTableIsTheDictionary : (dictRun banana).dict[3]? = some (257, 0x61) := by decide +kernel

theorem witness_LzwDecReadsStream :
    ∀ block ∈ [[], [0x61], banana],
      (loaded (lzwStream (dictRun block).codes)).params.wf = true
        ∧ InputFits (loaded (lzwStream (dictRun block).codes)) ∧ block.length ≤ (machine 64).params.bufCap
        ∧ (loaded (lzwStream (dictRun block).codes)).input = lzwStream (dictRun block).codes := by
  unfold InputFits
  decide +kernel

/-- A stream cut in the middle of a code, one cut after the end marker, and one not cut. -/
theorem witness_LzwDecKeepsDecodedBytes :
    ∀ c ∈ [(3, 1), (11, 6), (12, 6), (100, 6)],
      (loaded ((lzwStream (dictRun banana).codes).take c.1)).params.wf = true
        ∧ InputFits (loaded ((lzwStream (dictRun banana).codes).take c.1))
        ∧ banana.length ≤ (machine 64).params.bufCap
        ∧ (loaded ((lzwStream (dictRun banana).codes).take c.1)).input
            = (lzwStream (dictRun banana).codes).take c.1
        ∧ 8 * (loaded ((lzwStream (dictRun banana).codes).take c.1)).input.length / 14 = c.2
        ∧ (dictRun banana).codes.length = 5 := by
  unfold InputFits
  decide +kernel

/-- The four ways a decoder stops (LE3, LE5 and LE6 of spec/95_test_vectors.md, L4), and a string that exceeds a BUF_CAP
of 16. -/
theorem witness_LzwDecKeepsDecodedBytes_stops :
    ((dictDecode (codesOf (loaded [1, 0x87]).input)).bytes = [0x61]
        ∧ (dictDecode (codesOf (loaded [1, 0x87]).input)).stop = .cut)
      ∧ (dictDecode (codesOf (loaded [0x40, 0]).input)).stop = .badFirst
      ∧ ((dictDecode (codesOf (loaded [1, 0x84, 0x10, 0x14, 0xFF, 0xFF, 0]).input)).bytes = [0x61]
        ∧ (dictDecode (codesOf (loaded [1, 0x84, 0x10, 0x14, 0xFF, 0xFF, 0]).input)).stop = .badCode)
      ∧ ((dictDecode (codesOf (loaded [1, 0x84, 0x10, 0x0F, 0xFF, 0xC0, 0]).input)).bytes = [0x61, 0x61, 0x61]
        ∧ (dictDecode (codesOf (loaded [1, 0x84, 0x10, 0x0F, 0xFF, 0xC0, 0]).input)).stop = .marker)
      ∧ InputFits (loaded [1, 0x84, 0x10, 0, 0x40, 0x41, 0x02, 0x04, 0x0C, 0x10, 0x40] 16)
        ∧ 16 < (dictDecode (codesOf (loaded [1, 0x84, 0x10, 0, 0x40, 0x41, 0x02, 0x04, 0x0C, 0x10, 0x40] 16).input)).bytes.length := by
  unfold InputFits
  decide +kernel

theorem witness_CompressPipelines :
    (loaded ab).ilen.toNat + 4 ≤ (loaded ab).params.bufCap
      ∧ (lzwStream (tableRun (bwt (loaded ab).input)).codes).length ≤ (loaded ab).params.bufCap
      ∧ (shufContainer (mtfEncode (bwt (loaded ab).input))).length ≤ (loaded ab).params.bufCap
      ∧ (ahufContainer (loaded ab).params (loaded ab).ahuf (mtfEncode (bwt (loaded ab).input))).length
          ≤ (loaded ab).params.bufCap := by decide +kernel

theorem witness_BwtLzwPipelineRoundTrip :
    (loaded (lzwStream (dictRun (bwt banana)).codes)).params.wf = true
      ∧ InputFits (loaded (lzwStream (dictRun (bwt banana)).codes))
      ∧ banana.length + 4 ≤ (machine 64).params.bufCap
      ∧ (loaded (lzwStream (dictRun (bwt banana)).codes)).input = lzwStream (dictRun (bwt banana)).codes := by
  unfold InputFits
  decide +kernel

theorem witness_BwtMtfShufPipelineRoundTrip :
    (loaded (shufContainer (mtfEncode (bwt ab)))).params.wf = true
      ∧ InputFits (loaded (shufContainer (mtfEncode (bwt ab)))) ∧ ab.length + 4 ≤ (machine 64).params.bufCap
      ∧ (loaded (shufContainer (mtfEncode (bwt ab)))).input = shufContainer (mtfEncode (bwt ab)) := by
  unfold InputFits
  decide +kernel

theorem witness_BwtMtfAhufPipelineRoundTrip :
    ∀ n ∈ [0x2144DF1C, 0x2144DF1D],
      (loaded (ahufContainerWith (BitVec.ofNat 32 n) (machine 64).ahuf (mtfEncode (bwt [])))).params.wf = true
        ∧ InputFits (loaded (ahufContainerWith (BitVec.ofNat 32 n) (machine 64).ahuf (mtfEncode (bwt []))))
        ∧ ([] : List Byte).length + 4 ≤ (machine 64).params.bufCap
        ∧ (loaded (ahufContainerWith (BitVec.ofNat 32 n) (machine 64).ahuf (mtfEncode (bwt [])))).input
            = ahufContainerWith (BitVec.ofNat 32 n) (machine 64).ahuf (mtfEncode (bwt []))
        ∧ (BitVec.ofNat 32 n = crc32 (machine 64).params (mtfEncode (bwt [])) ↔ n = 0x2144DF1C) := by
  unfold InputFits
  decide +kernel

/-- Each beside its chain: pipelines that complete, that fail in stage 1, 2 and 3, and that fail in stage 3 after the
warning of stage 1. -/
theorem witness_PipelineEqualsChain :
    ∀ c ∈ [(Instr.pBwtLzwC, ab), (.pBwtLzwD, [0x40, 0]), (.pBwtLzwD, [1, 0x87, 0xFF, 0xF0, 0]), (.pBwtMtfShufD, []),
        (.pBwtMtfAhufD, emptyWarned)],
      pipelineStages c.1 ≠ [] ∧ (loaded c.2).params.wf = true ∧ InputFits (loaded c.2)
        ∧ (∃ t, exec c.1 (loaded c.2) = .next t) ∧ (chain (pipelineStages c.1) (loaded c.2)).isSome = true := by
  intro c hc
  simp only [List.mem_cons, List.not_mem_nil, or_false] at hc
  rcases hc with rfl | rfl | rfl | rfl | rfl <;>
    exact ⟨by decide, by decide, by unfold InputFits; decide +kernel, ⟨_, rfl⟩, by decide +kernel⟩

/-- An input whose transform, containers and stream all fit: the round trips by a chain of two commands. -/
theorem witness_round_trip_chains :
    (loaded ab).params.wf = true ∧ (loaded ab).ilen.toNat + 4 ≤ (loaded ab).params.bufCap ∧ InputFits (loaded ab)
      ∧ (shufContainer (loaded ab).input).length ≤ (loaded ab).params.bufCap
      ∧ (ahufContainer (loaded ab).params (loaded ab).ahuf (loaded ab).input).length ≤ (loaded ab).params.bufCap
      ∧ (lzwStream (dictRun (loaded ab).input).codes).length ≤ (loaded ab).params.bufCap := by
  unfold InputFits
  decide +kernel

theorem witness_EveryCommandEndsInOneOfThreeWays : Instr.crcRead ≠ .softReset := by decide

theorem witness_TooLongInputIsRefusedFirst :
    readsInput .crcBuf = true ∧ readsInput .lzwDec = true ∧ readsInput .pBwtLzwC = true
      ∧ (machine 16).params.bufCap < ({ machine 16 with ilen := 17 } : State).ilen.toNat := by decide

theorem witness_FaultlogIsSticky :
    Instr.crcRead ≠ .softReset
      ∧ exec .crcRead { machine 16 with faultlog := 0x40 } = .next (after .crcRead { machine 16 with faultlog := 0x40 })
      ∧ 6 < 32 ∧ ({ machine 16 with faultlog := 0x40 } : State).faultlog.getLsbD 6 = true :=
  ⟨by decide, rfl, by decide, by decide⟩

/-- The frames: a command outside every list, and a command that stops at a fatal error. -/
theorem witness_Frames :
    exec .mtfEnc (loaded ab) = .next (after .mtfEnc (loaded ab))
      ∧ Instr.mtfEnc ≠ .softReset ∧ Instr.mtfEnc ≠ .xfer ∧ producesBytes .saBuild = false
      ∧ Instr.mtfEnc ∉ [Instr.softReset, .crcReset, .crcByte, .crcBuf, .ahufEnc, .ahufDec, .pBwtMtfAhufC, .pBwtMtfAhufD]
      ∧ exec .crcByte (withArg 0x100) = .next (after .crcByte (withArg 0x100))
      ∧ pipelineStages .crcByte = [] ∧ (after .crcByte (withArg 0x100)).status.err ≠ 0 := by
  refine ⟨rfl, ?_, ?_, ?_, ?_, rfl, ?_, ?_⟩ <;> decide +kernel

/-- Every invariant at a state with a command to come, and the step that runs it. -/
theorem witness_StepKeeps :
    let s := queued (.writeReg 0x00 0x63) (withArg 0x61)
    (MemoriesCanonical s ∧ ReportsLegal s ∧ BuffersFilled s ∧ LzwLegal s.lzw) ∧ s.params.wf = true
      ∧ (record s.ahuf 0).weight.toNat + 1 < 4294967296 ∧ step s = .next (stepped s) := by
  unfold MemoriesCanonical ReportsLegal BuffersFilled LzwLegal
  refine ⟨?_, ?_, ?_, rfl⟩ <;> decide +kernel

theorem witness_StepKeepsAdaptiveTree : AhufInv (queued (.writeReg 0x00 0x63) (withArg 0x61)).ahuf := witness_AhufInv.1

end Sys2Proof.Tests
end

section
/-! What one command can do to the machine, said once: every command is a sequence of the atomic changes listed here,
followed by its report and its end (R360, R373). The frames and the invariants of the state are read off from it. -/

namespace Sys2Proof.Machine

open Sys2Proof.Safety

/-! ## The atomic changes -/

/-- One change of the machine inside command `i`, registers RES0 and RES1 and the warning excepted. -/
inductive Change : Instr → State → State → Prop where
  /-- CRCACC takes a value (R154 to R156, R270, R275). -/
  | crc {i : Instr} {s : State} (v : Word) (user : i ∈ [Instr.crcReset, .crcByte, .crcBuf, .ahufEnc, .ahufDec]) :
      Change i s { s with crcacc := v }
  /-- A suffix array is stored (R173, R183). -/
  | suffixes {i : Instr} {s : State} (x : List Byte) (user : i ∈ [Instr.saBuild, .bwtFwd])
      (fits : x.length ≤ s.params.bufCap) : Change i s (storeSuffixArray x s)
  /-- The output of BWT_INV is a free draw (R187). -/
  | draw {i : Instr} {s : State} (user : i = .bwtInv) : Change i s { s with bwtDraw := s.bwtDraw + 1 }
  /-- The tree is the initial one (R251). -/
  | freshTree {i : Instr} {s : State} (user : i ∈ [Instr.ahufInit, .ahufEnc, .ahufDec]) :
      Change i s (onAhuf initTree s)
  /-- One update of the tree (R256). -/
  | update {i : Instr} {s : State} (b : Byte) (user : i ∈ [Instr.ahufUpdate, .ahufEnc, .ahufDec]) :
      Change i s (onAhuf (fun u => ahufUpdateTree u b) s)
  /-- The LZW tables are emptied (R301). -/
  | freshTable {i : Instr} {s : State} (user : i ∈ [Instr.lzwInit, .lzwEnc, .lzwDec]) :
      Change i s { s with lzw := freshLzw }
  /-- A pair is stored where its search ended, or the overflow is reported (R305, R310). -/
  | insert {i : Instr} {s : State} (pre : BitVec 14) (ch : Byte) (user : i ∈ [Instr.lzwInsert, .lzwEnc]) :
      Change i s (insertOrOverflow (lzwFind s.lzw pre ch).slot pre ch s)
  /-- The decoder's next entry is recorded (R316). -/
  | record {i : Instr} {s : State} (old : Nat) (first : Byte) (user : i = .lzwDec) :
      Change i s (recordOrOverflow old first s)

/-- What command `i` writes last, in stage `k`: nothing, its results, or its results and the warning. -/
inductive Report : Instr → Nat → State → State → Prop where
  /-- Nothing. -/
  | nothing {i : Instr} {k : Nat} {s : State} : Report i k s s
  /-- RES0 alone (R157, R183). -/
  | result {i : Instr} {k : Nat} {s : State} (v : Word) (user : i ∈ [Instr.crcRead, .bwtFwd]) :
      Report i k s { s with res0 := v }
  /-- Both results (R270, R275, R304, R305). -/
  | results {i : Instr} {k : Nat} {s : State} (v v' : Word)
      (user : i ∈ [Instr.ahufEnc, .ahufDec, .lzwProbe, .lzwInsert]) : Report i k s { s with res0 := v, res1 := v' }
  /-- Both results and ChecksumMismatch (R275, R376). -/
  | warned {i : Instr} {k : Nat} {s : State} (v v' : Word) (user : i = .ahufDec) :
      Report i k s (warnChecksumMismatch k { s with res0 := v, res1 := v' })

/-- The changes of command `i` one after the other. -/
abbrev Changes (i : Instr) : State → State → Prop := Relation.ReflTransGen (Change i)

/-- An insertion changes only the LZW tables or STATUS.DOVF. -/
theorem insertOrOverflow_field {β : Type} {f : State → β} {s : State}
    (hlzw : ∀ (s : State) u, f { s with lzw := u } = f s) (hdovf : ∀ s, f (setDictionaryOverflow s) = f s)
    (slot : Nat) (pre : BitVec 14) (ch : Byte) : f (insertOrOverflow slot pre ch s) = f s := by
  unfold insertOrOverflow
  split_ifs
  · exact hlzw s _
  · exact hdovf s

/-- A recorded entry changes only the LZW tables or STATUS.DOVF. -/
theorem recordOrOverflow_field {β : Type} {f : State → β} {s : State}
    (hlzw : ∀ (s : State) u, f { s with lzw := u } = f s) (hdovf : ∀ s, f (setDictionaryOverflow s) = f s)
    (old : Nat) (first : Byte) : f (recordOrOverflow old first s) = f s := by
  unfold recordOrOverflow
  split_ifs
  · exact hlzw s _
  · exact hdovf s

theorem Change.params_eq {i : Instr} {s t : State} (h : Change i s t) : t.params = s.params := by
  cases h with
  | insert => exact insertOrOverflow_field (f := State.params) (fun _ _ => rfl) (fun _ => rfl) ..
  | record => exact recordOrOverflow_field (f := State.params) (fun _ _ => rfl) (fun _ => rfl) ..
  | crc | suffixes | draw | freshTree | update | freshTable => rfl

theorem Changes.params_eq {i : Instr} {s t : State} (h : Changes i s t) : t.params = s.params := by
  induction h with
  | refl => rfl
  | tail _ hc ih => exact hc.params_eq.trans ih

theorem Report.params_eq {i : Instr} {k : Nat} {s t : State} (h : Report i k s t) : t.params = s.params := by
  cases h <;> rfl

/-! ## Command bodies -/

/-- A sub-cause that the table of R374 lists. -/
def FatalError.Listed (e : FatalError) : Prop := 1 ≤ e.sub.toNat ∧ e.sub.toNat ≤ 14

/-- OLEN' counts the bytes emitted, and they fit OBUF (R71, R72). -/
def Work.OutFits (w : Work) : Prop := w.out.length = w.olen ∧ w.olen ≤ w.mach.params.bufCap

/-- What part of the body of command `i` may do to the working state. -/
structure Progress (i : Instr) (w v : Work) : Prop where
  changes : Changes i w.mach v.mach
  stage : v.stage = w.stage
  grows : w.olen ≤ v.olen
  fits : w.OutFits → v.OutFits

theorem Progress.refl (i : Instr) (w : Work) : Progress i w w := ⟨.refl, rfl, le_rfl, id⟩

theorem Progress.trans {i : Instr} {u v w : Work} (h : Progress i u v) (h' : Progress i v w) : Progress i u w :=
  ⟨h.changes.trans h'.changes, h'.stage.trans h.stage, h.grows.trans h'.grows, h'.fits ∘ h.fits⟩

/-- A part of a body that leaves the machine and the output alone. -/
theorem Progress.of_eq {i : Instr} {w v : Work} (hm : v.mach = w.mach) (hk : v.stage = w.stage) (ho : v.out = w.out)
    (hl : v.olen = w.olen) : Progress i w v :=
  ⟨hm ▸ .refl, hk, hl.ge, by simp only [Work.OutFits, hm, ho, hl, imp_self]⟩

variable {α β : Type} {i : Instr} {w : Work}

/-- `x` is part of the body of command `i`: it makes progress, and raises only listed sub-causes. -/
def Does (i : Instr) (x : Cmd α) (w : Work) : Prop :=
  match x w with
  | .ok _ v => Progress i w v
  | .error e v => Progress i w v ∧ e.Listed

theorem Does.of_ok {x : Cmd α} {a : α} {v : Work} (h : x w = .ok a v) (hp : Progress i w v) : Does i x w := by
  simpa only [Does, h] using hp

theorem Does.of_error {x : Cmd α} {e : FatalError} {v : Work} (h : x w = .error e v) (hp : Progress i w v)
    (he : e.Listed) : Does i x w := by
  simpa only [Does, h] using And.intro hp he

theorem Does.progress_ok {x : Cmd α} (hx : Does i x w) {a : α} {v : Work} (h : x w = .ok a v) : Progress i w v := by
  simpa only [Does, h] using hx

theorem Does.progress_error {x : Cmd α} (hx : Does i x w) {e : FatalError} {v : Work} (h : x w = .error e v) :
    Progress i w v ∧ e.Listed := by
  simpa only [Does, h] using hx

theorem Does.progress {x : Cmd α} (hx : Does i x w) : Progress i w (endWork (x w)) := by
  cases h : x w with
  | ok a v => exact hx.progress_ok h
  | error e v => exact (hx.progress_error h).1

theorem Does.pure (a : α) : Does i (Pure.pure a : Cmd α) w := .of_ok rfl (.refl i w)

theorem Does.raise {e : FatalError} (he : e.Listed) : Does i (Machine.raise e : Cmd α) w :=
  .of_error rfl (.refl i w) he

/-- A sequence is part of a body if both its parts are. -/
theorem Does.bind {x : Cmd α} {f : α → Cmd β} (hx : Does i x w)
    (hf : ∀ a v, x w = .ok a v → Does i (f a) v) : Does i (x >>= f) w := by
  cases h : x w with
  | error e v =>
    obtain ⟨hp, he⟩ := hx.progress_error h
    exact .of_error (Cmd.bind_error h f) hp he
  | ok a v =>
    have hp := hx.progress_ok h
    have hfa := hf a v h
    cases h' : f a v with
    | ok b u => exact .of_ok ((Cmd.bind_ok h f).trans h') (hp.trans (hfa.progress_ok h'))
    | error e u =>
      obtain ⟨hp', he⟩ := hfa.progress_error h'
      exact .of_error ((Cmd.bind_ok h f).trans h') (hp.trans hp') he

/-- A read of the working state is no progress of its own. -/
theorem Does.get_bind {f : Work → Cmd β} (hf : Does i (f w) w) : Does i (get >>= f) w := hf

/-- One atomic change of the machine. -/
theorem Does.onMachine {f : State → State} (h : Change i w.mach (f w.mach)) : Does i (onMachine f) w :=
  .of_ok rfl ⟨.single h, rfl, le_rfl, by simp only [Work.OutFits, h.params_eq, imp_self]⟩

/-! ### Emitting and bits -/

theorem outputTooLong_listed : outputTooLong.Listed := by unfold FatalError.Listed; decide

theorem inputTooLong_listed : inputTooLong.Listed := by unfold FatalError.Listed; decide

theorem Does.emit (b : Byte) : Does i (emit b) w := by
  by_cases h : w.olen = w.mach.params.bufCap
  · exact .of_error (by rw [emit_run, if_pos h]) (.refl i w) outputTooLong_listed
  · refine .of_ok ((emit_run b w).trans (if_neg h)) ⟨.refl, rfl, Nat.le_succ _, ?_⟩
    rintro ⟨hl, hc⟩
    exact ⟨congrArg (· + 1) hl, by simp only; omega⟩

theorem Does.emitAll (bytes : List Byte) : Does i (emitAll bytes) w := by
  induction bytes generalizing w with
  | nil => exact .pure ()
  | cons b t ih => exact (Does.emit b).bind fun _ _ _ => ih

theorem Does.putBit (b : Bool) : Does i (putBit b) w := by
  unfold Machine.putBit
  refine .get_bind ?_
  simp only
  split_ifs
  · exact (Does.emit _).bind fun _ _ _ => .of_ok (Cmd.modify_run _ _) (.of_eq rfl rfl rfl rfl)
  · exact .of_ok (Cmd.set_run _ _) (.of_eq rfl rfl rfl rfl)

theorem Does.putBitList (bits : List Bool) : Does i (putBitList bits) w := by
  induction bits generalizing w with
  | nil => exact .pure ()
  | cons b t ih => exact (Does.putBit b).bind fun _ _ _ => ih

theorem Does.putBits (v n : Nat) : Does i (putBits v n) w := .putBitList _

theorem Does.flushBits : Does i flushBits w := by
  refine .get_bind ?_
  split_ifs
  · exact .pure ()
  · exact .putBitList _

theorem Does.dropBits : Does i dropBits w := .of_ok (dropBits_run w) (.of_eq rfl rfl rfl rfl)

theorem Does.openBits (x : List Byte) (start : Nat) : Does i (openBits x start) w :=
  .of_ok (openBits_run x start w) (.of_eq rfl rfl rfl rfl)

theorem Does.bitsBytePos : Does i bitsBytePos w := .of_ok (bitsBytePos_run w) (.refl i w)

theorem Does.getBit {e : FatalError} (he : e.Listed) : Does i (getBit e) w := by
  by_cases hc : w.rcnt = 0
  · cases hr : w.rest with
    | nil => exact .of_error (by rw [getBit_run, if_pos hc, hr]) (.refl i w) he
    | cons b t =>
      simp only [Does, getBit_run, if_pos hc, hr]
      exact .of_eq rfl rfl rfl rfl
  · exact .of_ok ((getBit_run e w).trans (if_neg hc)) (.of_eq rfl rfl rfl rfl)

theorem Does.getBits {e : FatalError} (he : e.Listed) (n : Nat) : Does i (getBits e n) w := by
  suffices h : ∀ v (w : Work), Does i (getBitsInto e v n) w from h 0 w
  induction n with
  | zero => exact fun v w => .pure v
  | succ n ih => exact fun v w => (Does.getBit he).bind fun b _ _ => ih _ _

theorem Does.checkInputLength (n : Nat) : Does i (checkInputLength n) w := by
  refine .get_bind ?_
  split_ifs
  · exact .raise inputTooLong_listed
  · exact .pure ()

theorem malformed_listed {sub : BitVec 8} (h : 1 ≤ sub.toNat ∧ sub.toNat ≤ 14) : (malformed sub).Listed := h

theorem corrupt_listed {sub : BitVec 8} (h : 1 ≤ sub.toNat ∧ sub.toNat ≤ 14) : (corrupt sub).Listed := h

end Sys2Proof.Machine
end

section
/-! The bodies of the ten byte-producing primitives: each makes its changes, then its report. -/

namespace Sys2Proof.Machine

open Sys2Proof.Safety

variable {α : Type} {i : Instr} {w : Work}

/-- `x` is the end of the body of command `i`: progress and then the report, or progress and a listed error. -/
def BodyDoes (i : Instr) (x : Cmd Unit) (w : Work) : Prop :=
  match x w with
  | .ok _ v => ∃ m, Progress i w m ∧ Report i w.stage m.mach v.mach ∧ (m.OutFits → v.OutFits)
  | .error e v => Progress i w v ∧ e.Listed

theorem BodyDoes.of_ok {x : Cmd Unit} {m v : Work} (h : x w = .ok () v) (hp : Progress i w m)
    (hr : Report i w.stage m.mach v.mach) (hf : m.OutFits → v.OutFits) : BodyDoes i x w := by
  simpa only [BodyDoes, h] using ⟨m, hp, hr, hf⟩

theorem BodyDoes.ok {x : Cmd Unit} (hx : BodyDoes i x w) {v : Work} (h : x w = .ok () v) :
    ∃ m, Progress i w m ∧ Report i w.stage m.mach v.mach ∧ (m.OutFits → v.OutFits) := by
  simpa only [BodyDoes, h] using hx

theorem BodyDoes.error {x : Cmd Unit} (hx : BodyDoes i x w) {e : FatalError} {v : Work} (h : x w = .error e v) :
    Progress i w v ∧ e.Listed := by
  simpa only [BodyDoes, h] using hx

/-- A body with nothing to report. -/
theorem Does.body {x : Cmd Unit} (hx : Does i x w) : BodyDoes i x w := by
  cases h : x w with
  | ok a v => exact .of_ok h (hx.progress_ok h) .nothing id
  | error e v => simpa only [BodyDoes, h] using hx.progress_error h

theorem BodyDoes.bind {x : Cmd α} {f : α → Cmd Unit} (hx : Does i x w)
    (hf : ∀ a v, x w = .ok a v → BodyDoes i (f a) v) : BodyDoes i (x >>= f) w := by
  cases h : x w with
  | error e v => simpa only [BodyDoes, Cmd.bind_error h f] using hx.progress_error h
  | ok a v =>
    have hp := hx.progress_ok h
    have hfa := hf a v h
    cases h' : f a v with
    | ok b u =>
      obtain ⟨m, hm, hr, hu⟩ := hfa.ok h'
      exact .of_ok ((Cmd.bind_ok h f).trans h') (hp.trans hm) (hp.stage ▸ hr) hu
    | error e u =>
      obtain ⟨hp', he⟩ := hfa.error h'
      simpa only [BodyDoes, (Cmd.bind_ok h f).trans h'] using And.intro (hp.trans hp') he

theorem BodyDoes.get_bind {f : Work → Cmd Unit} (hf : BodyDoes i (f w) w) : BodyDoes i (get >>= f) w := hf

/-! ## BWT and move to front -/

theorem bwtFwdStage_does (x : List Byte) : BodyDoes .bwtFwd (bwtFwdStage x) w := by
  refine .get_bind ?_
  split_ifs with h
  · exact (Does.raise outputTooLong_listed).body
  · refine .bind (.onMachine (.suffixes x (by simp) (by omega))) fun _ _ _ => ?_
    refine .bind (.emitAll _) fun _ _ _ => .bind (.emitAll _) fun _ _ _ => ?_
    exact .of_ok (onMachine_run _ _) (.refl _ _) (.result _ (by simp)) id

theorem bwtInvStage_does (x : List Byte) : BodyDoes .bwtInv (bwtInvStage x) w := by
  unfold bwtInvStage
  split_ifs
  · exact (Does.raise (malformed_listed (by decide))).body
  · refine .bind ?_ fun _ _ _ => (Does.emitAll _).body
    unfold bwtInvOutput
    split_ifs
    · exact .pure _
    · refine .get_bind (.bind (.of_ok (Cmd.set_run _ _) ⟨.single (.draw rfl), rfl, le_rfl, id⟩) fun _ _ _ => ?_)
      exact .pure _
  · exact (Does.raise (malformed_listed (by decide))).body

theorem mtfEncStage_does (x : List Byte) : BodyDoes .mtfEnc (mtfEncStage x) w := by
  suffices h : ∀ t (w : Work), Does .mtfEnc (mtfEncFrom t x) w from (h mtfTable w).body
  induction x with
  | nil => exact fun t w => .pure ()
  | cons b x ih => exact fun t w => (Does.emit _).bind fun _ _ _ => ih _ _

theorem mtfDecStage_does (x : List Byte) : BodyDoes .mtfDec (mtfDecStage x) w := by
  suffices h : ∀ t (w : Work), Does .mtfDec (mtfDecFrom t x) w from (h mtfTable w).body
  induction x with
  | nil => exact fun t w => .pure ()
  | cons b x ih => exact fun t w => (Does.emit _).bind fun _ _ _ => ih _ _

/-! ## Static Huffman -/

theorem putCodes_does (t : HuffTree) (x : List Byte) : Does i (putCodes t x) w := by
  induction x generalizing w with
  | nil => exact .pure ()
  | cons b x ih => exact (Does.putBitList _).bind fun _ _ _ => ih

theorem shufEncStage_does (x : List Byte) : BodyDoes .shufEnc (shufEncStage x) w := by
  unfold shufEncStage
  split
  · exact (Does.pure ()).body
  · refine .bind (.putBitList _) fun _ _ _ => .bind .flushBits fun _ _ _ => .bind (.emitAll _) fun _ _ _ => ?_
    exact .bind (.emitAll _) fun _ _ _ => .bind (putCodes_does _ _) fun _ _ _ => Does.flushBits.body

theorem parseShape_does (fuel nleaf nint : Nat) : Does i (parseShape fuel nleaf nint) w := by
  induction fuel generalizing nleaf nint w with
  | zero => exact .raise (malformed_listed (by decide))
  | succ fuel ih =>
    refine (Does.getBit (malformed_listed (by decide))).bind fun b _ _ => ?_
    split_ifs
    · exact .raise (malformed_listed (by decide))
    · exact .pure _
    · exact .raise (malformed_listed (by decide))
    · exact (ih _ _).bind fun _ _ _ => (ih _ _).bind fun _ _ _ => .pure _

theorem decodeSingle_does (v : Byte) (p : Nat) : Does i (decodeSingle v p) w := by
  induction p generalizing w with
  | zero => exact .pure ()
  | succ p ih =>
    refine (Does.getBit (malformed_listed (by decide))).bind fun b _ _ => ?_
    split_ifs
    · exact .raise (corrupt_listed (by decide))
    · exact (Does.emit v).bind fun _ _ _ => ih

theorem decodeWalk_does (root : HuffTree) (p : Nat) (node : HuffTree) (atRoot : Bool) :
    Does i (decodeWalk root p node atRoot) w := by
  induction p generalizing node atRoot w with
  | zero =>
    unfold decodeWalk
    split_ifs
    · exact .pure ()
    · exact .raise (malformed_listed (by decide))
  | succ p ih =>
    refine (Does.getBit (malformed_listed (by decide))).bind fun b _ _ => ?_
    split
    · exact (Does.emit _).bind fun _ _ _ => ih _ _
    · exact ih _ _

theorem decodeBody_does (x : List Byte) (shape : HuffShape) (nleaf pos : Nat) :
    Does i (decodeBody x shape nleaf pos) w := by
  unfold decodeBody
  simp only
  split_ifs
  · exact .raise (malformed_listed (by decide))
  · exact .raise (malformed_listed (by decide))
  · refine (Does.openBits _ _).bind fun _ _ _ => ?_
    unfold decodePayload
    split
    · exact decodeSingle_does _ _
    · exact decodeWalk_does _ _ _ _
  · exact .raise (malformed_listed (by decide))

theorem shufDecStage_does (x : List Byte) : BodyDoes .shufDec (shufDecStage x) w := by
  unfold shufDecStage
  split_ifs
  · exact (Does.pure ()).body
  · refine .bind (.openBits _ _) fun _ _ _ => .bind (parseShape_does _ _ _) fun _ _ _ => ?_
    exact .bind .bitsBytePos fun _ _ _ => (decodeBody_does _ _ _ _).body

/-! ## Adaptive Huffman -/

theorem startAhuf_does (hi : i ∈ [Instr.ahufEnc, .ahufDec]) : Does i (onMachine startAhuf) w := by
  have htree : Change i w.mach (onAhuf initTree w.mach) := .freshTree (by simp_all)
  have hcrc : Change i (onAhuf initTree w.mach) (startAhuf w.mach) := .crc _ (by simp_all)
  exact .of_ok (onMachine_run _ _) ⟨.tail (.single htree) hcrc, rfl, le_rfl, id⟩

theorem feedCrc_does (b : Byte) (hi : i ∈ [Instr.ahufEnc, .ahufDec]) : Does i (onMachine (feedCrc b)) w :=
  .onMachine (.crc _ (by simp_all))

theorem updateTree_does (b : Byte) (hi : i ∈ [Instr.ahufEnc, .ahufDec]) :
    Does i (onMachine (onAhuf fun u => ahufUpdateTree u b)) w :=
  .onMachine (.update b (by simp_all))

theorem ahufEncBytes_does (x : List Byte) : Does .ahufEnc (ahufEncBytes x) w := by
  induction x generalizing w with
  | nil => exact .pure ()
  | cons b x ih =>
    refine (feedCrc_does b (by simp)).bind fun _ _ _ => .bind ?_ fun _ _ _ => ih
    exact .get_bind ((Does.putBitList _).bind fun _ _ _ => updateTree_does b (by simp))

theorem encodeEnd_does : Does i encodeEnd w :=
  .get_bind ((Does.putBitList _).bind fun _ _ _ => .flushBits)

theorem overwrite_length {off : Nat} {v bytes : List Byte} (h : off + v.length ≤ bytes.length) :
    (overwrite off v bytes).length = bytes.length := by
  simp only [overwrite, List.length_append, List.length_take, List.length_drop]
  omega

/-- The header fields stand inside the 16 bytes of the header, so the output keeps its length (R270). -/
theorem ahufEncFinish_does (h : 16 ≤ w.olen) : BodyDoes .ahufEnc ahufEncFinish w := by
  refine .of_ok rfl (.refl _ w) (.results (checksum w.mach) (checksum w.mach) (by simp)) ?_
  rintro ⟨hl, hc⟩
  have hlength : (overwrite 4 (leBytes 8 w.olen) w.out.reverse).length = w.olen := by
    rw [overwrite_length] <;> simp only [leBytes_length, List.length_reverse, hl]
    omega
  refine ⟨?_, hc⟩
  simp only [List.length_reverse, List.reverse_reverse]
  rw [overwrite_length, hlength]
  rw [leBytes_length, hlength]
  omega

theorem emitAll_olen {bytes : List Byte} {v : Work} (h : emitAll bytes w = .ok () v) :
    v.olen = w.olen + bytes.length := by
  induction bytes generalizing w with
  | nil => cases h; rfl
  | cons b t ih =>
    obtain ⟨_, u, hu, ht⟩ := Cmd.of_bind_ok h
    rw [emit_run] at hu
    split_ifs at hu
    cases hu
    rw [ih ht, List.length_cons]
    simp only
    omega

theorem ahufEncStage_does (x : List Byte) : BodyDoes .ahufEnc (ahufEncStage x) w := by
  refine .bind (startAhuf_does (by simp)) fun _ _ _ => ?_
  refine .bind (.emitAll _) fun _ _ hmagic => .bind (.emitAll _) fun _ _ hzeros => ?_
  refine .bind (ahufEncBytes_does x) fun _ _ hbytes => .bind encodeEnd_does fun _ _ hend => ahufEncFinish_does ?_
  have h4 := emitAll_olen hmagic
  have h12 := emitAll_olen hzeros
  have hb := ((ahufEncBytes_does x).progress_ok hbytes).grows
  have he := ((encodeEnd_does (i := .ahufEnc)).progress_ok hend).grows
  simp only [ahufMagic, List.length_cons, List.length_nil, List.length_replicate] at h4 h12
  omega

theorem decodeSymbol_does : Does i decodeSymbol w := by
  suffices h : ∀ fuel r (w : Work), Does i (decodeSymbolFrom fuel r) w from h _ _ w
  intro fuel
  induction fuel with
  | zero => exact fun r w => .raise (corrupt_listed (by decide))
  | succ fuel ih =>
    intro r w
    refine .get_bind ?_
    split_ifs
    · exact .pure _
    · exact (Does.getBit (corrupt_listed (by decide))).bind fun _ _ _ => ih _ _

theorem rawByte_does : Does i rawByte w := by
  refine (Does.getBits (corrupt_listed (by decide)) 8).bind fun _ _ _ => .get_bind ?_
  split_ifs
  · exact .raise (corrupt_listed (by decide))
  · exact .pure _

theorem acceptByte_does (b : Byte) : Does .ahufDec (acceptByte b) w :=
  (Does.emit b).bind fun _ _ _ => (feedCrc_does b (by simp)).bind fun _ _ _ => updateTree_does b (by simp)

theorem ahufDecLoop_does (fuel : Nat) : Does .ahufDec (ahufDecLoop fuel) w := by
  induction fuel generalizing w with
  | zero => exact .raise (corrupt_listed (by decide))
  | succ fuel ih =>
    refine decodeSymbol_does.bind fun sym _ _ => ?_
    split_ifs
    · exact .pure ()
    · exact rawByte_does.bind fun b _ _ => (acceptByte_does b).bind fun _ _ _ => ih
    · exact (Does.pure _).bind fun b _ _ => (acceptByte_does b).bind fun _ _ _ => ih

theorem ahufDecFinish_does (stored : Word) : BodyDoes .ahufDec (ahufDecFinish stored) w := by
  by_cases h : checksum w.mach = stored
  · refine .of_ok (v := { w with mach := { w.mach with res0 := checksum w.mach, res1 := stored } }) ?_ (.refl _ w)
      (.results _ _ (by simp)) id
    simp [ahufDecFinish, Cmd.bind_run, h]
  · let coded : State := { w.mach with res0 := checksum w.mach, res1 := stored }
    refine .of_ok (v := { w with mach := warnChecksumMismatch w.stage coded }) ?_ (.refl _ w) (.warned _ _ rfl) id
    simp [ahufDecFinish, Cmd.bind_run, h, coded]

theorem ahufDecStage_does (x : List Byte) : BodyDoes .ahufDec (ahufDecStage x) w := by
  unfold ahufDecStage
  split_ifs
  · exact (Does.raise (malformed_listed (by decide))).body
  · exact (Does.raise (malformed_listed (by decide))).body
  · exact (Does.raise (malformed_listed (by decide))).body
  · refine .bind (startAhuf_does (by simp)) fun _ _ _ => .bind (.openBits _ _) fun _ _ _ => ?_
    exact .bind (ahufDecLoop_does _) fun _ _ _ => ahufDecFinish_does _

/-! ## LZW -/

theorem lzwEncFrom_does (pre : BitVec 14) (x : List Byte) : Does .lzwEnc (lzwEncFrom pre x) w := by
  induction x generalizing pre w with
  | nil => exact .putBits _ _
  | cons ch x ih =>
    refine .get_bind ?_
    simp only
    split_ifs
    · exact ih _
    · refine (Does.putBits _ _).bind fun _ v hv => .bind ?_ fun _ _ _ => ih _
      have hm : v.mach = w.mach := by
        have h := putBitList_mach (msbBits pre.toNat 14) w
        rwa [show putBitList (msbBits pre.toNat 14) w = .ok _ v from hv] at h
      exact .onMachine (hm ▸ .insert pre ch (by simp))

theorem lzwEncStage_does (x : List Byte) : BodyDoes .lzwEnc (lzwEncStage x) w := by
  refine .bind (.onMachine (.freshTable (by simp))) fun _ _ _ => .bind ?_ fun _ _ _ => ?_
  · cases x with
    | nil => exact .pure ()
    | cons b x => exact lzwEncFrom_does _ _
  · exact .bind (.putBits _ _) fun _ _ _ => .bind (.putBits _ _) fun _ _ _ => Does.dropBits.body

theorem lzwDecLoop_does (fuel old : Nat) (first : Byte) : Does .lzwDec (lzwDecLoop fuel old first) w := by
  induction fuel generalizing old first w with
  | zero => exact .raise (malformed_listed (by decide))
  | succ fuel ih =>
    refine (Does.getBits (malformed_listed (by decide)) 14).bind fun new _ _ => ?_
    split_ifs
    · exact .pure ()
    · refine .get_bind ?_
      split_ifs
      · exact .raise (malformed_listed (by decide))
      · exact (Does.emitAll _).bind fun _ _ _ => (Does.onMachine (.record _ _ rfl)).bind fun _ _ _ => ih _ _

theorem lzwDecStage_does (x : List Byte) : BodyDoes .lzwDec (lzwDecStage x) w := by
  refine .bind (.onMachine (.freshTable (by simp))) fun _ _ _ => .bind (.openBits _ _) fun _ _ _ => ?_
  refine .bind (.getBits (malformed_listed (by decide)) 14) fun old _ _ => ?_
  split_ifs
  · exact (Does.pure ()).body
  · exact (Does.raise (malformed_listed (by decide))).body
  · exact .bind (.emit _) fun _ _ _ => (lzwDecLoop_does _ _ _).body

end Sys2Proof.Machine
end

section
/-! How every command ends: one of six ways, each with the changes made before it (R360, R361, R373). -/

namespace Sys2Proof.Machine

open Sys2Proof.Safety

/-! ## A command as its changes -/

/-- The commands whose changes command `i` makes: its own, or for a pipeline those of its stages. -/
def runsIn (i : Instr) : List Instr := i :: pipelineStages i

/-- One change or report inside command `i`, that of a stage 0 to 3. -/
def Touch (i : Instr) (s t : State) : Prop :=
  ∃ j ∈ runsIn i, Change j s t ∨ ∃ k ≤ 3, Report j k s t

/-- The changes and reports inside command `i` one after the other. -/
abbrev Touches (i : Instr) : State → State → Prop := Relation.ReflTransGen (Touch i)

theorem Changes.touches {i j : Instr} {s t : State} (h : Changes j s t) (hj : j ∈ runsIn i) : Touches i s t :=
  Relation.ReflTransGen.mono (fun _ _ hc => ⟨j, hj, .inl hc⟩) _ _ h

theorem Report.touches {i j : Instr} {k : Nat} {s t : State} (h : Report j k s t) (hj : j ∈ runsIn i)
    (hk : k ≤ 3) : Touches i s t :=
  .single ⟨j, hj, .inr ⟨k, hk, h⟩⟩

theorem Touch.params_eq {i : Instr} {s t : State} (h : Touch i s t) : t.params = s.params := by
  obtain ⟨j, -, hc | ⟨k, -, hr⟩⟩ := h
  · exact hc.params_eq
  · exact hr.params_eq

theorem Touches.params_eq {i : Instr} {s t : State} (h : Touches i s t) : t.params = s.params := by
  induction h with
  | refl => rfl
  | tail _ hc ih => exact hc.params_eq.trans ih

/-- A property that every change and report keeps is kept by all of them together. -/
theorem Touches.keeps {P : State → Prop} {i : Instr} {s t : State} (h : Touches i s t)
    (hchange : ∀ j ∈ runsIn i, ∀ s t, Change j s t → P s → P t)
    (hreport : ∀ j ∈ runsIn i, ∀ k ≤ 3, ∀ s t, Report j k s t → P s → P t) (hs : P s) : P t := by
  induction h with
  | refl => exact hs
  | tail _ hc ih =>
    obtain ⟨j, hj, hc | ⟨k, hk, hr⟩⟩ := hc
    · exact hchange j hj _ _ hc ih
    · exact hreport j hj k hk _ _ hr ih

/-- How command `i` can end from state `s`: the six forms of R360, R361 and R373. -/
inductive CommandEnd (i : Instr) (s : State) : State → Prop where
  /-- SOFT_RESET (R362). -/
  | reset (user : i = .softReset) : CommandEnd i s (softReset s)
  /-- XFER (R363). -/
  | xfer (user : i = .xfer) :
      CommandEnd i s (completeCommand { beginCommand s with ibuf := s.ibuf.load s.output, ilen := s.olen })
  /-- A command that produces no bytes ends well. -/
  | done {m : State} (plain : producesBytes i = false) (touches : Touches i (beginCommand s) m) :
      CommandEnd i s (completeCommand m)
  /-- A command that produces no bytes is refused (R375, R378). -/
  | refused {e : FatalError} (plain : producesBytes i = false) (listed : e.Listed) :
      CommandEnd i s (failUnit e (beginCommand s))
  /-- A byte-producing command commits its output (R26, R71). -/
  | committed {m : State} {x : List Byte} (produces : producesBytes i = true) (touches : Touches i (beginCommand s) m)
      (fits : x.length ≤ s.params.bufCap) : CommandEnd i s (completeCommand (commitOutput x m))
  /-- A byte-producing command stops in stage `k`, 0 outside a pipeline, at a fatal error; what it keeps of its output
  is nothing but for LZW_DEC (R318, R373), and outside a pipeline it has not yet written its results. -/
  | stopped {m : State} {x : List Byte} {e : FatalError} {k : Nat} (produces : producesBytes i = true)
      (touches : Touches i (beginCommand s) m) (fits : x.length ≤ s.params.bufCap) (listed : e.Listed) (stage : k ≤ 3)
      (results : pipelineStages i = [] → m.res0 = s.res0 ∧ m.res1 = s.res1) :
      CommandEnd i s (completeCommand (raiseFatal e k (commitOutput x m)))

/-! ## The byte-producing primitives -/

/-- The body of a byte-producing primitive. -/
def stageBody : Instr → List Byte → Cmd Unit
  | .bwtFwd => bwtFwdStage
  | .bwtInv => bwtInvStage
  | .mtfEnc => mtfEncStage
  | .mtfDec => mtfDecStage
  | .shufEnc => shufEncStage
  | .shufDec => shufDecStage
  | .ahufEnc => ahufEncStage
  | .ahufDec => ahufDecStage
  | .lzwEnc => lzwEncStage
  | .lzwDec => lzwDecStage
  | _ => fun _ => pure ()

theorem stageBody_does (i : Instr) (x : List Byte) (w : Work) : BodyDoes i (stageBody i x) w := by
  cases i
  case bwtFwd => exact bwtFwdStage_does x
  case bwtInv => exact bwtInvStage_does x
  case mtfEnc => exact mtfEncStage_does x
  case mtfDec => exact mtfDecStage_does x
  case shufEnc => exact shufEncStage_does x
  case shufDec => exact shufDecStage_does x
  case ahufEnc => exact ahufEncStage_does x
  case ahufDec => exact ahufDecStage_does x
  case lzwEnc => exact lzwEncStage_does x
  case lzwDec => exact lzwDecStage_does x
  all_goals exact (Does.pure ()).body

/-- RES0 and RES1. -/
def resultFields (s : State) := (s.res0, s.res1)

theorem Change.results_eq {i : Instr} {s t : State} (h : Change i s t) : resultFields t = resultFields s := by
  cases h with
  | insert => exact insertOrOverflow_field (fun _ _ => rfl) (fun _ => rfl) ..
  | record => exact recordOrOverflow_field (fun _ _ => rfl) (fun _ => rfl) ..
  | crc | suffixes | draw | freshTree | update | freshTable => rfl

theorem Changes.results_eq {i : Instr} {s t : State} (h : Changes i s t) : t.res0 = s.res0 ∧ t.res1 = s.res1 := by
  refine Prod.mk.inj (?_ : resultFields t = resultFields s)
  induction h with
  | refl => rfl
  | tail _ hc ih => exact hc.results_eq.trans ih

theorem Work.start_outFits (k : Nat) (s : State) : (Work.start k s).OutFits := ⟨rfl, Nat.zero_le _⟩

theorem Work.OutFits.output_length {w : Work} (h : w.OutFits) : w.out.reverse.length ≤ w.mach.params.bufCap := by
  rw [List.length_reverse, h.1]
  exact h.2

/-- A byte-producing primitive run alone (R360). -/
theorem runCodec_end {i : Instr} (keep : FatalError → Bool) (s : State) (hi : producesBytes i = true) :
    CommandEnd i s (runCodec keep (stageBody i) s) := by
  have hread : Does i readInput (Work.start 0 (beginCommand s)) :=
    .get_bind ((Does.checkInputLength _).bind fun _ _ _ => .pure _)
  have hbody : BodyDoes i (readInput >>= stageBody i) (Work.start 0 (beginCommand s)) :=
    .bind hread fun x v _ => stageBody_does i x v
  have hself : i ∈ runsIn i := List.mem_cons_self ..
  unfold runCodec
  cases h : (readInput >>= stageBody i) (Work.start 0 (beginCommand s)) with
  | ok a v =>
    obtain ⟨m, hm, hr, hv⟩ := hbody.ok h
    have ht : Touches i (beginCommand s) v.mach :=
      (hm.changes.touches hself).trans (hr.touches hself (Nat.zero_le 3))
    refine .committed hi ht ?_
    have := (hv (hm.fits (Work.start_outFits 0 _))).output_length
    rwa [ht.params_eq] at this
  | error e v =>
    obtain ⟨hp, he⟩ := hbody.error h
    have ht : Touches i (beginCommand s) v.mach := hp.changes.touches hself
    have hx := (hp.fits (Work.start_outFits 0 _)).output_length
    rw [ht.params_eq] at hx
    rw [finishCodec_error]
    split_ifs
    · exact .stopped hi ht hx he (Nat.zero_le 3) fun _ => hp.changes.results_eq
    · exact .stopped hi ht (Nat.zero_le _) he (Nat.zero_le 3) fun _ => hp.changes.results_eq

/-! ## The pipelines -/

/-- The stages of a pipeline from number `k` on (R341). -/
theorem runStages_end {i : Instr} {stages : List Instr} (hi : ∀ j ∈ stages, j ∈ runsIn i) {k : Nat}
    (hk : k + stages.length ≤ 4) {s : State} {x : List Byte} (hx : x.length ≤ s.params.bufCap) :
    match runStages (stages.map stageBody) k s x with
    | .finished t y => Touches i s t ∧ y.length ≤ s.params.bufCap
    | .failed e l t => Touches i s t ∧ e.Listed ∧ l ≤ 3 := by
  induction stages generalizing k s x with
  | nil => exact ⟨.refl, hx⟩
  | cons j stages ih =>
    have hj : j ∈ runsIn i := hi j (List.mem_cons_self ..)
    have hbody : BodyDoes j (checkInputLength x.length >>= fun _ => stageBody j x) (Work.start k s) :=
      .bind (.checkInputLength _) fun _ v _ => stageBody_does j x v
    rw [List.length_cons] at hk
    rw [List.map_cons]
    cases h : runStage (stageBody j) k s x with
    | ok a v =>
      obtain ⟨m, hm, hr, hv⟩ := hbody.ok h
      have ht : Touches i s v.mach :=
        (hm.changes.touches hj).trans (hr.touches hj (by simp only [Work.start]; omega))
      have hout := (hv (hm.fits (Work.start_outFits k s))).output_length
      have hmore := ih (fun j hj => hi j (List.mem_cons_of_mem _ hj)) (k := k + 1) (by omega) hout
      rw [runStages_ok h, ← show v.mach.params = s.params from ht.params_eq]
      revert hmore
      cases runStages (stages.map stageBody) (k + 1) v.mach v.out.reverse with
      | finished t y => exact fun ⟨ht', hy⟩ => ⟨ht.trans ht', hy⟩
      | failed e l t => exact fun ⟨ht', he, hl⟩ => ⟨ht.trans ht', he, hl⟩
    | error e v =>
      obtain ⟨hp, he⟩ := hbody.error h
      rw [runStages_error h]
      exact ⟨hp.changes.touches hj, he, by omega⟩

/-- A pipeline command (R341, R342). -/
theorem runPipeline_end {i : Instr} (s : State) (hi : producesBytes i = true) (hne : pipelineStages i ≠ [])
    (hlen : (pipelineStages i).length ≤ 3) :
    CommandEnd i s (runPipeline ((pipelineStages i).map stageBody) s) := by
  rcases Nat.lt_or_ge s.params.bufCap s.ilen.toNat with hlong | hfits
  · rw [runPipeline_tooLong _ hlong]
    exact .stopped hi .refl (Nat.zero_le _) inputTooLong_listed (by decide) fun h => absurd h hne
  · rw [runPipeline_fits _ hfits]
    have hrun := runStages_end (i := i) (stages := pipelineStages i) (fun j hj => List.mem_cons_of_mem _ hj) (k := 1)
      (by omega) (s := beginCommand s) (x := s.input) (by rwa [input_length])
    revert hrun
    cases runStages ((pipelineStages i).map stageBody) 1 (beginCommand s) s.input with
    | finished t y => exact fun ⟨ht, hy⟩ => .committed hi ht hy
    | failed e l t => exact fun ⟨ht, he, hl⟩ => .stopped hi ht (Nat.zero_le _) he hl fun h => absurd h hne

/-! ## Every command -/

theorem badOperand_listed : badOperand.Listed := by unfold FatalError.Listed; decide

theorem badCommand_listed : badCommand.Listed := by unfold FatalError.Listed; decide

/-- A command that makes one change and reports nothing. -/
theorem CommandEnd.of_change {i : Instr} {s m : State} (hi : producesBytes i = false)
    (h : Change i (beginCommand s) m) : CommandEnd i s (completeCommand m) :=
  .done hi (Changes.touches (.single h) (List.mem_cons_self ..))

/-- A command that only reports. -/
theorem CommandEnd.of_report {i : Instr} {s m : State} (hi : producesBytes i = false)
    (h : Report i 0 (beginCommand s) m) : CommandEnd i s (completeCommand m) :=
  .done hi (h.touches (List.mem_cons_self ..) (Nat.zero_le 3))

theorem execCrcByte_end {s t : State} (h : execCrcByte s = .next t) : CommandEnd .crcByte s t := by
  unfold execCrcByte at h
  split at h <;> cases h
  · exact .refused rfl badOperand_listed
  · exact .of_change rfl (.crc _ (by simp))

theorem execCrcBuf_end {s t : State} (h : execCrcBuf s = .next t) : CommandEnd .crcBuf s t := by
  unfold execCrcBuf at h
  split at h <;> cases h
  · exact .refused rfl inputTooLong_listed
  · exact .of_change rfl (.crc _ (by simp))

theorem execSaBuild_end {s t : State} (h : execSaBuild s = .next t) : CommandEnd .saBuild s t := by
  unfold execSaBuild at h
  split at h <;> rename_i hlen <;> cases h
  · exact .refused rfl inputTooLong_listed
  · exact .of_change rfl (.suffixes _ (by simp) (by rw [input_length]; exact Nat.not_lt.mp hlen))

theorem execAhufUpdate_end {s t : State} (h : execAhufUpdate s = .next t) : CommandEnd .ahufUpdate s t := by
  unfold execAhufUpdate at h
  split at h <;> cases h
  · exact .refused rfl badOperand_listed
  · exact .of_change rfl (.update _ (by simp))

theorem execLzwProbe_end {s t : State} (h : execLzwProbe s = .next t) : CommandEnd .lzwProbe s t := by
  unfold execLzwProbe at h
  split at h <;> cases h
  · exact .refused rfl badOperand_listed
  · exact .of_report rfl (.results _ _ (by simp))

theorem execLzwInsert_end {s t : State} (h : execLzwInsert s = .next t) : CommandEnd .lzwInsert s t := by
  unfold execLzwInsert at h
  split at h
  · cases h
    exact .refused rfl badOperand_listed
  · rename_i pre ch _
    simp only at h
    split_ifs at h <;> cases h
    · exact .of_report rfl (.results _ _ (by simp))
    · have hinsert : Change .lzwInsert (beginCommand s) _ := .insert pre ch (by simp)
      have hself : Instr.lzwInsert ∈ runsIn .lzwInsert := List.mem_cons_self ..
      exact .done rfl ((Changes.touches (.single hinsert) hself).trans
        (Report.touches (k := 0) (.results _ _ (by simp)) hself (Nat.zero_le 3)))

/-- Every command, from every state, ends in one of the six ways. -/
theorem exec_end {i : Instr} {s t : State} (h : exec i s = .next t) : CommandEnd i s t := by
  cases i
  case softReset => cases h; exact .reset rfl
  case xfer => cases h; exact .xfer rfl
  case crcReset => cases h; exact .of_change rfl (.crc _ (by simp))
  case crcByte => exact execCrcByte_end h
  case crcBuf => exact execCrcBuf_end h
  case crcRead => cases h; exact .of_report rfl (.result _ (by simp))
  case saBuild => exact execSaBuild_end h
  case ahufInit => cases h; exact .of_change rfl (.freshTree (by simp))
  case ahufUpdate => exact execAhufUpdate_end h
  case lzwInit => cases h; exact .of_change rfl (.freshTable (by simp))
  case lzwProbe => exact execLzwProbe_end h
  case lzwInsert => exact execLzwInsert_end h
  case lzwDec => cases h; exact runCodec_end keepDecoded s rfl
  case pBwtLzwC | pBwtLzwD | pBwtMtfShufC | pBwtMtfShufD | pBwtMtfAhufC | pBwtMtfAhufD =>
    cases h
    exact runPipeline_end s rfl (by simp [pipelineStages]) (by simp [pipelineStages])
  all_goals
    cases h
    exact runCodec_end keepNothing s rfl

end Sys2Proof.Machine
end

section
/-! The frames: which commands may change which part of the state. -/

namespace Sys2Proof.Machine

open Sys2Proof.Safety

variable {i : Instr} {s t : State}

/-! ## Fields that only a command's own changes write -/

/-- A field of the state that the start and the end of a command leave alone. -/
structure OutsideEnds {β : Type} (f : State → β) : Prop where
  begin_eq : ∀ s, f (beginCommand s) = f s
  complete_eq : ∀ s, f (completeCommand s) = f s
  commit_eq : ∀ x s, f (commitOutput x s) = f s
  raise_eq : ∀ e k s, f (raiseFatal e k s) = f s
  input_eq : ∀ (s : State) (m : Memory) (n : Word), f { s with ibuf := m, ilen := n } = f s

/-- A field that only the commands `users` write is as before in every other command. -/
theorem Touches.field_eq {β : Type} {f : State → β} {users : List Instr}
    (hchange : ∀ {j s t}, Change j s t → j ∉ users → f t = f s)
    (hreport : ∀ {j k s t}, Report j k s t → j ∉ users → f t = f s) (hi : ∀ j ∈ runsIn i, j ∉ users)
    (h : Touches i s t) : f t = f s :=
  h.keeps (P := fun m => f m = f s) (fun j hj _ _ hc hm => (hchange hc (hi j hj)).trans hm)
    (fun j hj _ _ _ _ hr hm => (hreport hr (hi j hj)).trans hm) rfl

theorem CommandEnd.field_eq {β : Type} {f : State → β} (hf : OutsideEnds f) {users : List Instr}
    (hchange : ∀ {j s t}, Change j s t → j ∉ users → f t = f s)
    (hreport : ∀ {j k s t}, Report j k s t → j ∉ users → f t = f s) (hi : ∀ j ∈ runsIn i, j ∉ users)
    (hsoft : i = .softReset → f (softReset s) = f s) (h : CommandEnd i s t) : f t = f s := by
  have htouch {m : State} (ht : Touches i (beginCommand s) m) : f m = f s :=
    (ht.field_eq hchange hreport hi).trans (hf.begin_eq s)
  cases h with
  | reset user => exact hsoft user
  | xfer => rw [hf.complete_eq, hf.input_eq, hf.begin_eq]
  | done _ ht => rw [hf.complete_eq, htouch ht]
  | refused => rw [failUnit, hf.complete_eq, hf.raise_eq, hf.begin_eq]
  | committed _ ht => rw [hf.complete_eq, hf.commit_eq, htouch ht]
  | stopped _ ht => rw [hf.complete_eq, hf.raise_eq, hf.commit_eq, htouch ht]

/-! ### Which change writes which field -/

/-- The registers and buffers that no change inside a command writes. -/
def outerFields (s : State) :=
  (s.params, s.hostQueue, s.arg0, s.ilen, s.olen, s.ibuf, s.obuf, s.status.err)

theorem Change.outer_eq (h : Change i s t) : outerFields t = outerFields s := by
  cases h with
  | insert => exact insertOrOverflow_field (fun _ _ => rfl) (fun _ => rfl) ..
  | record => exact recordOrOverflow_field (fun _ _ => rfl) (fun _ => rfl) ..
  | crc | suffixes | draw | freshTree | update | freshTable => rfl

theorem Report.outer_eq {k : Nat} (h : Report i k s t) : outerFields t = outerFields s := by cases h <;> rfl

theorem Touches.outer_eq (h : Touches i s t) : outerFields t = outerFields s :=
  h.field_eq (users := []) (fun hc _ => hc.outer_eq) (fun hr _ => hr.outer_eq) fun _ _ => List.not_mem_nil

theorem Change.crcacc_eq (h : Change i s t)
    (hi : i ∉ [Instr.crcReset, .crcByte, .crcBuf, .ahufEnc, .ahufDec]) : t.crcacc = s.crcacc := by
  cases h with
  | crc v user => exact absurd user hi
  | insert => exact insertOrOverflow_field (f := State.crcacc) (fun _ _ => rfl) (fun _ => rfl) ..
  | record => exact recordOrOverflow_field (f := State.crcacc) (fun _ _ => rfl) (fun _ => rfl) ..
  | suffixes | draw | freshTree | update | freshTable => rfl

theorem Report.crcacc_eq {k : Nat} (h : Report i k s t) : t.crcacc = s.crcacc := by cases h <;> rfl

theorem Report.res0_eq {k : Nat} (h : Report i k s t)
    (hi : i ∉ [Instr.crcRead, .bwtFwd, .ahufEnc, .ahufDec, .lzwProbe, .lzwInsert]) : t.res0 = s.res0 := by
  cases h with
  | nothing => rfl
  | result v user | results v v' user | warned v v' user => exact absurd (by grind) hi

theorem Report.res1_eq {k : Nat} (h : Report i k s t)
    (hi : i ∉ [Instr.ahufEnc, .ahufDec, .lzwProbe, .lzwInsert]) : t.res1 = s.res1 := by
  cases h with
  | nothing | result => rfl
  | results v v' user => exact absurd user hi
  | warned v v' user => exact absurd (by simp [user]) hi

/-- SAMEM and SALEN. -/
def suffixFields (s : State) := (s.samem, s.salen)

theorem Change.suffixes_eq (h : Change i s t) (hi : i ∉ [Instr.saBuild, .bwtFwd]) :
    suffixFields t = suffixFields s := by
  cases h with
  | suffixes x user => exact absurd user hi
  | insert => exact insertOrOverflow_field (fun _ _ => rfl) (fun _ => rfl) ..
  | record => exact recordOrOverflow_field (fun _ _ => rfl) (fun _ => rfl) ..
  | crc | draw | freshTree | update | freshTable => rfl

theorem Report.suffixes_eq {k : Nat} (h : Report i k s t) : suffixFields t = suffixFields s := by cases h <;> rfl

theorem Change.ahuf_eq (h : Change i s t) (hi : i ∉ [Instr.ahufInit, .ahufUpdate, .ahufEnc, .ahufDec]) :
    t.ahuf = s.ahuf := by
  cases h with
  | freshTree user | update b user => exact absurd (by grind) hi
  | insert => exact insertOrOverflow_field (f := State.ahuf) (fun _ _ => rfl) (fun _ => rfl) ..
  | record => exact recordOrOverflow_field (f := State.ahuf) (fun _ _ => rfl) (fun _ => rfl) ..
  | crc | suffixes | draw | freshTable => rfl

theorem Report.ahuf_eq {k : Nat} (h : Report i k s t) : t.ahuf = s.ahuf := by cases h <;> rfl

theorem Change.lzw_eq (h : Change i s t) (hi : i ∉ [Instr.lzwInit, .lzwInsert, .lzwEnc, .lzwDec]) :
    t.lzw = s.lzw := by
  cases h with
  | freshTable user | insert pre ch user => exact absurd (by grind) hi
  | record old first user => exact absurd (by simp [user]) hi
  | crc | suffixes | draw | freshTree | update => rfl

theorem Report.lzw_eq {k : Nat} (h : Report i k s t) : t.lzw = s.lzw := by cases h <;> rfl

theorem Change.dovf_eq (h : Change i s t) (hi : i ∉ [Instr.lzwInsert, .lzwEnc, .lzwDec]) :
    t.status.dovf = s.status.dovf := by
  cases h with
  | insert pre ch user => exact absurd (by grind) hi
  | record old first user => exact absurd (by simp [user]) hi
  | crc | suffixes | draw | freshTree | update | freshTable => rfl

theorem Report.dovf_eq {k : Nat} (h : Report i k s t) : t.status.dovf = s.status.dovf := by cases h <;> rfl

theorem Change.bwtDraw_eq (h : Change i s t) (hi : i ∉ [Instr.bwtInv]) : t.bwtDraw = s.bwtDraw := by
  cases h with
  | draw user => exact absurd (by simp [user]) hi
  | insert => exact insertOrOverflow_field (f := State.bwtDraw) (fun _ _ => rfl) (fun _ => rfl) ..
  | record => exact recordOrOverflow_field (f := State.bwtDraw) (fun _ _ => rfl) (fun _ => rfl) ..
  | crc | suffixes | freshTree | update | freshTable => rfl

theorem Report.bwtDraw_eq {k : Nat} (h : Report i k s t) : t.bwtDraw = s.bwtDraw := by cases h <;> rfl

/-! ## The frames of a command -/

theorem CommandEnd.crcacc_eq (h : CommandEnd i s t) (hi : i ≠ .softReset)
    (hrun : ∀ j ∈ runsIn i, j ∉ [Instr.crcReset, .crcByte, .crcBuf, .ahufEnc, .ahufDec]) : t.crcacc = s.crcacc :=
  h.field_eq ⟨fun _ => rfl, fun _ => rfl, fun _ _ => rfl, fun _ _ _ => rfl, fun _ _ _ => rfl⟩ Change.crcacc_eq
    (fun hr _ => hr.crcacc_eq) hrun fun hsoft => absurd hsoft hi

theorem CommandEnd.res0_eq (h : CommandEnd i s t) (hi : i ≠ .softReset)
    (hrun : ∀ j ∈ runsIn i, j ∉ [Instr.crcRead, .bwtFwd, .ahufEnc, .ahufDec, .lzwProbe, .lzwInsert]) :
    t.res0 = s.res0 :=
  h.field_eq ⟨fun _ => rfl, fun _ => rfl, fun _ _ => rfl, fun _ _ _ => rfl, fun _ _ _ => rfl⟩
    (fun hc _ => congrArg Prod.fst hc.results_eq) Report.res0_eq hrun fun hsoft => absurd hsoft hi

theorem CommandEnd.res1_eq (h : CommandEnd i s t) (hi : i ≠ .softReset)
    (hrun : ∀ j ∈ runsIn i, j ∉ [Instr.ahufEnc, .ahufDec, .lzwProbe, .lzwInsert]) : t.res1 = s.res1 :=
  h.field_eq ⟨fun _ => rfl, fun _ => rfl, fun _ _ => rfl, fun _ _ _ => rfl, fun _ _ _ => rfl⟩
    (fun hc _ => congrArg Prod.snd hc.results_eq) Report.res1_eq hrun fun hsoft => absurd hsoft hi

theorem CommandEnd.suffixes_eq (h : CommandEnd i s t) (hi : i ≠ .softReset)
    (hrun : ∀ j ∈ runsIn i, j ∉ [Instr.saBuild, .bwtFwd]) : suffixFields t = suffixFields s :=
  h.field_eq ⟨fun _ => rfl, fun _ => rfl, fun _ _ => rfl, fun _ _ _ => rfl, fun _ _ _ => rfl⟩ Change.suffixes_eq
    (fun hr _ => hr.suffixes_eq) hrun fun hsoft => absurd hsoft hi

theorem CommandEnd.ahuf_eq (h : CommandEnd i s t) (hi : i ≠ .softReset)
    (hrun : ∀ j ∈ runsIn i, j ∉ [Instr.ahufInit, .ahufUpdate, .ahufEnc, .ahufDec]) : t.ahuf = s.ahuf :=
  h.field_eq ⟨fun _ => rfl, fun _ => rfl, fun _ _ => rfl, fun _ _ _ => rfl, fun _ _ _ => rfl⟩ Change.ahuf_eq
    (fun hr _ => hr.ahuf_eq) hrun fun hsoft => absurd hsoft hi

theorem CommandEnd.lzw_eq (h : CommandEnd i s t) (hi : i ≠ .softReset)
    (hrun : ∀ j ∈ runsIn i, j ∉ [Instr.lzwInit, .lzwInsert, .lzwEnc, .lzwDec]) : t.lzw = s.lzw :=
  h.field_eq ⟨fun _ => rfl, fun _ => rfl, fun _ _ => rfl, fun _ _ _ => rfl, fun _ _ _ => rfl⟩ Change.lzw_eq
    (fun hr _ => hr.lzw_eq) hrun fun hsoft => absurd hsoft hi

/-- Resets keep the number of free draws of BWT_INV (log entry 3). -/
theorem CommandEnd.bwtDraw_eq (h : CommandEnd i s t) (hrun : ∀ j ∈ runsIn i, j ∉ [Instr.bwtInv]) :
    t.bwtDraw = s.bwtDraw :=
  h.field_eq ⟨fun _ => rfl, fun _ => rfl, fun _ _ => rfl, fun _ _ _ => rfl, fun _ _ _ => rfl⟩ Change.bwtDraw_eq
    (fun hr _ => hr.bwtDraw_eq) hrun fun _ => rfl

/-- DOVF is cleared at the start of every command (R22), and only a dictionary change sets it again. -/
theorem CommandEnd.dovf_eq (h : CommandEnd i s t)
    (hrun : ∀ j ∈ runsIn i, j ∉ [Instr.lzwInsert, .lzwEnc, .lzwDec]) : t.status.dovf = false := by
  have htouch {m : State} (ht : Touches i (beginCommand s) m) : m.status.dovf = false :=
    ht.field_eq (f := fun m => m.status.dovf) Change.dovf_eq (fun hr _ => hr.dovf_eq) hrun
  cases h with
  | reset | xfer | refused => rfl
  | done _ ht | committed _ ht | stopped _ ht => exact (htouch ht).symm ▸ rfl

/-- A command that is no pipeline writes its results only when it ends well (R405). -/
theorem CommandEnd.results_eq_of_err (h : CommandEnd i s t) (hi : pipelineStages i = [])
    (herr : t.status.err ≠ 0) : t.res0 = s.res0 ∧ t.res1 = s.res1 := by
  have htouch {m : State} (ht : Touches i (beginCommand s) m) : m.status.err = 0 := by
    have houter := ht.outer_eq
    simp only [outerFields, Prod.mk.injEq] at houter
    obtain ⟨-, -, -, -, -, -, -, herr⟩ := houter
    exact herr
  cases h with
  | reset | xfer => exact absurd rfl herr
  | done _ ht | committed _ ht => exact absurd (htouch ht) herr
  | refused => exact ⟨rfl, rfl⟩
  | stopped _ _ _ _ _ results => exact results hi

/-- The registers and buffers that no command changes but those that have their own form in `CommandEnd`. -/
theorem CommandEnd.outer_eq (h : CommandEnd i s t) :
    t.params = s.params ∧ t.hostQueue = s.hostQueue
      ∧ (i ≠ .softReset → t.arg0 = s.arg0) ∧ (i ≠ .softReset → i ≠ .xfer → t.ilen = s.ilen)
      ∧ (i ≠ .xfer → t.ibuf = s.ibuf) ∧ (producesBytes i = false → t.obuf = s.obuf)
      ∧ (producesBytes i = false → i ≠ .softReset → t.olen = s.olen) := by
  have htouch {m : State} (ht : Touches i (beginCommand s) m) : outerFields m = outerFields (beginCommand s) :=
    ht.outer_eq
  simp only [outerFields, Prod.mk.injEq] at htouch
  cases h with
  | reset user => simp [user, softReset, State.resetWith]
  | xfer user => simp [user]
  | refused => simp
  | done plain ht | committed produces ht | stopped produces ht =>
    obtain ⟨hparams, hqueue, harg, hilen, holen, hibuf, hobuf, -⟩ := htouch ht
    simp_all

end Sys2Proof.Machine

namespace Sys2Proof

open Sys2Proof.Machine Sys2Proof.Safety

/-- Settles O52: no change inside a command writes these fields, so only the forms of `CommandEnd` do. -/
theorem bufferFrames : Obligations.BufferFrames := fun _ _ _ h => (exec_end h).outer_eq

/-- Settles O53: each field is written by the changes and reports of the commands listed for it. What
is left is a table over the commands: the obligation's list covers every command that runs a writer of the field. -/
theorem resultFrames : Obligations.ResultFrames := by
  intro i s t h
  have hend := exec_end h
  refine ⟨fun hi => hend.crcacc_eq ?_ ?_, fun hi => hend.res0_eq ?_ ?_, fun hi => hend.res1_eq ?_ ?_,
    hend.results_eq_of_err⟩ <;> cases i <;> simp_all [runsIn, pipelineStages]

/-- Settles O54: each unit is written by the changes of the commands listed for it, with
the same table over the commands. -/
theorem unitFrames : Obligations.UnitFrames := by
  intro i s t h
  have hend := exec_end h
  refine ⟨fun hi => Prod.mk.inj (hend.suffixes_eq ?_ ?_), fun hi => hend.ahuf_eq ?_ ?_, fun hi => hend.lzw_eq ?_ ?_,
    fun hi => hend.dovf_eq ?_, fun hi => hend.bwtDraw_eq ?_⟩ <;> cases i <;> simp_all [runsIn, pipelineStages]

end Sys2Proof
end

section
/-! One step: the host's accesses, and what each can do (R9, R20, R44, R77, R105). -/

namespace Sys2Proof.Machine

open Sys2Proof.Safety

/-- A step is the host's next access, made in the state in which it is used up (log entry 4). -/
theorem step_of_queue {s : State} {a : HostAction} {q : List HostAction} (h : s.hostQueue = a :: q) :
    step s = hostAccess a { s with hostQueue := q } := by
  simp only [step, nextAccess, h, List.head?_cons, dropAccess, List.tail_cons]

theorem step_of_idle {s : State} (h : s.hostQueue = []) : step s = .next s := by
  simp only [step, nextAccess, h, List.head?_nil]

/-! ## What an access can do -/

/-- How one access of the host can end in the state `s` in which it is used up. -/
inductive HostEnd (s : State) : State → Prop where
  /-- A read, or a write that is ignored (R77, U4, U6). -/
  | same : HostEnd s s
  | arg (v : Word) : HostEnd s { s with arg0 := v }
  | ilen (v : Word) : HostEnd s { s with ilen := v }
  | byte (a : Nat) (v : Byte) (inside : a < s.params.bufCap) : HostEnd s { s with ibuf := s.ibuf.write a v }
  | load (bytes : List Byte) (fits : bytes.length ≤ s.params.bufCap) : HostEnd s (hostLoad bytes s)
  | reset : HostEnd s (hardReset s)
  | rejected : HostEnd s (rejectCommand s)
  | command (i : Instr) (t : State) (runs : exec i s = .next t) : HostEnd s t

theorem writeRegister_end (r : Register) (v : Word) (s : State) : HostEnd s (writeRegister r v s) := by
  cases r
  case arg0 => exact .arg v
  case ilen => exact .ilen v
  all_goals exact .same

theorem issue_end {w : Word} {s t : State} (h : issue w s = .next t) : HostEnd s t := by
  unfold issue at h
  split at h
  · exact .command _ t h
  · cases h; exact .rejected

theorem hostWriteReg_end {offset : Nat} {v : Word} {s t : State} (h : hostWriteReg offset v s = .next t) :
    HostEnd s t := by
  unfold hostWriteReg at h
  split at h
  · exact issue_end h
  · cases h; exact writeRegister_end _ v s
  · cases h; exact .same

theorem hostAccess_end {a : HostAction} {s t : State} (h : hostAccess a s = .next t) : HostEnd s t := by
  cases a with
  | writeReg offset v => exact hostWriteReg_end h
  | readReg offset => cases h; exact .same
  | writeWindow w a v =>
    simp only [hostAccess] at h
    split_ifs at h with hin
    cases h
    cases w
    case ibuf => exact .byte a _ hin
    all_goals exact .same
  | readWindow w a =>
    simp only [hostAccess] at h
    split_ifs at h
    cases h
    exact .same
  | load bytes =>
    simp only [hostAccess] at h
    split_ifs at h with hfits
    cases h
    exact .load bytes hfits
  | hardwareReset => cases h; exact .reset

/-- A step leaves the idle machine as it is, or is the end of one access with the queue shortened. -/
theorem step_end {s t : State} (h : step s = .next t) : t = s ∨ ∃ q, HostEnd { s with hostQueue := q } t := by
  cases hq : s.hostQueue with
  | nil =>
    rw [step_of_idle hq] at h
    cases h
    exact .inl rfl
  | cons a q =>
    rw [step_of_queue hq] at h
    exact .inr ⟨q, hostAccess_end h⟩

/-- A property that does not look at the host's queue and that every end of an access keeps is kept by every step. -/
theorem step_keeps {P : State → Prop} (hqueue : ∀ s q, P s → P { s with hostQueue := q })
    (hend : ∀ s t, P s → HostEnd s t → P t) {s t : State} (hs : P s) (h : step s = .next t) : P t := by
  rcases step_end h with rfl | ⟨q, hq⟩
  · exact hs
  · exact hend _ t (hqueue s q hs) hq

/-! ## Registers -/

theorem registerAt_eq_cmd {offset : Nat} : registerAt offset = some .cmd ↔ offset = 0x00 := by
  unfold registerAt
  split <;> simp_all

theorem registerAt_eq_arg0 {offset : Nat} : registerAt offset = some .arg0 ↔ offset = 0x08 := by
  unfold registerAt
  split <;> simp_all

theorem registerAt_eq_ilen {offset : Nat} : registerAt offset = some .ilen ↔ offset = 0x14 := by
  unfold registerAt
  split <;> simp_all

theorem registerAt_eq_none {offset : Nat} (h : offset % 4 ≠ 0 ∨ 0x30 < offset) : registerAt offset = none := by
  unfold registerAt
  split <;> simp_all

/-- A write of any register but CMD, ARG0 and ILEN, or at an offset with no register, changes nothing (R20, U6). -/
theorem hostWriteReg_ignored {offset : Nat} (h : offset ∉ [0x00, 0x08, 0x14]) (v : Word) (s : State) :
    hostWriteReg offset v s = .next s := by
  have hcmd : registerAt offset ≠ some .cmd := fun hr => by simp [registerAt_eq_cmd.mp hr] at h
  have harg : registerAt offset ≠ some .arg0 := fun hr => by simp [registerAt_eq_arg0.mp hr] at h
  have hilen : registerAt offset ≠ some .ilen := fun hr => by simp [registerAt_eq_ilen.mp hr] at h
  unfold hostWriteReg
  cases hr : registerAt offset with
  | none => rfl
  | some r =>
    cases r
    case cmd => exact absurd hr hcmd
    case arg0 => exact absurd hr harg
    case ilen => exact absurd hr hilen
    all_goals rfl

theorem statusWord_toNat (st : Status) :
    (statusWord st).toNat
      = st.busy.toNat + 2 * st.done.toNat + 4 * st.warn.toNat + 8 * st.dovf.toNat
        + 16 * st.err.toNat + 256 * st.stage.toNat := by
  have hbusy := st.busy.toNat_lt
  have hdone := st.done.toNat_lt
  have hwarn := st.warn.toNat_lt
  have hdovf := st.dovf.toNat_lt
  have herr := st.err.isLt
  have hstage := st.stage.isLt
  rw [statusWord, BitVec.toNat_ofNat, Nat.mod_eq_of_lt (by omega)]

/-- A bit of a word, by arithmetic. -/
theorem getLsbD_of_div_mod {w : Word} {k : Nat} {b : Bool} (h : w.toNat / 2 ^ k % 2 = b.toNat) : w.getLsbD k = b := by
  rw [← BitVec.testBit_toNat, Nat.testBit_eq_decide_div_mod_eq, h]
  cases b <;> rfl

/-- R22: each field of STATUS stands at its place, and bits 31:11 are 0. -/
theorem statusWord_fields (st : Status) :
    ((statusWord st).getLsbD 0 = st.busy ∧ (statusWord st).getLsbD 1 = st.done
      ∧ (statusWord st).getLsbD 2 = st.warn ∧ (statusWord st).getLsbD 3 = st.dovf)
      ∧ (statusWord st).extractLsb' 4 4 = st.err ∧ (statusWord st).extractLsb' 8 3 = st.stage
      ∧ (statusWord st).extractLsb' 11 21 = 0 := by
  have hw := statusWord_toNat st
  have hbusy := st.busy.toNat_lt
  have hdone := st.done.toNat_lt
  have hwarn := st.warn.toNat_lt
  have hdovf := st.dovf.toNat_lt
  have herr := st.err.isLt
  have hstage := st.stage.isLt
  refine ⟨⟨?_, ?_, ?_, ?_⟩, ?_, ?_, ?_⟩
  iterate 4
    apply getLsbD_of_div_mod
    rw [hw]
    omega
  iterate 3
    apply BitVec.eq_of_toNat_eq
    simp only [BitVec.extractLsb'_toNat, hw, Nat.shiftRight_eq_div_pow, BitVec.ofNat_eq_ofNat, BitVec.toNat_ofNat]
    omega

end Sys2Proof.Machine

namespace Sys2Proof

open Sys2Proof.Machine Sys2Proof.Safety

/-- Settles O7: each access is looked at by its bound. -/
theorem hostAccessBounds : Obligations.HostAccessBounds := by
  intro s w i v bytes q
  refine ⟨fun hq h => ?_, fun hq h => ?_, fun hq h => ?_, fun hq h hw => ?_⟩ <;>
    rw [step_of_queue hq, hostAccess]
  · exact if_neg (Nat.not_lt.mpr h)
  · exact if_neg (Nat.not_lt.mpr h)
  · exact if_neg (Nat.not_le.mpr h)
  · rw [if_pos h]
    cases w
    case ibuf => exact absurd rfl hw
    all_goals rfl

/-- Settles O5: reads and writes register by register, STATUS field by field. -/
theorem hostRegisterAccess : Obligations.HostRegisterAccess := by
  refine ⟨fun s q v => ⟨fun offset hq => step_of_queue hq, fun w i hi hq => ?_, fun hq => step_of_queue hq,
    fun hq => step_of_queue hq, fun offset ho hq => ?_, step_of_idle⟩, fun s => ?_⟩
  · rw [step_of_queue hq]
    exact if_pos hi
  · rw [step_of_queue hq]
    exact hostWriteReg_ignored ho v _
  · refine ⟨⟨rfl, rfl, rfl, rfl, rfl, rfl, rfl, rfl, rfl, rfl, rfl, rfl⟩, ?_, fun offset ho => ?_⟩
    · obtain ⟨⟨hbusy, hdone, hwarn, hdovf⟩, hfields⟩ := statusWord_fields s.status
      exact ⟨hbusy, hdone, hwarn, hdovf, hfields⟩
    · rw [hostReadReg, registerAt_eq_none ho]

/-- Settles O8: both reset states are written out in the model. -/
theorem hardwareResetState : Obligations.HardwareResetState := by
  refine ⟨?_, fun s q hq => ⟨hardReset { s with hostQueue := q }, step_of_queue hq, ?_, rfl, rfl⟩⟩
  · exact ⟨rfl, rfl, rfl, rfl, rfl, rfl, rfl, rfl, rfl, rfl, rfl, rfl, rfl, rfl, fun _ => rfl, rfl, rfl, rfl⟩
  · exact ⟨rfl, rfl, rfl, rfl, rfl, rfl, rfl, rfl, rfl, rfl, rfl, rfl, rfl, rfl, fun _ => rfl, rfl, rfl, rfl⟩

end Sys2Proof
end

section
/-! The invariants of every step but that of the adaptive tree: reports, canonical form, buffers, LZW tables. -/

namespace Sys2Proof.Machine

open Sys2Proof.Safety

variable {i : Instr} {s t : State}

/-! ## Reports (R22, R27, R28) -/

theorem getLsbD_logFault {w : Word} {k : Nat} (code : Nat) (h : w.getLsbD k = true) :
    (logFault code w).getLsbD k = true := by
  simp only [logFault, BitVec.getLsbD_or, h, Bool.true_or]

/-- The reserved bits of FAULTLOG stay 0 when the bit of a fault kind of R370 is set. -/
theorem logFault_reserved {w : Word} {code : Nat} (hcode : code ∈ [1, 2, 4, 5, 6]) (h : w &&& 0xFFFFFF89#32 = 0) :
    logFault code w &&& 0xFFFFFF89#32 = 0 := by
  have hbit : BitVec.twoPow 32 code &&& 0xFFFFFF89#32 = 0 := by
    revert hcode code
    decide
  rw [logFault, BitVec.and_comm, BitVec.and_or_distrib_left, BitVec.and_comm, h, BitVec.and_comm, hbit]
  rfl

theorem fatalCode_mem (e : FatalKind) : fatalCode e ∈ [1, 2, 4, 5, 6] := by cases e <;> decide

/-- STATUS, ERRINFO and FAULTLOG inside a command: as `ReportsLegal`, with no claim on DONE. -/
structure ReportsOpen (s : State) : Prop where
  busy : s.status.busy = false
  err : s.status.err.toNat ∈ [0, 1, 4, 5, 6]
  stage : s.status.stage.toNat ≤ 3
  errinfo : s.errinfo.toNat ≤ 14
  faultlog : s.faultlog &&& 0xFFFFFF89#32 = 0

/-- The reports that a change leaves alone. -/
def reportFields (s : State) := (s.status.busy, s.status.err, s.status.stage, s.errinfo, s.faultlog)

theorem ReportsOpen.of_eq (h : reportFields t = reportFields s) (hs : ReportsOpen s) : ReportsOpen t := by
  simp only [reportFields, Prod.mk.injEq] at h
  obtain ⟨hbusy, herr, hstage, hinfo, hlog⟩ := h
  exact ⟨hbusy ▸ hs.busy, herr ▸ hs.err, hstage ▸ hs.stage, hinfo ▸ hs.errinfo, hlog ▸ hs.faultlog⟩

theorem reportsOpen_begin (h : ReportsLegal s) : ReportsOpen (beginCommand s) := by
  obtain ⟨hbusy, -, -, -, -, -, hlog⟩ := h
  exact ⟨hbusy, by simp, by simp, by simp, hlog⟩

/-- The end of a command sets DONE, so it makes the reports legal again. -/
theorem ReportsOpen.complete (h : ReportsOpen s) : ReportsLegal (completeCommand s) :=
  ⟨rfl, h.err, h.stage, fun _ => rfl, fun _ => rfl, h.errinfo, h.faultlog⟩

theorem ReportsOpen.raise {e : FatalError} (he : e.Listed) {k : Nat} (hk : k ≤ 3) (h : ReportsOpen s) :
    ReportsOpen (raiseFatal e k s) where
  busy := h.busy
  err := by
    simp only [raiseFatal_status]
    cases e.kind <;> decide
  stage := by simp only [raiseFatal_status, BitVec.toNat_ofNat]; omega
  errinfo := by
    have := he.2
    simp only [raiseFatal_errinfo, BitVec.toNat_setWidth]
    omega
  faultlog := logFault_reserved (fatalCode_mem e.kind) h.faultlog

theorem Change.reports_eq (h : Change i s t) : reportFields t = reportFields s := by
  cases h with
  | insert => exact insertOrOverflow_field (fun _ _ => rfl) (fun _ => rfl) ..
  | record => exact recordOrOverflow_field (fun _ _ => rfl) (fun _ => rfl) ..
  | crc | suffixes | draw | freshTree | update | freshTable => rfl

theorem Report.keeps_reports {k : Nat} (hk : k ≤ 3) (h : Report i k s t) (hs : ReportsOpen s) : ReportsOpen t := by
  cases h with
  | nothing | result | results => exact ⟨hs.busy, hs.err, hs.stage, hs.errinfo, hs.faultlog⟩
  | warned v v' =>
    refine ⟨hs.busy, hs.err, ?_, by simp, logFault_reserved (by decide) hs.faultlog⟩
    simp only [warnChecksumMismatch_status, BitVec.toNat_ofNat]
    omega

theorem Touches.keeps_reports (h : Touches i s t) (hs : ReportsOpen s) : ReportsOpen t :=
  h.keeps (fun _ _ _ _ hc => .of_eq hc.reports_eq) (fun _ _ _ hk _ _ hr => hr.keeps_reports hk) hs

theorem CommandEnd.keeps_reports (h : CommandEnd i s t) (hs : ReportsLegal s) : ReportsLegal t := by
  have hbegin := reportsOpen_begin hs
  cases h with
  | reset => exact ⟨rfl, by simp [softReset, State.resetWith]⟩
  | xfer => exact (ReportsOpen.of_eq rfl hbegin).complete
  | done _ ht => exact (ht.keeps_reports hbegin).complete
  | refused _ he => exact (hbegin.raise he (Nat.zero_le 3)).complete
  | committed _ ht => exact (ReportsOpen.of_eq rfl (ht.keeps_reports hbegin)).complete
  | stopped _ ht _ he hk => exact ((ReportsOpen.of_eq rfl (ht.keeps_reports hbegin)).raise he hk).complete

theorem HostEnd.keeps_reports (hs : ReportsLegal s) (h : HostEnd s t) : ReportsLegal t := by
  cases h with
  | same | arg | ilen | byte | load => exact hs
  | reset => exact ⟨rfl, by simp [hardReset, softReset, State.resetWith]⟩
  | rejected => exact ((reportsOpen_begin hs).raise badCommand_listed (Nat.zero_le 3)).complete
  | command i t runs => exact (exec_end runs).keeps_reports hs

/-! ### FAULTLOG is sticky (R28) -/

/-- Every bit of FAULTLOG of `s` is set in `t`. -/
def FaultsKept (s t : State) : Prop := ∀ k, s.faultlog.getLsbD k = true → t.faultlog.getLsbD k = true

theorem Touches.faults_kept (h : Touches i s t) : FaultsKept s t := by
  refine h.keeps (P := FaultsKept s) (fun j _ m n hc hm => ?_) (fun j _ k _ m n hr hm => ?_) fun _ => id
  · have heq := hc.reports_eq
    simp only [reportFields, Prod.mk.injEq] at heq
    obtain ⟨-, -, -, -, hlog⟩ := heq
    exact fun b hb => hlog ▸ hm b hb
  · cases hr with
    | nothing | result | results => exact hm
    | warned => exact fun b hb => getLsbD_logFault _ (hm b hb)

theorem CommandEnd.faults_kept (h : CommandEnd i s t) (hi : i ≠ .softReset) : FaultsKept s t := by
  cases h with
  | reset user => exact absurd user hi
  | xfer => exact fun _ => id
  | done _ ht | committed _ ht => exact ht.faults_kept
  | refused => exact fun _ hb => getLsbD_logFault _ hb
  | stopped _ ht => exact fun k hb => getLsbD_logFault _ (ht.faults_kept k hb)

/-! ## The canonical form (log entry 2) -/

/-- The adaptive tree's memory and table are in canonical form. -/
def AhufCanonical (u : Ahuf) : Prop := Ram.wf u.arena = true ∧ rising u.leaf = true

theorem AhufCanonical.setNode {u : Ahuf} (h : AhufCanonical u) (a : BitVec 10) (n : AhufNode) :
    AhufCanonical (setNode u a n) := ⟨Ram.wf_write h.1 _ _, h.2⟩

theorem AhufCanonical.setLeaf {u : Ahuf} (h : AhufCanonical u) (sym : Nat) (a : BitVec 10) :
    AhufCanonical (setLeaf u sym a) := ⟨h.1, rising_putCell h.2 _ _⟩

theorem AhufCanonical.setChild {u : Ahuf} (h : AhufCanonical u) (p : BitVec 10) (right : Bool) (b : BitVec 10) :
    AhufCanonical (setChild u p right b) := by
  unfold Machine.setChild
  split_ifs <;> exact h.setNode _ _

theorem AhufCanonical.swapNodes {u : Ahuf} (h : AhufCanonical u) (a b : BitVec 10) :
    AhufCanonical (swapNodes u a b) :=
  (((h.setChild _ _ _).setChild _ _ _).setNode _ _).setNode _ _

theorem AhufCanonical.splitNyt {u : Ahuf} (h : AhufCanonical u) (b : Byte) : AhufCanonical (splitNyt u b).1 :=
  ((((h.setNode _ _).setNode _ _).setNode _ _).setLeaf _ _).setLeaf _ _

theorem AhufCanonical.incrementWeight {u : Ahuf} (h : AhufCanonical u) (x : BitVec 10) :
    AhufCanonical (incrementWeight u x) := by
  unfold Machine.incrementWeight
  split_ifs
  · exact h.setNode x _
  · exact h.setNode x _

theorem AhufCanonical.updateLevel {u : Ahuf} (h : AhufCanonical u) (x : BitVec 10) :
    AhufCanonical (updateLevel u x) := by
  refine AhufCanonical.incrementWeight ?_ x
  unfold swapWithLeader
  split
  · exact h
  · split_ifs
    · exact h.swapNodes _ _
    · exact h

theorem AhufCanonical.updateFrom (fuel : Nat) {u : Ahuf} (h : AhufCanonical u) (x : BitVec 10) :
    AhufCanonical (updateFrom fuel u x) := by
  induction fuel generalizing u x with
  | zero => exact h
  | succ fuel ih =>
    unfold Machine.updateFrom
    split_ifs
    · exact h
    · exact ih (h.updateLevel x) _

theorem AhufCanonical.update {u : Ahuf} (h : AhufCanonical u) (b : Byte) : AhufCanonical (ahufUpdateTree u b) := by
  unfold ahufUpdateTree
  split_ifs
  · exact (h.splitNyt b).updateFrom _ _
  · exact h.updateFrom _ _

theorem initTree_canonical (u : Ahuf) : AhufCanonical (initTree u) := ⟨rfl, rfl⟩

/-- The LZW tables are in canonical form. -/
def LzwCanonical (u : Lzw) : Prop := rising u.slots = true ∧ ∀ c ∈ u.slots, c.2 ≠ emptySlot

theorem freshLzw_canonical : LzwCanonical freshLzw := ⟨rfl, by simp [freshLzw]⟩

theorem LzwCanonical.setSlot {u : Lzw} (h : LzwCanonical u) (a : Nat) (x : LzwSlot) :
    LzwCanonical (setSlot u a x) := by
  refine ⟨rising_setSlot h.1 a x, fun c hc => ?_⟩
  simp only [Machine.setSlot] at hc
  split_ifs at hc with hx
  · exact h.2 c (mem_eraseCell hc)
  · rcases mem_putCell hc with rfl | hc
    · exact hx
    · exact h.2 c hc

/-- `MemoriesCanonical` by unit. -/
theorem memoriesCanonical_iff :
    MemoriesCanonical s ↔ (Memory.wf s.ibuf = true ∧ Memory.wf s.obuf = true) ∧ Ram.wf s.samem = true
      ∧ AhufCanonical s.ahuf ∧ LzwCanonical s.lzw := by
  simp only [MemoriesCanonical, AhufCanonical, LzwCanonical, and_assoc]

theorem Change.keeps_canonical (h : Change i s t) (hs : MemoriesCanonical s) : MemoriesCanonical t := by
  rw [memoriesCanonical_iff] at hs ⊢
  obtain ⟨hbuf, hsa, htree, htable⟩ := hs
  cases h with
  | crc | draw => exact ⟨hbuf, hsa, htree, htable⟩
  | suffixes => exact ⟨hbuf, Ram.wf_refill _ _, htree, htable⟩
  | freshTree => exact ⟨hbuf, hsa, initTree_canonical _, htable⟩
  | update b => exact ⟨hbuf, hsa, htree.update b, htable⟩
  | freshTable => exact ⟨hbuf, hsa, htree, freshLzw_canonical⟩
  | insert pre ch =>
    unfold insertOrOverflow
    split_ifs
    · have hslot := htable.setSlot (lzwFind s.lzw pre ch).slot { code := some (nextCode s.lzw), pre := pre, char := ch }
      exact ⟨hbuf, hsa, htree, hslot⟩
    · exact ⟨hbuf, hsa, htree, htable⟩
  | record =>
    unfold recordOrOverflow
    split_ifs
    · exact ⟨hbuf, hsa, htree, htable.setSlot _ _⟩
    · exact ⟨hbuf, hsa, htree, htable⟩

theorem Report.keeps_canonical {k : Nat} (h : Report i k s t) (hs : MemoriesCanonical s) : MemoriesCanonical t := by
  cases h <;> exact hs

theorem Touches.keeps_canonical (h : Touches i (beginCommand s) t) (hs : MemoriesCanonical s) :
    MemoriesCanonical t :=
  h.keeps (fun _ _ _ _ hc => hc.keeps_canonical) (fun _ _ _ _ _ _ hr => hr.keeps_canonical) hs

theorem memoriesCanonical_commit (x : List Byte) (h : MemoriesCanonical s) : MemoriesCanonical (commitOutput x s) := by
  obtain ⟨hibuf, -, hrest⟩ := h
  exact ⟨hibuf, Ram.wf_refill _ _, hrest⟩

theorem memoriesCanonical_softReset (h : MemoriesCanonical s) : MemoriesCanonical (softReset s) := by
  obtain ⟨hibuf, hobuf, hsa, -⟩ := h
  exact ⟨hibuf, hobuf, hsa, rfl, rfl, freshLzw_canonical⟩

theorem CommandEnd.keeps_canonical (h : CommandEnd i s t) (hs : MemoriesCanonical s) : MemoriesCanonical t := by
  cases h with
  | reset => exact memoriesCanonical_softReset hs
  | xfer =>
    obtain ⟨hibuf, hrest⟩ := hs
    exact ⟨Ram.wf_load hibuf _, hrest⟩
  | done _ ht => exact ht.keeps_canonical hs
  | refused => exact hs
  | @committed m x _ ht | @stopped m x e k _ ht =>
    have hcommit : MemoriesCanonical (commitOutput x m) := memoriesCanonical_commit x (ht.keeps_canonical hs)
    exact hcommit

theorem HostEnd.keeps_canonical (hs : MemoriesCanonical s) (h : HostEnd s t) : MemoriesCanonical t := by
  cases h with
  | same | arg | ilen | rejected => exact hs
  | byte =>
    obtain ⟨hibuf, hrest⟩ := hs
    exact ⟨Ram.wf_write hibuf _ _, hrest⟩
  | load =>
    obtain ⟨hibuf, hrest⟩ := hs
    exact ⟨Ram.wf_load hibuf _, hrest⟩
  | reset => exact ⟨rfl, rfl, rfl, rfl, rfl, freshLzw_canonical⟩
  | command i t runs => exact (exec_end runs).keeps_canonical hs

/-! ## The buffers (R34, R35, R37) -/

theorem sortSuffixes_length (l : List (Nat × List Nat)) : (sortSuffixes l).length = l.length := by
  have hinsert (p : Nat × List Nat) (l : List (Nat × List Nat)) : (insertSuffix p l).length = l.length + 1 := by
    induction l with
    | nil => rfl
    | cons q t ih =>
      unfold insertSuffix
      split_ifs
      · rfl
      · rw [List.length_cons, ih, List.length_cons]
  induction l with
  | nil => rfl
  | cons p t ih => rw [sortSuffixes, hinsert, ih, List.length_cons]

theorem suffixesFrom_length (k : Nat) (x : List Nat) : (suffixesFrom k x).length = x.length := by
  induction x generalizing k with
  | nil => rfl
  | cons a t ih => rw [suffixesFrom, List.length_cons, ih, List.length_cons]

/-- SA(B) has an entry for each byte and one for the sentinel (R172). -/
theorem suffixArray_length (block : List Byte) : (suffixArray block).length = block.length + 1 := by
  simp [suffixArray, sortSuffixes_length, suffixesFrom_length, symbols]

/-- BUF_CAP is within R7's bounds, so lengths up to BUF_CAP + 1 are 32-bit values. -/
theorem bufCap_le {p : Params} (h : p.wf = true) : p.bufCap ≤ 268435456 := by
  simp only [Params.wf, Bool.and_eq_true, decide_eq_true_eq] at h
  exact h.2

theorem cellsFrom_inside {α : Type} {vs : List α} {c : Nat × α} (h : c ∈ cellsFrom 0 vs) : c.1 < vs.length := by
  have := mem_cellsFrom h
  omega

theorem getCell_cellsFrom_isSome {α : Type} {vs : List α} {a : Nat} (h : a < vs.length) :
    (getCell (cellsFrom 0 vs) a).isSome = true := by
  simp [getCell_cellsFrom, h]

/-- IBUF inside BUF_CAP. -/
def IbufInside (s : State) : Prop := ∀ c ∈ s.ibuf.cells, c.1 < s.params.bufCap

/-- OBUF inside BUF_CAP, its first OLEN bytes defined. -/
def ObufFilled (s : State) : Prop :=
  s.olen.toNat ≤ s.params.bufCap ∧ (∀ c ∈ s.obuf.cells, c.1 < s.params.bufCap)
    ∧ ∀ a < s.olen.toNat, (getCell s.obuf.cells a).isSome = true

/-- SAMEM inside its BUF_CAP + 1 entries, the first SALEN of them defined. -/
def SamemFilled (s : State) : Prop :=
  s.salen.toNat ≤ s.params.bufCap + 1 ∧ (∀ c ∈ s.samem.cells, c.1 < s.params.bufCap + 1)
    ∧ ∀ r < s.salen.toNat, (getCell s.samem.cells r).isSome = true

/-- `BuffersFilled` by buffer. -/
theorem buffersFilled_iff :
    BuffersFilled s ↔ s.params.wf = true ∧ IbufInside s ∧ ObufFilled s ∧ SamemFilled s := by
  unfold BuffersFilled IbufInside ObufFilled SamemFilled
  tauto

theorem buffersFilled_commit {x : List Byte} (hx : x.length ≤ s.params.bufCap) (h : BuffersFilled s) :
    BuffersFilled (commitOutput x s) := by
  rw [buffersFilled_iff] at h ⊢
  obtain ⟨hwf, hibuf, -, hsa⟩ := h
  have hcap := bufCap_le hwf
  have holen : (commitOutput x s).olen.toNat = x.length := by
    simp only [commitOutput_olen, BitVec.toNat_ofNat]
    omega
  refine ⟨hwf, hibuf, ⟨holen ▸ hx, fun c hc => (cellsFrom_inside hc).trans_le hx, fun a ha => ?_⟩, hsa⟩
  exact getCell_cellsFrom_isSome (holen ▸ ha)

theorem buffersFilled_storeSuffixArray {x : List Byte} (hx : x.length ≤ s.params.bufCap) (h : BuffersFilled s) :
    BuffersFilled (storeSuffixArray x s) := by
  rw [buffersFilled_iff] at h ⊢
  obtain ⟨hwf, hibuf, hobuf, -⟩ := h
  have hcap := bufCap_le hwf
  have hlen : ((suffixArray x).map (BitVec.ofNat 32)).length = x.length + 1 := by
    rw [List.length_map, suffixArray_length]
  have hsalen : (Machine.storeSuffixArray x s).salen.toNat = x.length + 1 := by
    simp only [storeSuffixArray_salen, BitVec.toNat_ofNat]
    omega
  refine ⟨hwf, hibuf, hobuf, hsalen ▸ Nat.succ_le_succ hx, fun c hc => ?_, fun r hr => ?_⟩
  · have := cellsFrom_inside hc
    simp only [storeSuffixArray_params]
    omega
  · exact getCell_cellsFrom_isSome (hlen ▸ hsalen ▸ hr)

/-- A byte string that fits, laid over IBUF. -/
theorem IbufInside.load {x : List Byte} (hx : x.length ≤ s.params.bufCap) (h : IbufInside s) (n : Word) :
    IbufInside { s with ibuf := s.ibuf.load x, ilen := n } := by
  intro c hc
  rcases List.mem_append.mp hc with hc | hc
  · exact (cellsFrom_inside hc).trans_le hx
  · exact h c (List.mem_of_mem_filter hc)

/-- What a state says about its buffers rests on these fields. -/
def bufferFields (s : State) := (s.params, s.ibuf, s.obuf, s.olen, s.samem, s.salen)

theorem buffersFilled_of_eq (h : bufferFields t = bufferFields s) (hs : BuffersFilled s) : BuffersFilled t := by
  simp only [bufferFields, Prod.mk.injEq] at h
  obtain ⟨hparams, hibuf, hobuf, holen, hsamem, hsalen⟩ := h
  unfold BuffersFilled
  rwa [hparams, hibuf, hobuf, holen, hsamem, hsalen]

theorem Change.keeps_buffers (h : Change i s t) (hs : BuffersFilled s) : BuffersFilled t := by
  cases h with
  | suffixes x _ fits => exact buffersFilled_storeSuffixArray fits hs
  | insert => exact buffersFilled_of_eq (insertOrOverflow_field (fun _ _ => rfl) (fun _ => rfl) ..) hs
  | record => exact buffersFilled_of_eq (recordOrOverflow_field (fun _ _ => rfl) (fun _ => rfl) ..) hs
  | crc | draw | freshTree | update | freshTable => exact hs

theorem Report.keeps_buffers {k : Nat} (h : Report i k s t) (hs : BuffersFilled s) : BuffersFilled t := by
  cases h <;> exact hs

theorem Touches.keeps_buffers (h : Touches i (beginCommand s) t) (hs : BuffersFilled s) : BuffersFilled t :=
  h.keeps (fun _ _ _ _ hc => hc.keeps_buffers) (fun _ _ _ _ _ _ hr => hr.keeps_buffers) hs

theorem buffersFilled_softReset (h : BuffersFilled s) : BuffersFilled (softReset s) := by
  rw [buffersFilled_iff] at h ⊢
  obtain ⟨hwf, hibuf, ⟨-, hobuf, -⟩, ⟨-, hsa, -⟩⟩ := h
  exact ⟨hwf, hibuf, ⟨Nat.zero_le _, hobuf, fun _ ha => absurd ha (Nat.not_lt_zero _)⟩,
    Nat.zero_le _, hsa, fun _ hr => absurd hr (Nat.not_lt_zero _)⟩

theorem CommandEnd.keeps_buffers (h : CommandEnd i s t) (hs : BuffersFilled s) : BuffersFilled t := by
  cases h with
  | reset => exact buffersFilled_softReset hs
  | xfer =>
    rw [buffersFilled_iff] at hs ⊢
    obtain ⟨hwf, hibuf, hobuf, hsa⟩ := hs
    exact ⟨hwf, hibuf.load (output_length s ▸ hobuf.1) s.olen, hobuf, hsa⟩
  | done _ ht => exact ht.keeps_buffers hs
  | refused => exact hs
  | @committed m x _ ht fits | @stopped m x e k _ ht fits =>
    have hcommit : BuffersFilled (commitOutput x m) :=
      buffersFilled_commit (by rwa [ht.params_eq]) (ht.keeps_buffers hs)
    exact hcommit

theorem HostEnd.keeps_buffers (hs : BuffersFilled s) (h : HostEnd s t) : BuffersFilled t := by
  cases h with
  | same | arg | ilen | rejected => exact hs
  | byte a v inside =>
    rw [buffersFilled_iff] at hs ⊢
    obtain ⟨hwf, hibuf, hrest⟩ := hs
    refine ⟨hwf, fun c hc => ?_, hrest⟩
    rcases mem_putCell hc with rfl | hc
    · exact inside
    · exact hibuf c hc
  | load bytes fits =>
    rw [buffersFilled_iff] at hs ⊢
    obtain ⟨hwf, hibuf, hrest⟩ := hs
    exact ⟨hwf, hibuf.load fits _, hrest⟩
  | reset =>
    rw [buffersFilled_iff] at hs ⊢
    obtain ⟨hwf, -⟩ := hs
    refine ⟨hwf, ?_, ⟨Nat.zero_le _, ?_, ?_⟩, Nat.zero_le _, ?_, ?_⟩ <;>
      simp [IbufInside, hardReset, forgetRam, Machine.softReset, State.resetWith]
  | command i t runs => exact (exec_end runs).keeps_buffers hs

/-! ## The LZW tables (R32, R41, R300) -/

theorem length_putCell_le {α : Type} (cells : List (Nat × α)) (a : Nat) (v : α) :
    (putCell cells a v).length ≤ cells.length + 1 := by
  induction cells with
  | nil => exact le_rfl
  | cons d t ih =>
    obtain ⟨k, x⟩ := d
    unfold putCell
    split_ifs
    · exact le_rfl
    · simp
    · simpa using ih

theorem length_eraseCell_le {α : Type} (cells : List (Nat × α)) (a : Nat) :
    (eraseCell cells a).length ≤ cells.length := by
  induction cells with
  | nil => exact le_rfl
  | cons d t ih =>
    obtain ⟨k, x⟩ := d
    unfold eraseCell
    split_ifs
    · exact le_rfl
    · simp
    · simpa using ih

/-- The search stays inside the table, hit or miss (R303). -/
theorem lzwFind_slot_lt (u : Lzw) (pre : BitVec 14) (ch : Byte) : (lzwFind u pre ch).slot < Config.lzwTableSize := by
  have hnext {offset index : Nat} (h : index < Config.lzwTableSize) :
      lzwNextIndex offset index < Config.lzwTableSize := by
    unfold lzwNextIndex
    split_ifs <;> omega
  have hfrom (offset fuel index probes : Nat) (h : index < Config.lzwTableSize) :
      (findFrom u pre ch offset fuel index probes).slot < Config.lzwTableSize := by
    induction fuel generalizing index probes with
    | zero => exact h
    | succ fuel ih =>
      unfold findFrom
      split_ifs
      · exact h
      · exact h
      · exact ih _ _ (hnext h)
  have hhash := (ch.setWidth 14 <<< 6 ^^^ pre).isLt
  exact hfrom _ _ _ _ (show (ch.setWidth 14 <<< 6 ^^^ pre).toNat < 18041 by omega)

theorem freshLzw_legal : LzwLegal freshLzw := by
  unfold LzwLegal
  decide

/-- One more slot and one more code. -/
theorem lzwLegal_assign {u : Lzw} (h : LzwLegal u) (hleft : codeLeft u = true) {a : Nat}
    (ha : a < Config.lzwTableSize) (x : LzwSlot) : LzwLegal { setSlot u a x with next := u.next + 1 } := by
  obtain ⟨hlow, hhigh, hrising, hinside, hcount⟩ := h
  have hleft : u.next.toNat ≤ 16382 := of_decide_eq_true hleft
  have hnext : (u.next + 1).toNat = u.next.toNat + 1 := by
    rw [BitVec.toNat_add]
    simp only [BitVec.ofNat_eq_ofNat, BitVec.toNat_ofNat]
    omega
  refine ⟨by simp only; omega, by simp only; omega, rising_setSlot hrising a x, fun c hc => ?_, ?_⟩
  · simp only [setSlot] at hc
    split_ifs at hc
    · exact hinside c (mem_eraseCell hc)
    · rcases mem_putCell hc with rfl | hc
      · exact ha
      · exact hinside c hc
  · have herase := length_eraseCell_le u.slots a
    have hput := length_putCell_le u.slots a x
    simp only [setSlot, hnext]
    split_ifs <;> omega

theorem Change.keeps_lzw (h : Change i s t) (hs : LzwLegal s.lzw) : LzwLegal t.lzw := by
  cases h with
  | freshTable => exact freshLzw_legal
  | insert =>
    unfold insertOrOverflow
    split_ifs with hleft
    · exact lzwLegal_assign hs hleft (lzwFind_slot_lt ..) _
    · exact hs
  | record =>
    unfold recordOrOverflow
    split_ifs with hleft
    · obtain ⟨-, hnext, -⟩ := id hs
      exact lzwLegal_assign hs hleft (show s.lzw.next.toNat < 18041 by omega) _
    · exact hs
  | crc | suffixes | draw | freshTree | update => exact hs

theorem Touches.keeps_lzw (h : Touches i (beginCommand s) t) (hs : LzwLegal s.lzw) : LzwLegal t.lzw :=
  h.keeps (P := fun m => LzwLegal m.lzw) (fun _ _ _ _ hc => hc.keeps_lzw)
    (fun _ _ _ _ _ _ hr hm => hr.lzw_eq ▸ hm) hs

theorem CommandEnd.keeps_lzw (h : CommandEnd i s t) (hs : LzwLegal s.lzw) : LzwLegal t.lzw := by
  cases h with
  | reset => exact freshLzw_legal
  | xfer | refused => exact hs
  | done _ ht | committed _ ht | stopped _ ht => exact ht.keeps_lzw hs

theorem HostEnd.keeps_lzw (hs : LzwLegal s.lzw) (h : HostEnd s t) : LzwLegal t.lzw := by
  cases h with
  | same | arg | ilen | byte | load | rejected => exact hs
  | reset => exact freshLzw_legal
  | command i t runs => exact (exec_end runs).keeps_lzw hs

end Sys2Proof.Machine

namespace Sys2Proof

open Sys2Proof.Machine Sys2Proof.Safety

/-- Settles O51: FAULTLOG is only ever ORed with a bit, but in the two resets. -/
theorem faultlogIsSticky : Obligations.FaultlogIsSticky :=
  fun _ _ _ hi h k _ hk => (exec_end h).faults_kept hi k hk

/-- Settles O57: the reports inside a command are legal but for DONE, which every end of a command sets. -/
theorem stepKeepsReportsLegal : Obligations.StepKeepsReportsLegal :=
  fun _ _ => step_keeps (fun _ _ => id) fun _ _ hs h => h.keeps_reports hs

/-- Settles O56: every change of a memory or table is one of the operations that keep the canonical form. -/
theorem stepKeepsMemoriesCanonical : Obligations.StepKeepsMemoriesCanonical :=
  fun _ _ => step_keeps (fun _ _ => id) fun _ _ hs h => h.keeps_canonical hs

/-- Settles O58: every byte string committed, loaded or turned into a suffix array is at most BUF_CAP long. -/
theorem stepKeepsBuffersFilled : Obligations.StepKeepsBuffersFilled :=
  fun _ _ => step_keeps (fun _ _ => id) fun _ _ hs h => h.keeps_buffers hs

/-- Settles O59: a slot is written only together with the assignment of a code. -/
theorem stepKeepsLzwLegal : Obligations.StepKeepsLzwLegal :=
  fun _ _ => step_keeps (P := fun s => LzwLegal s.lzw) (fun _ _ => id) fun _ _ hs h => h.keeps_lzw hs

end Sys2Proof
end

section
/-! The adaptive tree between and inside updates (R40, R256, R259): its shape by records, its weights while one record
is still to be incremented, and what the parts of an update do to both. -/

namespace Sys2Proof.Machine

open Sys2Proof.Safety

/-! ## The keys of a table -/

section Keys

variable {α : Type}

/-- The canonical form by keys. -/
theorem rising_iff_pairwise {cells : List (Nat × α)} :
    rising cells = true ↔ (cells.map Prod.fst).Pairwise (· < ·) := by
  induction cells with
  | nil => simp [rising]
  | cons c t ih =>
    obtain ⟨k, x⟩ := c
    rw [rising_cons, ih, List.map_cons, List.pairwise_cons]
    simp

/-- Writing a listed entry keeps the keys. -/
theorem keys_putCell_of_mem {cells : List (Nat × α)} (hr : rising cells = true) {a : Nat}
    (ha : a ∈ cells.map Prod.fst) (v : α) : (putCell cells a v).map Prod.fst = cells.map Prod.fst := by
  induction cells with
  | nil => simp at ha
  | cons c t ih =>
    obtain ⟨k, x⟩ := c
    have hk := rising_cons.mp hr
    rw [List.map_cons, List.mem_cons] at ha
    unfold putCell
    split_ifs with h1 h2
    · rcases ha with rfl | ha
      · exact absurd h1 (lt_irrefl _)
      · obtain ⟨d, hd, rfl⟩ := List.mem_map.mp ha
        exact absurd h1 (hk.1 d hd).asymm
    · rw [List.map_cons, List.map_cons, h2]
    · rw [List.map_cons, List.map_cons, ih hk.2 (ha.resolve_left h2)]

/-- Writing above every listed entry appends. -/
theorem putCell_eq_append {cells : List (Nat × α)} {a : Nat} (h : ∀ c ∈ cells, c.1 < a) (v : α) :
    putCell cells a v = cells ++ [(a, v)] := by
  induction cells with
  | nil => rfl
  | cons c t ih =>
    obtain ⟨k, x⟩ := c
    have hk : k < a := h _ (List.mem_cons_self ..)
    unfold putCell
    rw [if_neg (by omega), if_neg (by omega), ih fun c hc => h c (List.mem_cons_of_mem _ hc), List.cons_append]

/-- Writing an entry that is not listed lists one more. -/
theorem length_putCell_of_none {cells : List (Nat × α)} {a : Nat} (h : getCell cells a = none)
    (hr : rising cells = true) (v : α) : (putCell cells a v).length = cells.length + 1 := by
  induction cells with
  | nil => rfl
  | cons c t ih =>
    obtain ⟨k, x⟩ := c
    have hk := rising_cons.mp hr
    have hne : k ≠ a := by
      rintro rfl
      simp [getCell] at h
    unfold putCell
    split_ifs with h1 h2
    · rfl
    · exact absurd h2.symm hne
    · rw [getCell, if_neg hne, if_neg h1] at h
      rw [List.length_cons, ih h hk.2, List.length_cons]

/-- An entry that a read gives is listed. -/
theorem mem_keys_of_getCell {cells : List (Nat × α)} {a : Nat} {v : α} (h : getCell cells a = some v) :
    a ∈ cells.map Prod.fst :=
  List.mem_map.mpr ⟨_, mem_of_getCell h, rfl⟩

end Keys

/-! ## The invariants by records -/

/-- Record `i` is allocated (R31). -/
def Allocated (u : Ahuf) (i : BitVec 10) : Prop := i.toNat < u.nalloc.toNat

/-- What `AhufInv` says of everything but the weights, a record being named by its index field. -/
structure TreeShape (u : Ahuf) : Prop where
  count : u.nalloc.toNat % 2 = 1 ∧ 3 ≤ u.nalloc.toNat ∧ u.nalloc.toNat ≤ 515
  keys : u.arena.cells.map Prod.fst = List.range u.nalloc.toNat
  leafKeys : rising u.leaf = true ∧ ∀ c ∈ u.leaf, c.1 ≤ 257
  full : 2 * u.leaf.length = u.nalloc.toNat + 1 ∧ ∀ c ∈ u.leaf, c.2 ≠ noIndex
  root : (ahufNode u 0).parent = noIndex ∧ (ahufNode u 0).order = 516
  child : ∀ i, Allocated u i → i ≠ 0 → Allocated u (ahufNode u i).parent
    ∧ ((ahufNode u (ahufNode u i).parent).left = i ∨ (ahufNode u (ahufNode u i).parent).right = i)
  internal : ∀ p, Allocated u p → (ahufNode u p).left ≠ noIndex →
    Allocated u (ahufNode u p).left ∧ Allocated u (ahufNode u p).right
      ∧ (ahufNode u (ahufNode u p).left).parent = p ∧ (ahufNode u (ahufNode u p).right).parent = p
      ∧ (ahufNode u p).sym = noSym
      ∧ (ahufNode u (ahufNode u p).left).order.toNat + 1 = (ahufNode u (ahufNode u p).right).order.toNat
      ∧ (ahufNode u (ahufNode u p).right).order.toNat < (ahufNode u p).order.toNat
  leaf : ∀ i, Allocated u i → (ahufNode u i).left = noIndex →
    (ahufNode u i).right = noIndex ∧ (ahufNode u i).sym.toNat ≤ 257 ∧ ahufLeaf u (ahufNode u i).sym.toNat = i
  inverse : ∀ sym < 258, ahufLeaf u sym ≠ noIndex →
    Allocated u (ahufLeaf u sym) ∧ (ahufNode u (ahufLeaf u sym)).left = noIndex
      ∧ (ahufNode u (ahufLeaf u sym)).sym.toNat = sym
  orders : ∀ i, Allocated u i →
    (ahufNode u i).order.toNat ≤ 516 ∧ 516 < (ahufNode u i).order.toNat + u.nalloc.toNat
      ∧ ∀ j, Allocated u j → (ahufNode u i).order = (ahufNode u j).order → i = j
  nyt : ahufLeaf u 257 ≠ noIndex ∧ (ahufNode u (ahufLeaf u 257)).order.toNat + u.nalloc.toNat = 517
  eof : ahufLeaf u 256 ≠ noIndex
  nytParent : (ahufNode u (ahufNode u (ahufLeaf u 257)).parent).order.toNat
    = (ahufNode u (ahufLeaf u 257)).order.toNat + 2

/-- WEIGHT as a number. -/
def weightOf (u : Ahuf) (i : BitVec 10) : Nat := (ahufNode u i).weight.toNat

/-- ORDER as a number. -/
def orderOf (u : Ahuf) (i : BitVec 10) : Nat := (ahufNode u i).order.toNat

/-- Record `x` has the greatest ORDER of its weight class (R253). -/
def HeadsClass (u : Ahuf) (x : BitVec 10) : Prop :=
  ∀ k, Allocated u k → weightOf u k = weightOf u x → orderOf u k ≤ orderOf u x

/-- What the weights satisfy inside an update when the increment of record `x` is the next one (R256): `x` lacks one in
the sum of its children; a record below `x` may weigh one more than `x` if `x` heads its class; and right after a
split, `x` and its parent may weigh 0. With `x` NONE it is what `AhufInv` says of the weights. -/
structure WeightsPending (u : Ahuf) (x : BitVec 10) : Prop where
  place : x ≠ noIndex → Allocated u x ∧ x ≠ ahufLeaf u 257
  sum : ∀ p, Allocated u p → (ahufNode u p).left ≠ noIndex →
    weightOf u p + (if p = x then 1 else 0) = weightOf u (ahufNode u p).left + weightOf u (ahufNode u p).right
  sibling : ∀ i j, Allocated u i → Allocated u j → orderOf u i < orderOf u j →
    weightOf u i ≤ weightOf u j ∨ j = x ∧ weightOf u i = weightOf u x + 1 ∧ HeadsClass u x
  nyt : weightOf u (ahufLeaf u 257) = 0
  positive : ∀ i, Allocated u i → weightOf u i = 0 →
    i = ahufLeaf u 257 ∨ i = x ∨ x ≠ noIndex ∧ i = (ahufNode u x).parent ∧ weightOf u x = 0

theorem TreeShape.not_allocated_noIndex {u : Ahuf} (h : TreeShape u) : ¬ Allocated u noIndex := by
  obtain ⟨-, -, hmax⟩ := h.count
  simp only [Allocated, noIndex, BitVec.toNat_ofNat]
  omega

theorem Allocated.ne_noIndex {u : Ahuf} (h : TreeShape u) {i : BitVec 10} (hi : Allocated u i) : i ≠ noIndex :=
  fun he => h.not_allocated_noIndex (he ▸ hi)

/-! ### `AhufInv` is the two together -/

/-- Index fields below AHUF_NALLOC are the allocated records' numbers. -/
theorem record_toNat (u : Ahuf) (i : BitVec 10) : record u i.toNat = ahufNode u i := by
  simp only [record, BitVec.ofNat_toNat, BitVec.setWidth_eq]

theorem TreeShape.toNat_ofNat {u : Ahuf} (h : TreeShape u) {i : Nat} (hi : i < u.nalloc.toNat) :
    (BitVec.ofNat 10 i).toNat = i := by
  obtain ⟨-, -, hmax⟩ := h.count
  rw [BitVec.toNat_ofNat]
  omega

theorem shape_of_ahufInv {u : Ahuf} (h : AhufInv u) : TreeShape u where
  count := h.count
  keys := h.allocated
  leafKeys := h.leafKeys
  full := h.full
  root := h.root
  child i hi h0 := by
    have := h.child i.toNat hi fun he => h0 (BitVec.eq_of_toNat_eq he)
    simpa only [Allocated, record_toNat, BitVec.toNat_inj] using this
  internal p hp hl := by
    obtain ⟨h1, h2, h3, h4, h5, -, h6, h7⟩ := h.internal p.toNat hp (by rwa [record_toNat])
    simp only [record_toNat, BitVec.toNat_inj] at h1 h2 h3 h4 h5 h6 h7
    exact ⟨h1, h2, h3, h4, h5, h6, h7⟩
  leaf i hi hl := by
    have := h.leaf i.toNat hi (by rwa [record_toNat])
    simpa only [record_toNat, BitVec.toNat_inj] using this
  inverse := h.inverse
  orders i hi := by
    obtain ⟨h1, h2, h3⟩ := h.orders i.toNat hi
    rw [record_toNat] at h1 h2 h3
    refine ⟨h1, h2, fun j hj ho => BitVec.eq_of_toNat_eq (h3 j.toNat hj ?_)⟩
    rwa [record_toNat]
  nyt := by
    obtain ⟨hsome, -, horder⟩ := h.nyt
    exact ⟨hsome, horder⟩
  eof := h.eof
  nytParent := h.nytParent

theorem TreeShape.eq_nyt_of_sym {u : Ahuf} (h : TreeShape u) {i : BitVec 10} (hi : Allocated u i)
    (hs : (ahufNode u i).sym = 257) : i = ahufLeaf u 257 := by
  by_cases hl : (ahufNode u i).left = noIndex
  · obtain ⟨-, -, hleaf⟩ := h.leaf i hi hl
    rw [hs] at hleaf
    exact hleaf.symm
  · obtain ⟨-, -, -, -, hsym, -⟩ := h.internal i hi hl
    rw [hsym] at hs
    exact absurd hs (by decide)

theorem weights_of_ahufInv {u : Ahuf} (h : AhufInv u) : WeightsPending u noIndex where
  place hx := absurd rfl hx
  sum p hp hl := by
    obtain ⟨-, -, -, -, -, hsum, -⟩ := h.internal p.toNat hp (by rwa [record_toNat])
    rw [record_toNat] at hsum
    rw [if_neg (hp.ne_noIndex (shape_of_ahufInv h))]
    exact hsum
  sibling i j hi hj ho := by
    have := h.sibling i.toNat hi j.toNat hj
    rw [record_toNat, record_toNat] at this
    exact .inl (this ho)
  nyt := by
    obtain ⟨-, hweight, -⟩ := h.nyt
    rw [weightOf, hweight]
    rfl
  positive i hi hw := by
    have := h.positive i.toNat hi
    rw [record_toNat] at this
    exact .inl ((shape_of_ahufInv h).eq_nyt_of_sym hi (this (BitVec.eq_of_toNat_eq hw)))

theorem ahufInv_of_shape_weights {u : Ahuf} (hs : TreeShape u) (hw : WeightsPending u noIndex) : AhufInv u where
  count := hs.count
  allocated := hs.keys
  leafKeys := hs.leafKeys
  full := hs.full
  root := hs.root
  child i hi h0 := by
    have hi' := hs.toNat_ofNat hi
    have := hs.child (BitVec.ofNat 10 i) (by rwa [Allocated, hi']) fun he => h0 (by rw [← hi', he]; rfl)
    simpa only [record, Allocated, ← BitVec.toNat_inj, hi'] using this
  internal p hp hl := by
    have hp' := hs.toNat_ofNat hp
    have ha : Allocated u (BitVec.ofNat 10 p) := by rwa [Allocated, hp']
    obtain ⟨h1, h2, h3, h4, h5, h6, h7⟩ := hs.internal _ ha hl
    have hsum := hw.sum _ ha hl
    rw [if_neg (ha.ne_noIndex hs)] at hsum
    rw [← BitVec.toNat_inj, hp'] at h3 h4
    exact ⟨h1, h2, h3, h4, h5, hsum, h6, h7⟩
  leaf i hi hl := by
    have hi' := hs.toNat_ofNat hi
    obtain ⟨hright, hsym, hleaf⟩ := hs.leaf (BitVec.ofNat 10 i) (by rwa [Allocated, hi']) hl
    exact ⟨hright, hsym, (congrArg BitVec.toNat hleaf).trans hi'⟩
  inverse := hs.inverse
  orders i hi := by
    have hi' := hs.toNat_ofNat hi
    obtain ⟨h1, h2, h3⟩ := hs.orders (BitVec.ofNat 10 i) (by rwa [Allocated, hi'])
    refine ⟨h1, h2, fun j hj ho => ?_⟩
    have hj' := hs.toNat_ofNat hj
    have := h3 (BitVec.ofNat 10 j) (by rwa [Allocated, hj']) ho
    rwa [← BitVec.toNat_inj, hi', hj'] at this
  sibling i hi j hj ho := by
    have hi' := hs.toNat_ofNat hi
    have hj' := hs.toNat_ofNat hj
    have hja : Allocated u (BitVec.ofNat 10 j) := by rwa [Allocated, hj']
    rcases hw.sibling _ _ (by rwa [Allocated, hi']) hja ho with h | ⟨h, -⟩
    · exact h
    · exact absurd h (hja.ne_noIndex hs)
  nyt := ⟨hs.nyt.1, BitVec.eq_of_toNat_eq hw.nyt, hs.nyt.2⟩
  eof := hs.eof
  positive i hi h0 := by
    have hi' := hs.toNat_ofNat hi
    have hia : Allocated u (BitVec.ofNat 10 i) := by rwa [Allocated, hi']
    rcases hw.positive _ hia (congrArg BitVec.toNat h0) with h | h | ⟨h, -⟩
    · obtain ⟨-, -, hsym⟩ := hs.inverse 257 (by decide) hs.nyt.1
      rw [record, h]
      exact BitVec.eq_of_toNat_eq hsym
    · exact absurd h (hia.ne_noIndex hs)
    · exact absurd rfl h
  nytParent := hs.nytParent

end Sys2Proof.Machine
end

section
/-! What the weights and the shape say of single records, the leader of a weight class, and the increment (R253,
R256). -/

namespace Sys2Proof.Machine

open Sys2Proof.Safety

variable {u v : Ahuf} {i j p x : BitVec 10}

/-! ## Records and their families -/

theorem TreeShape.root_allocated (h : TreeShape u) : Allocated u 0 := by
  obtain ⟨-, hmin, -⟩ := h.count
  simp only [Allocated, BitVec.ofNat_eq_ofNat, BitVec.toNat_ofNat]
  omega

theorem TreeShape.root_order (h : TreeShape u) : orderOf u 0 = 516 := by
  rw [orderOf, h.root.2]
  rfl

theorem TreeShape.eq_of_order (h : TreeShape u) (hi : Allocated u i) (hj : Allocated u j)
    (ho : orderOf u i = orderOf u j) : i = j := by
  obtain ⟨-, -, hinj⟩ := h.orders i hi
  exact hinj j hj (BitVec.eq_of_toNat_eq ho)

theorem TreeShape.order_lt_root (h : TreeShape u) (hi : Allocated u i) (h0 : i ≠ 0) : orderOf u i < 516 := by
  obtain ⟨hle, -⟩ := h.orders i hi
  refine lt_of_le_of_ne hle fun he => h0 (h.eq_of_order hi h.root_allocated ?_)
  rwa [h.root_order]

theorem TreeShape.nyt_allocated (h : TreeShape u) : Allocated u (ahufLeaf u 257) :=
  (h.inverse 257 (by decide) h.nyt.1).1

theorem TreeShape.nyt_leaf (h : TreeShape u) : (ahufNode u (ahufLeaf u 257)).left = noIndex := by
  obtain ⟨-, hleft, -⟩ := h.inverse 257 (by decide) h.nyt.1
  exact hleft

theorem TreeShape.leaf_sym (h : TreeShape u) {n : Nat} (hn : n < 258) (hsome : ahufLeaf u n ≠ noIndex) :
    (ahufNode u (ahufLeaf u n)).sym.toNat = n := by
  obtain ⟨-, -, hsym⟩ := h.inverse n hn hsome
  exact hsym

/-- Only the NYT symbol's entry names the NYT leaf. -/
theorem TreeShape.leaf_ne_nyt (h : TreeShape u) {n : Nat} (hn : n < 258) (hne : n ≠ 257)
    (hsome : ahufLeaf u n ≠ noIndex) : ahufLeaf u n ≠ ahufLeaf u 257 := by
  intro he
  have hsym := h.leaf_sym hn hsome
  rw [he, h.leaf_sym (by decide) h.nyt.1] at hsym
  exact hne hsym.symm

/-- The NYT leaf has the lowest ORDER (R40 (g)). -/
theorem TreeShape.nyt_order_lt (h : TreeShape u) (hi : Allocated u i) (hne : i ≠ ahufLeaf u 257) :
    orderOf u (ahufLeaf u 257) < orderOf u i := by
  obtain ⟨-, hmin, -⟩ := h.orders i hi
  have hnyt := h.nyt.2
  refine lt_of_le_of_ne (by simp only [orderOf]; omega) fun he => hne (h.eq_of_order hi h.nyt_allocated he.symm)

theorem TreeShape.nyt_order_le (h : TreeShape u) (hi : Allocated u i) : orderOf u (ahufLeaf u 257) ≤ orderOf u i := by
  by_cases hne : i = ahufLeaf u 257
  · rw [hne]
  · exact (h.nyt_order_lt hi hne).le

theorem TreeShape.nyt_ne_root (h : TreeShape u) : ahufLeaf u 257 ≠ 0 := by
  intro he
  have hnyt := h.nyt.2
  obtain ⟨-, hmin, -⟩ := h.count
  have hroot := h.root_order
  rw [he] at hnyt
  rw [orderOf] at hroot
  omega

/-- A record with a parent: the parent is an internal record of greater ORDER, the other child stands next to it. -/
theorem TreeShape.exists_sibling (h : TreeShape u) (hi : Allocated u i) (h0 : i ≠ 0) :
    Allocated u (ahufNode u i).parent ∧ (ahufNode u (ahufNode u i).parent).left ≠ noIndex
      ∧ orderOf u i < orderOf u (ahufNode u i).parent
      ∧ ∃ s, Allocated u s ∧ s ≠ i ∧ (ahufNode u s).parent = (ahufNode u i).parent
        ∧ (orderOf u i + 1 = orderOf u s ∨ orderOf u s + 1 = orderOf u i)
        ∧ ((ahufNode u (ahufNode u i).parent).left = i ∧ (ahufNode u (ahufNode u i).parent).right = s
          ∨ (ahufNode u (ahufNode u i).parent).left = s ∧ (ahufNode u (ahufNode u i).parent).right = i) := by
  obtain ⟨hp, hside⟩ := h.child i hi h0
  have hl : (ahufNode u (ahufNode u i).parent).left ≠ noIndex := by
    intro hl
    obtain ⟨hr, -⟩ := h.leaf _ hp hl
    rw [hl, hr] at hside
    exact hi.ne_noIndex h (hside.elim Eq.symm Eq.symm)
  obtain ⟨hla, hra, hlp, hrp, -, hadj, hlt⟩ := h.internal _ hp hl
  refine ⟨hp, hl, ?_⟩
  rcases hside with he | he
  · rw [he] at hadj
    exact ⟨by simp only [orderOf]; omega, _, hra, fun hc => by rw [hc] at hadj; omega, hrp, .inl hadj,
      .inl ⟨he, rfl⟩⟩
  · rw [he] at hadj hlt
    exact ⟨hlt, _, hla, fun hc => by rw [hc] at hadj; omega, hlp, .inr hadj, .inr ⟨rfl, he⟩⟩

theorem TreeShape.order_lt_parent (h : TreeShape u) (hi : Allocated u i) (h0 : i ≠ 0) :
    orderOf u i < orderOf u (ahufNode u i).parent := by
  obtain ⟨-, -, hlt, -⟩ := h.exists_sibling hi h0
  exact hlt

theorem TreeShape.parent_ne (h : TreeShape u) (hi : Allocated u i) (h0 : i ≠ 0) : (ahufNode u i).parent ≠ i :=
  fun he => lt_irrefl _ (lt_of_lt_of_eq (h.order_lt_parent hi h0) (congrArg (orderOf u) he))

/-- A child of an internal record names it as parent. -/
theorem TreeShape.child_of (h : TreeShape u) (hp : Allocated u p) (hi : Allocated u i)
    (hc : (ahufNode u p).left = i ∨ (ahufNode u p).right = i) : i ≠ 0 ∧ (ahufNode u i).parent = p := by
  have hl : (ahufNode u p).left ≠ noIndex := by
    intro hl
    obtain ⟨hr, -⟩ := h.leaf _ hp hl
    rw [hl, hr] at hc
    exact hi.ne_noIndex h (hc.elim Eq.symm Eq.symm)
  obtain ⟨-, -, hlp, hrp, -⟩ := h.internal p hp hl
  have hip : (ahufNode u i).parent = p := by
    rcases hc with rfl | rfl
    · exact hlp
    · exact hrp
  refine ⟨fun h0 => hp.ne_noIndex h ?_, hip⟩
  rw [← hip, h0, h.root.1]

theorem TreeShape.parent_eq_noIndex (h : TreeShape u) (hi : Allocated u i) :
    (ahufNode u i).parent = noIndex ↔ i = 0 := by
  refine ⟨fun hp => ?_, fun h0 => h0 ▸ h.root.1⟩
  by_contra h0
  exact h.not_allocated_noIndex (hp ▸ (h.exists_sibling hi h0).1)

/-- The sum of a record and its sibling. -/
theorem WeightsPending.sum_sibling (h : TreeShape u) (hw : WeightsPending u x) (hi : Allocated u i) (h0 : i ≠ 0) :
    ∃ s, Allocated u s ∧ s ≠ i ∧ (ahufNode u s).parent = (ahufNode u i).parent
      ∧ (orderOf u i + 1 = orderOf u s ∨ orderOf u s + 1 = orderOf u i)
      ∧ weightOf u (ahufNode u i).parent + (if (ahufNode u i).parent = x then 1 else 0)
          = weightOf u i + weightOf u s := by
  obtain ⟨hp, hl, -, s, hs, hne, hpar, hadj, hsides⟩ := h.exists_sibling hi h0
  refine ⟨s, hs, hne, hpar, hadj, (hw.sum _ hp hl).trans ?_⟩
  rcases hsides with ⟨hl, hr⟩ | ⟨hl, hr⟩ <;> rw [hl, hr]
  exact Nat.add_comm _ _

/-- A record that weighs as much as its parent is the sibling of the NYT leaf and stands just above it. -/
theorem WeightsPending.sibling_is_nyt (h : TreeShape u) (hw : WeightsPending u x) (hi : Allocated u i) (h0 : i ≠ 0)
    (hpx : (ahufNode u i).parent ≠ x) (hweight : weightOf u (ahufNode u i).parent ≤ weightOf u i)
    (hzero : ∀ s, Allocated u s → s ≠ i → (ahufNode u s).parent = (ahufNode u i).parent → weightOf u s = 0 →
      s = ahufLeaf u 257) :
    (ahufNode u (ahufLeaf u 257)).parent = (ahufNode u i).parent
      ∧ orderOf u i = orderOf u (ahufLeaf u 257) + 1 := by
  obtain ⟨s, hs, hne, hpar, hadj, hsum⟩ := hw.sum_sibling h hi h0
  rw [if_neg hpx] at hsum
  obtain rfl := hzero s hs hne hpar (by omega)
  have hlt := h.nyt_order_lt hi hne.symm
  exact ⟨hpar, by omega⟩

/-- WEIGHT grows with ORDER, but between the record to be incremented next and one below it. -/
theorem WeightsPending.weight_le (hw : WeightsPending u x) (hi : Allocated u i) (hj : Allocated u j)
    (ho : orderOf u i < orderOf u j) (hx : j ≠ x ∨ ¬ HeadsClass u x) : weightOf u i ≤ weightOf u j := by
  rcases hw.sibling i j hi hj ho with hle | ⟨rfl, -, hheads⟩
  · exact hle
  · exact absurd hheads (hx.resolve_left fun hne => hne rfl)

/-! ## The leader of a weight class (R253) -/

/-- A listed record of weight `w` among the first `n`. -/
def InClass (n : Nat) (w : Word) (c : Nat × AhufNode) : Prop := c.1 < n ∧ c.2.weight = w

/-- `d` is at least as good a leader as what has been found. -/
def Beats (d : Nat × AhufNode) (best : Option (Nat × AhufNode)) : Prop :=
  ∀ e, best = some e → e.2.order.toNat ≤ d.2.order.toNat

/-- One record more: it is of another weight, or the better of it and the best so far remains. -/
theorem leaderStep_cases (n : Nat) (w : Word) (best : Option (Nat × AhufNode)) (c : Nat × AhufNode) :
    ¬ InClass n w c ∧ leaderStep n w best c = best
      ∨ InClass n w c ∧ ∃ d, leaderStep n w best c = some d ∧ (d = c ∨ best = some d)
        ∧ c.2.order.toNat ≤ d.2.order.toNat ∧ Beats d best := by
  by_cases hc : InClass n w c
  · refine .inr ⟨hc, ?_⟩
    unfold leaderStep
    rw [if_pos (show c.1 < n ∧ c.2.weight = w from hc)]
    cases best with
    | none => exact ⟨c, rfl, .inl rfl, le_rfl, fun _ he => nomatch he⟩
    | some d =>
      simp only
      split_ifs with hlt
      · exact ⟨c, rfl, .inl rfl, le_rfl, fun e he => Option.some.inj he ▸ hlt.le⟩
      · exact ⟨d, rfl, .inr rfl, Nat.not_lt.mp hlt, fun e he => Option.some.inj he ▸ le_rfl⟩
  · exact .inl ⟨hc, if_neg hc⟩

/-- What the search for the leader finds: the best of the records seen, or none of that weight. -/
theorem foldl_leaderStep (n : Nat) (w : Word) (cells : List (Nat × AhufNode)) (best : Option (Nat × AhufNode)) :
    match cells.foldl (leaderStep n w) best with
    | none => best = none ∧ ∀ c ∈ cells, ¬ InClass n w c
    | some d => (best = some d ∨ d ∈ cells ∧ InClass n w d) ∧ Beats d best
        ∧ ∀ c ∈ cells, InClass n w c → c.2.order.toNat ≤ d.2.order.toNat := by
  induction cells generalizing best with
  | nil =>
    cases best with
    | none => exact ⟨rfl, fun _ hc => absurd hc List.not_mem_nil⟩
    | some d => exact ⟨.inl rfl, fun e he => Option.some.inj he ▸ le_rfl, fun _ hc => absurd hc List.not_mem_nil⟩
  | cons c cells ih =>
    have hrest := ih (leaderStep n w best c)
    have hstep := leaderStep_cases n w best c
    rw [List.foldl_cons]
    revert hrest
    cases cells.foldl (leaderStep n w) (leaderStep n w best c) with
    | none =>
      rintro ⟨hnone, hcells⟩
      rcases hstep with ⟨hc, he⟩ | ⟨-, d, he, -⟩
      · exact ⟨he ▸ hnone, List.forall_mem_cons.mpr ⟨hc, hcells⟩⟩
      · exact absurd (he.symm.trans hnone) (by simp)
    | some d =>
      rintro ⟨hfrom, hbeats, hcells⟩
      rcases hstep with ⟨hc, he⟩ | ⟨hc, d', he, hd', hle, hbeats'⟩ <;> rw [he] at hfrom hbeats
      · exact ⟨hfrom.imp id fun ⟨hm, hd⟩ => ⟨List.mem_cons_of_mem _ hm, hd⟩, hbeats,
          List.forall_mem_cons.mpr ⟨fun h => absurd h hc, hcells⟩⟩
      · have hd := hbeats d' rfl
        refine ⟨?_, fun e hbe => (hbeats' e hbe).trans hd, List.forall_mem_cons.mpr ⟨fun _ => hle.trans hd, hcells⟩⟩
        rcases hfrom with hsome | ⟨hm, hclass⟩
        · obtain rfl := Option.some.inj hsome
          rcases hd' with rfl | hbest
          · exact .inr ⟨List.mem_cons_self .., hc⟩
          · exact .inl hbest
        · exact .inr ⟨List.mem_cons_of_mem _ hm, hclass⟩

/-- The listed cells of the arena are the allocated records. -/
theorem TreeShape.mem_cells (h : TreeShape u) (hi : Allocated u i) : (i.toNat, ahufNode u i) ∈ u.arena.cells := by
  have hkey : i.toNat ∈ u.arena.cells.map Prod.fst := h.keys ▸ List.mem_range.mpr hi
  obtain ⟨⟨k, n⟩, hmem, rfl⟩ := List.mem_map.mp hkey
  have hr : rising u.arena.cells = true := rising_iff_pairwise.mpr (h.keys ▸ List.pairwise_lt_range)
  have hn : ahufNode u i = n := by
    simp only [ahufNode, Ram.read]
    rw [getCell_of_mem hr hmem]
    rfl
  rwa [hn]

theorem TreeShape.of_mem_cells (h : TreeShape u) {c : Nat × AhufNode} (hc : c ∈ u.arena.cells) :
    Allocated u (BitVec.ofNat 10 c.1) ∧ ahufNode u (BitVec.ofNat 10 c.1) = c.2 := by
  have hr : rising u.arena.cells = true := rising_iff_pairwise.mpr (h.keys ▸ List.pairwise_lt_range)
  have hlt : c.1 < u.nalloc.toNat := List.mem_range.mp (h.keys ▸ List.mem_map.mpr ⟨c, hc, rfl⟩)
  have hnat := h.toNat_ofNat hlt
  refine ⟨by rwa [Allocated, hnat], ?_⟩
  simp only [ahufNode, Ram.read, hnat]
  rw [getCell_of_mem (v := c.2) hr hc]
  rfl

/-- The leader of a record's weight class: it is in the class and heads it. -/
theorem TreeShape.exists_leader (h : TreeShape u) (hx : Allocated u x) :
    ∃ b, leader u (ahufNode u x).weight = some b ∧ Allocated u b ∧ weightOf u b = weightOf u x
      ∧ HeadsClass u b := by
  have hfold := foldl_leaderStep u.nalloc.toNat (ahufNode u x).weight u.arena.cells none
  unfold leader
  cases hd : u.arena.cells.foldl (leaderStep u.nalloc.toNat (ahufNode u x).weight) none with
  | none =>
    rw [hd] at hfold
    exact absurd ⟨hx, rfl⟩ (hfold.2 _ (h.mem_cells hx))
  | some d =>
    rw [hd] at hfold
    obtain ⟨hfrom, -, hbest⟩ := hfold
    obtain ⟨hmem, -, hweight⟩ := hfrom.resolve_left (by simp)
    obtain ⟨hb, hnode⟩ := h.of_mem_cells hmem
    have hclass : weightOf u (BitVec.ofNat 10 d.1) = weightOf u x := by rw [weightOf, hnode, hweight, weightOf]
    refine ⟨_, rfl, hb, hclass, fun k hk hkw => ?_⟩
    rw [orderOf, orderOf, hnode]
    exact hbest _ (h.mem_cells hk) ⟨hk, BitVec.eq_of_toNat_eq (hkw.trans hclass)⟩

/-- What the swap of one level does. -/
theorem TreeShape.swapWithLeader_eq (h : TreeShape u) (hx : Allocated u x) :
    ∃ b, Allocated u b ∧ weightOf u b = weightOf u x ∧ HeadsClass u b
      ∧ swapWithLeader u x = if b ≠ x ∧ b ≠ (ahufNode u x).parent then swapNodes u x b else u := by
  obtain ⟨b, hleader, hb, hweight, hheads⟩ := h.exists_leader hx
  refine ⟨b, hb, hweight, hheads, ?_⟩
  simp only [swapWithLeader, hleader]

/-! ## Trees with the same links -/

/-- Two trees with the same records but for the weights. -/
structure SameLinks (u v : Ahuf) : Prop where
  nalloc : v.nalloc = u.nalloc
  leaf : v.leaf = u.leaf
  keys : v.arena.cells.map Prod.fst = u.arena.cells.map Prod.fst
  parent : ∀ i, (ahufNode v i).parent = (ahufNode u i).parent
  left : ∀ i, (ahufNode v i).left = (ahufNode u i).left
  right : ∀ i, (ahufNode v i).right = (ahufNode u i).right
  order : ∀ i, (ahufNode v i).order = (ahufNode u i).order
  sym : ∀ i, (ahufNode v i).sym = (ahufNode u i).sym

theorem SameLinks.ahufLeaf_eq (h : SameLinks u v) (sym : Nat) : ahufLeaf v sym = ahufLeaf u sym := by
  rw [ahufLeaf, ahufLeaf, h.leaf]

theorem SameLinks.allocated_iff (h : SameLinks u v) : Allocated v i ↔ Allocated u i := by
  rw [Allocated, Allocated, h.nalloc]

theorem SameLinks.orderOf_eq (h : SameLinks u v) (i : BitVec 10) : orderOf v i = orderOf u i := by
  rw [orderOf, orderOf, h.order]

/-- The shape of a tree does not look at the weights. -/
theorem SameLinks.shape (h : SameLinks u v) (hs : TreeShape u) : TreeShape v := by
  constructor <;>
    simp only [h.nalloc, h.leaf, h.keys, h.parent, h.left, h.right, h.order, h.sym, h.ahufLeaf_eq, h.allocated_iff]
  exacts [hs.count, hs.keys, hs.leafKeys, hs.full, hs.root, hs.child, hs.internal, hs.leaf, hs.inverse, hs.orders,
    hs.nyt, hs.eof, hs.nytParent]

/-- Replacing an allocated record keeps the list of those allocated. -/
theorem keys_setNode {n : Nat} (hk : u.arena.cells.map Prod.fst = List.range n) (hi : i.toNat < n) (r : AhufNode) :
    (setNode u i r).arena.cells.map Prod.fst = List.range n := by
  have hr : rising u.arena.cells = true := rising_iff_pairwise.mpr (hk ▸ List.pairwise_lt_range)
  exact (keys_putCell_of_mem hr (hk ▸ List.mem_range.mpr hi) r).trans hk

/-! ## The increment (R256) -/

section Increment

variable (hroom : weightOf u x + 1 < 4294967296)
include hroom

theorem incrementWeight_eq :
    incrementWeight u x = setNode u x { ahufNode u x with weight := (ahufNode u x).weight + 1 } := by
  refine if_neg fun hmax => ?_
  rw [weightOf, hmax] at hroom
  exact absurd hroom (by decide)

theorem weightOf_incrementWeight (i : BitVec 10) :
    weightOf (incrementWeight u x) i = weightOf u i + if i = x then 1 else 0 := by
  rw [incrementWeight_eq hroom, weightOf, ahufNode_setNode]
  split_ifs with hi
  · subst hi
    rw [weightOf] at hroom ⊢
    simp only [BitVec.toNat_add, BitVec.ofNat_eq_ofNat, BitVec.toNat_ofNat]
    omega
  · rfl

theorem incrementWeight_sameLinks (hs : TreeShape u) (hx : Allocated u x) :
    SameLinks u (incrementWeight u x) := by
  rw [incrementWeight_eq hroom]
  refine ⟨rfl, rfl, (keys_setNode hs.keys hx _).trans hs.keys.symm, ?_, ?_, ?_, ?_, ?_⟩ <;>
    · intro i
      rw [ahufNode_setNode]
      split_ifs with hi
      · rw [hi]
      · rfl

end Increment

end Sys2Proof.Machine
end

section
/-! One level of an update (R256): the increment of a class leader, that of a record just below its parent, and the
swap with a leader elsewhere. -/

namespace Sys2Proof.Machine

open Sys2Proof.Safety

variable {u : Ahuf} {x a b i : BitVec 10}

/-! ## The increment and the weights -/

/-- The increment of `x` fills the sum of `x` and leaves its parent one short. -/
theorem WeightsPending.sum_incrementWeight (hs : TreeShape u) (hw : WeightsPending u x) (hx : Allocated u x)
    (hroom : weightOf u x + 1 < 4294967296) {p : BitVec 10} (hp : Allocated u p)
    (hl : (ahufNode u p).left ≠ noIndex) :
    weightOf (incrementWeight u x) p + (if p = (ahufNode u x).parent then 1 else 0)
      = weightOf (incrementWeight u x) (ahufNode u p).left + weightOf (incrementWeight u x) (ahufNode u p).right := by
  obtain ⟨-, -, -, -, -, hadj, -⟩ := hs.internal p hp hl
  have hsum := hw.sum p hp hl
  have hparent : p = (ahufNode u x).parent ↔ (ahufNode u p).left = x ∨ (ahufNode u p).right = x := by
    refine ⟨fun he => ?_, fun hc => (hs.child_of hp hx hc).2.symm⟩
    have h0 : x ≠ 0 := fun h0 => hp.ne_noIndex hs (by rw [he, h0, hs.root.1])
    exact he ▸ (hs.child x hx h0).2
  have hdiff : (ahufNode u p).left ≠ (ahufNode u p).right := fun he => by rw [he] at hadj; omega
  have hself (hc : (ahufNode u p).left = x ∨ (ahufNode u p).right = x) : p ≠ x := fun he => by
    obtain ⟨h0, hpar⟩ := hs.child_of hp hx hc
    exact hs.parent_ne hx h0 (hpar.trans he)
  simp only [weightOf_incrementWeight hroom]
  by_cases hleft : (ahufNode u p).left = x
  · rw [if_neg (hself (.inl hleft)), if_pos (hparent.mpr (.inl hleft)), if_pos hleft,
      if_neg fun hright => hdiff (hleft.trans hright.symm)]
    rw [if_neg (hself (.inl hleft))] at hsum
    omega
  · by_cases hright : (ahufNode u p).right = x
    · rw [if_neg (hself (.inr hright)), if_pos (hparent.mpr (.inr hright)), if_neg hleft, if_pos hright]
      rw [if_neg (hself (.inr hright))] at hsum
      omega
    · rw [if_neg fun he => (hparent.mp he).elim hleft hright, if_neg hleft, if_neg hright]
      omega

/-- The increment of `x` passes the pending increment on to the parent, if WEIGHT still grows with ORDER. -/
theorem WeightsPending.increment (hs : TreeShape u) (hw : WeightsPending u x) (hx : Allocated u x)
    (hroom : weightOf u x + 1 < 4294967296)
    (hsibling : ∀ i j, Allocated u i → Allocated u j → orderOf u i < orderOf u j →
      weightOf (incrementWeight u x) i ≤ weightOf (incrementWeight u x) j
        ∨ j = (ahufNode u x).parent ∧ i = x ∧ weightOf u x = weightOf u j ∧ HeadsClass u j) :
    WeightsPending (incrementWeight u x) (ahufNode u x).parent := by
  have hlinks := incrementWeight_sameLinks hroom hs hx
  have hweight := weightOf_incrementWeight hroom
  have hnyt : x ≠ ahufLeaf u 257 := (hw.place (hx.ne_noIndex hs)).2
  constructor
  case place =>
    intro hp
    have h0 : x ≠ 0 := fun h0 => hp (h0 ▸ hs.root.1)
    obtain ⟨hpa, hpl, -⟩ := hs.exists_sibling hx h0
    rw [hlinks.allocated_iff, hlinks.ahufLeaf_eq]
    exact ⟨hpa, fun he => hpl (he ▸ hs.nyt_leaf)⟩
  case sum =>
    intro p hp hl
    rw [hlinks.allocated_iff] at hp
    rw [hlinks.left] at hl
    rw [hlinks.left, hlinks.right]
    exact hw.sum_incrementWeight hs hx hroom hp hl
  case sibling =>
    intro i j hi hj ho
    rw [hlinks.allocated_iff] at hi hj
    rw [hlinks.orderOf_eq, hlinks.orderOf_eq] at ho
    refine (hsibling i j hi hj ho).imp id ?_
    rintro ⟨rfl, rfl, heq, hheads⟩
    have hne : (ahufNode u i).parent ≠ i := fun he => lt_irrefl _ (he ▸ ho)
    refine ⟨rfl, by simp only [hweight, if_true, if_neg hne]; omega, fun k hk hkw => ?_⟩
    rw [hlinks.allocated_iff] at hk
    rw [hweight, hweight, if_neg hne] at hkw
    rw [hlinks.orderOf_eq, hlinks.orderOf_eq]
    split_ifs at hkw with hki
    · rw [hki] at hkw
      omega
    · exact hheads k hk hkw
  case nyt => rw [hlinks.ahufLeaf_eq, hweight, hw.nyt, if_neg hnyt.symm]
  case positive =>
    intro i hi hi0
    rw [hlinks.allocated_iff] at hi
    rw [hlinks.ahufLeaf_eq]
    rw [hweight] at hi0
    split_ifs at hi0 with hix
    rcases hw.positive i hi (by omega) with h | h | ⟨-, h, -⟩
    · exact .inl h
    · exact absurd h hix
    · exact .inr (.inl h)

/-- A record that heads its class can be incremented in place. -/
theorem WeightsPending.increment_leader (hs : TreeShape u) (hw : WeightsPending u x) (hx : Allocated u x)
    (hroom : weightOf u x + 1 < 4294967296) (hheads : HeadsClass u x) :
    WeightsPending (incrementWeight u x) (ahufNode u x).parent := by
  refine hw.increment hs hx hroom fun i j hi hj ho => .inl ?_
  rw [weightOf_incrementWeight hroom, weightOf_incrementWeight hroom]
  rcases hw.sibling i j hi hj ho with hle | ⟨rfl, hi1, -⟩
  · split_ifs with h1 h2 h2
    · omega
    · subst h1
      have hne : weightOf u i ≠ weightOf u j := fun he => absurd (hheads j hj he.symm) (Nat.not_le.mpr ho)
      omega
    · omega
    · omega
  · rw [if_pos rfl, if_neg fun he => by rw [he] at ho; exact lt_irrefl _ ho]
    omega

/-- A record whose parent heads its class is the sibling of the NYT leaf, so nothing stands between the two, and it can
be incremented in place; the parent is next. -/
theorem WeightsPending.increment_below_parent (hs : TreeShape u) (hw : WeightsPending u x) (hx : Allocated u x)
    (h0 : x ≠ 0) (hroom : weightOf u x + 1 < 4294967296)
    (hweight : weightOf u (ahufNode u x).parent = weightOf u x) (hheads : HeadsClass u (ahufNode u x).parent) :
    WeightsPending (incrementWeight u x) (ahufNode u x).parent := by
  obtain ⟨hpa, -, hlt, -⟩ := hs.exists_sibling hx h0
  have hpx := hs.parent_ne hx h0
  have hnot : ¬ HeadsClass u x := fun h => absurd (h _ hpa hweight) (Nat.not_le.mpr hlt)
  obtain ⟨hpar, horder⟩ := hw.sibling_is_nyt hs hx h0 hpx hweight.le fun s hsa hne hsp hs0 => by
    rcases hw.positive s hsa hs0 with h | h | ⟨-, h, -⟩
    · exact h
    · exact absurd h hne
    · refine absurd hsp fun he => ?_
      rw [← h] at he
      have hs0 : s ≠ 0 := fun hs0 => hsa.ne_noIndex hs (by rw [← he, hs0, hs.root.1])
      exact hs.parent_ne hsa hs0 he
  have hnext : orderOf u (ahufNode u x).parent = orderOf u x + 1 := by
    have := hs.nytParent
    rw [hpar] at this
    simp only [orderOf] at horder ⊢
    omega
  refine hw.increment hs hx hroom fun i j hi hj ho => ?_
  have hle := hw.weight_le hi hj ho (.inr hnot)
  rw [weightOf_incrementWeight hroom, weightOf_incrementWeight hroom]
  by_cases hix : i = x
  · by_cases hjp : j = (ahufNode u x).parent
    · exact .inr ⟨hjp, hix, by rw [hjp, hweight], hjp ▸ hheads⟩
    · left
      have hne : weightOf u j ≠ weightOf u x := fun he => by
        have hjle := hheads j hj (he.trans hweight.symm)
        have hjne : orderOf u j ≠ orderOf u (ahufNode u x).parent := fun he => hjp (hs.eq_of_order hj hpa he)
        rw [hix] at ho
        omega
      rw [hix] at hle
      rw [if_pos hix, hix]
      split_ifs <;> omega
  · left
    rw [if_neg hix]
    omega

/-! ## The swap (R254) -/

/-- What an index field names after records `a` and `b` have exchanged their places. -/
def swapIndex (a b i : BitVec 10) : BitVec 10 := Equiv.swap a b i

theorem swapIndex_eq (a b i : BitVec 10) : swapIndex a b i = if i = a then b else if i = b then a else i :=
  Equiv.swap_apply_def a b i

theorem ahufNode_setChild (u : Ahuf) (p : BitVec 10) (right : Bool) (c i : BitVec 10) :
    ahufNode (setChild u p right c) i =
      { ahufNode u i with
        left := if i = p ∧ right = false then c else (ahufNode u i).left
        right := if i = p ∧ right = true then c else (ahufNode u i).right } := by
  cases right <;> by_cases hi : i = p <;> simp [setChild, ahufNode_setNode, hi]

/-- Which slot of which record names a given one: its parent's, on its side. -/
theorem TreeShape.slot_iff (h : TreeShape u) (hi : Allocated u i) (ha : Allocated u a) (h0 : a ≠ 0) :
    (i = (ahufNode u a).parent ∧ decide ((ahufNode u (ahufNode u a).parent).right = a) = false
        ↔ (ahufNode u i).left = a)
      ∧ (i = (ahufNode u a).parent ∧ decide ((ahufNode u (ahufNode u a).parent).right = a) = true
        ↔ (ahufNode u i).right = a) := by
  obtain ⟨-, -, -, s, -, hne, -, -, hsides⟩ := h.exists_sibling ha h0
  rw [decide_eq_false_iff_not, decide_eq_true_iff]
  refine ⟨⟨?_, fun hc => ?_⟩, ⟨fun ⟨he, hr⟩ => he ▸ hr, fun hc => ?_⟩⟩
  · rintro ⟨rfl, hr⟩
    exact hsides.elim And.left fun hs => absurd hs.2 hr
  · obtain ⟨-, hp⟩ := h.child_of hi ha (.inl hc)
    subst hp
    exact ⟨rfl, fun hr => hsides.elim (fun hs => hne (hs.2.symm.trans hr)) fun hs => hne (hs.1.symm.trans hc)⟩
  · obtain ⟨-, hp⟩ := h.child_of hi ha (.inr hc)
    subst hp
    exact ⟨rfl, hc⟩

/-- Two records that can exchange their places: neither is the root or the other's parent. -/
structure Swappable (u : Ahuf) (a b : BitVec 10) : Prop where
  left : Allocated u a ∧ a ≠ 0
  right : Allocated u b ∧ b ≠ 0
  ne : a ≠ b
  notParent : (ahufNode u a).parent ≠ b ∧ (ahufNode u b).parent ≠ a

/-- A record after a swap: places and numbers by `swapIndex`, weight and symbol its own. -/
def swappedNode (u : Ahuf) (a b i : BitVec 10) : AhufNode :=
  { parent := (ahufNode u (swapIndex a b i)).parent
    left := swapIndex a b (ahufNode u i).left
    right := swapIndex a b (ahufNode u i).right
    weight := (ahufNode u i).weight
    order := (ahufNode u (swapIndex a b i)).order
    sym := (ahufNode u i).sym }

theorem ahufNode_swapNodes (hs : TreeShape u) (h : Swappable u a b) (hi : Allocated u i) :
    ahufNode (swapNodes u a b) i = swappedNode u a b i := by
  obtain ⟨⟨ha, ha0⟩, ⟨hb, hb0⟩, hne, hpa, hpb⟩ := h
  have haa := hs.parent_ne ha ha0
  have hbb := hs.parent_ne hb hb0
  have hslots := hs.slot_iff hi ha ha0
  have hslots' := hs.slot_iff hi hb hb0
  have hself : (ahufNode u i).left = a ∨ (ahufNode u i).right = a → i = (ahufNode u a).parent := fun hc =>
    (hs.child_of hi ha hc).2.symm
  have hself' : (ahufNode u i).left = b ∨ (ahufNode u i).right = b → i = (ahufNode u b).parent := fun hc =>
    (hs.child_of hi hb hc).2.symm
  simp only [swapNodes, swappedNode, ahufNode_setNode, ahufNode_setChild, swapIndex_eq]
  by_cases hib : i = b
  · subst hib
    simp_all [Ne.symm]
  · by_cases hia : i = a
    · subst hia
      simp_all [Ne.symm]
    · simp only [if_neg hib, if_neg hia, hslots, hslots', AhufNode.mk.injEq, true_and, and_true]
      constructor <;> split_ifs <;> simp_all

theorem keys_setChild {n : Nat} (hk : u.arena.cells.map Prod.fst = List.range n) {p : BitVec 10} (hp : p.toNat < n)
    (right : Bool) (c : BitVec 10) : (setChild u p right c).arena.cells.map Prod.fst = List.range n := by
  unfold setChild
  split_ifs <;> exact keys_setNode hk hp _

theorem keys_swapNodes (hs : TreeShape u) (h : Swappable u a b) :
    (swapNodes u a b).arena.cells.map Prod.fst = List.range u.nalloc.toNat := by
  obtain ⟨⟨ha, ha0⟩, ⟨hb, hb0⟩, -⟩ := h
  have hpa := (hs.exists_sibling ha ha0).1
  have hpb := (hs.exists_sibling hb hb0).1
  exact keys_setNode (keys_setNode (keys_setChild (keys_setChild hs.keys hpa _ _) hpb _ _) ha _) hb _

@[simp] theorem setChild_nalloc (u : Ahuf) (p : BitVec 10) (right : Bool) (c : BitVec 10) :
    (setChild u p right c).nalloc = u.nalloc := by
  unfold setChild
  split_ifs <;> rfl

@[simp] theorem setChild_leaf (u : Ahuf) (p : BitVec 10) (right : Bool) (c : BitVec 10) :
    (setChild u p right c).leaf = u.leaf := by
  unfold setChild
  split_ifs <;> rfl

theorem swapNodes_nalloc (u : Ahuf) (a b : BitVec 10) : (swapNodes u a b).nalloc = u.nalloc := by
  simp only [swapNodes, setNode_nalloc, setChild_nalloc]

theorem swapNodes_leaf (u : Ahuf) (a b : BitVec 10) : (swapNodes u a b).leaf = u.leaf := by
  simp only [swapNodes, setNode_leaf, setChild_leaf]

theorem ahufLeaf_swapNodes (u : Ahuf) (a b : BitVec 10) (sym : Nat) :
    ahufLeaf (swapNodes u a b) sym = ahufLeaf u sym := by
  rw [ahufLeaf, swapNodes_leaf, ahufLeaf]

theorem allocated_swapNodes : Allocated (swapNodes u a b) i ↔ Allocated u i := by
  rw [Allocated, swapNodes_nalloc, Allocated]

/-- The case of R256 that swaps: the leader `b` of the class of `x` is neither `x` nor its parent. -/
structure LeaderElsewhere (u : Ahuf) (x b : BitVec 10) : Prop where
  pending : WeightsPending u x
  record : Allocated u x
  leader : Allocated u b
  weight_eq : weightOf u b = weightOf u x
  heads : HeadsClass u b
  ne : b ≠ x
  notParent : b ≠ (ahufNode u x).parent

namespace LeaderElsewhere

variable (hs : TreeShape u) (h : LeaderElsewhere u x b)
include hs h

theorem record_ne_nyt : ahufLeaf u 257 ≠ x := (h.pending.place (h.record.ne_noIndex hs)).2.symm

theorem order_lt : orderOf u x < orderOf u b :=
  lt_of_le_of_ne (h.heads x h.record h.weight_eq.symm) fun he => h.ne (hs.eq_of_order h.record h.leader he).symm

theorem monotone {i j : BitVec 10} (hi : Allocated u i) (hj : Allocated u j) (ho : orderOf u i < orderOf u j) :
    weightOf u i ≤ weightOf u j :=
  h.pending.weight_le hi hj ho (.inr fun hx => absurd (hx b h.leader h.weight_eq) (Nat.not_le.mpr (h.order_lt hs)))

theorem leader_ne_nyt : ahufLeaf u 257 ≠ b := by
  intro he
  have hlt := hs.nyt_order_lt h.record (h.record_ne_nyt hs).symm
  rw [he] at hlt
  exact absurd hlt (h.order_lt hs).asymm

theorem record_ne_root : x ≠ 0 := by
  intro h0
  have hlt := h.order_lt hs
  have hle := (hs.orders b h.leader).1
  rw [h0, hs.root_order, orderOf] at hlt
  omega

/-- The class is not that of weight 0, where the only leader is a record's parent, so 0 is the weight of the NYT leaf
alone. -/
theorem zero {i : BitVec 10} (hi : Allocated u i) (hi0 : weightOf u i = 0) : i = ahufLeaf u 257 := by
  have hpos : weightOf u x ≠ 0 := fun hzero => by
    rcases h.pending.positive b h.leader (h.weight_eq.trans hzero) with hb | hb | ⟨-, hb, -⟩
    · exact h.leader_ne_nyt hs hb.symm
    · exact h.ne hb
    · exact h.notParent hb
  rcases h.pending.positive i hi hi0 with hn | hn | ⟨-, -, hn⟩
  · exact hn
  · exact absurd (hn ▸ hi0) hpos
  · exact absurd hn hpos

/-- A child that weighs as much as its parent stands just above the NYT leaf, its sibling. -/
theorem next_to_nyt {i : BitVec 10} (hi : Allocated u i) (h0 : i ≠ 0) (hpx : (ahufNode u i).parent ≠ x)
    (hweight : weightOf u (ahufNode u i).parent ≤ weightOf u i) :
    (ahufNode u (ahufLeaf u 257)).parent = (ahufNode u i).parent
      ∧ orderOf u i = orderOf u (ahufLeaf u 257) + 1 :=
  h.pending.sibling_is_nyt hs hi h0 hpx hweight fun _ hsa _ _ => h.zero hs hsa

/-- The parent of the NYT leaf weighs as much as its other child, so its increment cannot be pending. -/
theorem nytParent_ne_record : (ahufNode u (ahufLeaf u 257)).parent ≠ x := by
  intro he
  obtain ⟨s, hsa, -, hpar, -, hsum⟩ := h.pending.sum_sibling hs hs.nyt_allocated hs.nyt_ne_root
  have hs0 : s ≠ 0 := fun h0 => h.record.ne_noIndex hs (by rw [← he, ← hpar, h0, hs.root.1])
  have hslt := hs.order_lt_parent hsa hs0
  rw [hpar, he] at hslt
  have hle := h.monotone hs hsa h.record hslt
  rw [he, if_pos rfl, h.pending.nyt] at hsum
  omega

/-- Only the sibling of the NYT leaf stands between that leaf and its parent. -/
theorem nytParent_ne_leader : (ahufNode u (ahufLeaf u 257)).parent ≠ b := by
  intro he
  have hbig := hs.nytParent
  have hlt := h.order_lt hs
  have hnlt := hs.nyt_order_lt h.record (h.record_ne_nyt hs).symm
  obtain ⟨s, hsa, hne, hpar, hadj, -⟩ := h.pending.sum_sibling hs hs.nyt_allocated hs.nyt_ne_root
  have hslt := hs.nyt_order_lt hsa hne
  have hxs : x = s := hs.eq_of_order h.record hsa (by
    rw [he] at hbig
    simp only [orderOf] at hlt hnlt hadj hslt ⊢
    omega)
  exact h.notParent (by rw [hxs, hpar, he])

/-- The children of the leader stand below the place it takes: a child above it would weigh as much as the leader. -/
theorem below {c : BitVec 10} (hc : Allocated u c) (hc0 : c ≠ 0) (hcb : (ahufNode u c).parent = b) :
    orderOf u c < orderOf u x := by
  by_contra hge
  have hcx : c ≠ x := fun he => h.notParent (by rw [← hcb, he])
  have hlt : orderOf u x < orderOf u c :=
    lt_of_le_of_ne (Nat.not_lt.mp hge) fun he => hcx (hs.eq_of_order h.record hc he).symm
  have hle := h.monotone hs h.record hc hlt
  obtain ⟨-, hnext⟩ := h.next_to_nyt hs hc hc0 (by rw [hcb]; exact h.ne) (by rwa [hcb, h.weight_eq])
  have hnlt := hs.nyt_order_lt h.record (h.record_ne_nyt hs).symm
  omega

/-- The leader is not the root: the parent of `x` and the parent above it would both be the NYT leaf's. -/
theorem leader_ne_root : b ≠ 0 := by
  intro h0
  have hx0 := h.record_ne_root hs
  obtain ⟨hpa, -, hplt, -⟩ := hs.exists_sibling h.record hx0
  have hp0 : (ahufNode u x).parent ≠ 0 := fun he => h.notParent (h0.trans he.symm)
  obtain ⟨hga, -, hglt, -⟩ := hs.exists_sibling hpa hp0
  have hle := h.monotone hs h.record hpa hplt
  have hroot {i : BitVec 10} (hi : Allocated u i) : weightOf u i ≤ weightOf u x := by
    by_cases hi0 : i = 0
    · rw [hi0, ← h0, h.weight_eq]
    · have hle := h.monotone hs hi hs.root_allocated (by rw [hs.root_order]; exact hs.order_lt_root hi hi0)
      rwa [← h0, h.weight_eq] at hle
  have hgx : (ahufNode u (ahufNode u x).parent).parent ≠ x := fun he => by
    rw [he] at hglt
    exact absurd hglt hplt.asymm
  obtain ⟨hnear, -⟩ := h.next_to_nyt hs h.record hx0 (hs.parent_ne h.record hx0) (hroot hpa)
  obtain ⟨hfar, -⟩ := h.next_to_nyt hs hpa hp0 hgx ((hroot hga).trans hle)
  exact hs.parent_ne hpa hp0 (hfar.symm.trans hnear)

theorem swappable : Swappable u x b := by
  have hb0 := h.leader_ne_root hs
  refine ⟨⟨h.record, h.record_ne_root hs⟩, ⟨h.leader, hb0⟩, h.ne.symm, h.notParent.symm, fun he => ?_⟩
  have hlt := hs.order_lt_parent h.leader hb0
  rw [he] at hlt
  exact absurd hlt (h.order_lt hs).asymm

end LeaderElsewhere

end Sys2Proof.Machine
end

section
/-! One level and the whole loop of an update (R256). -/

namespace Sys2Proof.Machine

open Sys2Proof.Safety

variable {u : Ahuf} {x a b i : BitVec 10}

/-! ## The tree after a swap -/

@[simp] theorem swapIndex_swapIndex (a b i : BitVec 10) : swapIndex a b (swapIndex a b i) = i :=
  Equiv.swap_apply_self a b i

theorem swapIndex_of_ne (ha : i ≠ a) (hb : i ≠ b) : swapIndex a b i = i := Equiv.swap_apply_of_ne_of_ne ha hb

@[simp] theorem swapIndex_left (a b : BitVec 10) : swapIndex a b a = b := Equiv.swap_apply_left a b

theorem swapIndex_eq_iff {j : BitVec 10} : swapIndex a b i = j ↔ i = swapIndex a b j :=
  ⟨fun h => by rw [← h, swapIndex_swapIndex], fun h => by rw [h, swapIndex_swapIndex]⟩

theorem Swappable.allocated_swapIndex (h : Swappable u a b) : Allocated u (swapIndex a b i) ↔ Allocated u i := by
  rw [swapIndex_eq]
  split_ifs with hia hib
  · simp only [hia, h.left.1, h.right.1]
  · simp only [hib, h.left.1, h.right.1]
  · rfl

theorem Swappable.swapIndex_noIndex (hs : TreeShape u) (h : Swappable u a b) : swapIndex a b noIndex = noIndex :=
  swapIndex_of_ne (h.left.1.ne_noIndex hs).symm (h.right.1.ne_noIndex hs).symm

theorem Swappable.swapIndex_root (h : Swappable u a b) : swapIndex a b 0 = 0 :=
  swapIndex_of_ne h.left.2.symm h.right.2.symm

theorem Swappable.swapIndex_ne_root (h : Swappable u a b) (h0 : i ≠ 0) : swapIndex a b i ≠ 0 := fun he =>
  h0 (by rw [swapIndex_eq_iff.mp he, h.swapIndex_root])

theorem LeaderElsewhere.weight_swapIndex (h : LeaderElsewhere u x b) (i : BitVec 10) :
    weightOf u (swapIndex x b i) = weightOf u i := by
  rw [swapIndex_eq]
  split_ifs with hix hib
  · rw [hix, h.weight_eq]
  · rw [hib, h.weight_eq]
  · rfl

section Swapped

variable (hs : TreeShape u) (h : LeaderElsewhere u x b)
include hs h

theorem LeaderElsewhere.weightOf_swapNodes (hi : Allocated u i) : weightOf (swapNodes u x b) i = weightOf u i := by
  rw [weightOf, ahufNode_swapNodes hs (h.swappable hs) hi]
  rfl

theorem LeaderElsewhere.orderOf_swapNodes (hi : Allocated u i) :
    orderOf (swapNodes u x b) i = orderOf u (swapIndex x b i) := by
  rw [orderOf, ahufNode_swapNodes hs (h.swappable hs) hi]
  rfl

/-- Every record but `b` has at least its old ORDER after the swap, and the children of `b` stand below the place it
takes. -/
theorem LeaderElsewhere.child_order_lt {p c : BitVec 10} (hc : Allocated u c) (hc0 : c ≠ 0)
    (hp : (ahufNode u c).parent = p) : orderOf u c < orderOf u (swapIndex x b p) := by
  have hlt := hs.order_lt_parent hc hc0
  rw [hp] at hlt
  rw [swapIndex_eq]
  split_ifs with hpx hpb
  · exact (hpx ▸ hlt).trans (h.order_lt hs)
  · exact h.below hs hc hc0 (hp.trans hpb)
  · exact hlt

theorem LeaderElsewhere.shape : TreeShape (swapNodes u x b) := by
  have hsw := h.swappable hs
  have hnode {i : BitVec 10} (hi : Allocated u i) : ahufNode (swapNodes u x b) i = swappedNode u x b i :=
    ahufNode_swapNodes hs hsw hi
  have halloc {i : BitVec 10} : Allocated (swapNodes u x b) i ↔ Allocated u i := allocated_swapNodes
  have hidx {i : BitVec 10} : Allocated u (swapIndex x b i) ↔ Allocated u i := hsw.allocated_swapIndex
  have hnyt : swapIndex x b (ahufLeaf u 257) = ahufLeaf u 257 :=
    swapIndex_of_ne (h.record_ne_nyt hs) (h.leader_ne_nyt hs)
  have hnoIndex := hsw.swapIndex_noIndex hs
  constructor
  case count => rw [swapNodes_nalloc]; exact hs.count
  case keys => rw [swapNodes_nalloc]; exact keys_swapNodes hs hsw
  case leafKeys => rw [swapNodes_leaf]; exact hs.leafKeys
  case full => rw [swapNodes_leaf, swapNodes_nalloc]; exact hs.full
  case root =>
    rw [hnode hs.root_allocated, swappedNode, hsw.swapIndex_root]
    exact hs.root
  case child =>
    intro i hi h0
    rw [halloc] at hi
    obtain ⟨hp, hside⟩ := hs.child _ (hidx.mpr hi) (hsw.swapIndex_ne_root h0)
    rw [halloc, hnode hi]
    refine ⟨hp, ?_⟩
    rw [swappedNode, hnode hp]
    simpa only [swappedNode, swapIndex_eq_iff] using hside
  case internal =>
    intro p hp hl
    rw [halloc] at hp
    rw [hnode hp] at hl ⊢
    simp only [swappedNode, ne_eq, swapIndex_eq_iff, hnoIndex] at hl ⊢
    obtain ⟨hla, hra, hlp, hrp, hsym, hadj, -⟩ := hs.internal p hp hl
    have hr0 := (hs.child_of hp hra (.inr rfl)).1
    have hlt := h.child_order_lt hs hra hr0 hrp
    rw [halloc, halloc, hidx, hidx, hnode (hidx.mpr hla), hnode (hidx.mpr hra)]
    simp only [swappedNode, swapIndex_swapIndex]
    exact ⟨hla, hra, hlp, hrp, hsym, hadj, hlt⟩
  case leaf =>
    intro i hi hl
    rw [halloc] at hi
    rw [hnode hi] at hl ⊢
    simp only [swappedNode, swapIndex_eq_iff, hnoIndex, ahufLeaf_swapNodes] at hl ⊢
    exact hs.leaf i hi hl
  case inverse =>
    intro sym hsym hne
    rw [ahufLeaf_swapNodes] at hne ⊢
    obtain ⟨ha, hl, hsy⟩ := hs.inverse sym hsym hne
    rw [halloc, hnode ha]
    simp only [swappedNode, swapIndex_eq_iff, hnoIndex]
    exact ⟨ha, hl, hsy⟩
  case orders =>
    intro i hi
    rw [halloc] at hi
    obtain ⟨hle, hge, hinj⟩ := hs.orders _ (hidx.mpr hi)
    rw [hnode hi, swapNodes_nalloc]
    refine ⟨hle, hge, fun j hj ho => ?_⟩
    rw [halloc] at hj
    rw [hnode hj] at ho
    have := hinj _ (hidx.mpr hj) ho
    rwa [swapIndex_eq_iff, swapIndex_swapIndex] at this
  case nyt =>
    rw [ahufLeaf_swapNodes, hnode hs.nyt_allocated, swapNodes_nalloc, swappedNode, hnyt]
    exact hs.nyt
  case eof => rw [ahufLeaf_swapNodes]; exact hs.eof
  case nytParent =>
    have hpar := (hs.exists_sibling hs.nyt_allocated hs.nyt_ne_root).1
    rw [ahufLeaf_swapNodes, hnode hs.nyt_allocated]
    simp only [swappedNode, hnyt]
    rw [hnode hpar, swappedNode, swapIndex_of_ne (h.nytParent_ne_record hs) (h.nytParent_ne_leader hs)]
    exact hs.nytParent

theorem LeaderElsewhere.weights : WeightsPending (swapNodes u x b) x := by
  have hsw := h.swappable hs
  have halloc {i : BitVec 10} : Allocated (swapNodes u x b) i ↔ Allocated u i := allocated_swapNodes
  have hidx {i : BitVec 10} : Allocated u (swapIndex x b i) ↔ Allocated u i := hsw.allocated_swapIndex
  constructor
  case place => rw [halloc, ahufLeaf_swapNodes]; exact h.pending.place
  case sum =>
    intro p hp hl
    rw [halloc] at hp
    rw [ahufNode_swapNodes hs hsw hp] at hl ⊢
    simp only [swappedNode, ne_eq, swapIndex_eq_iff, hsw.swapIndex_noIndex hs] at hl ⊢
    obtain ⟨hla, hra, -⟩ := hs.internal p hp hl
    rw [h.weightOf_swapNodes hs hp, h.weightOf_swapNodes hs (hidx.mpr hla), h.weightOf_swapNodes hs (hidx.mpr hra),
      h.weight_swapIndex, h.weight_swapIndex]
    exact h.pending.sum p hp hl
  case sibling =>
    intro i j hi hj ho
    rw [halloc] at hi hj
    rw [h.orderOf_swapNodes hs hi, h.orderOf_swapNodes hs hj] at ho
    have := h.monotone hs (hidx.mpr hi) (hidx.mpr hj) ho
    rw [h.weightOf_swapNodes hs hi, h.weightOf_swapNodes hs hj]
    rw [h.weight_swapIndex, h.weight_swapIndex] at this
    exact .inl this
  case nyt =>
    rw [ahufLeaf_swapNodes, h.weightOf_swapNodes hs hs.nyt_allocated]
    exact h.pending.nyt
  case positive =>
    intro i hi hi0
    rw [halloc] at hi
    rw [h.weightOf_swapNodes hs hi] at hi0
    rw [ahufLeaf_swapNodes]
    exact .inl (h.zero hs hi hi0)

theorem LeaderElsewhere.headsClass : HeadsClass (swapNodes u x b) x := by
  intro k hk hkw
  have hx := h.record
  rw [allocated_swapNodes] at hk
  rw [h.weightOf_swapNodes hs hk, h.weightOf_swapNodes hs hx] at hkw
  rw [h.orderOf_swapNodes hs hk, h.orderOf_swapNodes hs hx, swapIndex_left]
  refine h.heads _ ((h.swappable hs).allocated_swapIndex.mpr hk) ?_
  rw [h.weight_swapIndex, hkw, h.weight_eq]

end Swapped

/-! ## One level -/

/-- What one level of the loop leaves (R256): the pending increment has gone from `x` to its parent, which has a greater
ORDER than `x` had, and the root's weight has grown if `x` is the root. -/
structure LevelDone (u v : Ahuf) (x : BitVec 10) : Prop where
  shape : TreeShape v
  weights : WeightsPending v (ahufNode v x).parent
  allocated : Allocated v x
  higher : x ≠ 0 → orderOf u x < orderOf v (ahufNode v x).parent
  root : weightOf v 0 = weightOf u 0 + if x = 0 then 1 else 0

/-- WEIGHT is at most that of the root. -/
theorem WeightsPending.weight_le_root (hs : TreeShape u) (hw : WeightsPending u x) (hx : Allocated u x) :
    weightOf u x ≤ weightOf u 0 := by
  by_cases h0 : x = 0
  · rw [h0]
  · exact hw.weight_le hx hs.root_allocated (by rw [hs.root_order]; exact hs.order_lt_root hx h0) (.inl (Ne.symm h0))

/-- The increment of a level, once the weights are known to pass on to the parent. -/
theorem levelDone_incrementWeight {v : Ahuf} (hs : TreeShape v) (hx : Allocated v x)
    (hroom : weightOf v x + 1 < 4294967296) (hw : WeightsPending (incrementWeight v x) (ahufNode v x).parent)
    (horder : orderOf u x ≤ orderOf v x) (hroot : weightOf v 0 = weightOf u 0) :
    LevelDone u (incrementWeight v x) x := by
  have hlinks := incrementWeight_sameLinks hroom hs hx
  refine ⟨hlinks.shape hs, by rwa [hlinks.parent], hlinks.allocated_iff.mpr hx, fun h0 => ?_, ?_⟩
  · rw [hlinks.parent, hlinks.orderOf_eq]
    exact horder.trans_lt (hs.order_lt_parent hx h0)
  · rw [weightOf_incrementWeight hroom, hroot]
    simp only [eq_comm]

/-- One level of the loop of R256. -/
theorem WeightsPending.updateLevel (hs : TreeShape u) (hw : WeightsPending u x) (hx : x ≠ noIndex)
    (hroom : weightOf u 0 + 1 < 4294967296) : LevelDone u (updateLevel u x) x := by
  obtain ⟨hxa, -⟩ := hw.place hx
  have hle := hw.weight_le_root hs hxa
  obtain ⟨b, hb, hweight, hheads, hswap⟩ := hs.swapWithLeader_eq hxa
  rw [Machine.updateLevel, hswap]
  split_ifs with hcase
  · have helse : LeaderElsewhere u x b := ⟨hw, hxa, hb, hweight, hheads, hcase.1, hcase.2⟩
    have hs' := helse.shape hs
    have hxa' := allocated_swapNodes (a := x) (b := b) |>.mpr hxa
    have hroom' : weightOf (swapNodes u x b) x + 1 < 4294967296 := by
      rw [helse.weightOf_swapNodes hs hxa]
      omega
    refine levelDone_incrementWeight hs' hxa' hroom'
      ((helse.weights hs).increment_leader hs' hxa' hroom' (helse.headsClass hs)) ?_
      (helse.weightOf_swapNodes hs hs.root_allocated)
    rw [helse.orderOf_swapNodes hs hxa, swapIndex_left]
    exact (helse.order_lt hs).le
  · refine levelDone_incrementWeight hs hxa (by omega) ?_ le_rfl rfl
    by_cases hbx : b = x
    · exact hw.increment_leader hs hxa (by omega) (hbx ▸ hheads)
    · have hbp : b = (ahufNode u x).parent := by
        by_contra hbp
        exact hcase ⟨hbx, hbp⟩
      have h0 : x ≠ 0 := fun h0 => hb.ne_noIndex hs (by rw [hbp, h0, hs.root.1])
      exact hw.increment_below_parent hs hxa h0 (by omega) (hbp ▸ hweight) (hbp ▸ hheads)

/-! ## The loop -/

/-- The loop of R256 from a record whose increment is pending: it reaches the root within its bound, since ORDER rises
from level to level, and leaves the invariants with one more at the root. -/
theorem WeightsPending.updateFrom {fuel : Nat} (hs : TreeShape u) (hw : WeightsPending u x) (hx : x ≠ noIndex)
    (hroom : weightOf u 0 + 1 < 4294967296) (hfuel : 517 ≤ orderOf u x + fuel) :
    TreeShape (updateFrom fuel u x) ∧ WeightsPending (updateFrom fuel u x) noIndex
      ∧ weightOf (updateFrom fuel u x) 0 = weightOf u 0 + 1 := by
  induction fuel generalizing u x with
  | zero =>
    have := (hs.orders x (hw.place hx).1).1
    rw [orderOf] at hfuel
    omega
  | succ fuel ih =>
    obtain ⟨hs', hw', hxa, hhigher, hroot⟩ := hw.updateLevel hs hx hroom
    rw [Machine.updateFrom, if_neg hx]
    by_cases h0 : x = 0
    · have hpar := (hs'.parent_eq_noIndex hxa).mpr h0
      rw [if_pos h0] at hroot
      rw [hpar] at hw' ⊢
      have hdone : Machine.updateFrom fuel (Machine.updateLevel u x) noIndex = Machine.updateLevel u x := by
        cases fuel with
        | zero => rfl
        | succ fuel => exact if_pos rfl
      rw [hdone]
      exact ⟨hs', hw', hroot⟩
    · have hpar := mt (hs'.parent_eq_noIndex hxa).mp h0
      have hlt := hhigher h0
      rw [if_neg h0] at hroot
      rw [← Nat.add_zero (weightOf u 0), ← hroot]
      exact ih hs' hw' hpar (by omega) (by omega)

end Sys2Proof.Machine
end

section
/-! The start of an update (R255, R256): the split of the NYT leaf for an unseen byte, and the update as a whole
(R259). -/

namespace Sys2Proof.Machine

open Sys2Proof.Safety

variable {u : Ahuf} {i : BitVec 10} {sym : Byte}

/-! ## Room for two records -/

/-- A symbol with no AHUF_LEAF entry is not listed. -/
theorem TreeShape.getCell_leaf_eq_none (h : TreeShape u) {n : Nat} (hn : ahufLeaf u n = noIndex) :
    getCell u.leaf n = none := by
  cases hc : getCell u.leaf n with
  | none => rfl
  | some a =>
    rw [ahufLeaf, hc] at hn
    exact absurd hn (h.full.2 _ (mem_of_getCell hc))

/-- While a byte has no leaf, at most 257 of the 258 symbols have, so the arena has room for two records more
(R38, R255). -/
theorem TreeShape.nalloc_le_of_unseen (h : TreeShape u) (hsym : ahufLeaf u sym.toNat = noIndex) :
    u.nalloc.toNat ≤ 513 := by
  obtain ⟨hrising, hkeys⟩ := h.leafKeys
  have hnone := h.getCell_leaf_eq_none hsym
  have hnodup : (u.leaf.map Prod.fst).Nodup := (rising_iff_pairwise.mp hrising).imp fun hlt => hlt.ne
  have hsub : (u.leaf.map Prod.fst).toFinset ⊆ (Finset.range 258).erase sym.toNat := by
    intro n hn
    obtain ⟨c, hc, rfl⟩ := List.mem_map.mp (List.mem_toFinset.mp hn)
    refine Finset.mem_erase.mpr ⟨fun he => ?_, Finset.mem_range.mpr (by have := hkeys c hc; omega)⟩
    rw [← he, getCell_of_mem (v := c.2) hrising hc] at hnone
    cases hnone
  have hcard := Finset.card_le_card hsub
  have hin : sym.toNat ∈ Finset.range 258 := Finset.mem_range.mpr (by omega)
  rw [List.toFinset_card_of_nodup hnodup, List.length_map, Finset.card_erase_of_mem hin, Finset.card_range] at hcard
  have := h.full.1
  omega

/-! ## The records after a split -/

/-- The index of the new NYT leaf (R255). -/
def newNyt (u : Ahuf) : BitVec 10 := u.nalloc.setWidth 10

/-- A record that a split allocates, with its ORDER below that of the old NYT leaf (R255). -/
def splitNode (u : Ahuf) (down : BitVec 10) (sym : BitVec 9) : AhufNode :=
  { parent := ahufLeaf u 257, left := noIndex, right := noIndex, weight := 0
    order := (ahufNode u (ahufLeaf u 257)).order - down, sym := sym }

/-- The tree with the two new leaves, before the old NYT leaf becomes their parent (R255). -/
def splitLeaves (u : Ahuf) (sym : Byte) : Ahuf :=
  setNode (setNode u (newNyt u) (splitNode u 2 257)) (newNyt u + 1) (splitNode u 1 (sym.setWidth 9))

section Split

variable (hs : TreeShape u) (hsym : ahufLeaf u sym.toNat = noIndex)
include hs hsym

theorem newNyt_toNat : (newNyt u).toNat = u.nalloc.toNat ∧ (newNyt u + 1).toNat = u.nalloc.toNat + 1 := by
  have hmax := hs.nalloc_le_of_unseen hsym
  have ha : (newNyt u).toNat = u.nalloc.toNat := by
    rw [newNyt, BitVec.toNat_setWidth]
    omega
  refine ⟨ha, ?_⟩
  rw [BitVec.toNat_add, ha]
  simp only [BitVec.ofNat_eq_ofNat, BitVec.toNat_ofNat]
  omega

theorem splitNyt_nalloc : (splitNyt u sym).1.nalloc.toNat = u.nalloc.toNat + 2 := by
  have hmax := hs.nalloc_le_of_unseen hsym
  simp only [splitNyt, setLeaf_nalloc, setNode_nalloc, BitVec.toNat_add, BitVec.ofNat_eq_ofNat, BitVec.toNat_ofNat]
  omega

/-- The records allocated after a split: the old ones, the new NYT leaf and the new leaf. -/
theorem allocated_splitNyt :
    Allocated (splitNyt u sym).1 i ↔ Allocated u i ∨ i = newNyt u ∨ i = newNyt u + 1 := by
  obtain ⟨ha, ha1⟩ := newNyt_toNat hs hsym
  simp only [Allocated, splitNyt_nalloc hs hsym, ← BitVec.toNat_inj, ha, ha1]
  omega

theorem not_allocated_newNyt : ¬ Allocated u (newNyt u) ∧ ¬ Allocated u (newNyt u + 1) := by
  obtain ⟨ha, ha1⟩ := newNyt_toNat hs hsym
  simp only [Allocated, ha, ha1]
  omega

theorem newNyt_distinct :
    ahufLeaf u 257 ≠ newNyt u ∧ ahufLeaf u 257 ≠ newNyt u + 1 ∧ newNyt u ≠ newNyt u + 1 := by
  obtain ⟨hnew, hnew1⟩ := not_allocated_newNyt hs hsym
  obtain ⟨ha, ha1⟩ := newNyt_toNat hs hsym
  have hnyt := hs.nyt_allocated
  refine ⟨fun he => hnew (he ▸ hnyt), fun he => hnew1 (he ▸ hnyt), fun he => ?_⟩
  rw [← he, ha] at ha1
  omega

theorem newNyt_ne_noIndex : newNyt u ≠ noIndex ∧ newNyt u + 1 ≠ noIndex := by
  obtain ⟨ha, ha1⟩ := newNyt_toNat hs hsym
  have hmax := hs.nalloc_le_of_unseen hsym
  simp only [ne_eq, ← BitVec.toNat_inj, ha, ha1, noIndex, BitVec.toNat_ofNat]
  omega

omit hs hsym in
/-- The records of a split tree, from the last written to the first. -/
theorem ahufNode_splitNyt (u : Ahuf) (sym : Byte) (i : BitVec 10) :
    ahufNode (splitNyt u sym).1 i =
      if i = ahufLeaf u 257 then
        { ahufNode (splitLeaves u sym) (ahufLeaf u 257) with left := newNyt u, right := newNyt u + 1, sym := noSym }
      else ahufNode (splitLeaves u sym) i :=
  ahufNode_setNode (splitLeaves u sym) (ahufLeaf u 257) i _

omit hs hsym in
theorem ahufNode_splitLeaves (u : Ahuf) (sym : Byte) (i : BitVec 10) :
    ahufNode (splitLeaves u sym) i =
      if i = newNyt u + 1 then splitNode u 1 (sym.setWidth 9) else if i = newNyt u then splitNode u 2 257
      else ahufNode u i := by
  rw [splitLeaves, ahufNode_setNode, ahufNode_setNode]

/-- The old NYT leaf after a split. -/
theorem ahufNode_splitNyt_nyt :
    ahufNode (splitNyt u sym).1 (ahufLeaf u 257)
      = { ahufNode u (ahufLeaf u 257) with left := newNyt u, right := newNyt u + 1, sym := noSym } := by
  obtain ⟨hne, hne1, -⟩ := newNyt_distinct hs hsym
  rw [ahufNode_splitNyt, if_pos rfl, ahufNode_splitLeaves, if_neg hne1, if_neg hne]

theorem ahufNode_splitNyt_newNyt : ahufNode (splitNyt u sym).1 (newNyt u) = splitNode u 2 257 := by
  obtain ⟨hne, -, hnew⟩ := newNyt_distinct hs hsym
  rw [ahufNode_splitNyt, if_neg hne.symm, ahufNode_splitLeaves, if_neg hnew, if_pos rfl]

theorem ahufNode_splitNyt_newLeaf :
    ahufNode (splitNyt u sym).1 (newNyt u + 1) = splitNode u 1 (sym.setWidth 9) := by
  obtain ⟨-, hne1, -⟩ := newNyt_distinct hs hsym
  rw [ahufNode_splitNyt, if_neg hne1.symm, ahufNode_splitLeaves, if_pos rfl]

theorem ahufNode_splitNyt_old (hi : Allocated u i) (hne : i ≠ ahufLeaf u 257) :
    ahufNode (splitNyt u sym).1 i = ahufNode u i := by
  obtain ⟨hnew, hnew1⟩ := not_allocated_newNyt hs hsym
  have hi1 : i ≠ newNyt u + 1 := fun he => hnew1 (he ▸ hi)
  have hi2 : i ≠ newNyt u := fun he => hnew (he ▸ hi)
  rw [ahufNode_splitNyt, if_neg hne, ahufNode_splitLeaves, if_neg hi1, if_neg hi2]

/-- What a split leaves of every old record: its parent, its number and its weight. -/
theorem splitNyt_keeps (hi : Allocated u i) :
    (ahufNode (splitNyt u sym).1 i).parent = (ahufNode u i).parent
      ∧ (ahufNode (splitNyt u sym).1 i).order = (ahufNode u i).order
      ∧ (ahufNode (splitNyt u sym).1 i).weight = (ahufNode u i).weight := by
  by_cases hne : i = ahufLeaf u 257
  · rw [hne, ahufNode_splitNyt_nyt hs hsym]
    exact ⟨rfl, rfl, rfl⟩
  · rw [ahufNode_splitNyt_old hs hsym hi hne]
    exact ⟨rfl, rfl, rfl⟩

/-- The two new records stand just below the old NYT leaf, which stood lowest. -/
theorem splitNode_order :
    (splitNode u 2 257).order.toNat + 2 = orderOf u (ahufLeaf u 257)
      ∧ (splitNode u 1 (sym.setWidth 9)).order.toNat + 1 = orderOf u (ahufLeaf u 257)
      ∧ orderOf u (ahufLeaf u 257) + u.nalloc.toNat = 517 := by
  have hmax := hs.nalloc_le_of_unseen hsym
  have hnyt := hs.nyt.2
  have hlt := (ahufNode u (ahufLeaf u 257)).order.isLt
  simp only [splitNode, orderOf, BitVec.toNat_sub, BitVec.ofNat_eq_ofNat, BitVec.toNat_ofNat]
  omega

omit hs hsym in
/-- AHUF_LEAF after a split (R255). -/
theorem ahufLeaf_splitNyt (u : Ahuf) (sym : Byte) (n : Nat) :
    ahufLeaf (splitNyt u sym).1 n
      = if n = sym.toNat then newNyt u + 1 else if n = 257 then newNyt u else ahufLeaf u n := by
  change ahufLeaf (setLeaf (setLeaf _ nytSymbol (newNyt u)) sym.toNat (newNyt u + 1)) n = _
  rw [ahufLeaf_setLeaf, ahufLeaf_setLeaf]
  rfl

omit hs hsym in
theorem ahufLeaf_splitNyt_nyt (u : Ahuf) (sym : Byte) : ahufLeaf (splitNyt u sym).1 257 = newNyt u := by
  rw [ahufLeaf_splitNyt, if_neg (by omega), if_pos rfl]

theorem keys_splitNyt :
    (splitNyt u sym).1.arena.cells.map Prod.fst = List.range (splitNyt u sym).1.nalloc.toNat := by
  obtain ⟨ha, ha1⟩ := newNyt_toNat hs hsym
  have happend {v : Ahuf} {n : Nat} (hk : v.arena.cells.map Prod.fst = List.range n) {j : BitVec 10}
      (hj : j.toNat = n) (r : AhufNode) : (setNode v j r).arena.cells.map Prod.fst = List.range (n + 1) := by
    have hbelow : ∀ c ∈ v.arena.cells, c.1 < j.toNat := fun c hc =>
      hj ▸ List.mem_range.mp (hk ▸ List.mem_map.mpr ⟨c, hc, rfl⟩)
    have hput : (setNode v j r).arena.cells = v.arena.cells ++ [(j.toNat, r)] := putCell_eq_append hbelow r
    rw [hput, List.map_append, hk, List.range_succ, hj]
    rfl
  rw [splitNyt_nalloc hs hsym]
  exact keys_setNode (happend (happend hs.keys ha _) ha1 _) (Nat.lt_add_right 2 hs.nyt_allocated) _

theorem leafTable_splitNyt :
    (rising (splitNyt u sym).1.leaf = true ∧ ∀ c ∈ (splitNyt u sym).1.leaf, c.1 ≤ 257)
      ∧ (splitNyt u sym).1.leaf.length = u.leaf.length + 1 ∧ ∀ c ∈ (splitNyt u sym).1.leaf, c.2 ≠ noIndex := by
  obtain ⟨hrising, hkeys⟩ := hs.leafKeys
  have hleaf : (splitNyt u sym).1.leaf = putCell (putCell u.leaf 257 (newNyt u)) sym.toNat (newNyt u + 1) := rfl
  have hrising' := rising_putCell hrising 257 (newNyt u)
  have hlisted : 257 ∈ u.leaf.map Prod.fst := by
    cases hc : getCell u.leaf 257 with
    | some r => exact mem_keys_of_getCell hc
    | none => exact absurd (by rw [ahufLeaf, hc]; rfl) hs.nyt.1
  have hnone : getCell (putCell u.leaf 257 (newNyt u)) sym.toNat = none := by
    rw [getCell_putCell, if_neg (by omega), hs.getCell_leaf_eq_none hsym]
  have hlength : (putCell u.leaf 257 (newNyt u)).length = u.leaf.length := by
    simpa only [List.length_map] using congrArg List.length (keys_putCell_of_mem hrising hlisted (newNyt u))
  rw [hleaf]
  refine ⟨⟨rising_putCell hrising' _ _, fun c hc => ?_⟩, ?_, fun c hc => ?_⟩
  · rcases mem_putCell hc with rfl | hc
    · exact Nat.le_of_lt_succ (by omega)
    · rcases mem_putCell hc with rfl | hc
      · exact le_rfl
      · exact hkeys c hc
  · rw [length_putCell_of_none hnone hrising', hlength]
  · obtain ⟨hne, hne1⟩ := newNyt_ne_noIndex hs hsym
    rcases mem_putCell hc with rfl | hc
    · exact hne1
    · rcases mem_putCell hc with rfl | hc
      · exact hne
      · exact hs.full.2 c hc

theorem splitNyt_parent (hi : Allocated u i) :
    (ahufNode (splitNyt u sym).1 i).parent = (ahufNode u i).parent := (splitNyt_keeps hs hsym hi).1

theorem splitNyt_order (hi : Allocated u i) :
    (ahufNode (splitNyt u sym).1 i).order = (ahufNode u i).order := by
  obtain ⟨-, horder, -⟩ := splitNyt_keeps hs hsym hi
  exact horder

theorem splitNyt_child (i : BitVec 10) (hi : Allocated (splitNyt u sym).1 i) (h0 : i ≠ 0) :
    Allocated (splitNyt u sym).1 (ahufNode (splitNyt u sym).1 i).parent
      ∧ ((ahufNode (splitNyt u sym).1 (ahufNode (splitNyt u sym).1 i).parent).left = i
        ∨ (ahufNode (splitNyt u sym).1 (ahufNode (splitNyt u sym).1 i).parent).right = i) := by
  have hcases {i : BitVec 10} := allocated_splitNyt hs hsym (i := i)
  have hnodeNyt := ahufNode_splitNyt_nyt hs hsym
  have hnodeNew := ahufNode_splitNyt_newNyt hs hsym
  have hnodeLeaf := ahufNode_splitNyt_newLeaf hs hsym
  have hnytAll := hs.nyt_allocated
  rcases hcases.mp hi with hi | rfl | rfl
  · obtain ⟨hp, hl, -⟩ := hs.exists_sibling hi h0
    rw [splitNyt_parent hs hsym hi, ahufNode_splitNyt_old hs hsym hp fun he => hl (he ▸ hs.nyt_leaf)]
    exact ⟨hcases.mpr (.inl hp), (hs.child i hi h0).2⟩
  · rw [hnodeNew]
    exact ⟨hcases.mpr (.inl hnytAll), .inl (by rw [splitNode, hnodeNyt])⟩
  · rw [hnodeLeaf]
    exact ⟨hcases.mpr (.inl hnytAll), .inr (by rw [splitNode, hnodeNyt])⟩

theorem splitNyt_internal (p : BitVec 10) (hp : Allocated (splitNyt u sym).1 p)
    (hl : (ahufNode (splitNyt u sym).1 p).left ≠ noIndex) :
    Allocated (splitNyt u sym).1 (ahufNode (splitNyt u sym).1 p).left
      ∧ Allocated (splitNyt u sym).1 (ahufNode (splitNyt u sym).1 p).right
      ∧ (ahufNode (splitNyt u sym).1 (ahufNode (splitNyt u sym).1 p).left).parent = p
      ∧ (ahufNode (splitNyt u sym).1 (ahufNode (splitNyt u sym).1 p).right).parent = p
      ∧ (ahufNode (splitNyt u sym).1 p).sym = noSym
      ∧ (ahufNode (splitNyt u sym).1 (ahufNode (splitNyt u sym).1 p).left).order.toNat + 1
          = (ahufNode (splitNyt u sym).1 (ahufNode (splitNyt u sym).1 p).right).order.toNat
      ∧ (ahufNode (splitNyt u sym).1 (ahufNode (splitNyt u sym).1 p).right).order.toNat
          < (ahufNode (splitNyt u sym).1 p).order.toNat := by
  have hcases {i : BitVec 10} := allocated_splitNyt hs hsym (i := i)
  have hnodeNyt := ahufNode_splitNyt_nyt hs hsym
  have hnodeNew := ahufNode_splitNyt_newNyt hs hsym
  have hnodeLeaf := ahufNode_splitNyt_newLeaf hs hsym
  have hparent {i : BitVec 10} := splitNyt_parent hs hsym (i := i)
  have horder {i : BitVec 10} := splitNyt_order hs hsym (i := i)
  obtain ⟨horderNew, horderLeaf, -⟩ := splitNode_order hs hsym
  rcases hcases.mp hp with hp | rfl | rfl
  · by_cases hpn : p = ahufLeaf u 257
    · subst hpn
      simp only [hnodeNyt, hnodeNew, hnodeLeaf]
      simp only [orderOf] at horderNew horderLeaf
      exact ⟨hcases.mpr (.inr (.inl rfl)), hcases.mpr (.inr (.inr rfl)), rfl, rfl, trivial, by omega, by omega⟩
    · rw [ahufNode_splitNyt_old hs hsym hp hpn] at hl ⊢
      obtain ⟨hla, hra, hlp, hrp, hrest⟩ := hs.internal p hp hl
      rw [hparent hla, hparent hra, horder hla, horder hra]
      exact ⟨hcases.mpr (.inl hla), hcases.mpr (.inl hra), hlp, hrp, hrest⟩
  · rw [hnodeNew] at hl
    exact absurd rfl hl
  · rw [hnodeLeaf] at hl
    exact absurd rfl hl

theorem splitNyt_leaf (i : BitVec 10) (hi : Allocated (splitNyt u sym).1 i)
    (hl : (ahufNode (splitNyt u sym).1 i).left = noIndex) :
    (ahufNode (splitNyt u sym).1 i).right = noIndex ∧ (ahufNode (splitNyt u sym).1 i).sym.toNat ≤ 257
      ∧ ahufLeaf (splitNyt u sym).1 (ahufNode (splitNyt u sym).1 i).sym.toNat = i := by
  have hcases {i : BitVec 10} := allocated_splitNyt hs hsym (i := i)
  have hnodeNew := ahufNode_splitNyt_newNyt hs hsym
  have hnodeLeaf := ahufNode_splitNyt_newLeaf hs hsym
  rcases hcases.mp hi with hi | rfl | rfl
  · by_cases hin : i = ahufLeaf u 257
    · subst hin
      rw [ahufNode_splitNyt_nyt hs hsym] at hl
      exact absurd hl (newNyt_ne_noIndex hs hsym).1
    · rw [ahufNode_splitNyt_old hs hsym hi hin] at hl ⊢
      obtain ⟨hr, hle, hleaf⟩ := hs.leaf i hi hl
      refine ⟨hr, hle, ?_⟩
      rw [ahufLeaf_splitNyt, if_neg fun he => ?_, if_neg fun he => ?_]
      · exact hleaf
      · exact hin (by rw [← hleaf, he])
      · exact hi.ne_noIndex hs (by rw [← hleaf, he, hsym])
  · rw [hnodeNew]
    exact ⟨rfl, le_rfl, ahufLeaf_splitNyt_nyt u sym⟩
  · have hsymNat : (splitNode u 1 (sym.setWidth 9)).sym.toNat = sym.toNat := by
      simp only [splitNode, BitVec.toNat_setWidth]
      omega
    rw [hnodeLeaf, hsymNat, ahufLeaf_splitNyt, if_pos rfl]
    exact ⟨rfl, by omega, rfl⟩

theorem splitNyt_inverse (n : Nat) (hn : n < 258) (hsome : ahufLeaf (splitNyt u sym).1 n ≠ noIndex) :
    Allocated (splitNyt u sym).1 (ahufLeaf (splitNyt u sym).1 n)
      ∧ (ahufNode (splitNyt u sym).1 (ahufLeaf (splitNyt u sym).1 n)).left = noIndex
      ∧ (ahufNode (splitNyt u sym).1 (ahufLeaf (splitNyt u sym).1 n)).sym.toNat = n := by
  have hcases {i : BitVec 10} := allocated_splitNyt hs hsym (i := i)
  rw [ahufLeaf_splitNyt] at hsome ⊢
  split_ifs at hsome ⊢ with h1 h2
  · rw [ahufNode_splitNyt_newLeaf hs hsym]
    refine ⟨hcases.mpr (.inr (.inr rfl)), rfl, ?_⟩
    simp only [splitNode, BitVec.toNat_setWidth]
    omega
  · rw [ahufNode_splitNyt_newNyt hs hsym]
    exact ⟨hcases.mpr (.inr (.inl rfl)), rfl, h2.symm⟩
  · obtain ⟨ha, hl, hs'⟩ := hs.inverse n hn hsome
    rw [ahufNode_splitNyt_old hs hsym ha (hs.leaf_ne_nyt hn h2 hsome)]
    exact ⟨hcases.mpr (.inl ha), hl, hs'⟩

theorem splitNyt_orders (i : BitVec 10) (hi : Allocated (splitNyt u sym).1 i) :
    (ahufNode (splitNyt u sym).1 i).order.toNat ≤ 516
      ∧ 516 < (ahufNode (splitNyt u sym).1 i).order.toNat + (splitNyt u sym).1.nalloc.toNat
      ∧ ∀ j, Allocated (splitNyt u sym).1 j →
        (ahufNode (splitNyt u sym).1 i).order = (ahufNode (splitNyt u sym).1 j).order → i = j := by
  have hcases {i : BitVec 10} := allocated_splitNyt hs hsym (i := i)
  have hnodeNew := ahufNode_splitNyt_newNyt hs hsym
  have hnodeLeaf := ahufNode_splitNyt_newLeaf hs hsym
  have horder {i : BitVec 10} := splitNyt_order hs hsym (i := i)
  have hnalloc := splitNyt_nalloc hs hsym
  obtain ⟨horderNew, horderLeaf, horderNyt⟩ := splitNode_order hs hsym
  have hlow {j : BitVec 10} (hj : Allocated u j) := hs.nyt_order_le hj
  rcases hcases.mp hi with hi | rfl | rfl
  · obtain ⟨hle, hge, hinj⟩ := hs.orders i hi
    have hi' := hlow hi
    rw [horder hi, hnalloc]
    refine ⟨hle, by omega, fun j hj ho => ?_⟩
    rcases hcases.mp hj with hj | rfl | rfl
    · exact hinj j hj (by rw [ho, horder hj])
    · rw [hnodeNew] at ho
      simp only [orderOf, ho] at hi' horderNew
      omega
    · rw [hnodeLeaf] at ho
      simp only [orderOf, ho] at hi' horderLeaf
      omega
  · rw [hnodeNew, hnalloc]
    refine ⟨by omega, by omega, fun j hj ho => ?_⟩
    rcases hcases.mp hj with hj | rfl | rfl
    · have hj' := hlow hj
      rw [horder hj] at ho
      simp only [orderOf, ← ho] at hj' horderNew
      omega
    · rfl
    · rw [hnodeLeaf] at ho
      rw [ho] at horderNew
      omega
  · rw [hnodeLeaf, hnalloc]
    refine ⟨by omega, by omega, fun j hj ho => ?_⟩
    rcases hcases.mp hj with hj | rfl | rfl
    · have hj' := hlow hj
      rw [horder hj] at ho
      simp only [orderOf, ← ho] at hj' horderLeaf
      omega
    · rw [hnodeNew] at ho
      rw [ho] at horderLeaf
      omega
    · rfl

/-- A split keeps the shape of the tree (R255). -/
theorem splitNyt_shape : TreeShape (splitNyt u sym).1 := by
  have hmax := hs.nalloc_le_of_unseen hsym
  have hnalloc := splitNyt_nalloc hs hsym
  have hnodeNew := ahufNode_splitNyt_newNyt hs hsym
  obtain ⟨hleafKeys, hleafLength, hleafNone⟩ := leafTable_splitNyt hs hsym
  obtain ⟨horderNew, -, horderNyt⟩ := splitNode_order hs hsym
  constructor
  case count =>
    have := hs.count
    omega
  case keys => exact keys_splitNyt hs hsym
  case leafKeys => exact hleafKeys
  case full =>
    have := hs.full.1
    exact ⟨by omega, hleafNone⟩
  case root => rw [ahufNode_splitNyt_old hs hsym hs.root_allocated hs.nyt_ne_root.symm]; exact hs.root
  case child => exact splitNyt_child hs hsym
  case internal => exact splitNyt_internal hs hsym
  case leaf => exact splitNyt_leaf hs hsym
  case inverse => exact splitNyt_inverse hs hsym
  case orders => exact splitNyt_orders hs hsym
  case nyt =>
    rw [ahufLeaf_splitNyt_nyt, hnodeNew, hnalloc]
    exact ⟨(newNyt_ne_noIndex hs hsym).1, by omega⟩
  case eof =>
    rw [ahufLeaf_splitNyt, if_neg (by omega), if_neg (by decide)]
    exact hs.eof
  case nytParent =>
    rw [ahufLeaf_splitNyt_nyt, hnodeNew, show (splitNode u 2 257).parent = ahufLeaf u 257 from rfl,
      splitNyt_order hs hsym hs.nyt_allocated]
    exact horderNew.symm

/-- Right after a split the new leaf is the next record to be incremented. -/
theorem splitNyt_weights (hw : WeightsPending u noIndex) : WeightsPending (splitNyt u sym).1 (newNyt u + 1) := by
  have hcases {i : BitVec 10} := allocated_splitNyt hs hsym (i := i)
  have hnodeNyt := ahufNode_splitNyt_nyt hs hsym
  have hnodeNew := ahufNode_splitNyt_newNyt hs hsym
  have hnodeLeaf := ahufNode_splitNyt_newLeaf hs hsym
  obtain ⟨-, -, hdistinct⟩ := newNyt_distinct hs hsym
  obtain ⟨hnew, hnew1⟩ := not_allocated_newNyt hs hsym
  obtain ⟨horderNew, horderLeaf, -⟩ := splitNode_order hs hsym
  have hold {i : BitVec 10} (hi : Allocated u i) :
      orderOf (splitNyt u sym).1 i = orderOf u i ∧ weightOf (splitNyt u sym).1 i = weightOf u i := by
    obtain ⟨-, horder, hweight⟩ := splitNyt_keeps hs hsym hi
    exact ⟨congrArg BitVec.toNat horder, congrArg BitVec.toNat hweight⟩
  have hzero : weightOf (splitNyt u sym).1 (newNyt u) = 0 ∧ weightOf (splitNyt u sym).1 (newNyt u + 1) = 0 := by
    rw [weightOf, weightOf, hnodeNew, hnodeLeaf]
    exact ⟨rfl, rfl⟩
  have hlow {i : BitVec 10} (hi : Allocated u i) :
      orderOf (splitNyt u sym).1 (newNyt u) < orderOf u i
        ∧ orderOf (splitNyt u sym).1 (newNyt u + 1) < orderOf u i := by
    have := hs.nyt_order_le hi
    have hlowest : (ahufNode (splitNyt u sym).1 (newNyt u)).order.toNat < orderOf u i
        ∧ (ahufNode (splitNyt u sym).1 (newNyt u + 1)).order.toNat < orderOf u i := by
      rw [hnodeNew, hnodeLeaf]
      omega
    exact hlowest
  constructor
  case place =>
    rw [ahufLeaf_splitNyt_nyt]
    exact fun _ => ⟨hcases.mpr (.inr (.inr rfl)), hdistinct.symm⟩
  case sum =>
    intro p hp hl
    rcases hcases.mp hp with hp | rfl | rfl
    · have hpx : p ≠ newNyt u + 1 := fun he => hnew1 (he ▸ hp)
      rw [if_neg hpx, (hold hp).2]
      by_cases hpn : p = ahufLeaf u 257
      · subst hpn
        rw [hnodeNyt, hzero.1, hzero.2, hw.nyt]
      · rw [ahufNode_splitNyt_old hs hsym hp hpn] at hl ⊢
        obtain ⟨hla, hra, -⟩ := hs.internal p hp hl
        have hsum := hw.sum p hp hl
        rwa [if_neg (hp.ne_noIndex hs), ← (hold hla).2, ← (hold hra).2] at hsum
    · rw [hnodeNew] at hl
      exact absurd rfl hl
    · rw [hnodeLeaf] at hl
      exact absurd rfl hl
  case sibling =>
    intro i j hi hj ho
    left
    rcases hcases.mp hi with hi | rfl | rfl
    · rcases hcases.mp hj with hj | rfl | rfl
      · rw [(hold hi).1, (hold hj).1] at ho
        rw [(hold hi).2, (hold hj).2]
        exact hw.weight_le hi hj ho (.inl (hj.ne_noIndex hs))
      · rw [(hold hi).1] at ho
        exact absurd ho (hlow hi).1.asymm
      · rw [(hold hi).1] at ho
        exact absurd ho (hlow hi).2.asymm
    · rw [hzero.1]
      exact Nat.zero_le _
    · rw [hzero.2]
      exact Nat.zero_le _
  case nyt =>
    rw [ahufLeaf_splitNyt_nyt]
    exact hzero.1
  case positive =>
    intro i hi hi0
    rw [ahufLeaf_splitNyt_nyt]
    rcases hcases.mp hi with hi | rfl | rfl
    · rw [(hold hi).2] at hi0
      have hnyt : i = ahufLeaf u 257 := by
        rcases hw.positive i hi hi0 with h | h | ⟨h, -⟩
        · exact h
        · exact absurd h (hi.ne_noIndex hs)
        · exact absurd rfl h
      rw [hnodeLeaf]
      exact .inr (.inr ⟨(newNyt_ne_noIndex hs hsym).2, hnyt, hzero.2⟩)
    · exact .inl rfl
    · exact .inr (.inl rfl)

/-- The root is an old record, so a split keeps its weight. -/
theorem weightOf_splitNyt_root : weightOf (splitNyt u sym).1 0 = weightOf u 0 := by
  obtain ⟨-, -, hweight⟩ := splitNyt_keeps hs hsym hs.root_allocated
  exact congrArg BitVec.toNat hweight

end Split

/-! ## The update -/

/-- Between updates, the leaf of a symbol that is in the tree can be the next record to be incremented. -/
theorem WeightsPending.at_leaf (hs : TreeShape u) (hw : WeightsPending u noIndex)
    (hsym : ahufLeaf u sym.toNat ≠ noIndex) : WeightsPending u (ahufLeaf u sym.toNat) := by
  obtain ⟨ha, hleft, -⟩ := hs.inverse sym.toNat (by omega) hsym
  constructor
  case place =>
    exact fun _ => ⟨ha, hs.leaf_ne_nyt (by omega) (by omega) hsym⟩
  case sum =>
    intro p hp hl
    have hsum := hw.sum p hp hl
    have hne : p ≠ ahufLeaf u sym.toNat := fun he => hl (he ▸ hleft)
    rw [if_neg (hp.ne_noIndex hs)] at hsum
    rw [if_neg hne]
    exact hsum
  case sibling => exact fun i j hi hj ho => .inl (hw.weight_le hi hj ho (.inl (hj.ne_noIndex hs)))
  case nyt => exact hw.nyt
  case positive =>
    intro i hi hi0
    rcases hw.positive i hi hi0 with h | h | ⟨h, -⟩
    · exact .inl h
    · exact absurd h (hi.ne_noIndex hs)
    · exact absurd rfl h

/-- The bound of the loop suffices from every record: there are at most 515 ORDER values (R40 (e)). -/
theorem TreeShape.treeFuel_suffices (h : TreeShape u) (hi : Allocated u i) : 517 ≤ orderOf u i + treeFuel := by
  obtain ⟨-, hge, -⟩ := h.orders i hi
  obtain ⟨-, -, hmax⟩ := h.count
  simp only [orderOf, treeFuel]
  omega

/-- R259: one update keeps the invariants while the root's weight has room, and the root's weight grows by one. -/
theorem ahufUpdateTree_keeps (h : AhufInv u) (hroom : weightOf u 0 + 1 < 4294967296) (sym : Byte) :
    AhufInv (ahufUpdateTree u sym) ∧ weightOf (ahufUpdateTree u sym) 0 = weightOf u 0 + 1 := by
  have hs := shape_of_ahufInv h
  have hw := weights_of_ahufInv h
  unfold ahufUpdateTree
  split_ifs with hsym
  · have hs' := splitNyt_shape hs hsym
    have hw' := splitNyt_weights hs hsym hw
    have hroot := weightOf_splitNyt_root hs hsym
    have hne := (newNyt_ne_noIndex hs hsym).2
    obtain ⟨hs'', hw'', hdone⟩ := hw'.updateFrom hs' hne (hroot ▸ hroom)
      (hs'.treeFuel_suffices (hw'.place hne).1)
    exact ⟨ahufInv_of_shape_weights hs'' hw'', hdone.trans (congrArg (· + 1) hroot)⟩
  · have hw' := hw.at_leaf hs hsym
    obtain ⟨hs'', hw'', hdone⟩ := hw'.updateFrom hs hsym hroom (hs.treeFuel_suffices (hw'.place hsym).1)
    exact ⟨ahufInv_of_shape_weights hs'' hw'', hdone⟩

end Sys2Proof.Machine
end

section
/-! The adaptive tree in the commands that change it, and the invariants of every step on it (R251, R257, R258, R270,
R275). -/

namespace Sys2Proof.Machine

open Sys2Proof.Safety

/-! ## The initial tree -/

/-- The initial tree of R251 with any numbers of free draws. -/
def initialTree (draw weightDraw : Nat) : Ahuf :=
  { nalloc := 3, arena := { cells := initialArena, draw := draw }, leaf := initialLeaf, weightDraw := weightDraw }

theorem initTree_eq (u : Ahuf) : initTree u = initialTree (u.arena.draw + 1) u.weightDraw := rfl

/-- AHUF_LEAF of the initial tree lists EOF and NYT. -/
theorem ahufLeaf_initialTree {d e sym : Nat} (h : ahufLeaf (initialTree d e) sym ≠ noIndex) :
    sym = 256 ∨ sym = 257 := by
  by_contra hne
  refine h ?_
  have hnone : getCell initialLeaf sym = none := getCell_eq_none fun c hc => by
    simp only [initialLeaf, List.mem_cons, List.not_mem_nil, or_false] at hc
    rcases hc with rfl | rfl <;> simp only <;> omega
  rw [ahufLeaf, initialTree, hnone]
  rfl

/-- Each field speaks of three records, so evaluation settles it; no unallocated record is read. -/
theorem initialTree_inv (d e : Nat) : AhufInv (initialTree d e) where
  count := by simp [initialTree]
  allocated := rfl
  leafKeys := of_decide_eq_true rfl
  full := of_decide_eq_true rfl
  root := ⟨rfl, rfl⟩
  child := of_decide_eq_true rfl
  internal := of_decide_eq_true rfl
  leaf := of_decide_eq_true rfl
  inverse sym _ hsome := by
    rcases ahufLeaf_initialTree hsome with rfl | rfl
    · exact of_decide_eq_true rfl
    · exact of_decide_eq_true rfl
  orders := of_decide_eq_true rfl
  sibling := of_decide_eq_true rfl
  nyt := of_decide_eq_true rfl
  eof := of_decide_eq_true rfl
  positive := of_decide_eq_true rfl
  nytParent := rfl

theorem initTree_inv (u : Ahuf) : AhufInv (initTree u) :=
  initTree_eq u ▸ initialTree_inv _ _

theorem weightOf_initTree_root (u : Ahuf) : weightOf (initTree u) 0 = 1 := rfl

/-! ## Bodies that update the tree -/

variable {α : Type} {w : Work}

/-- A sequence leaves the tree with its invariants if its first part does when it raises, and the second part does
after the first. -/
theorem inv_bind {x : Cmd α} {f : α → Cmd Unit} (herror : ∀ e v, x w = .error e v → AhufInv v.mach.ahuf)
    (hok : ∀ a v, x w = .ok a v → AhufInv (endWork (f a v)).mach.ahuf) :
    AhufInv (endWork ((x >>= f) w)).mach.ahuf := by
  rw [Cmd.bind_run]
  cases h : x w with
  | ok a v => exact hok a v h
  | error e v => exact herror e v h

/-- As `inv_bind`, when the first part leaves the machine alone. -/
theorem inv_bind_of_mach {x : Cmd α} {f : α → Cmd Unit} (hm : (endWork (x w)).mach = w.mach)
    (hinv : AhufInv w.mach.ahuf)
    (hok : ∀ a v, v.mach = w.mach → x w = .ok a v → AhufInv (endWork (f a v)).mach.ahuf) :
    AhufInv (endWork ((x >>= f) w)).mach.ahuf := by
  refine inv_bind (fun e v h => ?_) fun a v h => ?_ <;> rw [h] at hm
  · exact (congrArg State.ahuf hm).symm ▸ hinv
  · exact hok a v hm h

/-! ### AHUF_ENC -/

/-- EncodeByte updates the tree once, unless it raises before. -/
theorem encodeByte_mach (b : Byte) (w : Work) :
    match encodeByte b w with
    | .ok _ v => v.mach = onAhuf (fun u => ahufUpdateTree u b) w.mach
    | .error _ v => v.mach = w.mach := by
  have hm := putBitList_mach (encodeByteBits w.mach.ahuf b) w
  rw [encodeByte, Cmd.get_bind, Cmd.bind_run]
  cases h : putBitList (encodeByteBits w.mach.ahuf b) w with
  | ok a v =>
    rw [h] at hm
    simp only [onMachine_run]
    rw [show v.mach = w.mach from hm]
  | error e v =>
    rw [h] at hm
    exact hm

/-- The loop of AHUF_ENC, while the root's weight has room for the whole block. -/
theorem ahufEncBytes_inv (x : List Byte) {w : Work} (hinv : AhufInv w.mach.ahuf)
    (hroom : weightOf w.mach.ahuf 0 + x.length < 4294967296) : AhufInv (endWork (ahufEncBytes x w)).mach.ahuf := by
  induction x generalizing w with
  | nil => exact hinv
  | cons b x ih =>
    rw [List.length_cons] at hroom
    rw [ahufEncBytes, Cmd.bind_ok (onMachine_run _ _)]
    have hbyte := encodeByte_mach b { w with mach := feedCrc b w.mach }
    refine inv_bind (fun e v h => ?_) fun a v h => ?_ <;> rw [h] at hbyte
    · rw [show v.mach = feedCrc b w.mach from hbyte]
      exact hinv
    · obtain ⟨hinv', hroot⟩ := ahufUpdateTree_keeps hinv (by omega) b
      have hahuf : v.mach.ahuf = ahufUpdateTree w.mach.ahuf b := congrArg State.ahuf hbyte
      refine ih (hahuf ▸ hinv') ?_
      rw [hahuf, hroot]
      omega

/-- AHUF_ENC leaves the tree with its invariants, whether it ends well or not (R270). -/
theorem ahufEncStage_inv {x : List Byte} (hx : x.length ≤ 268435456) (w : Work) :
    AhufInv (endWork (ahufEncStage x w)).mach.ahuf := by
  have hstart : AhufInv (startAhuf w.mach).ahuf := initTree_inv _
  rw [ahufEncStage, Cmd.bind_ok (onMachine_run _ _)]
  refine inv_bind_of_mach (emitAll_mach _ _) hstart fun _ v1 hv1 _ => ?_
  refine inv_bind_of_mach (emitAll_mach _ _) (hv1 ▸ hstart) fun _ v2 hv2 _ => ?_
  have hmach : v2.mach = startAhuf w.mach := hv2.trans hv1
  have hbytes : AhufInv (endWork (ahufEncBytes x v2)).mach.ahuf := by
    refine ahufEncBytes_inv x (hmach ▸ hstart) ?_
    rw [hmach]
    have := weightOf_initTree_root w.mach.ahuf
    simp only [startAhuf, startCrc_ahuf, onAhuf_ahuf]
    omega
  refine inv_bind (fun e v h => by rwa [h] at hbytes) fun _ v3 h3 => ?_
  rw [h3] at hbytes
  have hend : (endWork (encodeEnd v3)).mach = v3.mach := by
    rw [encodeEnd, Cmd.get_bind]
    exact mach_bind (putBitList_mach _ _) fun _ v => flushBits_mach v
  exact inv_bind_of_mach hend hbytes fun _ v4 hv4 _ => (congrArg State.ahuf hv4).symm ▸ hbytes

/-! ### AHUF_DEC -/

/-- The tree has its invariants, and the root's weight is at most one more than the bytes decoded so far, which fit
OBUF. -/
structure TreeDecoded (w : Work) : Prop where
  inv : AhufInv w.mach.ahuf
  weight : weightOf w.mach.ahuf 0 ≤ w.olen + 1
  fits : w.OutFits
  params : w.mach.params.wf = true

/-- A part of the body keeps it, well ended or not. -/
def KeepsDecoded (x : Cmd α) : Prop := ∀ w, TreeDecoded w → TreeDecoded (endWork (x w))

theorem KeepsDecoded.bind {β : Type} {x : Cmd α} {f : α → Cmd β} (hx : KeepsDecoded x)
    (hf : ∀ a, KeepsDecoded (f a)) : KeepsDecoded (x >>= f) := by
  intro w hw
  have hend := hx w hw
  rw [Cmd.bind_run]
  cases h : x w with
  | ok a v => rw [h] at hend; exact hf a v hend
  | error e v => rw [h] at hend; exact hend

/-- Reading bits leaves the machine alone. -/
theorem KeepsDecoded.of_mach {x : Cmd α} (hm : ∀ w, (endWork (x w)).mach = w.mach)
    (hd : ∀ w, Does .ahufDec x w) : KeepsDecoded x := by
  rintro w ⟨hinv, hweight, hfits, hwf⟩
  have hp := (hd w).progress
  have hm := hm w
  exact ⟨hm ▸ hinv, hm ▸ hweight.trans (Nat.succ_le_succ hp.grows), hp.fits hfits, hm ▸ hwf⟩

theorem decodeSymbol_mach (w : Work) : (endWork (decodeSymbol w)).mach = w.mach := by
  suffices h : ∀ fuel r w, (endWork (decodeSymbolFrom fuel r w)).mach = w.mach from h _ _ w
  intro fuel
  induction fuel with
  | zero => exact fun r w => rfl
  | succ fuel ih =>
    intro r w
    rw [decodeSymbolFrom, Cmd.get_bind]
    split_ifs
    · rfl
    · exact mach_bind (getBit_mach _ w) fun _ v => ih _ v

theorem rawByte_mach (w : Work) : (endWork (rawByte w)).mach = w.mach := by
  refine mach_bind (getBits_mach _ _ w) fun v u => ?_
  rw [Cmd.get_bind]
  split_ifs <;> rfl

/-- A decoded byte is emitted before the tree is updated, so the bytes bound the weight. -/
theorem acceptByte_keepsDecoded (b : Byte) : KeepsDecoded (acceptByte b) := by
  intro w hw
  have hfits := (acceptByte_does (w := w) b).progress.fits hw.fits
  by_cases hfull : w.olen = w.mach.params.bufCap
  · have hrun : acceptByte b w = .error outputTooLong w := Cmd.bind_error (by rw [emit_run, if_pos hfull]) _
    rwa [hrun]
  · have hrun : acceptByte b w = .ok () { w with
        mach := onAhuf (fun u => ahufUpdateTree u b) (feedCrc b w.mach), out := b :: w.out, olen := w.olen + 1 } :=
      Cmd.bind_ok ((emit_run b w).trans (if_neg hfull)) _
    have hcap := bufCap_le hw.params
    have hweight := hw.weight
    have holen := hw.fits.2
    obtain ⟨hinv, hroot⟩ := ahufUpdateTree_keeps hw.inv (by omega) b
    rw [hrun] at hfits ⊢
    refine ⟨hinv, ?_, hfits, hw.params⟩
    simp only [endWork, onAhuf_ahuf, feedCrc_ahuf, hroot]
    omega

theorem ahufDecLoop_keepsDecoded (fuel : Nat) : KeepsDecoded (ahufDecLoop fuel) := by
  induction fuel with
  | zero => exact fun w hw => hw
  | succ fuel ih =>
    refine .bind (.of_mach decodeSymbol_mach fun _ => decodeSymbol_does) fun sym => ?_
    split_ifs
    · exact fun w hw => hw
    · exact .bind (.of_mach rawByte_mach fun _ => rawByte_does) fun b => .bind (acceptByte_keepsDecoded b) fun _ => ih
    · exact .bind (fun w hw => hw) fun b => .bind (acceptByte_keepsDecoded b) fun _ => ih

theorem ahufDecFinish_ahuf (stored : Word) (w : Work) :
    (endWork (ahufDecFinish stored w)).mach.ahuf = w.mach.ahuf := by
  rw [ahufDecFinish, Cmd.bind_ok (onMachine_run _ _), Cmd.get_bind]
  split_ifs <;> rfl

/-- AHUF_DEC leaves the tree with its invariants, whether it ends well or not (R275). -/
theorem ahufDecStage_inv (x : List Byte) {w : Work} (hinv : AhufInv w.mach.ahuf) (hfits : w.OutFits)
    (hwf : w.mach.params.wf = true) : AhufInv (endWork (ahufDecStage x w)).mach.ahuf := by
  unfold ahufDecStage
  split_ifs
  · exact hinv
  · exact hinv
  · exact hinv
  · rw [Cmd.bind_ok (onMachine_run _ _), Cmd.bind_ok (openBits_run _ _ _)]
    have hloop := ahufDecLoop_keepsDecoded (8 * x.length + 1) { w with
      mach := startAhuf w.mach, rpos := 16, rest := x.drop 16, racc := 0, rcnt := 0 }
      ⟨initTree_inv _, Nat.le_add_left 1 _, hfits, hwf⟩
    refine inv_bind (fun e v h => ?_) fun a v h => ?_ <;> rw [h] at hloop
    · exact hloop.inv
    · rw [ahufDecFinish_ahuf]
      exact hloop.inv

/-! ## The commands -/

theorem Changes.ahuf_eq {i : Instr} {s t : State} (h : Changes i s t)
    (hi : i ∉ [Instr.ahufInit, .ahufUpdate, .ahufEnc, .ahufDec]) : t.ahuf = s.ahuf := by
  induction h with
  | refl => rfl
  | tail _ hc ih => exact (hc.ahuf_eq hi).trans ih

/-- The invariants of the tree, with parameters that R7 allows. -/
def TreeSound (s : State) : Prop := s.params.wf = true ∧ AhufInv s.ahuf

/-- Every stage keeps them. -/
theorem runStage_keeps_tree (i : Instr) (k : Nat) {s : State} (x : List Byte) (hs : TreeSound s) :
    TreeSound (endWork (runStage (stageBody i) k s x)).mach := by
  obtain ⟨hwf, hinv⟩ := hs
  rcases Nat.lt_or_ge s.params.bufCap x.length with hlong | hfits
  · rw [runStage_tooLong _ k hlong]
    exact ⟨hwf, hinv⟩
  · rw [runStage_fits _ k hfits]
    have hdoes := stageBody_does i x (Work.start k s)
    have hparams : (endWork (stageBody i x (Work.start k s))).mach.params = s.params := by
      cases h : stageBody i x (Work.start k s) with
      | ok a v =>
        obtain ⟨m, hm, hr, -⟩ := hdoes.ok h
        exact hr.params_eq.trans hm.changes.params_eq
      | error e v => exact (hdoes.error h).1.changes.params_eq
    refine ⟨by rwa [hparams], ?_⟩
    by_cases henc : i = .ahufEnc
    · subst henc
      exact ahufEncStage_inv (hfits.trans (bufCap_le hwf)) _
    by_cases hdec : i = .ahufDec
    · subst hdec
      exact ahufDecStage_inv x hinv (Work.start_outFits k s) hwf
    by_cases hunit : i = .ahufInit ∨ i = .ahufUpdate
    · rcases hunit with rfl | rfl <;> exact hinv
    · have hi : i ∉ [Instr.ahufInit, .ahufUpdate, .ahufEnc, .ahufDec] := by simp_all
      cases h : stageBody i x (Work.start k s) with
      | ok a v =>
        obtain ⟨m, hm, hr, -⟩ := hdoes.ok h
        exact (hr.ahuf_eq.trans (hm.changes.ahuf_eq hi)).symm ▸ hinv
      | error e v => exact ((hdoes.error h).1.changes.ahuf_eq hi).symm ▸ hinv

theorem runStages_keeps_tree (stages : List Instr) (k : Nat) {s : State} (x : List Byte) (hs : TreeSound s) :
    match runStages (stages.map stageBody) k s x with
    | .finished t _ => AhufInv t.ahuf
    | .failed _ _ t => AhufInv t.ahuf := by
  induction stages generalizing k s x with
  | nil => exact hs.2
  | cons i stages ih =>
    have hstage := runStage_keeps_tree i k x hs
    rw [List.map_cons]
    cases h : runStage (stageBody i) k s x with
    | ok a w =>
      rw [h] at hstage
      rw [runStages_ok h]
      exact ih (k + 1) w.out.reverse hstage
    | error e w =>
      rw [h] at hstage
      rw [runStages_error h]
      exact hstage.2

theorem runPipeline_keeps_tree (stages : List Instr) {s : State} (hs : TreeSound s) :
    AhufInv (runPipeline (stages.map stageBody) s).ahuf := by
  rcases Nat.lt_or_ge s.params.bufCap s.ilen.toNat with hlong | hfits
  · rw [runPipeline_tooLong _ hlong]
    exact hs.2
  · rw [runPipeline_fits _ hfits]
    have hrun := runStages_keeps_tree stages 1 s.input (s := beginCommand s) hs
    revert hrun
    cases runStages (stages.map stageBody) 1 (beginCommand s) s.input <;> exact id

/-- A primitive run alone is a stage numbered 0 on the input. -/
theorem runCodec_eq_runStage (keep : FatalError → Bool) (body : List Byte → Cmd Unit) (s : State) :
    runCodec keep body s = finishCodec keep (runStage body 0 (beginCommand s) s.input) := by
  rcases Nat.lt_or_ge s.params.bufCap s.ilen.toNat with hlong | hfits
  · rw [runCodec_tooLong keep body hlong, runStage_tooLong body 0 (by rwa [input_length])]
  · rw [runCodec_fits keep body hfits, runStage_fits body 0 (by rwa [input_length])]

theorem runCodec_keeps_tree (keep : FatalError → Bool) (i : Instr) {s : State} (hs : TreeSound s) :
    AhufInv (runCodec keep (stageBody i) s).ahuf := by
  rw [runCodec_eq_runStage]
  have hstage := (runStage_keeps_tree i 0 s.input (s := beginCommand s) hs).2
  cases h : runStage (stageBody i) 0 (beginCommand s) s.input with
  | ok a w =>
    rw [h] at hstage
    exact hstage
  | error e w =>
    rw [h] at hstage
    rw [finishCodec_error]
    split_ifs <;> exact hstage

/-- Every command keeps the tree's invariants while the root's weight has room for one more update: only AHUF_UPDATE
updates a tree it finds, the codec commands begin with a fresh one. -/
theorem exec_keeps_tree {i : Instr} {s t : State} (hs : TreeSound s) (hroom : weightOf s.ahuf 0 + 1 < 4294967296)
    (h : exec i s = .next t) : AhufInv t.ahuf := by
  by_cases hi : ∀ j ∈ runsIn i, j ∉ [Instr.ahufInit, .ahufUpdate, .ahufEnc, .ahufDec]
  · by_cases hsoft : i = .softReset
    · subst hsoft
      cases h
      exact initTree_inv _
    · exact ((exec_end h).ahuf_eq hsoft hi).symm ▸ hs.2
  · cases i
    case ahufInit => cases h; exact initTree_inv _
    case ahufUpdate =>
      simp only [exec, execAhufUpdate] at h
      split at h <;> cases h
      · exact hs.2
      · exact (ahufUpdateTree_keeps hs.2 hroom _).1
    case ahufEnc => cases h; exact runCodec_keeps_tree keepNothing .ahufEnc hs
    case ahufDec => cases h; exact runCodec_keeps_tree keepNothing .ahufDec hs
    case pBwtMtfAhufC => cases h; exact runPipeline_keeps_tree (pipelineStages .pBwtMtfAhufC) hs
    case pBwtMtfAhufD => cases h; exact runPipeline_keeps_tree (pipelineStages .pBwtMtfAhufD) hs
    all_goals exact absurd (by simp [runsIn, pipelineStages]) hi

theorem HostEnd.keeps_tree {s t : State} (hs : TreeSound s) (hroom : weightOf s.ahuf 0 + 1 < 4294967296)
    (h : HostEnd s t) : AhufInv t.ahuf := by
  cases h with
  | same | arg | ilen | byte | load | rejected => exact hs.2
  | reset => exact initialTree_inv _ _
  | command i t runs => exact exec_keeps_tree hs hroom runs

end Sys2Proof.Machine

namespace Sys2Proof

open Sys2Proof.Machine Sys2Proof.Safety

/-- Settles O60: one update keeps the invariants (R259) by the loop invariant `WeightsPending`, and the codec commands
make at most BUF_CAP updates of a fresh tree. -/
theorem stepKeepsAdaptiveTree : Obligations.StepKeepsAdaptiveTree := by
  intro s t hwf hinv hroom h
  rcases step_end h with rfl | ⟨q, hend⟩
  · exact hinv
  · exact HostEnd.keeps_tree (s := { s with hostQueue := q }) ⟨hwf, hinv⟩ hroom hend

/-- Settles O55: the tree is the initial one, and every table and memory is empty. -/
theorem resetHasTheInvariants : Obligations.ResetHasTheInvariants := by
  refine ⟨⟨rfl, rfl, rfl, rfl, rfl, freshLzw_canonical⟩, ⟨rfl, by decide⟩, ?_, freshLzw_legal,
    initialTree_inv 0 0⟩
  rw [buffersFilled_iff]
  refine ⟨by decide, ?_, ⟨Nat.zero_le _, ?_, ?_⟩, Nat.zero_le _, ?_, ?_⟩ <;>
    simp [IbufInside, State.reset, State.resetWith]

end Sys2Proof
end

section
/-! The host's writes of IBUF: a loaded byte string and a single byte (R34, R70, R105). No canonical form is assumed:
a read of an index walks past the smaller indices, and a load lists only those in front of what it keeps. -/

namespace Sys2Proof.Machine

variable {α : Type}

/-! ## Reading a loaded memory in any form -/

/-- Reading, from its first index on, filled cells with others behind them: the filled ones hide the others. -/
theorem getCell_cellsFrom_append (vs : List α) (rest : List (Nat × α)) {a b : Nat} (h : a ≤ b) :
    getCell (cellsFrom a vs ++ rest) b = vs[b - a]?.or (getCell rest b) := by
  induction vs generalizing a with
  | nil => simp [cellsFrom]
  | cons v t ih =>
    rw [cellsFrom, List.cons_append, getCell]
    rcases Nat.eq_or_lt_of_le h with rfl | hlt
    · simp
    · have hsucc : b - a = (b - (a + 1)) + 1 := by omega
      rw [if_neg (Nat.ne_of_lt hlt), if_neg (Nat.not_lt.mpr h), ih hlt, hsucc, List.getElem?_cons_succ]

/-- Dropping the entries below a bound changes no read from that bound on. -/
theorem getCell_filter_of_le (cells : List (Nat × α)) {n a : Nat} (h : n ≤ a) :
    getCell (cells.filter fun c => decide (n ≤ c.1)) a = getCell cells a := by
  induction cells with
  | nil => rfl
  | cons c t ih =>
    obtain ⟨k, v⟩ := c
    by_cases hk : n ≤ k
    · rw [List.filter_cons_of_pos (by simpa using hk), getCell, getCell, ih]
    · rw [List.filter_cons_of_neg (by simpa using hk), ih, getCell, if_neg (by omega), if_neg (by omega)]

/-- A loaded entry reads as loaded. -/
theorem Ram.read_load_of_lt (free : Nat → Nat → α) (m : Ram α) {vs : List α} {a : Nat} (h : a < vs.length) :
    (m.load vs).read free a = vs[a] := by
  simp [Ram.read, Ram.load, overlay, getCell_cellsFrom_append, h]

/-- An entry behind the loaded ones reads as before. -/
theorem Ram.read_load_of_le (free : Nat → Nat → α) (m : Ram α) {vs : List α} {a : Nat} (h : vs.length ≤ a) :
    (m.load vs).read free a = m.read free a := by
  simp [Ram.read, Ram.load, overlay, getCell_cellsFrom_append, getCell_filter_of_le, h]

/-! ## IBUF after the host's writes -/

theorem readIbuf_hostLoad_of_lt {bytes : List Byte} (s : State) {a : Nat} (h : a < bytes.length) :
    readIbuf (hostLoad bytes s) a = bytes[a] :=
  Ram.read_load_of_lt _ s.ibuf h

theorem readIbuf_hostLoad_of_le {bytes : List Byte} (s : State) {a : Nat} (h : bytes.length ≤ a) :
    readIbuf (hostLoad bytes s) a = readIbuf s a :=
  Ram.read_load_of_le _ s.ibuf h

/-- A byte string whose length ILEN can hold is the input once it is loaded (R70, R105). -/
theorem input_hostLoad {bytes : List Byte} (s : State) (h : bytes.length < 4294967296) :
    (hostLoad bytes s).input = bytes := by
  have hilen : (hostLoad bytes s).ilen.toNat = bytes.length := by
    rw [hostLoad, BitVec.toNat_ofNat, Nat.mod_eq_of_lt h]
  apply List.ext_getElem
  · rw [input_length, hilen]
  · intro a _ ha
    simp only [State.input, List.getElem_map, List.getElem_range]
    exact readIbuf_hostLoad_of_lt s ha

/-- IBUF after a host write of one of its bytes (R34). -/
theorem readIbuf_hostWriteWindow (i : Nat) (v : Word) (s : State) (a : Nat) :
    readIbuf (hostWriteWindow .ibuf i v s) a = if a = i then v.setWidth 8 else readIbuf s a :=
  Ram.read_write _ s.ibuf i a _

end Sys2Proof.Machine

namespace Sys2Proof

open Sys2Proof.Machine Sys2Proof.Safety

/-- Settles O6: both accesses are inside their bounds, and what IBUF reads afterwards is `Ram.read_load_of_lt`,
`Ram.read_load_of_le` and `Ram.read_write`. -/
theorem hostWritesInputBuffer : Obligations.HostWritesInputBuffer := by
  refine ⟨fun s bytes q hwf hfits hq => ?_, fun s i v q hi hq => ?_⟩
  · have hstep : step s = .next (hostLoad bytes { s with hostQueue := q }) := by
      rw [step_of_queue hq, hostAccess, if_pos hfits]
    have hlen : bytes.length < 4294967296 := by
      have hcap := bufCap_le hwf
      omega
    exact ⟨_, hstep, input_hostLoad _ hlen, fun a ha => readIbuf_hostLoad_of_le _ ha, rfl⟩
  · have hstep : step s = .next (hostWriteWindow .ibuf i v { s with hostQueue := q }) := by
      rw [step_of_queue hq, hostAccess]
      exact if_pos hi
    refine ⟨_, hstep, ?_, fun a ha => ?_, rfl⟩
    · rw [readIbuf_hostWriteWindow, if_pos rfl]
    · rw [readIbuf_hostWriteWindow, if_neg ha]
      rfl

end Sys2Proof
end

section
/-! The command words: the decoder undoes the encoder and reads nothing else, so every other word is rejected (R100,
R101, R104). -/

namespace Sys2Proof

/-! ## The fields of a word -/

/-- RSV, UNIT and FN make up the whole word (R100). -/
theorem word_toNat_eq_fields (w : Word) :
    w.toNat = 256 * (cmdRsv w).toNat + (16 * (cmdUnit w).toNat + (cmdFn w).toNat) := by
  simp only [cmdRsv, cmdUnit, cmdFn, BitVec.extractLsb'_toNat, Nat.shiftRight_eq_div_pow]
  omega

theorem encode_toNat (i : Instr) : (encode i).toNat = (opcode i).toNat :=
  BitVec.toNat_setWidth_of_le (by decide)

/-- A word is a command's encoding when RSV is 0 and UNIT and FN are the halves of the opcode (R100, R101). -/
theorem eq_encode_iff {w : Word} {i : Instr} :
    w = encode i ↔ cmdRsv w = 0 ∧ 16 * (cmdUnit w).toNat + (cmdFn w).toNat = (opcode i).toNat := by
  have hword := word_toNat_eq_fields w
  have hopcode := (opcode i).isLt
  have hrsv : cmdRsv w = 0 ↔ (cmdRsv w).toNat = 0 := BitVec.toNat_inj.symm
  have hunit := (cmdUnit w).isLt
  have hfn := (cmdFn w).isLt
  rw [← BitVec.toNat_inj, encode_toNat, hrsv]
  omega

/-! ## The opcode map -/

theorem opcodeMap_opcode (i : Instr) :
    opcodeMap ((opcode i).toNat / 16) ((opcode i).toNat % 16) = some i := by
  cases i <;> rfl

theorem opcode_of_opcodeMap {unit fn : Nat} {i : Instr} (h : opcodeMap unit fn = some i) :
    16 * unit + fn = (opcode i).toNat := by
  unfold opcodeMap at h
  split at h <;> cases h <;> rfl

/-- The map by UNIT and FN is the list of opcodes read backwards (R101). -/
theorem opcodeMap_eq_some_iff {unit fn : Nat} {i : Instr} (hfn : fn < 16) :
    opcodeMap unit fn = some i ↔ 16 * unit + fn = (opcode i).toNat := by
  refine ⟨opcode_of_opcodeMap, fun h => ?_⟩
  have hunit : unit = (opcode i).toNat / 16 := by omega
  have hlow : fn = (opcode i).toNat % 16 := by omega
  rw [hunit, hlow, opcodeMap_opcode]

/-! ## The decoder -/

theorem decode_of_reservedBits {w : Word} (h : cmdRsv w ≠ 0) : decode w = .error .reservedBits :=
  if_pos h

/-- With RSV = 0 the decoder is the lookup of UNIT and FN in the opcode map (R104). -/
theorem decode_of_rsv_zero {w : Word} (h : cmdRsv w = 0) :
    decode w = (opcodeMap (cmdUnit w).toNat (cmdFn w).toNat).elim (.error .unknownOpcode) .ok := by
  rw [decode, if_neg (not_not.mpr h)]
  cases opcodeMap (cmdUnit w).toNat (cmdFn w).toNat <;> rfl

/-- The words that decode are the encodings (R100, R101). -/
theorem decode_eq_ok_iff {w : Word} {i : Instr} : decode w = .ok i ↔ w = encode i := by
  rw [eq_encode_iff, ← opcodeMap_eq_some_iff (cmdFn w).isLt]
  by_cases hrsv : cmdRsv w = 0
  · rw [decode_of_rsv_zero hrsv]
    cases opcodeMap (cmdUnit w).toNat (cmdFn w).toNat <;> simp [hrsv]
  · rw [decode_of_reservedBits hrsv]
    exact iff_of_false nofun fun ⟨hzero, _⟩ => hrsv hzero

@[simp] theorem decode_encode (i : Instr) : decode (encode i) = .ok i :=
  decode_eq_ok_iff.mpr rfl

theorem decode_of_unknownOpcode {w : Word} (hrsv : cmdRsv w = 0) (h : ∀ i : Instr, w ≠ encode i) :
    decode w = .error .unknownOpcode := by
  have hmap : opcodeMap (cmdUnit w).toNat (cmdFn w).toNat = none := by
    refine Option.eq_none_iff_forall_ne_some.mpr fun i hi => h i ?_
    exact eq_encode_iff.mpr ⟨hrsv, opcode_of_opcodeMap hi⟩
  rw [decode_of_rsv_zero hrsv, hmap, Option.elim_none]

end Sys2Proof

namespace Sys2Proof.Machine

open Sys2Proof.Safety

/-! ## Issue of an illegal word -/

/-- Rejection is error entry with UnsupportedOperation(1) and nothing else (R104, R373). -/
theorem rejectCommand_eq_failed (s : State) : rejectCommand s = failed badCommand 0 s :=
  failUnit_begin badCommand s

theorem issue_of_illegal {w : Word} (h : ∀ i : Instr, w ≠ encode i) (s : State) :
    issue w s = .next (failed badCommand 0 s) := by
  rw [issue, ← rejectCommand_eq_failed]
  cases hdec : decode w with
  | ok i => exact absurd (decode_eq_ok_iff.mp hdec) (h i)
  | error e => rfl

end Sys2Proof.Machine

namespace Sys2Proof

open Sys2Proof.Machine Sys2Proof.Safety

/-- Settles O1: each word written out is the encoding of its command. -/
theorem opcodeWordsDecode : Obligations.OpcodeWordsDecode :=
  ⟨decode_encode .softReset, decode_encode .crcBuf, decode_encode .saBuild, decode_encode .bwtInv,
    decode_encode .mtfEnc, decode_encode .shufDec, decode_encode .ahufUpdate, decode_encode .lzwInsert,
    decode_encode .pBwtLzwC, decode_encode .pBwtMtfShufD, decode_encode .pBwtMtfAhufD, decode_encode⟩

/-- Settles O2: RSV, UNIT and FN make up the whole word, and the opcode map gives back their values. -/
theorem decodedWordIsItsEncoding : Obligations.DecodedWordIsItsEncoding :=
  fun _ _ => decode_eq_ok_iff.mp

/-- Settles O3: an illegal word fails one of the decoder's two tests, and the step is then the rejection. -/
theorem illegalWordRejected : Obligations.IllegalWordRejected := by
  refine ⟨fun _ => decode_of_reservedBits, fun _ => decode_of_unknownOpcode, fun s w q hq hw => ?_⟩
  rw [step_of_queue hq]
  exact issue_of_illegal hw { s with hostQueue := q }

end Sys2Proof
end

section
/-! The bit writer and the bit reader (R130 to R138). `Work.wrote` is the working state once a string of bits has been
given to an empty writer, `Work.atBit` the one whose reader has taken the first bits of a byte string; each operation
of the unit goes from one such state to the next. -/

namespace Sys2Proof.Machine

open Sys2Proof.Safety

/-! ## Bits of a byte, most significant first (R75) -/

theorem testBit_foldl_range (f : Nat → Bool) (n i : Nat) :
    ((List.range n).foldl (fun v j => 2 * v + (f j).toNat) 0).testBit i = (decide (i < n) && f (n - 1 - i)) := by
  induction n generalizing i with
  | zero => simp
  | succ n ih =>
    rw [List.range_succ, List.foldl_append, List.foldl_cons, List.foldl_nil]
    generalize (List.range n).foldl (fun v j => 2 * v + (f j).toNat) 0 = v at ih ⊢
    cases i with
    | zero => cases h : f n <;> simp [h]
    | succ i =>
      have hbit := (f n).toNat_lt
      have hshift : (2 * v + (f n).toNat) / 2 = v := by omega
      have hindex : n + 1 - 1 - (i + 1) = n - 1 - i := by omega
      simp only [Nat.testBit_succ, hshift, ih, Nat.add_lt_add_iff_right, hindex]

/-- Bits beyond the end of the string count as 0. -/
theorem getMsbD_byteOfBits (bits : List Bool) (j : Nat) :
    (byteOfBits bits).getMsbD j = (decide (j < 8) && bits.getD j false) := by
  by_cases h : j < 8
  · have hlow : 8 - 1 - j < 8 := by omega
    rw [byteOfBits, BitVec.getMsbD, BitVec.getLsbD_ofNat, testBit_foldl_range, show 8 - 1 - (8 - 1 - j) = j by omega]
    simp [h, hlow]
  · simp [h, BitVec.getMsbD]

@[simp] theorem getMsbD_byteAt (bits : List Bool) (i j : Nat) :
    (byteAt bits i).getMsbD j = (decide (j < 8) && bits.getD (8 * i + j) false) := by
  rw [byteAt, getMsbD_byteOfBits]
  simp [List.getD_eq_getElem?_getD]

theorem getElem_msbBits (v n i : Nat) (h : i < (msbBits v n).length) :
    (msbBits v n)[i] = v.testBit (n - 1 - i) := by
  induction n generalizing i with
  | zero => simp [msbBits] at h
  | succ n ih =>
    cases i with
    | zero => rfl
    | succ i => simp only [msbBits, List.getElem_cons_succ, ih, show n + 1 - 1 - (i + 1) = n - 1 - i by omega]

/-! ## Bit strings and byte strings -/

theorem bitsOf_cons (b : Byte) (t : List Byte) : bitsOf (b :: t) = msbBits b.toNat 8 ++ bitsOf t := rfl

@[simp] theorem bitsOf_length (x : List Byte) : (bitsOf x).length = 8 * x.length := by
  induction x with
  | nil => rfl
  | cons b t ih =>
    rw [bitsOf_cons, List.length_append, ih, msbBits_length, List.length_cons]
    omega

theorem getElem_bitsOf (x : List Byte) (k : Nat) (h : k < (bitsOf x).length) :
    (bitsOf x)[k] = (x[k / 8]'(by rw [bitsOf_length] at h; omega)).getMsbD (k % 8) := by
  induction x generalizing k with
  | nil => exact absurd h (Nat.not_lt_zero k)
  | cons b t ih =>
    simp only [bitsOf_cons]
    by_cases hk : k < 8
    · rw [List.getElem_append_left (by simpa using hk), getElem_msbBits]
      simp [BitVec.getMsbD, BitVec.getLsbD, hk, Nat.mod_eq_of_lt hk, Nat.div_eq_of_lt hk]
    · have hdiv : k / 8 = (k - 8) / 8 + 1 := by omega
      rw [List.getElem_append_right (by simpa using hk)]
      simp only [msbBits_length, ih, hdiv, List.getElem_cons_succ]
      rw [show (k - 8) % 8 = k % 8 by omega]

/-- The zero bits that FlushBits adds (R133). -/
def padding (bits : List Bool) : List Bool := List.replicate ((8 - bits.length % 8) % 8) false

theorem length_append_padding (bits : List Bool) :
    (bits ++ padding bits).length = 8 * ((bits.length + 7) / 8) := by
  rw [padding, List.length_append, List.length_replicate]
  omega

theorem getD_append_padding (bits : List Bool) (k : Nat) :
    (bits ++ padding bits).getD k false = bits.getD k false := by
  rcases Nat.lt_or_ge k bits.length with h | h
  · exact List.getD_append _ _ _ _ h
  · rw [List.getD_append_right _ _ _ _ h, List.getD_eq_default _ _ h, padding, List.getD_eq_getElem?_getD,
      List.getElem?_replicate]
    split_ifs <;> rfl

/-- A whole byte of a bit string stays when bits are added at the end. -/
theorem byteAt_append (bits more : List Bool) {i : Nat} (h : i < bits.length / 8) :
    byteAt (bits ++ more) i = byteAt bits i := by
  refine BitVec.eq_of_getMsbD_eq fun j hj => ?_
  rw [getMsbD_byteAt, getMsbD_byteAt, List.getD_append _ _ _ _ (by omega)]

/-- A bit that does not complete a byte leaves the whole bytes as they are. -/
theorem packWhole_append_bit_of_part {bits : List Bool} (b : Bool) (h : bits.length % 8 + 1 ≠ 8) :
    packWhole (bits ++ [b]) = packWhole bits := by
  have hbytes : (bits ++ [b]).length / 8 = bits.length / 8 := by rw [List.length_append, List.length_singleton]; omega
  rw [packWhole, packWhole, hbytes]
  exact List.map_congr_left fun i hi => byteAt_append bits [b] (List.mem_range.mp hi)

/-- The eighth bit of a byte adds that byte to the whole ones. -/
theorem packWhole_append_bit_of_last {bits : List Bool} (b : Bool) (h : bits.length % 8 + 1 = 8) :
    packWhole (bits ++ [b]) = packWhole bits ++ [byteAt (bits ++ [b]) (bits.length / 8)] := by
  have hbytes : (bits ++ [b]).length / 8 = bits.length / 8 + 1 := by
    rw [List.length_append, List.length_singleton]; omega
  rw [packWhole, packWhole, hbytes, List.range_succ, List.map_append, List.map_singleton]
  congr 1
  exact List.map_congr_left fun i hi => byteAt_append bits [b] (List.mem_range.mp hi)

theorem byteAt_append_padding (bits : List Bool) (i : Nat) : byteAt (bits ++ padding bits) i = byteAt bits i := by
  refine BitVec.eq_of_getMsbD_eq fun j _ => ?_
  rw [getMsbD_byteAt, getMsbD_byteAt, getD_append_padding]

theorem packWhole_append_padding (bits : List Bool) : packWhole (bits ++ padding bits) = packBits bits := by
  have hbytes : (bits ++ padding bits).length / 8 = (bits.length + 7) / 8 := by
    rw [length_append_padding, Nat.mul_div_cancel_left _ (by decide)]
  rw [packWhole, packBits, hbytes]
  exact List.map_congr_left fun i _ => byteAt_append_padding bits i

@[simp] theorem packBits_length (bits : List Bool) : (packBits bits).length = (bits.length + 7) / 8 := by
  simp [packBits]

/-- The bits of the packed bytes are the bits packed and the padding. -/
theorem bitsOf_packBits (bits : List Bool) : bitsOf (packBits bits) = bits ++ padding bits := by
  apply List.ext_getElem
  · rw [bitsOf_length, packBits_length, length_append_padding]
  · intro k hk hpad
    have hsplit : 8 * (k / 8) + k % 8 = k := Nat.div_add_mod k 8
    have hlow : k % 8 < 8 := Nat.mod_lt k (by decide)
    rw [← List.getD_eq_getElem _ false hpad, getD_append_padding, getElem_bitsOf]
    simp [packBits, hlow, hsplit]

/-! ## The writer (R131 to R134) -/

/-- The working state after a string of bits has been given to an empty writer: its whole bytes are emitted, and WACC
holds the rest. -/
def Work.wrote (w : Work) (bits : List Bool) : Work :=
  { w with
    out := (packWhole bits).reverse ++ w.out
    olen := w.olen + bits.length / 8
    wacc := byteAt bits (bits.length / 8) >>> (8 - bits.length % 8)
    wcnt := bits.length % 8 }

@[simp] theorem wrote_wcnt (w : Work) (bits : List Bool) : (w.wrote bits).wcnt = bits.length % 8 := rfl

/-- WACC with one more bit shifted in (R131). -/
theorem byteAt_shift_bit (bits : List Bool) (b : Bool) :
    (byteAt bits (bits.length / 8) >>> (8 - bits.length % 8)) <<< 1 ||| (BitVec.ofBool b).setWidth 8
      = byteAt (bits ++ [b]) (bits.length / 8) >>> (7 - bits.length % 8) := by
  refine BitVec.eq_of_getMsbD_eq fun j hj => ?_
  simp only [BitVec.getMsbD_or, BitVec.getMsbD_shiftLeft, BitVec.getMsbD_ushiftRight, BitVec.getMsbD_setWidth,
    getMsbD_byteAt]
  rcases Nat.lt_or_ge j 7 with h7 | h7
  · by_cases hheld : j < 7 - bits.length % 8
    · have hheld' : j + 1 < 8 - bits.length % 8 := by omega
      simp [hheld, hheld', Nat.not_le.mpr h7]
    · have hindex : j + 1 - (8 - bits.length % 8) = j - (7 - bits.length % 8) := by omega
      have hold : 8 * (bits.length / 8) + (j - (7 - bits.length % 8)) < bits.length := by omega
      have hheld' : ¬j + 1 < 8 - bits.length % 8 := by omega
      have hnext : j + 1 < 8 := by omega
      rw [hindex, List.getD_append _ _ _ _ hold]
      simp [hheld, hheld', hj, hnext, Nat.not_le.mpr h7]
  · obtain rfl : j = 7 := by omega
    have hnew : 8 * (bits.length / 8) + (7 - (7 - bits.length % 8)) = bits.length := by omega
    have hlow : 7 - (7 - bits.length % 8) < 8 := by omega
    simp [hnew, hlow]

/-- On a byte boundary WACC is empty. -/
theorem wrote_of_whole (w : Work) {bits : List Bool} (h : bits.length % 8 = 0) :
    w.wrote bits = { w with
      out := (packWhole bits).reverse ++ w.out, olen := w.olen + bits.length / 8, wacc := 0, wcnt := 0 } := by
  have hacc : byteAt bits (bits.length / 8) >>> (8 - 0) = 0 := BitVec.ushiftRight_eq_zero (Nat.le_refl 8)
  simp only [Work.wrote, h, hacc]

theorem putBit_wrote {w : Work} {bits : List Bool} (b : Bool)
    (h : w.olen + (bits.length + 1) / 8 ≤ w.mach.params.bufCap) :
    putBit b (w.wrote bits) = .ok () (w.wrote (bits ++ [b])) := by
  have hlen : (bits ++ [b]).length = bits.length + 1 := List.length_append
  rw [putBit_run]
  simp only [Work.wrote, byteAt_shift_bit, hlen]
  split_ifs with h8 hfull
  · omega
  · have hdiv : (bits.length + 1) / 8 = bits.length / 8 + 1 := by omega
    have hmod : (bits.length + 1) % 8 = 0 := by omega
    have hwait : 7 - bits.length % 8 = 0 := by omega
    simp [packWhole_append_bit_of_last b h8, hdiv, hmod, hwait, Nat.add_assoc, BitVec.ushiftRight_eq_zero]
  · have hdiv : (bits.length + 1) / 8 = bits.length / 8 := by omega
    have hmod : (bits.length + 1) % 8 = bits.length % 8 + 1 := by omega
    simp [packWhole_append_bit_of_part b h8, hdiv, hmod]

theorem putBitList_wrote {w : Work} {bits more : List Bool}
    (h : w.olen + (bits.length + more.length) / 8 ≤ w.mach.params.bufCap) :
    putBitList more (w.wrote bits) = .ok () (w.wrote (bits ++ more)) := by
  induction more generalizing bits with
  | nil => rw [putBitList, Cmd.pure_run, List.append_nil]
  | cons b t ih =>
    rw [List.length_cons] at h
    rw [putBitList, Cmd.bind_ok (putBit_wrote b (by omega)), ih (by simp; omega), List.append_assoc,
      List.singleton_append]

/-- An empty writer has written nothing. -/
theorem wrote_nil {w : Work} (hacc : w.wacc = 0) (hcnt : w.wcnt = 0) : w.wrote [] = w := by
  rw [wrote_of_whole w rfl, ← hacc, ← hcnt]
  rfl

/-- R133: the padding completes the last byte. -/
theorem flushBits_wrote {w : Work} {bits : List Bool} (h : w.olen + (bits.length + 7) / 8 ≤ w.mach.params.bufCap) :
    flushBits (w.wrote bits) = .ok () { w with
      out := (packBits bits).reverse ++ w.out, olen := w.olen + (bits.length + 7) / 8, wacc := 0, wcnt := 0 } := by
  have hlen := length_append_padding bits
  have hflush : flushBits (w.wrote bits) = putBitList (padding bits) (w.wrote bits) := by
    rw [flushBits_run, padding, wrote_wcnt]
    split_ifs with hcnt
    · rw [hcnt]; rfl
    · rw [Nat.mod_eq_of_lt (a := 8 - bits.length % 8) (by omega)]
  rw [hflush, putBitList_wrote (by rw [← List.length_append]; omega), wrote_of_whole w (by omega),
    packWhole_append_padding, hlen, Nat.mul_div_cancel_left _ (by decide)]

theorem dropBits_wrote (w : Work) (bits : List Bool) :
    dropBits (w.wrote bits) = .ok () { w with
      out := (packWhole bits).reverse ++ w.out, olen := w.olen + bits.length / 8, wacc := 0, wcnt := 0 } := rfl

/-! ## The reader (R135 to R137) -/

/-- RACC once the first `k` bits of a byte string are taken: what is left of the byte that was begun (R136). -/
def begunByte (x : List Byte) (k : Nat) : Byte := if k % 8 = 0 then 0 else x.getD (k / 8) 0 <<< (k % 8)

theorem begunByte_of_part (x : List Byte) {k : Nat} (h : k % 8 ≠ 0) : begunByte x k = x.getD (k / 8) 0 <<< (k % 8) :=
  if_neg h

/-- The byte that holds bit `k`, shifted past that bit; nothing is left of it after its last bit. -/
theorem begunByte_succ (x : List Byte) (k : Nat) :
    begunByte x (k + 1) = x.getD (k / 8) 0 <<< (k % 8 + 1) := by
  by_cases h : (k + 1) % 8 = 0
  · rw [begunByte, if_pos h, BitVec.shiftLeft_eq_zero (by omega)]
    rfl
  · rw [begunByte_of_part x h, show (k + 1) / 8 = k / 8 by omega, show (k + 1) % 8 = k % 8 + 1 by omega]

/-- The working state whose reader has taken the first `k` bits of a byte string: RPOS is behind the byte that the last
of them came from, and RACC holds the rest of that byte. -/
def Work.atBit (w : Work) (x : List Byte) (k : Nat) : Work :=
  { w with
    racc := begunByte x k
    rcnt := 8 * ((k + 7) / 8) - k
    rpos := (k + 7) / 8
    rest := x.drop ((k + 7) / 8) }

@[simp] theorem atBit_rcnt (w : Work) (x : List Byte) (k : Nat) :
    (w.atBit x k).rcnt = 8 * ((k + 7) / 8) - k := rfl

/-- A reader opened at a byte has taken the bits of the bytes before it. -/
theorem openBits_atBit (x : List Byte) (start : Nat) (w : Work) :
    openBits x start w = .ok () (w.atBit x (8 * start)) := by
  have hpos : (8 * start + 7) / 8 = start := by omega
  simp [Work.atBit, begunByte, hpos]

theorem getBit_atBit (e : FatalError) (w : Work) {x : List Byte} {k : Nat} (h : k < (bitsOf x).length) :
    getBit e (w.atBit x k) = .ok (bitsOf x)[k] (w.atBit x (k + 1)) := by
  have hbyte : k / 8 < x.length := by rw [bitsOf_length] at h; omega
  have hget : x.getD (k / 8) 0 = x[k / 8] := List.getD_eq_getElem x 0 hbyte
  have hnext : (k + 1 + 7) / 8 = k / 8 + 1 := by omega
  rw [getBit_run, getElem_bitsOf x k h]
  by_cases hk : k % 8 = 0
  · have hpos : (k + 7) / 8 = k / 8 := by omega
    have hcnt : (w.atBit x k).rcnt = 0 := by rw [atBit_rcnt]; omega
    have hleft : 8 * (k / 8 + 1) - (k + 1) = 7 := by omega
    have hrest : (w.atBit x k).rest = x[k / 8] :: x.drop (k / 8 + 1) := by
      simp only [Work.atBit, hpos, List.drop_eq_getElem_cons hbyte]
    rw [if_pos hcnt, hrest]
    simp only [Work.atBit, begunByte_succ, hget, hk, hpos, hnext, hleft, BitVec.msb, Nat.zero_add]
  · have hpos : (k + 7) / 8 = k / 8 + 1 := by omega
    have hcnt : (w.atBit x k).rcnt ≠ 0 := by rw [atBit_rcnt]; omega
    rw [if_neg hcnt]
    simp only [Work.atBit, begunByte_succ, begunByte_of_part x hk, hget, hpos, hnext, BitVec.msb_shiftLeft,
      BitVec.shiftLeft_add, Nat.sub_sub]

/-- R136: past the last bit the reader signals the end and stays as it is. -/
theorem getBit_atBit_end (e : FatalError) (w : Work) (x : List Byte) :
    getBit e (w.atBit x (8 * x.length)) = .error e (w.atBit x (8 * x.length)) := by
  have hpos : (8 * x.length + 7) / 8 = x.length := by omega
  have hcnt : (w.atBit x (8 * x.length)).rcnt = 0 := by rw [atBit_rcnt]; omega
  have hrest : (w.atBit x (8 * x.length)).rest = [] := by simp [Work.atBit, hpos]
  rw [getBit_run, if_pos hcnt, hrest]

theorem getBitsInto_atBit (e : FatalError) (w : Work) {x : List Byte} {k n : Nat} (v : Nat)
    (h : k + n ≤ 8 * x.length) :
    getBitsInto e v n (w.atBit x k)
      = .ok ((((bitsOf x).drop k).take n).foldl (fun v b => 2 * v + b.toNat) v) (w.atBit x (k + n)) := by
  induction n generalizing k v with
  | zero => rfl
  | succ n ih =>
    have hk : k < (bitsOf x).length := by rw [bitsOf_length]; omega
    rw [getBitsInto, Cmd.bind_ok (getBit_atBit e w hk), ih _ (by omega), List.drop_eq_getElem_cons hk,
      List.take_succ_cons, List.foldl_cons, Nat.add_right_comm, Nat.add_assoc]

/-- R137: the next `n` bits as a number. -/
theorem getBits_atBit (e : FatalError) (w : Work) {x : List Byte} {k n : Nat} (h : k + n ≤ 8 * x.length) :
    getBits e n (w.atBit x k)
      = .ok ((((bitsOf x).drop k).take n).foldl (fun v b => 2 * v + b.toNat) 0) (w.atBit x (k + n)) :=
  getBitsInto_atBit e w 0 h

end Sys2Proof.Machine

namespace Sys2Proof

open Sys2Proof.Machine Sys2Proof.Safety

/-- Settles O26: the writer's states are `Work.wrote` of the bits given, the reader's are `Work.atBit` of the bits
taken, and `bitsOf_packBits` joins the two. -/
theorem bitsWrittenAreBitsRead : Obligations.BitsWrittenAreBitsRead := by
  refine ⟨fun bits s hcap => ?_, bitsOf_packBits, fun bytes s e k hk => ?_⟩
  · have hflush : (Work.start 0 s).olen + (bits.length + 7) / 8 ≤ (Work.start 0 s).mach.params.bufCap := by
      simpa [Work.start] using hcap
    have hput : putBitList bits (Work.start 0 s) = .ok () ((Work.start 0 s).wrote bits) := by
      have h := putBitList_wrote (w := Work.start 0 s) (bits := []) (more := bits) (by simp; omega)
      rwa [wrote_nil rfl rfl, List.nil_append] at h
    refine ⟨⟨_, (Cmd.bind_ok hput _).trans (flushBits_wrote hflush), ?_, ?_, rfl, rfl⟩,
      ⟨_, (Cmd.bind_ok hput _).trans (dropBits_wrote _ bits), ?_, ?_, rfl, rfl⟩⟩ <;>
      simp [Work.start]
  · have hrun : (openBits bytes 0 >>= fun _ => getBits e k) (Work.start 0 s)
        = .ok (((bitsOf bytes).take k).foldl (fun v b => 2 * v + b.toNat) 0) ((Work.start 0 s).atBit bytes k) := by
      rw [Cmd.bind_ok (openBits_atBit bytes 0 _), getBits_atBit e _ (by omega), Nat.mul_zero, List.drop_zero,
        Nat.zero_add]
    refine ⟨_, hrun, rfl, rfl, fun hend => ?_⟩
    rw [hend]
    exact getBit_atBit_end e _ bytes

end Sys2Proof
end

section
/-! The CRC-32 unit (R150 to R158). A shift of the register is linear in XOR, and on a word whose low bit is 0 it is a
plain shift; so the eight shifts of a byte split into the table entry of the low byte and the accumulator moved down. -/

namespace Sys2Proof.Machine

open Sys2Proof.Safety

/-! ## Shifts of the register (R151) -/

/-- XORing in a word whose low bit is 0 does not change the bit that decides on the feedback. -/
theorem crcShift_xor_of_low_zero (poly a : Word) {b : Word} (hb : b.getLsbD 0 = false) :
    crcShift poly (a ^^^ b) = crcShift poly a ^^^ b >>> 1 := by
  have hlow : (a ^^^ b).getLsbD 0 = a.getLsbD 0 := by rw [BitVec.getLsbD_xor, hb, Bool.xor_false]
  simp only [crcShift, hlow, BitVec.ushiftRight_xor_distrib]
  split
  · ac_rfl
  · rfl

theorem crcShifts_xor_of_low_zero (poly : Word) {n : Nat} (a : Word) {b : Word}
    (hb : ∀ i < n, b.getLsbD i = false) : crcShifts poly n (a ^^^ b) = crcShifts poly n a ^^^ b >>> n := by
  induction n generalizing a b with
  | zero => simp [crcShifts]
  | succ n ih =>
    have hrest : ∀ i < n, (b >>> 1).getLsbD i = false := fun i hi => by
      rw [BitVec.getLsbD_ushiftRight]
      exact hb _ (by omega)
    rw [crcShifts, crcShift_xor_of_low_zero poly a (hb 0 n.succ_pos), ih _ hrest, crcShifts, ← BitVec.shiftRight_add,
      Nat.add_comm 1 n]

theorem lowByte_xor_highBytes (c : Word) : (c.setWidth 8).setWidth 32 ^^^ c >>> 8 <<< 8 = c := by
  ext i hi
  by_cases h : i < 8
  · simp [h, BitVec.getLsbD_eq_getElem hi]
  · simp [h, show 8 + (i - 8) = i by omega, BitVec.getLsbD_eq_getElem hi]

/-- Eight shifts are one look-up of the low byte in CRCTAB (R151, R152). -/
theorem crcShifts_eight (poly c : Word) : crcShifts poly 8 c = crcTab poly (c.setWidth 8) ^^^ c >>> 8 := by
  have hlow : ∀ i < 8, (c >>> 8 <<< 8).getLsbD i = false := fun i hi => by simp [hi]
  have hback : c >>> 8 <<< 8 >>> 8 = c >>> 8 := by
    bv_omega
  calc crcShifts poly 8 c
      = crcShifts poly 8 ((c.setWidth 8).setWidth 32 ^^^ c >>> 8 <<< 8) := by rw [lowByte_xor_highBytes]
    _ = crcTab poly (c.setWidth 8) ^^^ c >>> 8 := by rw [crcShifts_xor_of_low_zero poly _ hlow, hback, crcTab]

/-- The byte XORed in by CrcStep does not reach the bits that are moved down (R152). -/
theorem byte_shiftRight_eight (b : Byte) : b.setWidth 32 >>> 8 = 0#32 := by
  ext i hi
  simp

/-! ## The operand of CRC_BYTE (R102 (b)) -/

/-- ARG0 is a byte exactly when its number is below 256. -/
theorem argByte_eq (arg0 : Word) :
    argByte arg0 = if arg0.toNat < 256 then some (arg0.setWidth 8) else none := by
  have hhigh : arg0.extractLsb' 8 24 = 0 ↔ arg0.toNat < 256 := by
    rw [← BitVec.toNat_inj, BitVec.extractLsb'_toNat]
    bv_omega
  have hlow : arg0.extractLsb' 0 8 = arg0.setWidth 8 := by ext i hi; simp
  simp only [argByte, hhigh, hlow]

/-! ## The four commands (R154 to R157) -/

/-- CRC_RESET (R154). -/
theorem exec_crcReset (s : State) : exec .crcReset s = .next (succeeded (startCrc s)) := by
  change execCrcReset s = _
  rw [execCrcReset, startCrc_begin, complete_begin]

/-- CRC_BYTE (R155). -/
theorem exec_crcByte (s : State) :
    exec .crcByte s = .next
      (if s.arg0.toNat < 256 then succeeded (feedCrc (s.arg0.setWidth 8) s) else failed badOperand 0 s) := by
  change execCrcByte s = _
  rw [execCrcByte, argByte_eq]
  split_ifs
  · rw [← complete_begin, ← feedCrc_begin]
  · rw [← failUnit_begin]

/-- CRC_BUF on an input that fits (R156). -/
theorem exec_crcBuf_of_fits {s : State} (h : InputFits s) :
    exec .crcBuf s = .next (succeeded { s with crcacc := crcSteps s.params s.crcacc s.input }) :=
  if_neg (Nat.not_lt.mpr h)

/-- CRC_BUF on an input longer than BUF_CAP (R156, R378). -/
theorem exec_crcBuf_of_tooLong {s : State} (h : s.params.bufCap < s.ilen.toNat) :
    exec .crcBuf s = .next (failed inputTooLong 0 s) := by
  change execCrcBuf s = _
  rw [execCrcBuf, if_pos h, failUnit_begin]

/-- CRC_READ (R157). -/
theorem exec_crcRead (s : State) : exec .crcRead s = .next (succeeded { s with res0 := checksum s }) := rfl

end Sys2Proof.Machine

namespace Sys2Proof

open Sys2Proof.Machine Sys2Proof.Safety

/-- Settles O14: eight shifts are one look-up (`crcShifts_eight`), and the byte does not reach the bits moved down. -/
theorem crcTableStepIsEightShifts : Obligations.CrcTableStepIsEightShifts := by
  intro p acc b
  rw [crcShifts_eight, BitVec.ushiftRight_xor_distrib, byte_shiftRight_eight, BitVec.xor_zero, crcStep]

/-- Settles O12: the test on ARG0[31:8] is a bound on its number (`argByte_eq`). -/
theorem crcByteFeedsArgument : Obligations.CrcByteFeedsArgument := by
  refine fun s => ⟨fun hbyte => ?_, fun hbig => ?_⟩
  · rw [exec_crcByte, if_pos hbyte]
    rfl
  · rw [exec_crcByte, if_neg (Nat.not_lt.mpr hbig)]

/-- Settles O11: neither command has a check, so each is its own update between begin and complete. -/
theorem crcResetAndRead : Obligations.CrcResetAndRead :=
  fun s => ⟨exec_crcReset s, exec_crcRead s⟩

/-- Settles O13: the two sides of the length check of R378. -/
theorem crcBufFeedsInput : Obligations.CrcBufFeedsInput :=
  fun _ => ⟨exec_crcBuf_of_fits, exec_crcBuf_of_tooLong⟩

/-- Settles O15: CRC_RESET leaves the input and the length check as they are, so CRC_BUF runs the fold of R153 from
CRC_INIT and CRC_READ adds CRC_XOROUT. -/
theorem checksumOfInput : Obligations.ChecksumOfInput := by
  refine ⟨by decide +kernel, fun p => by rw [crc32, crcSteps_nil], fun s hfits => ?_⟩
  have hfits' : InputFits (succeeded (startCrc s)) := hfits
  exact ⟨_, _, _, exec_crcReset s, exec_crcBuf_of_fits hfits', exec_crcRead _, rfl⟩

end Sys2Proof
end

section
/-! The suffix array builder (R170 to R173). The order of the sort is the lexicographic order of Mathlib, a linear
order, so the insertion sort of distinct suffixes is strictly rising; the sentinel turns that order into R171's, since
no suffix of S(B) is the beginning of another. -/

namespace Sys2Proof.Machine

open Sys2Proof.Safety

/-! ## The sort (R173) -/

/-- The order of the sort is the lexicographic order of symbol sequences. -/
theorem suffixLess_iff {x y : List Nat} : suffixLess x y = true ↔ x < y := by
  induction x generalizing y with
  | nil => cases y <;> simp [suffixLess]
  | cons a x ih =>
    cases y with
    | nil => simp [suffixLess]
    | cons b y =>
      rw [suffixLess, List.cons_lt_cons_iff]
      split_ifs with hab
      · simp [hab, ih]
      · simp [hab]

theorem insertSuffix_eq_orderedInsert (p : Nat × List Nat) (l : List (Nat × List Nat)) :
    insertSuffix p l = l.orderedInsert (fun p q => suffixLess p.2 q.2 = true) p := by
  induction l with
  | nil => rfl
  | cons q t ih => rw [insertSuffix, ih, List.orderedInsert_cons]

theorem insertSuffix_perm (p : Nat × List Nat) (l : List (Nat × List Nat)) : (insertSuffix p l).Perm (p :: l) :=
  insertSuffix_eq_orderedInsert p l ▸ List.perm_orderedInsert _ p l

theorem sortSuffixes_perm (l : List (Nat × List Nat)) : (sortSuffixes l).Perm l := by
  induction l with
  | nil => rfl
  | cons p t ih => exact (insertSuffix_perm p _).trans (ih.cons p)

/-- Inserting a sequence that is not listed keeps the list strictly rising. -/
theorem insertSuffix_pairwise {p : Nat × List Nat} {l : List (Nat × List Nat)}
    (hl : l.Pairwise fun p q => p.2 < q.2) (hp : ∀ q ∈ l, p.2 ≠ q.2) :
    (insertSuffix p l).Pairwise fun p q => p.2 < q.2 := by
  induction l with
  | nil => exact List.pairwise_singleton _ p
  | cons q t ih =>
    obtain ⟨hq, ht⟩ := List.pairwise_cons.mp hl
    rw [insertSuffix]
    split_ifs with hlt
    · rw [suffixLess_iff] at hlt
      exact hl.cons (List.forall_mem_cons.mpr ⟨hlt, fun r hr => hlt.trans (hq r hr)⟩)
    · rw [suffixLess_iff] at hlt
      obtain ⟨hpq, hpt⟩ := List.forall_mem_cons.mp hp
      have hgt : q.2 < p.2 := lt_of_le_of_ne (not_lt.mp hlt) hpq.symm
      refine (ih ht hpt).cons fun r hr => ?_
      rcases List.mem_cons.mp ((insertSuffix_perm p t).mem_iff.mp hr) with rfl | hr
      · exact hgt
      · exact hq r hr

theorem sortSuffixes_pairwise {l : List (Nat × List Nat)} (hl : l.Pairwise fun p q => p.2 ≠ q.2) :
    (sortSuffixes l).Pairwise fun p q => p.2 < q.2 := by
  induction l with
  | nil => exact .nil
  | cons p t ih =>
    obtain ⟨hp, ht⟩ := List.pairwise_cons.mp hl
    exact insertSuffix_pairwise (ih ht) fun q hq => hp q ((sortSuffixes_perm t).mem_iff.mp hq)

/-! ## The suffixes (R171) -/

theorem suffixesFrom_eq_map (k : Nat) (x : List Nat) :
    suffixesFrom k x = (List.range x.length).map fun i => (k + i, x.drop i) := by
  induction x generalizing k with
  | nil => rfl
  | cons a t ih =>
    rw [suffixesFrom, ih, List.length_cons, List.range_succ_eq_map, List.map_cons, List.map_map]
    simp [Function.comp_def, Nat.add_assoc, Nat.add_comm 1]

theorem suffixesFrom_offsets (x : List Nat) : (suffixesFrom 0 x).map Prod.fst = List.range x.length := by
  simp [suffixesFrom_eq_map, Function.comp_def]

theorem mem_suffixesFrom {x : List Nat} {p : Nat × List Nat} (h : p ∈ suffixesFrom 0 x) :
    p.1 < x.length ∧ p.2 = x.drop p.1 := by
  rw [suffixesFrom_eq_map] at h
  obtain ⟨i, hi, rfl⟩ := List.mem_map.mp h
  simpa using hi

/-- No two suffixes are equal: they differ in length. -/
theorem suffixesFrom_distinct (x : List Nat) : (suffixesFrom 0 x).Pairwise fun p q => p.2 ≠ q.2 := by
  rw [suffixesFrom_eq_map, List.pairwise_map]
  refine List.pairwise_lt_range.imp_of_mem fun {i j} hi hj hij heq => ?_
  rw [List.mem_range] at hi hj
  have hlen := congrArg List.length heq
  simp only [List.length_drop] at hlen
  omega

/-! ## The sentinel (R170, R171) -/

@[simp] theorem symbols_length (block : List Byte) : (symbols block).length = block.length + 1 := by simp [symbols]

/-- The symbol 0 occurs at position n and nowhere else. -/
theorem symbols_eq_zero_iff {block : List Byte} {k : Nat} : (symbols block)[k]? = some 0 ↔ k = block.length := by
  rw [symbols, List.getElem?_append, List.length_map]
  split_ifs with hk
  · simp [hk, Nat.ne_of_lt hk]
  · simp only [List.getElem?_singleton, ite_eq_left_iff, reduceCtorEq, imp_false, not_not]
    omega

/-- R171's order is contained in the lexicographic one. -/
theorem drop_lt_of_suffixBefore {x : List Nat} {i j : Nat} (h : SuffixBefore x i j) : x.drop i < x.drop j := by
  obtain ⟨k, a, b, ha, hb, hab, heq⟩ := h
  obtain ⟨hi, rfl⟩ := List.getElem?_eq_some_iff.mp ha
  obtain ⟨hj, rfl⟩ := List.getElem?_eq_some_iff.mp hb
  have hki : k < (x.drop i).length := by rw [List.length_drop]; omega
  have hkj : k < (x.drop j).length := by rw [List.length_drop]; omega
  refine List.lt_iff_exists.mpr (.inr ⟨k, hki, hkj, fun m hm => ?_, by simpa using hab⟩)
  rw [← Option.some_inj, ← List.getElem?_eq_getElem, ← List.getElem?_eq_getElem, List.getElem?_drop,
    List.getElem?_drop, heq m hm]

/-- In S(B) the two orders agree: were one suffix the beginning of another, the sentinel that ends it would stand
before position n. -/
theorem suffixBefore_of_drop_lt {block : List Byte} {i j : Nat} (hi : i ≤ block.length)
    (h : (symbols block).drop i < (symbols block).drop j) : SuffixBefore (symbols block) i j := by
  rcases List.lt_iff_exists.mp h with ⟨hbegin, hlen⟩ | ⟨k, hik, hjk, heq, hlt⟩
  · exfalso
    simp only [List.length_drop, symbols_length] at hbegin hlen
    have hlast := congrArg (fun y : List Nat => y[block.length - i]?) hbegin
    simp only [List.getElem?_take, List.getElem?_drop] at hlast
    rw [if_pos (by omega), symbols_eq_zero_iff.mpr (by omega)] at hlast
    have := symbols_eq_zero_iff.mp hlast.symm
    omega
  · rw [List.length_drop] at hik hjk
    simp only [List.getElem_drop] at heq hlt
    refine ⟨k, _, _, List.getElem?_eq_getElem (by omega), List.getElem?_eq_getElem (by omega), hlt, fun m hm => ?_⟩
    rw [List.getElem?_eq_getElem (by omega), List.getElem?_eq_getElem (by omega), heq m hm]

theorem not_suffixBefore_symm {x : List Nat} {i j : Nat} (h : SuffixBefore x i j) : ¬ SuffixBefore x j i :=
  fun h' => lt_asymm (drop_lt_of_suffixBefore h) (drop_lt_of_suffixBefore h')

/-- No suffix comes before the sentinel's: it starts with the least symbol, and has no other. -/
theorem not_suffixBefore_sentinel (block : List Byte) (i : Nat) :
    ¬ SuffixBefore (symbols block) i block.length := by
  rintro ⟨k, a, b, -, hb, hab, -⟩
  have hk := (List.getElem?_eq_some_iff.mp hb).1
  rw [symbols_length] at hk
  obtain rfl : k = 0 := by omega
  have hzero : (symbols block)[block.length + 0]? = some 0 := symbols_eq_zero_iff.mpr rfl
  rw [hb, Option.some.injEq] at hzero
  omega

/-! ## The suffix array (R172) -/

theorem suffixArray_perm (block : List Byte) : (suffixArray block).Perm (List.range (block.length + 1)) := by
  have h := (sortSuffixes_perm (suffixesFrom 0 (symbols block))).map Prod.fst
  rwa [suffixesFrom_offsets, symbols_length] at h

theorem mem_suffixArray {block : List Byte} {i : Nat} : i ∈ suffixArray block ↔ i ≤ block.length := by
  rw [(suffixArray_perm block).mem_iff, List.mem_range, Nat.lt_succ_iff]

theorem suffixArray_pairwise (block : List Byte) :
    (suffixArray block).Pairwise (SuffixBefore (symbols block)) := by
  rw [suffixArray, List.pairwise_map]
  refine (sortSuffixes_pairwise (suffixesFrom_distinct _)).imp_of_mem fun {p q} hp hq hlt => ?_
  obtain ⟨hp1, hp2⟩ := mem_suffixesFrom ((sortSuffixes_perm _).mem_iff.mp hp)
  obtain ⟨-, hq2⟩ := mem_suffixesFrom ((sortSuffixes_perm _).mem_iff.mp hq)
  rw [symbols_length] at hp1
  exact suffixBefore_of_drop_lt (Nat.le_of_lt_succ hp1) (hp2 ▸ hq2 ▸ hlt)

/-- Strictly rising lists of the same suffixes are equal: the order has no cycle of two. -/
theorem eq_of_perm_of_suffixBefore {x : List Nat} {l m : List Nat} (hl : l.Pairwise (SuffixBefore x))
    (hm : m.Pairwise (SuffixBefore x)) (h : l.Perm m) : l = m :=
  h.eq_of_pairwise (fun _ _ _ _ hij hji => absurd hji (not_suffixBefore_symm hij)) hl hm

/-- SA[0] = n. -/
theorem suffixArray_head (block : List Byte) : (suffixArray block).head? = some block.length := by
  have hmem : block.length ∈ suffixArray block := mem_suffixArray.mpr le_rfl
  have hrise := suffixArray_pairwise block
  cases hsa : suffixArray block with
  | nil => simp [hsa] at hmem
  | cons i t =>
    rw [hsa] at hmem hrise
    rcases List.mem_cons.mp hmem with hhead | htail
    · rw [List.head?_cons, hhead]
    · exact absurd (List.rel_of_pairwise_cons hrise htail) (not_suffixBefore_sentinel block i)

/-! ## SA_BUILD (R173) -/

/-- An entry of SAMEM that the suffix array fills, as a 32-bit value. -/
theorem readSamem_storeSuffixArray {x : List Byte} (s : State) {r : Nat} (h : r ≤ x.length) :
    readSamem (storeSuffixArray x s) r = BitVec.ofNat 32 ((suffixArray x).getD r 0) := by
  have hr : r < (suffixArray x).length := by rw [suffixArray_length]; omega
  simp [readSamem, Ram.read_refill, hr]

theorem exec_saBuild_of_fits {s : State} (h : InputFits s) :
    exec .saBuild s = .next (succeeded (storeSuffixArray s.input s)) :=
  if_neg (Nat.not_lt.mpr h)

/-- SA_BUILD on an input longer than BUF_CAP (R173, R378). -/
theorem exec_saBuild_of_tooLong {s : State} (h : s.params.bufCap < s.ilen.toNat) :
    exec .saBuild s = .next (failed inputTooLong 0 s) := by
  change execSaBuild s = _
  rw [execSaBuild, if_pos h, failUnit_begin]

end Sys2Proof.Machine

namespace Sys2Proof

open Sys2Proof.Machine Sys2Proof.Safety

/-- Settles O16: the sort permutes the suffixes and leaves them strictly rising, and the order has no cycle. -/
theorem suffixArrayIsTheSortedPermutation : Obligations.SuffixArrayIsTheSortedPermutation :=
  fun block => ⟨suffixArray_perm block, suffixArray_pairwise block, suffixArray_head block, fun _ hperm hl =>
    eq_of_perm_of_suffixBefore hl (suffixArray_pairwise block) (hperm.trans (suffixArray_perm block).symm)⟩

/-- Settles O17: an entry of the suffix array is at most n, so with R7's bound on BUF_CAP its 32-bit value is the entry
itself. -/
theorem saBuildStoresSuffixArray : Obligations.SaBuildStoresSuffixArray := by
  refine fun s hwf => ⟨fun hfits => ⟨_, exec_saBuild_of_fits hfits, ?_, fun r hr => ?_⟩, exec_saBuild_of_tooLong⟩
  · rw [← input_length s]
    rfl
  · rw [← input_length s] at hr
    have hread : readSamem (succeeded (storeSuffixArray s.input s)) r = _ := readSamem_storeSuffixArray s hr
    have hlen : r < (suffixArray s.input).length := by rw [suffixArray_length]; omega
    have hentry : (suffixArray s.input).getD r 0 ≤ s.ilen.toNat := by
      rw [List.getD_eq_getElem _ _ hlen, ← input_length s]
      exact mem_suffixArray.mp (List.getElem_mem hlen)
    have hcap := bufCap_le hwf
    have hilen : s.ilen.toNat ≤ s.params.bufCap := hfits
    rw [hread, BitVec.toNat_ofNat, Nat.mod_eq_of_lt (by omega)]

end Sys2Proof
end

section
/-! The inverse of the Burrows-Wheeler transform (R181 to R186). The byte in position c of L' stands for the offset
`columnPositions block` lists there, and T1 + T2 is the rank of the suffix at that offset among the suffixes, that is
its row in the suffix array; so the walk of R185 visits the offsets n-1, n-2, ..., 0. -/

namespace Sys2Proof.Machine

open Sys2Proof.Safety

/-! ## Ranks in a rising list -/

/-- Up to position k, a rising list holds the entries less than the k-th and no others. -/
theorem countP_take_of_rising {α β : Type} [Preorder β] [DecidableLT β] {f : α → β} (p : α → Bool) {l : List α}
    (hl : l.Pairwise fun a b => f a < f b) {k : Nat} (hk : k < l.length) :
    (l.take k).countP p = l.countP fun a => p a && decide (f a < f l[k]) := by
  induction l generalizing k with
  | nil => simp at hk
  | cons a t ih =>
    obtain ⟨ha, ht⟩ := List.pairwise_cons.mp hl
    cases k with
    | zero =>
      refine (List.countP_eq_zero.mpr fun b hb => ?_).symm
      rcases List.mem_cons.mp hb with rfl | hb
      · simp
      · simp [(ha b hb).not_gt]
    | succ k =>
      have hk' : k < t.length := Nat.lt_of_succ_lt_succ hk
      have hlt : f a < f t[k] := ha _ (List.getElem_mem hk')
      rw [List.take_succ_cons, List.countP_cons, List.countP_cons, ih ht hk', List.getElem_cons_succ]
      simp [hlt]

/-- The position of an entry of a rising list is the number of entries less than it. -/
theorem countP_lt_of_rising {α β : Type} [Preorder β] [DecidableLT β] {f : α → β} {l : List α}
    (hl : l.Pairwise fun a b => f a < f b) {k : Nat} (hk : k < l.length) :
    l.countP (fun a => decide (f a < f l[k])) = k := by
  have h := countP_take_of_rising (fun _ => true) hl hk
  simpa [Nat.min_eq_left hk.le] using h.symm

/-- Counting with a test that is one of two tests that exclude each other. -/
theorem countP_or_of_disjoint {α : Type} {p q : α → Bool} (l : List α) (h : ∀ a ∈ l, p a = true → q a = false) :
    l.countP (fun a => p a || q a) = l.countP p + l.countP q := by
  induction l with
  | nil => rfl
  | cons a t ih =>
    obtain ⟨ha, ht⟩ := List.forall_mem_cons.mp h
    rw [List.countP_cons, List.countP_cons, List.countP_cons, ih ht]
    cases hp : p a
    · simp only [Bool.false_or, Bool.false_eq_true, if_false]
      omega
    · simp only [Bool.true_or, ha hp, Bool.false_eq_true, if_true, if_false]
      omega

/-! ## The rows of the suffix array (R172, R182) -/

theorem suffixArray_nodup (block : List Byte) : (suffixArray block).Nodup :=
  (suffixArray_perm block).nodup_iff.mpr List.nodup_range

theorem zero_mem_suffixArray (block : List Byte) : 0 ∈ suffixArray block := mem_suffixArray.mpr (Nat.zero_le _)

/-- The suffix array is rising in the lexicographic order of the suffixes. -/
theorem suffixArray_rising (block : List Byte) :
    (suffixArray block).Pairwise fun i j => (symbols block).drop i < (symbols block).drop j :=
  (suffixArray_pairwise block).imp drop_lt_of_suffixBefore

theorem sentinelIndex_lt (block : List Byte) :
    sentinelIndex (suffixArray block) < (suffixArray block).length :=
  List.idxOf_lt_length_of_mem (zero_mem_suffixArray block)

theorem suffixArray_sentinelIndex (block : List Byte) :
    (suffixArray block)[sentinelIndex (suffixArray block)]? = some 0 :=
  List.getElem?_idxOf (zero_mem_suffixArray block)

theorem sentinelIndex_le (block : List Byte) : sentinelIndex (suffixArray block) ≤ block.length := by
  have h := sentinelIndex_lt block
  rw [suffixArray_length] at h
  omega

theorem suffixArray_getElem?_zero (block : List Byte) : (suffixArray block)[0]? = some block.length := by
  rw [← List.head?_eq_getElem?, suffixArray_head]

/-- Row 0 is the row of suffix n, so it is not the sentinel row of a block that has a byte (R182). -/
theorem sentinelIndex_pos {block : List Byte} (h : block ≠ []) : 1 ≤ sentinelIndex (suffixArray block) := by
  by_contra hzero
  have hrow := suffixArray_sentinelIndex block
  rw [Nat.lt_one_iff.mp (Nat.lt_of_not_le hzero), suffixArray_getElem?_zero, Option.some_inj] at hrow
  exact h (List.length_eq_zero_iff.mp hrow)

theorem sentinelPossible_zero {si : Nat} : sentinelPossible 0 si = true ↔ si = 0 := by simp [sentinelPossible]

theorem sentinelPossible_of_pos {n si : Nat} (h : 0 < n) : sentinelPossible n si = true ↔ 1 ≤ si ∧ si ≤ n := by
  simp [sentinelPossible, h.ne']

/-- The range of R182 is what the checks of R185 accept. -/
theorem sentinelPossible_sentinelIndex (block : List Byte) :
    sentinelPossible block.length (sentinelIndex (suffixArray block)) = true := by
  rcases Nat.eq_zero_or_pos block.length with hlen | hlen
  · rw [hlen, sentinelPossible_zero, ← Nat.le_zero, ← hlen]
    exact sentinelIndex_le block
  · exact (sentinelPossible_of_pos hlen).mpr
      ⟨sentinelIndex_pos (List.ne_nil_of_length_pos hlen), sentinelIndex_le block⟩

/-! ## The offsets behind L' (R181) -/

/-- The offset in the block of each byte of L'. -/
def columnPositions (block : List Byte) : List Nat := ((suffixArray block).erase 0).map Nat.pred

theorem bwtColumn_eq_map (block : List Byte) (l : List Nat) :
    bwtColumn block l = ((l.filter (· != 0)).map Nat.pred).map (block.getD · 0) := by
  induction l with
  | nil => rfl
  | cons i t ih =>
    cases i with
    | zero => simp [bwtColumn, ih]
    | succ i => simp [bwtColumn, ih]

/-- L' lists the bytes at the column's offsets. -/
theorem bwtColumn_suffixArray (block : List Byte) :
    bwtColumn block (suffixArray block) = (columnPositions block).map (block.getD · 0) := by
  rw [bwtColumn_eq_map, columnPositions, (suffixArray_nodup block).erase_eq_filter]

theorem bwtColumn_getD {block : List Byte} {c k : Nat} (h : (columnPositions block)[c]? = some k) :
    (bwtColumn block (suffixArray block)).getD c 0 = block.getD k 0 := by
  rw [bwtColumn_suffixArray, List.getD_eq_getElem?_getD, List.getElem?_map, h]
  rfl

/-- Every offset stands behind exactly one byte of L'. -/
theorem columnPositions_perm (block : List Byte) : (columnPositions block).Perm (List.range block.length) := by
  have h := ((suffixArray_perm block).erase 0).map Nat.pred
  have hid : Nat.pred ∘ Nat.succ = id := rfl
  rwa [List.range_succ_eq_map, List.erase_cons_head, List.map_map, hid, List.map_id] at h

@[simp] theorem columnPositions_length (block : List Byte) : (columnPositions block).length = block.length := by
  rw [(columnPositions_perm block).length_eq, List.length_range]

@[simp] theorem bwtColumn_length (block : List Byte) :
    (bwtColumn block (suffixArray block)).length = block.length := by
  rw [bwtColumn_suffixArray, List.length_map, columnPositions_length]

@[simp] theorem bwt_length (block : List Byte) : (bwt block).length = block.length + 4 := by
  rw [bwt, List.length_append, bwtColumn_length, leBytes_length]

theorem mem_columnPositions {block : List Byte} {i : Nat} : i ∈ columnPositions block ↔ i < block.length := by
  rw [(columnPositions_perm block).mem_iff, List.mem_range]

/-- The suffixes after the bytes of L' are rising. -/
theorem columnPositions_rising (block : List Byte) :
    (columnPositions block).Pairwise fun i j => (symbols block).drop (i + 1) < (symbols block).drop (j + 1) := by
  rw [columnPositions, List.pairwise_map]
  refine ((suffixArray_rising block).sublist List.erase_sublist).imp_of_mem fun {i j} hi hj hlt => ?_
  have hpos {k : Nat} (hk : k ∈ (suffixArray block).erase 0) : k.pred + 1 = k :=
    Nat.succ_pred ((suffixArray_nodup block).mem_erase_iff.mp hk).1
  rwa [hpos hi, hpos hj]

/-- The byte before the suffix of row r stands in L' at r, or one before it behind the sentinel row (R181). -/
theorem columnPositions_of_row {block : List Byte} {r i : Nat} (h : (suffixArray block)[r]? = some (i + 1)) :
    (columnPositions block)[if sentinelIndex (suffixArray block) ≤ r then r - 1 else r]? = some i := by
  have hne : r ≠ sentinelIndex (suffixArray block) := by
    rintro rfl
    rw [suffixArray_sentinelIndex] at h
    simp at h
  have herase : (suffixArray block).erase 0 = (suffixArray block).eraseIdx (sentinelIndex (suffixArray block)) :=
    List.erase_eq_eraseIdx_of_idxOf rfl
  rw [columnPositions, herase, List.getElem?_map, List.getElem?_eraseIdx]
  split_ifs with hle hlt hlt
  · omega
  · rw [Nat.sub_add_cancel (by omega), h]
    rfl
  · rw [h]
    rfl
  · omega

/-! ## T1 and T2 give the row of an offset (R184) -/

theorem drop_symbols_of_lt {block : List Byte} {i : Nat} (h : i < block.length) :
    (symbols block).drop i = ((block.getD i 0).toNat + 1) :: (symbols block).drop (i + 1) := by
  have hi : i < (symbols block).length := by rw [symbols_length]; omega
  rw [List.drop_eq_getElem_cons hi]
  simp [symbols, List.getElem_append_left, h]

/-- R171's order by the first byte, then by the suffix after it. -/
theorem drop_symbols_lt_iff {block : List Byte} {i k : Nat} (hi : i < block.length) (hk : k < block.length) :
    (symbols block).drop i < (symbols block).drop k ↔
      (block.getD i 0).toNat < (block.getD k 0).toNat
        ∨ block.getD i 0 = block.getD k 0 ∧ (symbols block).drop (i + 1) < (symbols block).drop (k + 1) := by
  rw [drop_symbols_of_lt hi, drop_symbols_of_lt hk, List.cons_lt_cons_iff]
  simp [BitVec.toNat_inj]

theorem drop_symbols_sentinel_lt {block : List Byte} {k : Nat} (hk : k < block.length) :
    (symbols block).drop block.length < (symbols block).drop k := by
  have hlast : (symbols block).drop block.length = [0] := by simp [symbols]
  rw [hlast, drop_symbols_of_lt hk, List.cons_lt_cons_iff]
  exact .inl (Nat.succ_pos _)

/-- The suffixes before suffix k: the sentinel's, those with a smaller first byte, and those with the same first byte
that go on with a smaller suffix. -/
theorem countP_suffixArray_lt {block : List Byte} {k : Nat} (hk : k < block.length) :
    (suffixArray block).countP (fun i => decide ((symbols block).drop i < (symbols block).drop k))
      = 1 + (columnPositions block).countP (fun i => decide ((block.getD i 0).toNat < (block.getD k 0).toNat))
        + (columnPositions block).countP (fun i => (block.getD i 0 == block.getD k 0)
            && decide ((symbols block).drop (i + 1) < (symbols block).drop (k + 1))) := by
  rw [(suffixArray_perm block).countP_eq, List.range_succ, List.countP_append, List.countP_singleton,
    if_pos (decide_eq_true (drop_symbols_sentinel_lt hk)), ← (columnPositions_perm block).countP_eq, Nat.add_comm,
    Nat.add_assoc, ← countP_or_of_disjoint]
  · congr 1
    refine List.countP_congr fun i hi => ?_
    simp [drop_symbols_lt_iff (mem_columnPositions.mp hi) hk]
  · intro i _ hlt
    have hne : block.getD i 0 ≠ block.getD k 0 := fun heq => by
      rw [heq, decide_eq_true_eq] at hlt
      exact lt_irrefl _ hlt
    simp only [beq_eq_false_iff_ne.mpr hne, Bool.false_and]

theorem bwtRows_getD {col : List Byte} {c : Nat} (h : c < col.length) :
    (bwtRows col).getD c 0 = bwtT1 col c + bwtT2 col (col.getD c 0) := by
  simp [bwtRows, h]

/-- T1 counts the suffixes that start with the same byte and come before suffix k. -/
theorem bwtT1_bwtColumn {block : List Byte} {c k : Nat} (h : (columnPositions block)[c]? = some k) :
    bwtT1 (bwtColumn block (suffixArray block)) c
      = (columnPositions block).countP (fun i => (block.getD i 0 == block.getD k 0)
          && decide ((symbols block).drop (i + 1) < (symbols block).drop (k + 1))) := by
  obtain ⟨hc, rfl⟩ := List.getElem?_eq_some_iff.mp h
  rw [bwtT1, bwtColumn_getD h, bwtColumn_suffixArray, ← List.map_take, List.count_eq_countP, List.countP_map]
  exact countP_take_of_rising (fun i => block.getD i 0 == block.getD (columnPositions block)[c] 0)
    (columnPositions_rising block) hc

/-- T2 counts the sentinel's suffix and those that start with a smaller byte. -/
theorem bwtT2_bwtColumn (block : List Byte) (v : Byte) :
    bwtT2 (bwtColumn block (suffixArray block)) v
      = 1 + (columnPositions block).countP (fun i => decide ((block.getD i 0).toNat < v.toNat)) := by
  rw [bwtT2, bwtColumn_suffixArray, List.countP_map]
  rfl

/-- The last-to-first mapping (R184): T1 + T2 of a byte of L' is the row of the suffix that starts with it. -/
theorem suffixArray_bwtRows {block : List Byte} {c k : Nat} (h : (columnPositions block)[c]? = some k) :
    (suffixArray block)[(bwtRows (bwtColumn block (suffixArray block))).getD c 0]? = some k := by
  have hc : c < (bwtColumn block (suffixArray block)).length := by
    rw [bwtColumn_length, ← columnPositions_length]
    exact (List.getElem?_eq_some_iff.mp h).1
  have hk : k < block.length := mem_columnPositions.mp (List.mem_of_getElem? h)
  obtain ⟨r, hr, rfl⟩ := List.mem_iff_getElem.mp (mem_suffixArray.mpr hk.le)
  have hrow : (bwtRows (bwtColumn block (suffixArray block))).getD c 0 = r := by
    rw [bwtRows_getD hc, bwtT1_bwtColumn h, bwtT2_bwtColumn, bwtColumn_getD h, Nat.add_comm, ← countP_suffixArray_lt hk]
    exact countP_lt_of_rising (suffixArray_rising block) hr
  rw [hrow, List.getElem?_eq_getElem hr]

/-! ## The walk (R185, R186) -/

/-- From the column position of offset k - 1, the walk puts the first k bytes of the block in front of those found. -/
theorem bwtWalk_eq_take {block : List Byte} {k cur : Nat} (found : List Byte) (hk : k ≤ block.length)
    (hcur : ∀ i, k = i + 1 → (columnPositions block)[cur]? = some i) :
    bwtWalk (bwtColumn block (suffixArray block)) (bwtRows (bwtColumn block (suffixArray block)))
      (sentinelIndex (suffixArray block)) k cur found = block.take k ++ found := by
  induction k generalizing cur found with
  | zero => rfl
  | succ k ih =>
    have hpos := hcur k rfl
    have hrow := suffixArray_bwtRows hpos
    rw [bwtWalk, ih _ (Nat.le_of_succ_le hk) fun i hi => columnPositions_of_row (hi ▸ hrow), bwtColumn_getD hpos,
      List.getD_eq_getElem block 0 hk, ← List.take_concat_get' block k hk, List.append_assoc, List.singleton_append]

theorem bwtWalk_length (col : List Byte) (rows : List Nat) (si k cur : Nat) (found : List Byte) :
    (bwtWalk col rows si k cur found).length = k + found.length := by
  induction k generalizing cur found with
  | zero => rw [bwtWalk, Nat.zero_add]
  | succ k ih => rw [bwtWalk, ih, List.length_cons, Nat.add_right_comm, Nat.add_assoc]

@[simp] theorem bwtUndo_length (col : List Byte) (si : Nat) : (bwtUndo col si).length = col.length :=
  bwtWalk_length ..

/-- The walk on the transform of a block gives the block (R186). -/
theorem bwtUndo_bwtColumn (block : List Byte) :
    bwtUndo (bwtColumn block (suffixArray block)) (sentinelIndex (suffixArray block)) = block := by
  rw [bwtUndo, bwtColumn_length, bwtWalk_eq_take [] le_rfl fun i hi => ?_, List.take_length, List.append_nil]
  have hstart := columnPositions_of_row (hi ▸ suffixArray_getElem?_zero block)
  rwa [Nat.zero_sub, ite_self] at hstart

end Sys2Proof.Machine
end

section
/-! BWT_FWD and BWT_INV (R183, R185, R187). What the body of either does as stage `k` of a command is said once, for the
command alone (`k = 0`) and for the pipelines. -/

namespace Sys2Proof.Machine

open Sys2Proof.Safety

/-! ## Bodies that emit whole byte strings -/

/-- The working state of stage `k` on the machine `s` with `bytes` emitted and the bit writer and reader untouched. -/
def Work.emitted (k : Nat) (s : State) (bytes : List Byte) : Work :=
  { Work.start k s with out := bytes.reverse, olen := bytes.length }

@[simp] theorem Work.start_mach (k : Nat) (s : State) : (Work.start k s).mach = s := rfl

theorem onMachine_start (f : State → State) (k : Nat) (s : State) :
    onMachine f (Work.start k s) = .ok () (Work.start k (f s)) := rfl

theorem onMachine_emitted (f : State → State) (k : Nat) (s : State) (x : List Byte) :
    onMachine f (Work.emitted k s x) = .ok () (Work.emitted k (f s) x) := rfl

theorem emitAll_emitted {x y : List Byte} {s : State} (k : Nat) (h : x.length + y.length ≤ s.params.bufCap) :
    emitAll y (Work.emitted k s x) = .ok () (Work.emitted k s (x ++ y)) := by
  rw [emitAll_ok y _ h]
  simp [Work.emitted]

theorem emitAll_start {x : List Byte} {s : State} (k : Nat) (h : x.length ≤ s.params.bufCap) :
    emitAll x (Work.start k s) = .ok () (Work.emitted k s x) :=
  emitAll_emitted (x := []) k (by simpa using h)

/-- A command whose body ends well with a byte string emitted (R361). -/
theorem runCodec_of_emitted (keep : FatalError → Bool) {body : List Byte → Cmd Unit} {s t : State} {x : List Byte}
    (hfits : InputFits s)
    (hbody : body s.input (Work.start 0 (beginCommand s)) = .ok () (Work.emitted 0 (beginCommand t) x)) :
    runCodec keep body s = succeeded (commitOutput x t) := by
  rw [runCodec_fits keep body hfits, hbody, finishCodec_ok, ← complete_commit_begin, Work.emitted, List.reverse_reverse]
  rfl

/-- A command whose body raises before it changes anything (R373). -/
theorem runCodec_of_raise {body : List Byte → Cmd Unit} {s : State} {e : FatalError} (hfits : InputFits s)
    (hbody : body s.input (Work.start 0 (beginCommand s)) = .error e (Work.start 0 (beginCommand s))) :
    runCodec keepNothing body s = failed e 0 (discardOutput s) := by
  rw [runCodec_fits keepNothing body hfits, hbody]
  rfl

/-- A command whose input is too long (R378). -/
theorem runCodec_keepNothing_tooLong (body : List Byte → Cmd Unit) {s : State} (h : s.params.bufCap < s.ilen.toNat) :
    runCodec keepNothing body s = failed inputTooLong 0 (discardOutput s) := by
  rw [runCodec_tooLong keepNothing body h]
  rfl

/-! ## BWT_FWD (R183) -/

theorem bwtFwdStage_of_fits {x : List Byte} {s : State} (k : Nat) (h : x.length + 4 ≤ s.params.bufCap) :
    bwtFwdStage x (Work.start k s) = .ok () (Work.emitted k (bwtDone x s) (bwt x)) := by
  have hcolumn : emitAll (bwtColumn x (suffixArray x)) (Work.start k (storeSuffixArray x s)) = _ :=
    emitAll_start k (by rw [bwtColumn_length, storeSuffixArray_params]; omega)
  have htrailer := emitAll_emitted (x := bwtColumn x (suffixArray x)) (y := leBytes 4 (sentinelIndex (suffixArray x)))
    (s := storeSuffixArray x s) k (by rwa [bwtColumn_length, leBytes_length])
  rw [bwtFwdStage, Cmd.get_bind, Work.start_mach, if_neg (Nat.not_lt.mpr h), Cmd.bind_ok (onMachine_start ..),
    Cmd.bind_ok hcolumn, Cmd.bind_ok htrailer, onMachine_emitted, bwtDone, bwt]

theorem bwtFwdStage_of_tooLong {x : List Byte} {s : State} (k : Nat) (h : s.params.bufCap < x.length + 4) :
    bwtFwdStage x (Work.start k s) = .error outputTooLong (Work.start k s) := by
  rw [bwtFwdStage, Cmd.get_bind, Work.start_mach, if_pos h, Cmd.raise_run]

theorem exec_bwtFwd_of_fits {s : State} (h : s.ilen.toNat + 4 ≤ s.params.bufCap) :
    exec .bwtFwd s = .next (succeeded (commitOutput (bwt s.input) (bwtDone s.input s))) := by
  have hbody : bwtFwdStage s.input (Work.start 0 (beginCommand s)) = _ :=
    bwtFwdStage_of_fits (s := beginCommand s) 0 (by rwa [input_length])
  exact congrArg _ (runCodec_of_emitted (t := bwtDone s.input s) keepNothing (Nat.le_of_add_right_le h) hbody)

theorem exec_bwtFwd_of_outputTooLong {s : State} (hfits : InputFits s) (h : s.params.bufCap < s.ilen.toNat + 4) :
    exec .bwtFwd s = .next (failed outputTooLong 0 (discardOutput s)) :=
  congrArg _ (runCodec_of_raise hfits (bwtFwdStage_of_tooLong (s := beginCommand s) 0 (by rwa [input_length])))

theorem exec_bwtFwd_of_inputTooLong {s : State} (h : s.params.bufCap < s.ilen.toNat) :
    exec .bwtFwd s = .next (failed inputTooLong 0 (discardOutput s)) :=
  congrArg _ (runCodec_keepNothing_tooLong bwtFwdStage h)

/-! ## BWT_INV (R185, R187) -/

theorem bwtInvStage_of_noTrailer {x : List Byte} (w : Work) (h : x.length < 4) :
    bwtInvStage x w = .error (malformed 13) w := by
  rw [bwtInvStage, if_pos h, Cmd.raise_run]

theorem bwtInvStage_of_impossible {x : List Byte} (w : Work) (hlen : 4 ≤ x.length)
    (h : sentinelPossible (x.length - 4) (unle (x.drop (x.length - 4))) = false) :
    bwtInvStage x w = .error (malformed 14) w := by
  rw [bwtInvStage, if_neg (Nat.not_lt.mpr hlen), h, if_neg Bool.false_ne_true, Cmd.raise_run]

theorem bwtInvStage_of_possible {x : List Byte} (hlen : 4 ≤ x.length)
    (h : sentinelPossible (x.length - 4) (unle (x.drop (x.length - 4))) = true) :
    bwtInvStage x = bwtInvOutput (x.take (x.length - 4)) (unle (x.drop (x.length - 4))) >>= emitAll := by
  rw [bwtInvStage, if_neg (Nat.not_lt.mpr hlen), if_pos h]

/-- The output has the length of L', and only the number of free draws may change. -/
theorem bwtInvOutput_run (col : List Byte) (si : Nat) (w : Work) :
    ∃ bytes draw, bwtInvOutput col si w = .ok bytes { w with mach := { w.mach with bwtDraw := draw } }
      ∧ bytes.length = col.length := by
  unfold bwtInvOutput
  split_ifs
  · exact ⟨_, w.mach.bwtDraw, rfl, bwtUndo_length col si⟩
  · exact ⟨_, w.mach.bwtDraw + 1, rfl, by rw [freeBwtBytes, List.length_map, List.length_range]⟩

/-- An input that passes the checks, image or not (R187). -/
theorem bwtInvStage_completes {x : List Byte} {s : State} (k : Nat) (hx : x.length ≤ s.params.bufCap)
    (hlen : 4 ≤ x.length) (h : sentinelPossible (x.length - 4) (unle (x.drop (x.length - 4))) = true) :
    ∃ bytes draw, bwtInvStage x (Work.start k s) = .ok () (Work.emitted k { s with bwtDraw := draw } bytes)
      ∧ bytes.length = x.length - 4 := by
  obtain ⟨bytes, draw, hout, hbytes⟩ :=
    bwtInvOutput_run (x.take (x.length - 4)) (unle (x.drop (x.length - 4))) (Work.start k s)
  rw [List.length_take, Nat.min_eq_left (Nat.sub_le _ _)] at hbytes
  refine ⟨bytes, draw, ?_, hbytes⟩
  rw [bwtInvStage_of_possible hlen h, Cmd.bind_ok hout]
  exact emitAll_start (s := { s with bwtDraw := draw }) k (hbytes ▸ (Nat.sub_le _ _).trans hx)

/-- L' of a transform is the input without its trailer. -/
theorem take_bwt (block : List Byte) :
    (bwt block).take ((bwt block).length - 4) = bwtColumn block (suffixArray block) := by
  rw [bwt_length, Nat.add_sub_cancel, bwt, List.take_left' (bwtColumn_length block)]

/-- The trailer of a transform is its sentinelIndex, which 32 bits hold. -/
theorem unle_drop_bwt {block : List Byte} (h : block.length < 4294967296) :
    unle ((bwt block).drop ((bwt block).length - 4)) = sentinelIndex (suffixArray block) := by
  rw [bwt_length, Nat.add_sub_cancel, bwt, List.drop_left' (bwtColumn_length block), unle_leBytes]
  exact Nat.mod_eq_of_lt ((sentinelIndex_le block).trans_lt h)

/-- On a transform the walk gives the block, whose transform is the input, so no free draw is made (R186). -/
theorem bwtInvStage_bwt {block : List Byte} {s : State} (k : Nat) (hsize : block.length < 4294967296)
    (h : block.length ≤ s.params.bufCap) :
    bwtInvStage (bwt block) (Work.start k s) = .ok () (Work.emitted k s block) := by
  have hlen : 4 ≤ (bwt block).length := by rw [bwt_length]; exact Nat.le_add_left ..
  have hpossible :
      sentinelPossible ((bwt block).length - 4) (unle ((bwt block).drop ((bwt block).length - 4))) = true := by
    rw [unle_drop_bwt hsize, bwt_length, Nat.add_sub_cancel]
    exact sentinelPossible_sentinelIndex block
  have hout : bwtInvOutput (bwtColumn block (suffixArray block)) (sentinelIndex (suffixArray block)) = pure block := by
    rw [bwtInvOutput, bwtUndo_bwtColumn]
    exact if_pos rfl
  rw [bwtInvStage_of_possible hlen hpossible, take_bwt, unle_drop_bwt hsize, hout, Cmd.bind_ok (Cmd.pure_run _ _)]
  exact emitAll_start k h

theorem exec_bwtInv_of_bwt {s : State} {block : List Byte} (hwf : s.params.wf = true) (hfits : InputFits s)
    (hinput : s.input = bwt block) : exec .bwtInv s = .next (succeeded (commitOutput block s)) := by
  have hlen : s.ilen.toNat = block.length + 4 := by rw [← input_length, hinput, bwt_length]
  have hcap := bufCap_le hwf
  have hbuf : block.length + 4 ≤ s.params.bufCap := hlen ▸ hfits
  have hbody : bwtInvStage s.input (Work.start 0 (beginCommand s)) = _ :=
    hinput ▸ bwtInvStage_bwt (s := beginCommand s) 0 (by omega) (Nat.le_of_add_right_le hbuf)
  exact congrArg _ (runCodec_of_emitted keepNothing hfits hbody)

theorem exec_bwtInv_of_noTrailer {s : State} (hfits : InputFits s) (h : s.ilen.toNat < 4) :
    exec .bwtInv s = .next (failed (malformed 13) 0 (discardOutput s)) :=
  congrArg _ (runCodec_of_raise hfits (bwtInvStage_of_noTrailer _ (by rwa [input_length])))

theorem exec_bwtInv_of_impossible {s : State} (hfits : InputFits s) (hlen : 4 ≤ s.ilen.toNat)
    (h : ¬ sentinelPossible (s.ilen.toNat - 4) (unle (s.input.drop (s.ilen.toNat - 4))) = true) :
    exec .bwtInv s = .next (failed (malformed 14) 0 (discardOutput s)) := by
  rw [← input_length] at hlen h
  exact congrArg _ (runCodec_of_raise hfits (bwtInvStage_of_impossible _ hlen (Bool.eq_false_of_not_eq_true h)))

theorem exec_bwtInv_of_possible {s : State} (hfits : InputFits s) (hlen : 4 ≤ s.ilen.toNat)
    (h : sentinelPossible (s.ilen.toNat - 4) (unle (s.input.drop (s.ilen.toNat - 4))) = true) :
    ∃ bytes draw, exec .bwtInv s = .next (succeeded (commitOutput bytes { s with bwtDraw := draw }))
      ∧ bytes.length = s.ilen.toNat - 4 := by
  have hx : s.input.length ≤ s.params.bufCap := (input_length s).trans_le hfits
  rw [← input_length] at hlen h ⊢
  obtain ⟨bytes, draw, hbody, hbytes⟩ := bwtInvStage_completes (s := beginCommand s) 0 hx hlen h
  exact ⟨bytes, draw, congrArg _ (runCodec_of_emitted (t := { s with bwtDraw := draw }) _ hfits hbody), hbytes⟩

/-! ## XFER between two commands (R363) -/

/-- XFER loads the output as the host would. -/
theorem exec_xfer (s : State) : exec .xfer s = .next (succeeded (hostLoad s.output s)) := by
  change execXfer s = _
  rw [execXfer, hostLoad, output_length, BitVec.ofNat_toNat, BitVec.setWidth_eq]
  rfl

theorem chain_singleton {i : Instr} {s t : State} (h : exec i s = .next t) : chain [i] s = some t := by
  simp only [chain, h]

/-- A chain whose first command succeeds with a committed output: the next one runs with that output as its input
(R349). -/
theorem chain_of_committed {i j : Instr} {more : List Instr} {s t : State} {x : List Byte}
    (h : exec i s = .next (succeeded (commitOutput x t))) (hx : x.length < 4294967296) :
    chain (i :: j :: more) s = chain (j :: more) (succeeded (hostLoad x (succeeded (commitOutput x t)))) := by
  have hout : (succeeded (commitOutput x t)).output = x := output_commitOutput t hx
  have hok : (succeeded (commitOutput x t)).status.err = 0 := rfl
  rw [chain, h]
  dsimp only
  rw [if_neg (not_not.mpr hok), exec_xfer, hout]

end Sys2Proof.Machine

namespace Sys2Proof

open Sys2Proof.Machine Sys2Proof.Safety

/-- Settles O18: the suffix array permutes 0 .. n, and its row 0 is the sentinel's. -/
theorem sentinelIndexRange : Obligations.SentinelIndexRange := by
  refine fun block => ⟨List.count_eq_one_of_mem (suffixArray_nodup block) (zero_mem_suffixArray block),
    suffixArray_sentinelIndex block, ?_, fun hne => ⟨sentinelIndex_pos hne, sentinelIndex_le block⟩⟩
  rintro rfl
  exact ⟨rfl, rfl⟩

/-- Settles O19: the three ways BWT_FWD can end. -/
theorem bwtFwdOutput : Obligations.BwtFwdOutput :=
  fun _ => ⟨exec_bwtFwd_of_fits, exec_bwtFwd_of_outputTooLong, exec_bwtFwd_of_inputTooLong⟩

/-- Settles O20: the walk visits the offsets of the block from its last to its first (`bwtUndo_bwtColumn`), so the
transform of what it gives is the input, and BWT_INV answers it. -/
theorem bwtInvUndoesBwtFwd : Obligations.BwtInvUndoesBwtFwd := by
  refine ⟨fun _ _ => exec_bwtInv_of_bwt, fun s hwf hroom => ?_⟩
  have hcap := bufCap_le hwf
  have hsize : (bwt s.input).length < 4294967296 := by rw [bwt_length, input_length]; omega
  have hblock : s.input.length < 4294967296 := by rw [input_length]; omega
  rw [chain_of_committed (exec_bwtFwd_of_fits hroom) hsize]
  generalize hu : succeeded (hostLoad (bwt s.input) _) = u
  have hinput : u.input = bwt s.input := hu ▸ input_hostLoad _ hsize
  have hparams : u.params = s.params := hu ▸ rfl
  have hfits : InputFits u := by
    rwa [InputFits, ← input_length, hinput, bwt_length, input_length, hparams]
  exact ⟨_, chain_singleton (exec_bwtInv_of_bwt (hparams ▸ hwf) hfits hinput), rfl, output_commitOutput u hblock⟩

/-- Settles O21: the trailers that the checks of R185 reject, one check for each way. -/
theorem bwtInvRejectsBadTrailer : Obligations.BwtInvRejectsBadTrailer := by
  refine fun s hfits => ⟨exec_bwtInv_of_noTrailer hfits, fun hlen hsi => ?_, fun hlen hsi => ?_⟩
  · refine exec_bwtInv_of_impossible hfits hlen.ge ?_
    rwa [hlen, Nat.sub_self, List.drop_zero, sentinelPossible_zero]
  · refine exec_bwtInv_of_impossible hfits hlen.le ?_
    rw [sentinelPossible_of_pos (Nat.sub_pos_of_lt hlen)]
    omega

/-- Settles O22: past the checks only the emission is left, and n bytes fit where n + 4 did. -/
theorem bwtInvCompletesOnPossibleTrailer : Obligations.BwtInvCompletesOnPossibleTrailer := by
  intro s _ hfits hlen hpossible
  obtain ⟨bytes, draw, hexec, hbytes⟩ := exec_bwtInv_of_possible hfits hlen hpossible
  refine ⟨_, hexec, ?_, rfl⟩
  change (BitVec.ofNat 32 bytes.length).toNat = _
  rw [BitVec.toNat_ofNat, hbytes]
  omega

end Sys2Proof
end

section
/-! Move to front (R200 to R203). MTF_ENC and MTF_DEC emit one byte for each input byte, so their output always fits.
Every table of a pass is a permutation of the first one, so it holds every byte value exactly once, and there
`idxOf` (MTF_ENC) and `getD` (MTF_DEC) undo each other. -/

namespace Sys2Proof.Machine

open Sys2Proof.Safety

/-! ## The table (R200) -/

theorem mem_mtfTable (b : Byte) : b ∈ mtfTable :=
  List.mem_map.mpr ⟨b.toNat, List.mem_range.mpr b.isLt, BitVec.ofNat_toNat 8 b⟩

theorem mtfTable_nodup : mtfTable.Nodup := by
  refine List.nodup_range.map_on fun i hi j hj hij => ?_
  rw [List.mem_range] at hi hj
  have h := congrArg BitVec.toNat hij
  rwa [BitVec.toNat_ofNat, BitVec.toNat_ofNat, Nat.mod_eq_of_lt hi, Nat.mod_eq_of_lt hj] at h

@[simp] theorem mtfTable_length : mtfTable.length = 256 := by
  rw [mtfTable, List.length_map, List.length_range]

/-- `MoveToFront` only moves an entry, so the tables of a pass stay permutations of the first one. -/
theorem moveToFront_perm {t : List Byte} {p : Nat} (ht : t.Perm mtfTable) (hp : p < 256) :
    (moveToFront p t).Perm mtfTable := by
  have hlt : p < t.length := by rwa [ht.length_eq, mtfTable_length]
  rw [moveToFront, List.getD_eq_getElem t 0 hlt]
  exact (List.getElem_cons_eraseIdx_perm hlt).trans ht

theorem idxOf_lt_of_perm {t : List Byte} (ht : t.Perm mtfTable) (b : Byte) : t.idxOf b < 256 := by
  have h := List.idxOf_lt_length_of_mem (ht.mem_iff.mpr (mem_mtfTable b))
  rwa [ht.length_eq, mtfTable_length] at h

/-- A byte stands at its position. -/
theorem getD_idxOf_of_perm {t : List Byte} (ht : t.Perm mtfTable) (b : Byte) : t.getD (t.idxOf b) 0 = b := by
  have hlt := List.idxOf_lt_length_of_mem (ht.mem_iff.mpr (mem_mtfTable b))
  rw [List.getD_eq_getElem t 0 hlt, List.getElem_idxOf]

/-- No byte stands at two positions. -/
theorem idxOf_getD_of_perm {t : List Byte} {p : Nat} (ht : t.Perm mtfTable) (hp : p < 256) :
    t.idxOf (t.getD p 0) = p := by
  have hlt : p < t.length := by rwa [ht.length_eq, mtfTable_length]
  rw [List.getD_eq_getElem t 0 hlt, (ht.nodup_iff.mpr mtfTable_nodup).idxOf_getElem]

/-! ## The coders as functions -/

@[simp] theorem mtfEncodeFrom_length (t x : List Byte) : (mtfEncodeFrom t x).length = x.length := by
  induction x generalizing t with
  | nil => rfl
  | cons b x ih => rw [mtfEncodeFrom, List.length_cons, List.length_cons, ih]

@[simp] theorem mtfDecodeFrom_length (t x : List Byte) : (mtfDecodeFrom t x).length = x.length := by
  induction x generalizing t with
  | nil => rfl
  | cons p x ih => rw [mtfDecodeFrom, List.length_cons, List.length_cons, ih]

@[simp] theorem mtfEncode_length (x : List Byte) : (mtfEncode x).length = x.length := mtfEncodeFrom_length mtfTable x

@[simp] theorem mtfDecode_length (x : List Byte) : (mtfDecode x).length = x.length := mtfDecodeFrom_length mtfTable x

/-- The decoder finds each byte at the position sent for it, and both then move the same entry to the front. -/
theorem mtfDecodeFrom_mtfEncodeFrom {t : List Byte} (ht : t.Perm mtfTable) (x : List Byte) :
    mtfDecodeFrom t (mtfEncodeFrom t x) = x := by
  induction x generalizing t with
  | nil => rfl
  | cons b x ih =>
    have hp := idxOf_lt_of_perm ht b
    have hsent : (BitVec.ofNat 8 (t.idxOf b)).toNat = t.idxOf b := by rw [BitVec.toNat_ofNat, Nat.mod_eq_of_lt hp]
    rw [mtfEncodeFrom, mtfDecodeFrom, hsent, getD_idxOf_of_perm ht, ih (moveToFront_perm ht hp)]

/-- The encoder finds each decoded byte at the position it was read from. -/
theorem mtfEncodeFrom_mtfDecodeFrom {t : List Byte} (ht : t.Perm mtfTable) (x : List Byte) :
    mtfEncodeFrom t (mtfDecodeFrom t x) = x := by
  induction x generalizing t with
  | nil => rfl
  | cons p x ih =>
    rw [mtfDecodeFrom, mtfEncodeFrom, idxOf_getD_of_perm ht p.isLt, BitVec.ofNat_toNat, BitVec.setWidth_eq,
      ih (moveToFront_perm ht p.isLt)]

theorem mtfDecode_mtfEncode (x : List Byte) : mtfDecode (mtfEncode x) = x := mtfDecodeFrom_mtfEncodeFrom (.refl _) x

theorem mtfEncode_mtfDecode (x : List Byte) : mtfEncode (mtfDecode x) = x := mtfEncodeFrom_mtfDecodeFrom (.refl _) x

/-! ## The commands (R201, R202) -/

theorem mtfEncFrom_eq_emitAll (t x : List Byte) : mtfEncFrom t x = emitAll (mtfEncodeFrom t x) := by
  induction x generalizing t with
  | nil => rfl
  | cons b x ih => rw [mtfEncFrom, mtfEncodeFrom, emitAll, ih]

theorem mtfDecFrom_eq_emitAll (t x : List Byte) : mtfDecFrom t x = emitAll (mtfDecodeFrom t x) := by
  induction x generalizing t with
  | nil => rfl
  | cons p x ih => rw [mtfDecFrom, mtfDecodeFrom, emitAll, ih]

theorem mtfEncStage_eq_emitAll (x : List Byte) : mtfEncStage x = emitAll (mtfEncode x) :=
  mtfEncFrom_eq_emitAll mtfTable x

theorem mtfDecStage_eq_emitAll (x : List Byte) : mtfDecStage x = emitAll (mtfDecode x) :=
  mtfDecFrom_eq_emitAll mtfTable x

/-- A body that emits as many bytes as its input has cannot overflow, as the input fits. -/
theorem runCodec_of_emitAll {body : List Byte → Cmd Unit} {f : List Byte → List Byte} {s : State}
    (hbody : body s.input = emitAll (f s.input)) (hlen : (f s.input).length = s.input.length) (hfits : InputFits s) :
    runCodec keepNothing body s = succeeded (commitOutput (f s.input) s) := by
  refine runCodec_of_emitted keepNothing hfits ?_
  rw [hbody]
  exact emitAll_start 0 ((hlen.trans (input_length s)).trans_le hfits)

theorem exec_mtfEnc_of_fits {s : State} (hfits : InputFits s) :
    exec .mtfEnc s = .next (succeeded (commitOutput (mtfEncode s.input) s)) :=
  congrArg _ (runCodec_of_emitAll (mtfEncStage_eq_emitAll _) (mtfEncode_length _) hfits)

theorem exec_mtfDec_of_fits {s : State} (hfits : InputFits s) :
    exec .mtfDec s = .next (succeeded (commitOutput (mtfDecode s.input) s)) :=
  congrArg _ (runCodec_of_emitAll (mtfDecStage_eq_emitAll _) (mtfDecode_length _) hfits)

theorem exec_mtfEnc_of_tooLong {s : State} (h : s.params.bufCap < s.ilen.toNat) :
    exec .mtfEnc s = .next (failed inputTooLong 0 (discardOutput s)) :=
  congrArg _ (runCodec_keepNothing_tooLong mtfEncStage h)

theorem exec_mtfDec_of_tooLong {s : State} (h : s.params.bufCap < s.ilen.toNat) :
    exec .mtfDec s = .next (failed inputTooLong 0 (discardOutput s)) :=
  congrArg _ (runCodec_keepNothing_tooLong mtfDecStage h)

/-! ## Commands that undo each other (R203) -/

/-- On every input that fits, command `i` succeeds with the output `f` of the input, as long as the input. -/
structure Recodes (i : Instr) (f : List Byte → List Byte) : Prop where
  length_eq : ∀ x, (f x).length = x.length
  exec_eq : ∀ s : State, InputFits s → exec i s = .next (succeeded (commitOutput (f s.input) s))

theorem mtfEnc_recodes : Recodes .mtfEnc mtfEncode := ⟨mtfEncode_length, fun _ => exec_mtfEnc_of_fits⟩

theorem mtfDec_recodes : Recodes .mtfDec mtfDecode := ⟨mtfDecode_length, fun _ => exec_mtfDec_of_fits⟩

theorem Recodes.olen_eq {i : Instr} {f : List Byte → List Byte} {s : State} (hi : Recodes i f) (hfits : InputFits s) :
    ∃ t, exec i s = .next t ∧ t.olen = s.ilen := by
  refine ⟨_, hi.exec_eq s hfits, ?_⟩
  change BitVec.ofNat 32 (f s.input).length = s.ilen
  rw [hi.length_eq, input_length, BitVec.ofNat_toNat, BitVec.setWidth_eq]

/-- The output of the first command is as long as its input, so it fits as the input of the second one. -/
theorem Recodes.chain_inverse {i j : Instr} {f g : List Byte → List Byte} {s : State} (hi : Recodes i f)
    (hj : Recodes j g) (hinv : ∀ x, g (f x) = x) (hfits : InputFits s) :
    ∃ t, chain [i, j] s = some t ∧ t.status = doneStatus ∧ t.output = s.input := by
  have hblock : s.input.length < 4294967296 := (input_length s).trans_lt s.ilen.isLt
  have hsize : (f s.input).length < 4294967296 := (hi.length_eq _).trans_lt hblock
  rw [chain_of_committed (hi.exec_eq s hfits) hsize]
  generalize hu : succeeded (hostLoad (f s.input) _) = u
  have hinput : u.input = f s.input := hu ▸ input_hostLoad _ hsize
  have hparams : u.params = s.params := hu ▸ rfl
  have hfitsU : InputFits u := by rwa [InputFits, ← input_length, hinput, hi.length_eq, input_length, hparams]
  have hlast : exec j u = .next (succeeded (commitOutput s.input u)) := by
    rw [hj.exec_eq u hfitsU, hinput, hinv]
  exact ⟨_, chain_singleton hlast, rfl, output_commitOutput u hblock⟩

end Sys2Proof.Machine

namespace Sys2Proof

open Sys2Proof.Machine Sys2Proof.Safety

/-- Settles O23: the two ways MTF_ENC can end. -/
theorem mtfEncOutput : Obligations.MtfEncOutput :=
  fun _ => ⟨exec_mtfEnc_of_fits, exec_mtfEnc_of_tooLong⟩

/-- Settles O24: the two ways MTF_DEC can end. -/
theorem mtfDecOutput : Obligations.MtfDecOutput :=
  fun _ => ⟨exec_mtfDec_of_fits, exec_mtfDec_of_tooLong⟩

/-- Settles O25: the coders undo each other on a permutation of the first table, which every table of a pass is
(`moveToFront_perm`). -/
theorem mtfRoundTrips : Obligations.MtfRoundTrips :=
  fun _ _ hfits =>
    ⟨mtfEnc_recodes.chain_inverse mtfDec_recodes mtfDecode_mtfEncode hfits,
      mtfDec_recodes.chain_inverse mtfEnc_recodes mtfEncode_mtfDecode hfits,
      mtfEnc_recodes.olen_eq hfits, mtfDec_recodes.olen_eq hfits⟩

end Sys2Proof
end

section
/-! The tree of the static Huffman coder (R210 to R213). `LeafAt` is the path of a leaf as a relation, `MergesTo` the
merge loop as one; what the claims say of the tree follows by induction on the merges. -/

namespace Sys2Proof.Machine

open Sys2Proof.Safety

/-! ## Paths to leaves (R212) -/

/-- The bits `c` lead from the root of a tree to a leaf with value `v`, left 0, right 1 (R212). -/
inductive LeafAt : HuffTree → List Bool → Byte → Prop where
  | leaf (v : Byte) : LeafAt (.leaf v) [] v
  | left {l r : HuffTree} {c : List Bool} {v : Byte} (below : LeafAt l c v) : LeafAt (.node l r) (false :: c) v
  | right {l r : HuffTree} {c : List Bool} {v : Byte} (below : LeafAt r c v) : LeafAt (.node l r) (true :: c) v

theorem LeafAt.mem_leaves {t : HuffTree} {c : List Bool} {v : Byte} (h : LeafAt t c v) : v ∈ huffLeaves t := by
  induction h with
  | leaf v => exact List.mem_singleton_self v
  | left _ ih => exact List.mem_append_left _ ih
  | right _ ih => exact List.mem_append_right _ ih

theorem leafAt_of_huffPath {t : HuffTree} {c : List Bool} {v : Byte} (h : huffPath t v = some c) : LeafAt t c v := by
  induction t generalizing c with
  | leaf w =>
    simp only [huffPath, Option.ite_none_right_eq_some, Option.some.injEq] at h
    obtain ⟨rfl, rfl⟩ := h
    exact .leaf w
  | node l r ihl ihr =>
    rw [huffPath] at h
    split at h
    next d hd =>
      obtain rfl := Option.some.inj h
      exact .left (ihl hd)
    next =>
      obtain ⟨d, hd, rfl⟩ := Option.map_eq_some_iff.mp h
      exact .right (ihr hd)

theorem huffPath_isSome_of_mem {t : HuffTree} {v : Byte} (h : v ∈ huffLeaves t) : (huffPath t v).isSome := by
  induction t with
  | leaf w => simp [huffPath, List.mem_singleton.mp h]
  | node l r ihl ihr =>
    rw [huffPath]
    split
    next => rfl
    next hnone =>
      rcases List.mem_append.mp h with hl | hr
      · simpa [hnone] using ihl hl
      · simpa using ihr hr

/-- With two leaves or more the code of a leaf is its path (R212). -/
theorem leafAt_huffCode {l r : HuffTree} {v : Byte} (h : v ∈ huffLeaves (.node l r)) :
    LeafAt (.node l r) (huffCode (.node l r) v) v := by
  obtain ⟨c, hc⟩ := Option.isSome_iff_exists.mp (huffPath_isSome_of_mem h)
  rw [huffCode, hc]
  exact leafAt_of_huffPath hc

theorem LeafAt.ne_nil {l r : HuffTree} {c : List Bool} {v : Byte} (h : LeafAt (.node l r) c v) : c ≠ [] := by
  cases h <;> exact List.cons_ne_nil _ _

theorem LeafAt.eq_of_prefix {t : HuffTree} {c d : List Bool} {v w : Byte} (hc : LeafAt t c v) (hd : LeafAt t d w)
    (h : c <+: d) : v = w := by
  induction hc generalizing d with
  | leaf v => cases hd; rfl
  | left _ ih =>
    cases hd with
    | left hd => exact ih hd (List.cons_prefix_cons.mp h).2
    | right hd => exact absurd (List.cons_prefix_cons.mp h).1 Bool.false_ne_true
  | right _ ih =>
    cases hd with
    | left hd => exact absurd (List.cons_prefix_cons.mp h).1.symm Bool.false_ne_true
    | right hd => exact ih hd (List.cons_prefix_cons.mp h).2

/-- A value that stands on one leaf only has one path. -/
theorem LeafAt.unique {t : HuffTree} {c d : List Bool} {v : Byte} (hnodup : (huffLeaves t).Nodup)
    (hc : LeafAt t c v) (hd : LeafAt t d v) : c = d := by
  induction hc generalizing d with
  | leaf v => cases hd; rfl
  | left hc ih =>
    obtain ⟨hl, -, hdisjoint⟩ := List.nodup_append'.mp hnodup
    cases hd with
    | left hd => rw [ih hl hd]
    | right hd => exact absurd hd.mem_leaves (hdisjoint hc.mem_leaves)
  | right hc ih =>
    obtain ⟨-, hr, hdisjoint⟩ := List.nodup_append'.mp hnodup
    cases hd with
    | left hd => exact absurd hc.mem_leaves (hdisjoint hd.mem_leaves)
    | right hd => rw [ih hr hd]

theorem huffLeaves_length_pos (t : HuffTree) : 1 ≤ (huffLeaves t).length := by
  induction t with
  | leaf v => exact le_rfl
  | node l r ihl _ => rw [huffLeaves, List.length_append]; omega

theorem two_le_huffLeaves_length_node (l r : HuffTree) : 2 ≤ (huffLeaves (.node l r)).length := by
  have hl := huffLeaves_length_pos l
  have hr := huffLeaves_length_pos r
  rw [huffLeaves, List.length_append]
  omega

/-! ## The used byte values (R210) -/

theorem mem_usedBytes {block : List Byte} {v : Byte} : v ∈ usedBytes block ↔ v ∈ block := by
  change v ∈ mtfTable.filter _ ↔ _
  simp [List.mem_filter, mem_mtfTable]

theorem usedBytes_nodup (block : List Byte) : (usedBytes block).Nodup := mtfTable_nodup.filter _

theorem usedBytes_length_le (block : List Byte) : (usedBytes block).length ≤ 256 :=
  (List.length_filter_le _ _).trans_eq mtfTable_length

theorem usedBytes_ne_nil {block : List Byte} (h : block ≠ []) : usedBytes block ≠ [] :=
  List.ne_nil_of_mem (mem_usedBytes.mpr (List.head_mem h))

/-- The leaf of a byte value in the queue of R211, with the number of its occurrences. -/
def leafNode (block : List Byte) (v : Byte) : QueueNode :=
  { freq := block.count v, key := v.toNat, tree := .leaf v }

theorem leafQueue_eq (block : List Byte) : leafQueue block = (usedBytes block).map (leafNode block) := by
  rw [leafQueue, usedBytes, List.filter_map, List.map_map]
  have hused : (fun v => decide (v ∈ block)) ∘ BitVec.ofNat 8
      = fun v => decide (0 < byteFreq block (BitVec.ofNat 8 v)) := by
    funext v
    simp [byteFreq, List.count_pos_iff]
  rw [hused]
  refine List.map_congr_left fun v hv => ?_
  have hlt : v < 256 := List.mem_range.mp (List.mem_filter.mp hv).1
  simp [leafNode, byteFreq, Nat.mod_eq_of_lt hlt]

theorem leafQueue_keys_nodup (block : List Byte) : ((leafQueue block).map QueueNode.key).Nodup := by
  rw [leafQueue_eq, List.map_map]
  exact (usedBytes_nodup block).map (f := QueueNode.key ∘ leafNode block) fun _ _ h => BitVec.eq_of_toNat_eq h

/-! ## The merge loop (R211) -/

/-- With distinct keys the node removed comes strictly before the others. -/
theorem removedBefore_of_popLeast {q r : List QueueNode} {a : QueueNode} (hkeys : (q.map QueueNode.key).Nodup)
    (h : popLeast q = some (a, r)) : ∀ c ∈ r, RemovedBefore a c := by
  intro c hc
  have hperm : (q.map QueueNode.key).Perm (a.key :: r.map QueueNode.key) := (popLeast_perm h).map _
  have hne : c.key ≠ a.key := fun he =>
    (List.nodup_cons.mp (hperm.nodup_iff.mp hkeys)).1 (he ▸ List.mem_map_of_mem hc)
  have hleast := popLeast_least h c hc
  unfold RemovedBefore at hleast ⊢
  omega

/-- The parent takes the key of one of its children, so distinct keys stay distinct. -/
theorem keys_nodup_merge {a b : QueueNode} {r : List QueueNode}
    (h : ((a :: b :: r).map QueueNode.key).Nodup) : ((mergeNodes a b :: r).map QueueNode.key).Nodup := by
  simp only [List.map_cons, List.nodup_cons, List.mem_cons, not_or] at h ⊢
  obtain ⟨⟨-, ha⟩, hb, hr⟩ := h
  refine ⟨?_, hr⟩
  rcases Nat.le_total a.key b.key with hab | hab
  · rwa [mergeNodes, Nat.min_eq_left hab]
  · rwa [mergeNodes, Nat.min_eq_right hab]

/-- The loop of the model, with a pass for each merge, is the merge relation. -/
theorem mergesTo_of_mergeQueue {fuel : Nat} {q : List QueueNode} (hne : q ≠ []) (hfuel : q.length ≤ fuel + 1)
    (hkeys : (q.map QueueNode.key).Nodup) : ∃ t, mergeQueue fuel q = some t ∧ MergesTo q t := by
  induction fuel generalizing q with
  | zero =>
    obtain ⟨a, rfl⟩ := List.length_eq_one_iff.mp (Nat.le_antisymm hfuel (List.length_pos_iff.mpr hne))
    exact ⟨a.tree, rfl, .last a⟩
  | succ fuel ih =>
    rw [mergeQueue]
    split
    next hpop => exact absurd (popLeast_eq_none.mp hpop) hne
    next a q1 hpop =>
      have hperm := popLeast_perm hpop
      split
      next hpop1 =>
        rw [popLeast_eq_none.mp hpop1] at hperm
        obtain rfl := List.perm_singleton.mp hperm
        exact ⟨a.tree, rfl, .last a⟩
      next b q2 hpop1 =>
        have hperm1 := popLeast_perm hpop1
        have hboth : q.Perm (a :: b :: q2) := hperm.trans (hperm1.cons a)
        have hkeys1 : (q1.map QueueNode.key).Nodup :=
          (List.nodup_cons.mp ((hperm.map QueueNode.key).nodup_iff.mp hkeys)).2
        have hlen : q.length = q2.length + 2 := hboth.length_eq
        obtain ⟨t, hrun, hmerges⟩ := ih (q := mergeNodes a b :: q2) (List.cons_ne_nil _ _)
          (by rw [List.length_cons]; omega) (keys_nodup_merge ((hboth.map QueueNode.key).nodup_iff.mp hkeys))
        exact ⟨t, hrun, .merge hboth
          (fun c hc => removedBefore_of_popLeast hkeys hpop c (hperm1.mem_iff.mpr hc))
          (removedBefore_of_popLeast hkeys1 hpop1) hmerges⟩

theorem leaves_perm_of_mergesTo {q : List QueueNode} {t : HuffTree} (h : MergesTo q t) :
    (huffLeaves t).Perm (q.flatMap fun n => huffLeaves n.tree) := by
  induction h with
  | last a => simp
  | merge perm _ _ _ ih =>
    refine ih.trans (.trans ?_ (perm.flatMap_right _).symm)
    simp [huffLeaves]

theorem huffTree_of_ne_nil {block : List Byte} (h : block ≠ []) :
    ∃ t, huffTree block = some t ∧ MergesTo ((usedBytes block).map (leafNode block)) t := by
  have hlen := usedBytes_length_le block
  rw [huffTree, ← leafQueue_eq]
  refine mergesTo_of_mergeQueue ?_ ?_ (leafQueue_keys_nodup block)
  · rw [leafQueue_eq, ne_eq, List.map_eq_nil_iff]
    exact usedBytes_ne_nil h
  · rw [leafQueue_eq, List.length_map]
    omega

@[simp] theorem huffTree_nil : huffTree [] = none := by
  have hqueue : leafQueue [] = [] := by rw [leafQueue_eq]; simp [usedBytes]
  rw [huffTree, hqueue]
  rfl

theorem mergesTo_of_huffTree {block : List Byte} {t : HuffTree} (h : huffTree block = some t) :
    MergesTo ((usedBytes block).map (leafNode block)) t := by
  have hne : block ≠ [] := by
    rintro rfl
    rw [huffTree_nil] at h
    cases h
  obtain ⟨t', ht', hmerges⟩ := huffTree_of_ne_nil hne
  rwa [← Option.some.inj (ht'.symm.trans h)]

theorem huffLeaves_perm {block : List Byte} {t : HuffTree} (h : huffTree block = some t) :
    (huffLeaves t).Perm (usedBytes block) := by
  refine (leaves_perm_of_mergesTo (mergesTo_of_huffTree h)).trans (.of_eq ?_)
  rw [List.flatMap_map]
  exact List.flatMap_singleton' _

theorem mem_huffLeaves {block : List Byte} {t : HuffTree} (h : huffTree block = some t) {v : Byte} :
    v ∈ huffLeaves t ↔ v ∈ block := (huffLeaves_perm h).mem_iff.trans mem_usedBytes

theorem huffLeaves_nodup {block : List Byte} {t : HuffTree} (h : huffTree block = some t) : (huffLeaves t).Nodup :=
  (huffLeaves_perm h).nodup_iff.mpr (usedBytes_nodup block)

/-! ## Depth and frequency (R211) -/

theorem freq_le_of_removedBefore {a b : QueueNode} (h : RemovedBefore a b) : a.freq ≤ b.freq := by
  unfold RemovedBefore at h
  omega

/-- `nodes` holds the frequency and the depth in `t` of every node of the queue `q` and of every node that merging
makes from it. The parent of the rarer of two nodes is no more frequent than the parent of the other, so by going up
from both the rarer one is at least as deep. -/
structure DepthProfile (q : List QueueNode) (t : HuffTree) (nodes : List (Nat × Nat)) : Prop where
  place : ∀ n ∈ q, ∃ p, (n.freq, p.length) ∈ nodes ∧ ∀ c v, LeafAt n.tree c v → LeafAt t (p ++ c) v
  least : ∀ x ∈ nodes, ∃ n ∈ q, n.freq ≤ x.1
  parent : ∀ x ∈ nodes, x.2 = 0 ∨ ∃ g d, x.2 = d + 1 ∧ (g, d + 1) ∈ nodes ∧ (x.1 + g, d) ∈ nodes
  deeper : ∀ x ∈ nodes, ∀ y ∈ nodes, x.1 < y.1 → y.2 ≤ x.2

theorem depthProfile_last (a : QueueNode) : DepthProfile [a] a.tree [(a.freq, 0)] where
  place n hn := by
    obtain rfl := List.mem_singleton.mp hn
    exact ⟨[], List.mem_singleton_self _, fun _ _ h => h⟩
  least x hx := ⟨a, List.mem_singleton_self a, by rw [List.mem_singleton.mp hx]⟩
  parent x hx := .inl (by rw [List.mem_singleton.mp hx])
  deeper x hx y hy _ := by rw [List.mem_singleton.mp hx, List.mem_singleton.mp hy]

/-- Before a merge the profile has the two children as well, one level below their parent. A node `y` more frequent
than one of them is the root, or its parent is more frequent than theirs, as its sibling is at least as frequent as
either of them. -/
theorem DepthProfile.before_merge {a b : QueueNode} {q rest : List QueueNode} {t : HuffTree} {nodes : List (Nat × Nat)}
    (h : DepthProfile (mergeNodes a b :: rest) t nodes) (perm : q.Perm (a :: b :: rest))
    (first : ∀ c ∈ b :: rest, RemovedBefore a c) (second : ∀ c ∈ rest, RemovedBefore b c) :
    ∃ d, DepthProfile q t ([(a.freq, d + 1), (b.freq, d + 1)] ++ nodes) := by
  obtain ⟨p, hp, hleaf⟩ := h.place _ List.mem_cons_self
  have hab : a.freq ≤ b.freq := freq_le_of_removedBefore (first b List.mem_cons_self)
  have hbound : ∀ x ∈ nodes, b.freq ≤ x.1 := by
    intro x hx
    obtain ⟨n, hn, hle⟩ := h.least x hx
    rcases List.mem_cons.mp hn with rfl | hn
    · exact (Nat.le_add_left _ _).trans hle
    · exact (freq_le_of_removedBefore (second n hn)).trans hle
  have hchild : ∀ x ∈ [(a.freq, p.length + 1), (b.freq, p.length + 1)],
      a.freq ≤ x.1 ∧ x.1 ≤ b.freq ∧ x.2 = p.length + 1 := by simp [hab]
  have hin : ∀ {x}, x ∈ nodes → x ∈ [(a.freq, p.length + 1), (b.freq, p.length + 1)] ++ nodes :=
    fun hx => List.mem_append_right _ hx
  refine ⟨p.length, ⟨fun n hn => ?_, fun x hx => ?_, fun x hx => ?_, fun x hx y hy hlt => ?_⟩⟩
  · simp only [perm.mem_iff, List.mem_cons] at hn
    rcases hn with rfl | rfl | hn
    · exact ⟨p ++ [false], by simp, fun c v hc => by simpa using hleaf _ v (.left hc)⟩
    · exact ⟨p ++ [true], by simp, fun c v hc => by simpa using hleaf _ v (.right hc)⟩
    · obtain ⟨p', hp', hleaf'⟩ := h.place n (List.mem_cons_of_mem _ hn)
      exact ⟨p', hin hp', hleaf'⟩
  · refine ⟨a, perm.mem_iff.mpr List.mem_cons_self, ?_⟩
    rcases List.mem_append.mp hx with hx | hx
    · exact (hchild x hx).1
    · exact hab.trans (hbound x hx)
  · simp only [List.cons_append, List.nil_append, List.mem_cons] at hx
    rcases hx with rfl | rfl | hx
    · exact .inr ⟨b.freq, p.length, rfl, by simp, hin hp⟩
    · exact .inr ⟨a.freq, p.length, rfl, by simp, hin (Nat.add_comm a.freq b.freq ▸ hp)⟩
    · rcases h.parent x hx with hroot | ⟨g, d, hd, hsibling, hparent⟩
      · exact .inl hroot
      · exact .inr ⟨g, d, hd, hin hsibling, hin hparent⟩
  · rcases List.mem_append.mp hx with hx | hx <;> rcases List.mem_append.mp hy with hy | hy
    · obtain ⟨-, -, hdx⟩ := hchild x hx
      obtain ⟨-, -, hdy⟩ := hchild y hy
      rw [hdx, hdy]
    · obtain ⟨hax, -, hdepth⟩ := hchild x hx
      rw [hdepth]
      rcases h.parent y hy with hroot | ⟨g, d, hd, hsibling, hparent⟩
      · omega
      · have hg : b.freq ≤ g := hbound _ hsibling
        have hle : d ≤ p.length := h.deeper _ hp _ hparent (show a.freq + b.freq < y.1 + g by omega)
        omega
    · obtain ⟨-, hyb, -⟩ := hchild y hy
      exact absurd (hyb.trans (hbound x hx)) (Nat.not_le.mpr hlt)
    · exact h.deeper x hx y hy hlt

theorem depthProfile_of_mergesTo {q : List QueueNode} {t : HuffTree} (h : MergesTo q t) :
    ∃ nodes, DepthProfile q t nodes := by
  induction h with
  | last a => exact ⟨_, depthProfile_last a⟩
  | merge perm first second _ ih =>
    obtain ⟨nodes, hnodes⟩ := ih
    obtain ⟨d, hd⟩ := hnodes.before_merge perm first second
    exact ⟨_, hd⟩

/-- Of two used byte values the rarer one has the longer path, or one as long. -/
theorem leafAt_length_le {block : List Byte} {t : HuffTree} (h : huffTree block = some t) {v w : Byte}
    {c d : List Bool} (hc : LeafAt t c v) (hd : LeafAt t d w) (hlt : block.count v < block.count w) :
    d.length ≤ c.length := by
  obtain ⟨nodes, hnodes⟩ := depthProfile_of_mergesTo (mergesTo_of_huffTree h)
  have hplace : ∀ {u e}, LeafAt t e u → (block.count u, e.length) ∈ nodes := by
    intro u e he
    have hused : u ∈ usedBytes block := (huffLeaves_perm h).mem_iff.mp he.mem_leaves
    obtain ⟨p, hp, hleaf⟩ := hnodes.place _ (List.mem_map_of_mem hused)
    have hpath : LeafAt t p u := by simpa using hleaf [] u (.leaf u)
    rwa [he.unique (huffLeaves_nodup h) hpath]
  exact hnodes.deeper _ (hplace hc) _ (hplace hd) hlt

end Sys2Proof.Machine

namespace Sys2Proof

open Sys2Proof.Machine Sys2Proof.Safety

/-- Settles O27: the loop of the model removes the strictly least node each time, as all keys differ
(`mergesTo_of_mergeQueue`), and merging permutes the leaves. -/
theorem huffTreeMergesLeastFrequent : Obligations.HuffTreeMergesLeastFrequent := by
  intro block hne
  obtain ⟨t, ht, hmerges⟩ := huffTree_of_ne_nil hne
  exact ⟨t, ht, huffLeaves_perm ht, hmerges⟩

/-- Settles O28: codes are paths to different leaves, and `DepthProfile` orders their lengths by frequency. -/
theorem huffCodesArePrefixFree : Obligations.HuffCodesArePrefixFree := by
  intro block t ht
  have hused : ∀ {v}, v ∈ usedBytes block → v ∈ huffLeaves t := (huffLeaves_perm ht).mem_iff.mpr
  cases t with
  | leaf u =>
    have hone : ∀ {v}, v ∈ usedBytes block → v = u := fun hv => List.mem_singleton.mp (hused hv)
    exact ⟨fun _ _ => le_rfl, fun v hv w hw hne => absurd ((hone hv).trans (hone hw).symm) hne, fun _ _ => rfl,
      fun _ _ _ _ _ => le_rfl⟩
  | node l r =>
    have hpath : ∀ {v}, v ∈ usedBytes block → LeafAt (.node l r) (huffCode (.node l r) v) v :=
      fun hv => leafAt_huffCode (hused hv)
    refine ⟨fun v hv => List.length_pos_iff.mpr (hpath hv).ne_nil,
      fun v hv w hw hne hprefix => hne ((hpath hv).eq_of_prefix (hpath hw) hprefix), fun v hv => ?_,
      fun v hv w hw => leafAt_length_le ht (hpath hv) (hpath hw)⟩
    have htwo := two_le_huffLeaves_length_node l r
    rw [(huffLeaves_perm ht).length_eq, hv, List.length_singleton] at htwo
    omega

end Sys2Proof
end

section
/-! SHUF_ENC (R216). Each part of the body starts and ends on a byte boundary and emits a byte string of its own, or
overflows the output buffer (`Emits`); the container is their concatenation. -/

namespace Sys2Proof.Machine

open Sys2Proof.Safety

/-! ## The machine under the static Huffman commands -/

theorem not_change_of_shuf {i : Instr} (hi : i ∈ [Instr.shufEnc, .shufDec]) {s t : State} : ¬ Change i s t := by
  intro h
  rcases List.mem_pair.mp hi with rfl | rfl <;> cases h <;> simp_all

/-- SHUF_ENC and SHUF_DEC write OBUF and OLEN only, so a body that raises leaves the machine as it was (R216, R218). -/
theorem runCodec_of_shuf_error {i : Instr} {body : List Byte → Cmd Unit} {s : State} {e : FatalError} {v : Work}
    (hi : i ∈ [Instr.shufEnc, .shufDec]) (hdoes : ∀ x w, BodyDoes i (body x) w) (hfits : InputFits s)
    (hbody : body s.input (Work.start 0 (beginCommand s)) = .error e v) :
    runCodec keepNothing body s = failed e 0 (discardOutput s) := by
  obtain ⟨hprogress, -⟩ := (hdoes _ _).error hbody
  have hmach : v.mach = beginCommand s := by
    refine (Relation.ReflTransGen.cases_head hprogress.changes).elim Eq.symm ?_
    rintro ⟨m, hm, -⟩
    exact absurd hm (not_change_of_shuf hi)
  rw [runCodec_fits keepNothing body hfits, hbody, finishCodec_error, keepNothing, if_neg Bool.false_ne_true, hmach,
    fail_discard_begin]

/-! ## Parts of a body that emit a byte string -/

/-- On a byte boundary the bit writer holds nothing (R130). -/
def Work.Aligned (w : Work) : Prop := w.wacc = 0 ∧ w.wcnt = 0

/-- The working state once `bytes` have been emitted. -/
def Work.extended (w : Work) (bytes : List Byte) : Work :=
  { w with out := bytes.reverse ++ w.out, olen := w.olen + bytes.length }

theorem extended_extended (w : Work) (a b : List Byte) : (w.extended a).extended b = w.extended (a ++ b) := by
  simp [Work.extended, Nat.add_assoc]

theorem extended_start (k : Nat) (s : State) (bytes : List Byte) :
    (Work.start k s).extended bytes = Work.emitted k s bytes := by
  simp [Work.extended, Work.emitted, Work.start]

/-- From byte boundary to byte boundary `x` emits `bytes`, or it raises CapacityExceeded(2) if they do not fit. -/
structure Emits (x : Cmd Unit) (bytes : List Byte) : Prop where
  ok : ∀ w : Work, w.Aligned → w.olen + bytes.length ≤ w.mach.params.bufCap → x w = .ok () (w.extended bytes)
  error : ∀ w : Work, w.Aligned → w.olen ≤ w.mach.params.bufCap → w.mach.params.bufCap < w.olen + bytes.length →
    ∃ v, x w = .error outputTooLong v

theorem emits_nothing : Emits (pure ()) [] where
  ok _ _ _ := rfl
  error _ _ h0 h := absurd h (Nat.not_lt.mpr h0)

theorem emits_emitAll (bytes : List Byte) : Emits (emitAll bytes) bytes where
  ok w _ h := emitAll_ok bytes w h
  error w _ h0 h := ⟨_, emitAll_error bytes w h0 h⟩

theorem Emits.bind {x y : Cmd Unit} {a b : List Byte} (hx : Emits x a) (hy : Emits y b) :
    Emits (x >>= fun _ => y) (a ++ b) where
  ok w hw h := by
    rw [List.length_append, ← Nat.add_assoc] at h
    rw [Cmd.bind_ok (hx.ok w hw (Nat.le_of_add_right_le h)), ← extended_extended]
    exact hy.ok (w.extended a) hw h
  error w hw h0 h := by
    rw [List.length_append, ← Nat.add_assoc] at h
    rcases Nat.lt_or_ge w.mach.params.bufCap (w.olen + a.length) with ha | ha
    · obtain ⟨v, hv⟩ := hx.error w hw h0 ha
      exact ⟨v, Cmd.bind_error hv _⟩
    · rw [Cmd.bind_ok (hx.ok w hw ha)]
      exact hy.error (w.extended a) hw ha h

/-! ### Bits -/

theorem putBit_wrote_of_full {w : Work} {bits : List Bool} (b : Bool)
    (hfull : w.olen + bits.length / 8 = w.mach.params.bufCap) (hlast : bits.length % 8 + 1 = 8) :
    putBit b (w.wrote bits) = .error outputTooLong (w.wrote bits) := by
  rw [putBit_run]
  exact (if_pos hlast).trans (if_pos hfull)

/-- Bits that complete more bytes than fit overflow the buffer. -/
theorem putBitList_wrote_of_tooLong {w : Work} {bits more : List Bool}
    (h0 : w.olen + bits.length / 8 ≤ w.mach.params.bufCap)
    (h : w.mach.params.bufCap < w.olen + (bits.length + more.length) / 8) :
    ∃ v, putBitList more (w.wrote bits) = .error outputTooLong v := by
  induction more generalizing bits with
  | nil => exact absurd h (Nat.not_lt.mpr h0)
  | cons b t ih =>
    rw [List.length_cons] at h
    rcases Nat.lt_or_ge w.mach.params.bufCap (w.olen + (bits.length + 1) / 8) with hb | hb
    · exact ⟨_, Cmd.bind_error (putBit_wrote_of_full b (by omega) (by omega)) _⟩
    · obtain ⟨v, hv⟩ := ih (bits := bits ++ [b]) (by simpa using hb)
        (by rw [List.length_append, List.length_singleton]; omega)
      exact ⟨v, (Cmd.bind_ok (putBit_wrote b hb) _).trans hv⟩

theorem putBitList_of_aligned {w : Work} {bits : List Bool} (hw : w.Aligned)
    (h : w.olen + bits.length / 8 ≤ w.mach.params.bufCap) : putBitList bits w = .ok () (w.wrote bits) := by
  have hput := putBitList_wrote (w := w) (bits := []) (more := bits) (by rwa [List.length_nil, Nat.zero_add])
  rwa [wrote_nil hw.1 hw.2, List.nil_append] at hput

/-- R131, R133: bits and the padding of their last byte. -/
theorem emits_bits (bits : List Bool) : Emits (putBitList bits >>= fun _ => flushBits) (packBits bits) where
  ok w hw h := by
    obtain ⟨hacc, hcnt⟩ := hw
    rw [packBits_length] at h
    rw [Cmd.bind_ok (putBitList_of_aligned ⟨hacc, hcnt⟩ (by omega)), flushBits_wrote h, Work.extended, packBits_length,
      hacc, hcnt]
  error w hw h0 h := by
    rw [packBits_length] at h
    rcases Nat.lt_or_ge w.mach.params.bufCap (w.olen + bits.length / 8) with hb | hb
    · obtain ⟨v, hv⟩ := putBitList_wrote_of_tooLong (w := w) (bits := []) (more := bits) h0
        (by rwa [List.length_nil, Nat.zero_add])
      rw [wrote_nil hw.1 hw.2] at hv
      exact ⟨v, Cmd.bind_error hv _⟩
    · rw [Cmd.bind_ok (putBitList_of_aligned hw hb), flushBits_run, wrote_wcnt, if_neg (by omega)]
      exact putBitList_wrote_of_tooLong hb (by rw [List.length_replicate]; omega)

/-! ## SHUF_ENC -/

theorem putCodes_eq_putBitList (t : HuffTree) (x : List Byte) :
    putCodes t x = putBitList (x.flatMap (huffCode t)) := by
  induction x with
  | nil => rfl
  | cons b x ih =>
    funext w
    rw [putCodes, ih, List.flatMap_cons, putBitList_append]

theorem shufContainer_of_huffTree {block : List Byte} {t : HuffTree} (h : huffTree block = some t) :
    shufContainer block = packBits (huffShape t) ++ (huffLeaves t ++ (leBytes 4 (payloadBits t block)
      ++ packBits (block.flatMap (huffCode t)))) := by
  rw [shufContainer, h]
  simp only [List.append_assoc]

/-- R216 writes the four parts of R215 one after the other. -/
theorem emits_shufEncStage (x : List Byte) : Emits (shufEncStage x) (shufContainer x) := by
  cases ht : huffTree x with
  | none =>
    rw [shufEncStage, shufContainer, ht]
    exact emits_nothing
  | some t =>
    have hparts := (emits_bits (huffShape t)).bind ((emits_emitAll (huffLeaves t)).bind
      ((emits_emitAll (leBytes 4 (payloadBits t x))).bind (emits_bits (x.flatMap (huffCode t)))))
    rw [shufContainer_of_huffTree ht, shufEncStage, ht]
    simpa only [putCodes_eq_putBitList, bind_assoc] using hparts

theorem work_start_aligned (k : Nat) (s : State) : (Work.start k s).Aligned := ⟨rfl, rfl⟩

theorem exec_shufEnc_of_fits {s : State} (hfits : InputFits s)
    (h : (shufContainer s.input).length ≤ s.params.bufCap) :
    exec .shufEnc s = .next (succeeded (commitOutput (shufContainer s.input) s)) := by
  have hbody := (emits_shufEncStage s.input).ok (Work.start 0 (beginCommand s)) (work_start_aligned _ _)
    ((Nat.zero_add _).trans_le h)
  rw [extended_start] at hbody
  exact congrArg _ (runCodec_of_emitted keepNothing hfits hbody)

theorem exec_shufEnc_of_outputTooLong {s : State} (hfits : InputFits s)
    (h : s.params.bufCap < (shufContainer s.input).length) :
    exec .shufEnc s = .next (failed outputTooLong 0 (discardOutput s)) := by
  obtain ⟨v, hv⟩ := (emits_shufEncStage s.input).error (Work.start 0 (beginCommand s)) (work_start_aligned _ _)
    (Nat.zero_le _) (h.trans_eq (Nat.zero_add _).symm)
  exact congrArg _ (runCodec_of_shuf_error (by simp) (fun x _ => shufEncStage_does x) hfits hv)

theorem exec_shufEnc_of_inputTooLong {s : State} (h : s.params.bufCap < s.ilen.toNat) :
    exec .shufEnc s = .next (failed inputTooLong 0 (discardOutput s)) :=
  congrArg _ (runCodec_keepNothing_tooLong shufEncStage h)

end Sys2Proof.Machine

namespace Sys2Proof

open Sys2Proof.Machine Sys2Proof.Safety

/-- Settles O29: the three ways SHUF_ENC can end. -/
theorem shufEncWritesContainer : Obligations.ShufEncWritesContainer :=
  fun _ => ⟨exec_shufEnc_of_fits, exec_shufEnc_of_outputTooLong, exec_shufEnc_of_inputTooLong⟩

end Sys2Proof
end

section
/-! SHUF_DEC (R217, R218). The reader stands behind the bits `front` of the input `front ++ more`; each part of the
command is said once as what it makes of the bits `more` that follow. -/

namespace Sys2Proof.Machine

open Sys2Proof.Safety

/-! ## Reading the next bit -/

theorem getBit_of_bits (e : FatalError) (w : Work) {x : List Byte} {front more : List Bool} {b : Bool}
    (hx : bitsOf x = front ++ b :: more) :
    getBit e (w.atBit x front.length) = .ok b (w.atBit x (front ++ [b]).length) := by
  have hk : front.length < (bitsOf x).length := by simp [hx]
  rw [getBit_atBit e w hk, List.length_append, List.length_singleton]
  simp [hx]

theorem getBit_of_end (e : FatalError) (w : Work) {x : List Byte} {front : List Bool} (hx : bitsOf x = front) :
    getBit e (w.atBit x front.length) = .error e (w.atBit x front.length) := by
  rw [← hx, bitsOf_length]
  exact getBit_atBit_end e w x

theorem emit_atBit (b : Byte) (w : Work) (x : List Byte) (k : Nat) :
    emit b (w.atBit x k) = if w.olen = w.mach.params.bufCap then .error outputTooLong (w.atBit x k)
      else .ok () ((w.extended [b]).atBit x k) := emit_run b (w.atBit x k)

theorem bitsOf_append (x y : List Byte) : bitsOf (x ++ y) = bitsOf x ++ bitsOf y := List.flatMap_append

/-! ## Shapes (R215, R217) -/

/-- The shape of a tree. -/
def shapeOf : HuffTree → HuffShape
  | .leaf _ => .leaf
  | .node l r => .node (shapeOf l) (shapeOf r)

/-- The bits 0 of a shape, one for each internal node. -/
theorem count_false_huffShape (t : HuffTree) : (huffShape t).count false + 1 = (huffLeaves t).length := by
  induction t with
  | leaf v => rfl
  | node l r ihl ihr =>
    rw [huffShape, huffLeaves, List.count_cons_self, List.count_append, List.length_append]
    omega

/-- Only one shape stands at the beginning of a bit string. -/
theorem huffLeaves_length_eq_of_huffShape {t t' : HuffTree} {y y' : List Bool}
    (h : huffShape t ++ y = huffShape t' ++ y') : (huffLeaves t).length = (huffLeaves t').length ∧ y = y' := by
  induction t generalizing t' y y' with
  | leaf v =>
    cases t' with
    | leaf v' => exact ⟨rfl, (List.cons.inj h).2⟩
    | node l' r' => exact absurd (List.cons.inj h).1.symm Bool.false_ne_true
  | node l r ihl ihr =>
    cases t' with
    | leaf v' => exact absurd (List.cons.inj h).1 Bool.false_ne_true
    | node l' r' =>
      simp only [huffShape, List.cons_append, List.append_assoc, List.cons.injEq, true_and] at h
      obtain ⟨hl, hrest⟩ := ihl h
      obtain ⟨hr, hend⟩ := ihr hrest
      rw [huffLeaves, huffLeaves, List.length_append, List.length_append, hl, hr]
      exact ⟨rfl, hend⟩

/-- R218 gives the leaves back their values. -/
theorem fillShape_shapeOf (t : HuffTree) (more : List Byte) :
    fillShape (shapeOf t) (huffLeaves t ++ more) = (t, more) := by
  induction t generalizing more with
  | leaf v => rfl
  | node l r ihl ihr => simp only [shapeOf, fillShape, huffLeaves, List.append_assoc, ihl, ihr]

/-- A complete shape within the bounds of R217 is parsed. -/
theorem parseShape_huffShape {t : HuffTree} {fuel nleaf nint : Nat} (w : Work) {x : List Byte} {front more : List Bool}
    (hx : bitsOf x = front ++ (huffShape t ++ more)) (hfuel : (huffLeaves t).length ≤ fuel)
    (hleaf : nleaf + (huffLeaves t).length ≤ 256) (hint : nint + (huffShape t).count false ≤ 255) :
    parseShape fuel nleaf nint (w.atBit x front.length)
      = .ok (shapeOf t, nleaf + (huffLeaves t).length, nint + (huffShape t).count false)
          (w.atBit x (front ++ huffShape t).length) := by
  induction t generalizing fuel nleaf nint front more with
  | leaf v =>
    obtain ⟨fuel, rfl⟩ := Nat.exists_eq_add_of_le' hfuel
    rw [huffLeaves, List.length_singleton] at hleaf
    rw [huffLeaves, List.length_singleton, parseShape, Cmd.bind_ok (getBit_of_bits _ w hx), if_pos rfl,
      if_neg (Nat.not_lt.mpr hleaf)]
    rfl
  | node l r ihl ihr =>
    have hl := huffLeaves_length_pos l
    have hr := huffLeaves_length_pos r
    have hzeros := count_false_huffShape l
    rw [huffLeaves, List.length_append] at hfuel hleaf
    rw [huffShape, List.count_cons_self, List.count_append] at hint
    simp only [huffShape, List.cons_append, List.append_assoc] at hx
    obtain ⟨fuel, rfl⟩ := Nat.exists_eq_add_of_le' (show 1 ≤ fuel by omega)
    have hbit := getBit_of_bits (malformed 4) w hx
    have hleft := ihl (fuel := fuel) (nleaf := nleaf) (nint := nint + 1) (front := front ++ [false])
      (hx.trans (List.append_cons ..)) (by omega) (by omega) (by omega)
    have hright := ihr (fuel := fuel) (nleaf := nleaf + (huffLeaves l).length)
      (nint := nint + 1 + (huffShape l).count false) (front := front ++ [false] ++ huffShape l) (more := more)
      (by rw [hx, List.append_assoc, ← List.append_cons]) (by omega) (by omega) (by omega)
    rw [parseShape, Cmd.bind_ok hbit, if_neg Bool.false_ne_true, if_neg (by omega), Cmd.bind_ok hleft,
      Cmd.bind_ok hright, Cmd.pure_run]
    simp only [shapeOf, huffLeaves, huffShape, List.length_append, List.count_cons_self, List.count_append,
      List.append_assoc, List.cons_append, List.nil_append, Nat.add_assoc, Nat.add_comm 1]

/-- Bits with no shape within the bounds at their start: the end of the input is met, or the 256th bit 0 before it
(R217). While a shape is incomplete it has no more bits 1 than bits 0, so the bound on the leaves is never what stops
the parser first. -/
theorem parseShape_error {fuel nleaf nint : Nat} (w : Work) {x : List Byte} {front more : List Bool}
    (hx : bitsOf x = front ++ more) (hfuel : 257 ≤ fuel + nint) (hleaf : nleaf ≤ nint) (hint : nint ≤ 255)
    (hshape : ∀ t y, more = huffShape t ++ y → 255 < nint + (huffShape t).count false) :
    ∃ v, parseShape fuel nleaf nint (w.atBit x front.length)
      = .error (if 255 < nint + more.count false then malformed 5 else malformed 4) v := by
  induction fuel generalizing nleaf nint front more with
  | zero => omega
  | succ fuel ih =>
    rw [parseShape]
    cases more with
    | nil =>
      rw [List.append_nil] at hx
      rw [List.count_nil, if_neg (show ¬255 < nint + 0 by omega)]
      exact ⟨_, Cmd.bind_error (getBit_of_end (malformed 4) w hx) _⟩
    | cons b more =>
      rw [Cmd.bind_ok (getBit_of_bits _ w hx)]
      cases b with
      | true => exact absurd (hshape (.leaf 0) more rfl) (Nat.not_lt.mpr hint)
      | false =>
        rw [if_neg Bool.false_ne_true, List.count_cons_self]
        by_cases hfull : 255 < nint + 1
        · rw [if_pos hfull, if_pos (by omega)]
          exact ⟨_, rfl⟩
        · have hsum : nint + (more.count false + 1) = nint + 1 + more.count false := by omega
          rw [if_neg hfull, hsum]
          rw [List.append_cons] at hx
          by_cases hleft : ∃ l y, more = huffShape l ++ y ∧ nint + 1 + (huffShape l).count false ≤ 255
          · obtain ⟨l, y, rfl, hcount⟩ := hleft
            have hzeros := count_false_huffShape l
            have hparse := parseShape_huffShape (fuel := fuel) (nleaf := nleaf) w hx (by omega) (by omega) hcount
            rw [Cmd.bind_ok hparse]
            rw [← List.append_assoc] at hx
            obtain ⟨v, hv⟩ := ih hx (nleaf := nleaf + (huffLeaves l).length)
              (nint := nint + 1 + (huffShape l).count false) (by omega) (by omega) hcount fun r z hr => by
                have := hshape (.node l r) z (by simp [huffShape, hr])
                simp only [huffShape, List.count_cons_self, List.count_append] at this
                omega
            rw [List.count_append, ← Nat.add_assoc]
            exact ⟨v, Cmd.bind_error hv _⟩
          · obtain ⟨v, hv⟩ := ih hx (nleaf := nleaf) (nint := nint + 1) (by omega) (by omega) (by omega)
              fun t y ht => by
              by_contra hle
              exact hleft ⟨t, y, ht, Nat.not_lt.mp hle⟩
            exact ⟨v, Cmd.bind_error hv _⟩

/-! ## The payload (R218) -/

theorem LeafAt.child {t : HuffTree} {b : Bool} {c : List Bool} {v : Byte} (h : LeafAt t (b :: c) v) :
    LeafAt (huffChild t b) c v := by
  cases h with
  | left below => exact below
  | right below => exact below

section Payload

variable {root : HuffTree} {p : Nat} (w : Work) {x : List Byte} {front more : List Bool}

theorem decodeWalk_to_leaf {n : HuffTree} {b : Bool} {v : Byte} (atRoot : Bool) (hx : bitsOf x = front ++ b :: more)
    (hchild : huffChild n b = .leaf v) :
    decodeWalk root (p + 1) n atRoot (w.atBit x front.length)
      = (emit v >>= fun _ => decodeWalk root p root true) (w.atBit x (front ++ [b]).length) := by
  rw [decodeWalk, Cmd.bind_ok (getBit_of_bits _ w hx)]
  simp only [hchild]

theorem decodeWalk_to_node {n l r : HuffTree} {b : Bool} (atRoot : Bool) (hx : bitsOf x = front ++ b :: more)
    (hchild : huffChild n b = .node l r) :
    decodeWalk root (p + 1) n atRoot (w.atBit x front.length)
      = decodeWalk root p (.node l r) false (w.atBit x (front ++ [b]).length) := by
  rw [decodeWalk, Cmd.bind_ok (getBit_of_bits _ w hx)]
  simp only [hchild]

/-- The walk takes the path of a leaf and emits its value. -/
theorem decodeWalk_path {n : HuffTree} {c : List Bool} {v : Byte} (atRoot : Bool)
    (hx : bitsOf x = front ++ (c ++ more)) (hleaf : LeafAt n c v) (hne : c ≠ []) :
    decodeWalk root (c.length + p) n atRoot (w.atBit x front.length)
      = (emit v >>= fun _ => decodeWalk root p root true) (w.atBit x (front ++ c).length) := by
  induction c generalizing n front atRoot with
  | nil => exact absurd rfl hne
  | cons b c ih =>
    rw [List.length_cons, Nat.add_right_comm]
    have hbelow := hleaf.child
    cases hchild : huffChild n b with
    | leaf u =>
      rw [hchild] at hbelow
      cases hbelow
      rw [decodeWalk_to_leaf w atRoot hx hchild, List.length_nil, Nat.zero_add]
    | node l r =>
      rw [hchild] at hbelow
      rw [decodeWalk_to_node w atRoot hx hchild, ih false (hx.trans (List.append_cons ..)) hbelow hbelow.ne_nil,
        ← List.append_cons]

/-- A payload that ends inside a code ends inside the tree. -/
theorem decodeWalk_cut {n : HuffTree} {r c : List Bool} {v : Byte} {atRoot : Bool}
    (hx : bitsOf x = front ++ (r ++ more)) (hleaf : LeafAt n (r ++ c) v) (hne : c ≠ [])
    (hroot : r = [] → atRoot = false) :
    ∃ u, decodeWalk root r.length n atRoot (w.atBit x front.length) = .error (malformed 9) u := by
  induction r generalizing n front atRoot with
  | nil => exact ⟨_, by rw [hroot rfl]; rfl⟩
  | cons b r ih =>
    have hbelow := hleaf.child
    cases hchild : huffChild n b with
    | leaf u =>
      rw [hchild] at hbelow
      generalize hpath : List.append r c = d at hbelow
      cases hbelow
      exact absurd (List.append_eq_nil_iff.mp hpath).2 hne
    | node l r' =>
      rw [hchild] at hbelow
      rw [List.length_cons, decodeWalk_to_node w atRoot hx hchild]
      exact ih (hx.trans (List.append_cons ..)) hbelow fun _ => rfl

/-- A code at the front of the payload gives its byte, also the forced code of a single leaf (R213). -/
theorem decodePayload_code {v : Byte} (hv : v ∈ huffLeaves root) (hx : bitsOf x = front ++ (huffCode root v ++ more)) :
    decodePayload root ((huffCode root v).length + p) (w.atBit x front.length)
      = (emit v >>= fun _ => decodePayload root p) (w.atBit x (front ++ huffCode root v).length) := by
  cases root with
  | leaf u =>
    obtain rfl := List.mem_singleton.mp hv
    rw [huffCode, List.length_singleton, Nat.add_comm, decodePayload, decodeSingle,
      Cmd.bind_ok (getBit_of_bits _ w hx)]
    rfl
  | node l r =>
    have hleaf := leafAt_huffCode hv
    exact decodeWalk_path w true hx hleaf hleaf.ne_nil

/-- The codes of a block that fits give the block. -/
theorem decodePayload_block {block : List Byte} (hblock : ∀ b ∈ block, b ∈ huffLeaves root)
    (hx : bitsOf x = front ++ (block.flatMap (huffCode root) ++ more))
    (hfits : w.olen + block.length ≤ w.mach.params.bufCap) :
    decodePayload root ((block.flatMap (huffCode root)).length + p) (w.atBit x front.length)
      = decodePayload root p ((w.extended block).atBit x (front ++ block.flatMap (huffCode root)).length) := by
  induction block generalizing front w with
  | nil => simp [Work.extended]
  | cons b block ih =>
    obtain ⟨hb, hblock⟩ := List.forall_mem_cons.mp hblock
    rw [List.length_cons] at hfits
    rw [List.flatMap_cons, List.append_assoc] at hx
    have hemit := (emit_atBit b w x (front ++ huffCode root b).length).trans (if_neg (by omega))
    rw [List.flatMap_cons, List.length_append, Nat.add_assoc, decodePayload_code w hb hx, Cmd.bind_ok hemit,
      ih (w.extended [b]) hblock (by rw [hx, List.append_assoc])
        (by simp only [Work.extended, List.length_singleton]; omega),
      extended_extended, List.singleton_append, List.append_assoc]

/-- The codes of a block that does not fit overflow the output buffer (R72). -/
theorem decodePayload_block_of_tooLong {block : List Byte} (hblock : ∀ b ∈ block, b ∈ huffLeaves root)
    (hx : bitsOf x = front ++ (block.flatMap (huffCode root) ++ more)) (h0 : w.olen ≤ w.mach.params.bufCap)
    (hlong : w.mach.params.bufCap < w.olen + block.length) :
    ∃ v, decodePayload root ((block.flatMap (huffCode root)).length + p) (w.atBit x front.length)
      = .error outputTooLong v := by
  induction block generalizing front w with
  | nil => exact absurd hlong (Nat.not_lt.mpr h0)
  | cons b block ih =>
    obtain ⟨hb, hblock⟩ := List.forall_mem_cons.mp hblock
    rw [List.length_cons] at hlong
    rw [List.flatMap_cons, List.append_assoc] at hx
    have hemit := emit_atBit b w x (front ++ huffCode root b).length
    rw [List.flatMap_cons, List.length_append, Nat.add_assoc, decodePayload_code w hb hx]
    by_cases hfull : w.olen = w.mach.params.bufCap
    · rw [if_pos hfull] at hemit
      exact ⟨_, Cmd.bind_error hemit _⟩
    · rw [if_neg hfull] at hemit
      rw [Cmd.bind_ok hemit]
      exact ih (w.extended [b]) hblock (by rw [hx, List.append_assoc])
        (by simp only [Work.extended, List.length_singleton]; omega)
        (by simp only [Work.extended, List.length_singleton]; omega)

theorem decodePayload_zero : decodePayload root 0 = pure () := by cases root <;> rfl

/-- A payload that ends inside a code (R218). -/
theorem decodePayload_cut {r : List Bool} {v : Byte} (htwo : 2 ≤ (huffLeaves root).length) (hv : v ∈ huffLeaves root)
    (hx : bitsOf x = front ++ (r ++ more)) (hprefix : r <+: huffCode root v) (hne : r ≠ [])
    (hproper : r ≠ huffCode root v) :
    ∃ u, decodePayload root r.length (w.atBit x front.length) = .error (malformed 9) u := by
  cases root with
  | leaf u => exact absurd htwo (by simp [huffLeaves])
  | node l r' =>
    obtain ⟨c, hc⟩ := hprefix
    refine decodeWalk_cut w (c := c) (v := v) hx (hc ▸ leafAt_huffCode hv) ?_ fun hnil => absurd hnil hne
    rintro rfl
    exact hproper (by rwa [List.append_nil] at hc)

/-- A bit 1 under a single leaf (R218). -/
theorem decodePayload_corrupt {r : List Bool} (hone : (huffLeaves root).length = 1)
    (hx : bitsOf x = front ++ (r ++ more)) (hr : r.head? = some true) :
    ∃ u, decodePayload root r.length (w.atBit x front.length) = .error (corrupt 3) u := by
  obtain ⟨r, rfl⟩ := List.head?_eq_some_iff.mp hr
  cases root with
  | leaf v =>
    rw [decodePayload, List.length_cons, decodeSingle, Cmd.bind_ok (getBit_of_bits _ w hx), if_pos rfl]
    exact ⟨_, rfl⟩
  | node l r' =>
    have := two_le_huffLeaves_length_node l r'
    omega

end Payload

/-! ## The header (R215, R218) -/

/-- The length of SHAPE in bytes. -/
def shapeBytes (t : HuffTree) : Nat := ((huffShape t).length + 7) / 8

/-- The length of SHAPE, LEAVES and PLEN. -/
def headerBytes (t : HuffTree) : Nat := shapeBytes t + (huffLeaves t).length + 4

/-- LEAVES of an input with the shape of `t`. -/
def leafBytes (x : List Byte) (t : HuffTree) : List Byte := (x.drop (shapeBytes t)).take (huffLeaves t).length

/-- PLEN of an input with the shape of `t`. -/
def declaredBits (x : List Byte) (t : HuffTree) : Nat :=
  unle ((x.drop (shapeBytes t + (huffLeaves t).length)).take 4)

/-- An input that passes the checks of R217 and R218 before the payload, and whose tree is `t`. -/
structure HasHeader (x : List Byte) (t : HuffTree) : Prop where
  shape : huffShape t <+: bitsOf x
  room : headerBytes t ≤ x.length
  leaves : huffLeaves t = leafBytes x t
  nodup : (leafBytes x t).Nodup
  size : x.length - headerBytes t = (declaredBits x t + 7) / 8

theorem length_le_of_nodup {l : List Byte} (h : l.Nodup) : l.length ≤ 256 :=
  (h.subperm fun v _ => mem_mtfTable v).length_le.trans_eq mtfTable_length

/-- The payload bits as they stand in the input. -/
theorem HasHeader.exists_bits {x : List Byte} {t : HuffTree} (h : HasHeader x t) {bits : List Bool}
    (hbits : (bitsOf (x.drop (headerBytes t))).take (declaredBits x t) = bits) :
    ∃ front more, bitsOf x = front ++ (bits ++ more) ∧ front.length = 8 * headerBytes t
      ∧ bits.length = declaredBits x t := by
  have hroom := h.room
  have hsize := h.size
  refine ⟨bitsOf (x.take (headerBytes t)), (bitsOf (x.drop (headerBytes t))).drop (declaredBits x t), ?_, ?_, ?_⟩
  · rw [← hbits, List.take_append_drop, ← bitsOf_append, List.take_append_drop]
  · rw [bitsOf_length, List.length_take, Nat.min_eq_left hroom]
  · rw [← hbits, List.length_take, bitsOf_length, List.length_drop]
    omega

/-! ## The body of SHUF_DEC -/

theorem shufDecStage_of_ne_nil {x : List Byte} (hne : x ≠ []) (w : Work) :
    shufDecStage x w = (parseShape 257 0 0 >>= fun parsed => bitsBytePos >>= fun pos =>
      decodeBody x parsed.1 parsed.2.1 pos) (w.atBit x 0) := by
  rw [shufDecStage, if_neg (mt List.length_eq_zero_iff.mp hne), Cmd.bind_ok (openBits_atBit x 0 w)]

theorem shufDecStage_of_badShape {x : List Byte} (w : Work) (hne : x ≠ [])
    (hshape : ∀ t, huffShape t <+: bitsOf x → 256 < (huffLeaves t).length) :
    ∃ v, shufDecStage x w = .error (if 255 < (bitsOf x).count false then malformed 5 else malformed 4) v := by
  have hbig : ∀ t y, bitsOf x = huffShape t ++ y → 255 < 0 + (huffShape t).count false := by
    intro t y ht
    have hleaves := hshape t ⟨y, ht.symm⟩
    have hzeros := count_false_huffShape t
    omega
  obtain ⟨v, hv⟩ := parseShape_error (fuel := 257) w (front := []) (List.nil_append _).symm le_rfl le_rfl
    (Nat.zero_le _) hbig
  rw [Nat.zero_add] at hv
  rw [shufDecStage_of_ne_nil hne]
  exact ⟨v, Cmd.bind_error hv _⟩

theorem shufDecStage_of_shape {x : List Byte} {t : HuffTree} (w : Work) (hshape : huffShape t <+: bitsOf x)
    (hleaves : (huffLeaves t).length ≤ 256) :
    shufDecStage x w
      = decodeBody x (shapeOf t) (huffLeaves t).length (shapeBytes t) (w.atBit x (huffShape t).length) := by
  obtain ⟨y, hy⟩ := hshape
  have hzeros := count_false_huffShape t
  have hne : x ≠ [] := by
    rintro rfl
    cases t <;> cases hy
  have hparse := parseShape_huffShape (fuel := 257) (nleaf := 0) (nint := 0) w (front := []) hy.symm (by omega)
    (by omega) (by omega)
  rw [Nat.zero_add, Nat.zero_add, List.length_nil, List.nil_append] at hparse
  rw [shufDecStage_of_ne_nil hne, Cmd.bind_ok hparse, Cmd.bind_ok (bitsBytePos_run _)]
  rfl

theorem Cmd.ite_run {α : Type} (c : Prop) [Decidable c] (x y : Cmd α) (w : Work) :
    (if c then x else y) w = if c then x w else y w := by
  split_ifs <;> rfl

section Body

variable {x : List Byte} {t : HuffTree} (w : Work)

/-- The checks of R218 in their order. -/
theorem decodeBody_run :
    decodeBody x (shapeOf t) (huffLeaves t).length (shapeBytes t) w
      = if x.length < headerBytes t then .error (malformed 6) w
        else if ¬ (leafBytes x t).Nodup then .error (malformed 7) w
        else if x.length - headerBytes t ≠ (declaredBits x t + 7) / 8 then .error (malformed 8) w
        else decodePayload (fillShape (shapeOf t) (leafBytes x t)).1 (declaredBits x t)
          (w.atBit x (8 * headerBytes t)) := by
  simp only [decodeBody, headerBytes, leafBytes, declaredBits, Cmd.ite_run, Cmd.raise_run,
    Cmd.bind_ok (openBits_atBit x _ w)]
  rfl

theorem shufDecStage_of_short (hshape : huffShape t <+: bitsOf x) (hleaves : (huffLeaves t).length ≤ 256)
    (h : x.length < headerBytes t) : ∃ v, shufDecStage x w = .error (malformed 6) v := by
  rw [shufDecStage_of_shape w hshape hleaves, decodeBody_run, if_pos h]
  exact ⟨_, rfl⟩

theorem shufDecStage_of_duplicate (hshape : huffShape t <+: bitsOf x) (hleaves : (huffLeaves t).length ≤ 256)
    (hroom : headerBytes t ≤ x.length) (h : ¬ (leafBytes x t).Nodup) :
    ∃ v, shufDecStage x w = .error (malformed 7) v := by
  rw [shufDecStage_of_shape w hshape hleaves, decodeBody_run, if_neg (Nat.not_lt.mpr hroom), if_pos h]
  exact ⟨_, rfl⟩

theorem shufDecStage_of_size_ne (hshape : huffShape t <+: bitsOf x) (hleaves : (huffLeaves t).length ≤ 256)
    (hroom : headerBytes t ≤ x.length) (hnodup : (leafBytes x t).Nodup)
    (h : x.length - headerBytes t ≠ (declaredBits x t + 7) / 8) : ∃ v, shufDecStage x w = .error (malformed 8) v := by
  rw [shufDecStage_of_shape w hshape hleaves, decodeBody_run, if_neg (Nat.not_lt.mpr hroom),
    if_neg (not_not.mpr hnodup), if_pos h]
  exact ⟨_, rfl⟩

/-- Past the checks the payload is decoded with the tree of the header. -/
theorem shufDecStage_of_header (h : HasHeader x t) :
    shufDecStage x w = decodePayload t (declaredBits x t) (w.atBit x (8 * headerBytes t)) := by
  have hleaves : (huffLeaves t).length ≤ 256 := h.leaves ▸ length_le_of_nodup h.nodup
  have hfill : (fillShape (shapeOf t) (leafBytes x t)).1 = t := by
    rw [← h.leaves, ← List.append_nil (huffLeaves t), fillShape_shapeOf]
  rw [shufDecStage_of_shape w h.shape hleaves, decodeBody_run, if_neg (Nat.not_lt.mpr h.room),
    if_neg (not_not.mpr h.nodup), if_neg (not_not.mpr h.size), hfill]
  rfl

end Body

/-! ## SHUF_DEC (R218) -/

/-- A body that ends well with `x` emitted and the machine as it was. -/
theorem runCodec_of_ok (keep : FatalError → Bool) {body : List Byte → Cmd Unit} {s : State} {x : List Byte} {v : Work}
    (hfits : InputFits s) (hbody : body s.input (Work.start 0 (beginCommand s)) = .ok () v)
    (hout : v.out.reverse = x) (hmach : v.mach = beginCommand s) :
    runCodec keep body s = succeeded (commitOutput x s) := by
  rw [runCodec_fits keep body hfits, hbody, finishCodec_ok, hout, hmach, complete_commit_begin]

theorem exec_shufDec_of_error {s : State} {e : FatalError} (hfits : InputFits s)
    (h : ∃ v, shufDecStage s.input (Work.start 0 (beginCommand s)) = .error e v) :
    exec .shufDec s = .next (failed e 0 (discardOutput s)) := by
  obtain ⟨v, hv⟩ := h
  exact congrArg _ (runCodec_of_shuf_error (by simp) (fun x _ => shufDecStage_does x) hfits hv)

theorem exec_shufDec_of_empty {s : State} (hfits : InputFits s) (hempty : s.input = []) :
    exec .shufDec s = .next (succeeded (commitOutput [] s)) := by
  refine congrArg _ (runCodec_of_ok (v := Work.start 0 (beginCommand s)) keepNothing hfits ?_ rfl rfl)
  rw [hempty, shufDecStage, if_pos List.length_nil, Cmd.pure_run]

section Exec

variable {s : State} {t : HuffTree} {block : List Byte} {r : List Bool}

/-- The payload of an input with a header, once the codes of a block that fits are read. -/
theorem shufDecStage_of_block (h : HasHeader s.input t) (hblock : ∀ b ∈ block, b ∈ huffLeaves t)
    (hbits : (bitsOf (s.input.drop (headerBytes t))).take (declaredBits s.input t)
      = block.flatMap (huffCode t) ++ r)
    (hcap : block.length ≤ s.params.bufCap) :
    ∃ front more, bitsOf s.input = front ++ (r ++ more)
      ∧ shufDecStage s.input (Work.start 0 (beginCommand s))
        = decodePayload t r.length ((Work.emitted 0 (beginCommand s) block).atBit s.input front.length) := by
  obtain ⟨front, more, hx, hfront, hlen⟩ := h.exists_bits hbits
  rw [List.length_append] at hlen
  rw [List.append_assoc] at hx
  refine ⟨front ++ block.flatMap (huffCode t), more, by rw [hx, List.append_assoc], ?_⟩
  rw [shufDecStage_of_header _ h, ← hfront, ← hlen,
    decodePayload_block _ hblock hx ((Nat.zero_add _).trans_le hcap), extended_start]

theorem exec_shufDec_of_block (hfits : InputFits s) (h : HasHeader s.input t) (hblock : ∀ b ∈ block, b ∈ huffLeaves t)
    (hbits : (bitsOf (s.input.drop (headerBytes t))).take (declaredBits s.input t) = block.flatMap (huffCode t))
    (hcap : block.length ≤ s.params.bufCap) : exec .shufDec s = .next (succeeded (commitOutput block s)) := by
  obtain ⟨front, more, -, hstage⟩ :=
    shufDecStage_of_block (r := []) h hblock (hbits.trans (List.append_nil _).symm) hcap
  rw [List.length_nil, decodePayload_zero] at hstage
  exact congrArg _ (runCodec_of_ok keepNothing hfits hstage (List.reverse_reverse block) rfl)

theorem exec_shufDec_of_cut (hfits : InputFits s) (h : HasHeader s.input t) (hblock : ∀ b ∈ block, b ∈ huffLeaves t)
    (hbits : (bitsOf (s.input.drop (headerBytes t))).take (declaredBits s.input t)
      = block.flatMap (huffCode t) ++ r)
    (hcap : block.length ≤ s.params.bufCap) (htwo : 2 ≤ (huffLeaves t).length) (hne : r ≠ []) {v : Byte}
    (hv : v ∈ huffLeaves t) (hprefix : r <+: huffCode t v) (hproper : r ≠ huffCode t v) :
    exec .shufDec s = .next (failed (malformed 9) 0 (discardOutput s)) := by
  obtain ⟨front, more, hx, hstage⟩ := shufDecStage_of_block h hblock hbits hcap
  exact exec_shufDec_of_error hfits (hstage ▸ decodePayload_cut _ htwo hv hx hprefix hne hproper)

theorem exec_shufDec_of_corrupt (hfits : InputFits s) (h : HasHeader s.input t)
    (hblock : ∀ b ∈ block, b ∈ huffLeaves t)
    (hbits : (bitsOf (s.input.drop (headerBytes t))).take (declaredBits s.input t)
      = block.flatMap (huffCode t) ++ r)
    (hcap : block.length ≤ s.params.bufCap) (hone : (huffLeaves t).length = 1) (hr : r.head? = some true) :
    exec .shufDec s = .next (failed (corrupt 3) 0 (discardOutput s)) := by
  obtain ⟨front, more, hx, hstage⟩ := shufDecStage_of_block h hblock hbits hcap
  exact exec_shufDec_of_error hfits (hstage ▸ decodePayload_corrupt _ hone hx hr)

theorem exec_shufDec_of_outputTooLong (hfits : InputFits s) (h : HasHeader s.input t)
    (hblock : ∀ b ∈ block, b ∈ huffLeaves t)
    (hbits : (bitsOf (s.input.drop (headerBytes t))).take (declaredBits s.input t)
      = block.flatMap (huffCode t) ++ r)
    (hcap : s.params.bufCap < block.length) :
    exec .shufDec s = .next (failed outputTooLong 0 (discardOutput s)) := by
  obtain ⟨front, more, hx, hfront, hlen⟩ := h.exists_bits hbits
  rw [List.length_append] at hlen
  rw [List.append_assoc] at hx
  refine exec_shufDec_of_error hfits ?_
  rw [shufDecStage_of_header _ h, ← hfront, ← hlen]
  exact decodePayload_block_of_tooLong _ hblock hx (Nat.zero_le _) (hcap.trans_eq (Nat.zero_add _).symm)

end Exec

/-! ## The container of a block (R215, R219) -/

theorem payloadBits_eq (t : HuffTree) (block : List Byte) :
    payloadBits t block = (block.flatMap (huffCode t)).length := by
  rw [payloadBits, List.length_flatMap]

/-- What a container is read as: its header, and the codes of the block as its payload. -/
theorem shufContainer_reads {block : List Byte} {t : HuffTree} (ht : huffTree block = some t)
    (hsize : (shufContainer block).length ≤ 268435456) :
    HasHeader (shufContainer block) t
      ∧ (bitsOf ((shufContainer block).drop (headerBytes t))).take (declaredBits (shufContainer block) t)
        = block.flatMap (huffCode t) := by
  have hx := shufContainer_of_huffTree ht
  rw [payloadBits_eq] at hx
  generalize shufContainer block = x at hx hsize ⊢
  have hbytes : (packBits (huffShape t)).length = shapeBytes t := packBits_length _
  have hlen : x.length = headerBytes t + ((block.flatMap (huffCode t)).length + 7) / 8 := by
    simp only [hx, List.length_append, hbytes, leBytes_length, packBits_length, headerBytes, Nat.add_assoc]
  have hafter : x.drop (shapeBytes t) = huffLeaves t ++ (leBytes 4 (block.flatMap (huffCode t)).length
      ++ packBits (block.flatMap (huffCode t))) := by rw [hx, List.drop_left' hbytes]
  have hplen : x.drop (shapeBytes t + (huffLeaves t).length) = leBytes 4 (block.flatMap (huffCode t)).length
      ++ packBits (block.flatMap (huffCode t)) := by rw [← List.drop_drop, hafter, List.drop_left]
  have hpayload : x.drop (headerBytes t) = packBits (block.flatMap (huffCode t)) := by
    rw [headerBytes, ← List.drop_drop, hplen, List.drop_left' (leBytes_length _ _)]
  have hleaves : leafBytes x t = huffLeaves t := by rw [leafBytes, hafter, List.take_left]
  have hdeclared : declaredBits x t = (block.flatMap (huffCode t)).length := by
    rw [declaredBits, hplen, List.take_left' (leBytes_length _ _), unle_leBytes]
    exact Nat.mod_eq_of_lt (by omega)
  refine ⟨⟨?_, by omega, hleaves.symm, hleaves ▸ huffLeaves_nodup ht, by omega⟩, ?_⟩
  · rw [hx, bitsOf_append, bitsOf_packBits, List.append_assoc]
    exact List.prefix_append _ _
  · rw [hpayload, bitsOf_packBits, hdeclared, List.take_left]

/-- R219: SHUF_DEC reads the container of a block. -/
theorem exec_shufDec_of_container {s : State} {block : List Byte} (hwf : s.params.wf = true) (hfits : InputFits s)
    (hcap : block.length ≤ s.params.bufCap) (hinput : s.input = shufContainer block) :
    exec .shufDec s = .next (succeeded (commitOutput block s)) := by
  cases ht : huffTree block with
  | none =>
    obtain rfl : block = [] := by
      by_contra hne
      obtain ⟨t, ht', -⟩ := huffTree_of_ne_nil hne
      rw [ht] at ht'
      cases ht'
    exact exec_shufDec_of_empty hfits (by rw [hinput, shufContainer, ht])
  | some t =>
    have hsize : (shufContainer block).length ≤ 268435456 := by
      rw [← hinput, input_length]
      exact hfits.trans (bufCap_le hwf)
    obtain ⟨hheader, hbits⟩ := shufContainer_reads ht hsize
    rw [← hinput] at hheader hbits
    exact exec_shufDec_of_block hfits hheader (fun b hb => (mem_huffLeaves ht).mpr hb) hbits hcap

/-- R219: SHUF_DEC after SHUF_ENC. -/
theorem chain_shufEnc_shufDec {s : State} (hwf : s.params.wf = true) (hfits : InputFits s)
    (hroom : (shufContainer s.input).length ≤ s.params.bufCap) :
    ∃ t, chain [.shufEnc, .shufDec] s = some t ∧ t.status = doneStatus ∧ t.output = s.input := by
  have hcap := bufCap_le hwf
  have hsize : (shufContainer s.input).length < 4294967296 := by omega
  have hblock : s.input.length < 4294967296 := (input_length s).trans_lt s.ilen.isLt
  rw [chain_of_committed (exec_shufEnc_of_fits hfits hroom) hsize]
  generalize hu : succeeded (hostLoad (shufContainer s.input) _) = u
  have hinput : u.input = shufContainer s.input := hu ▸ input_hostLoad _ hsize
  have hparams : u.params = s.params := hu ▸ rfl
  have hfitsU : InputFits u := by rwa [InputFits, ← input_length, hinput, hparams]
  have hlast := exec_shufDec_of_container (hparams ▸ hwf) hfitsU (by rwa [input_length, hparams]) hinput
  exact ⟨_, chain_singleton hlast, rfl, output_commitOutput u hblock⟩

end Sys2Proof.Machine

namespace Sys2Proof

open Sys2Proof.Machine Sys2Proof.Safety

/-- Settles O30: the parser of R217 on every bit string (`parseShape_huffShape`, `parseShape_error`), the checks of R218
in their order (`decodeBody_run`), and the payload code by code (`decodePayload_block`). A container has a header and
the codes of its block as payload (`shufContainer_reads`). -/
theorem shufDecReadsContainer : Obligations.ShufDecReadsContainer := by
  refine ⟨fun s block => exec_shufDec_of_container, fun s => chain_shufEnc_shufDec, fun s hfits hne => ?_⟩
  dsimp only
  have hbad := fun h => exec_shufDec_of_error hfits (shufDecStage_of_badShape (Work.start 0 (beginCommand s)) hne h)
  refine ⟨fun hno => ⟨fun hcount => ?_, fun hcount => ?_⟩, fun t hshape => ⟨fun hmany => ?_, fun hleaves hshort => ?_,
    fun hleaves hroom hdup => ?_, fun hleaves hroom hnodup hsize => ?_, fun hroom hnodup hsize hvalues block r => ?_⟩⟩
  · have h := hbad fun t ht => absurd ht (hno t)
    rwa [if_neg (Nat.not_lt.mpr hcount)] at h
  · have h := hbad fun t ht => absurd ht (hno t)
    rwa [if_pos hcount] at h
  · obtain ⟨y, hy⟩ := hshape
    have hzeros := count_false_huffShape t
    have hcount : 255 < (bitsOf s.input).count false := by
      rw [← hy, List.count_append]
      omega
    have h := hbad fun t' ⟨y', hy'⟩ => (huffLeaves_length_eq_of_huffShape (hy.trans hy'.symm)).1 ▸ hmany
    rwa [if_pos hcount] at h
  · exact exec_shufDec_of_error hfits (shufDecStage_of_short _ hshape hleaves hshort)
  · exact exec_shufDec_of_error hfits (shufDecStage_of_duplicate _ hshape hleaves hroom hdup)
  · exact exec_shufDec_of_error hfits (shufDecStage_of_size_ne _ hshape hleaves hroom hnodup hsize)
  · rw [← hvalues]
    have hheader : HasHeader s.input t := ⟨hshape, hroom, hvalues, hnodup, hsize⟩
    refine fun hblock hbits => ⟨fun hcap hr => ?_, fun hcap htwo hr hcode => ?_, fun hcap => ?_, fun hcap => ?_⟩
    · exact exec_shufDec_of_block hfits hheader hblock (hbits.trans (by rw [hr, List.append_nil])) hcap
    · obtain ⟨v, hv, hprefix, hproper⟩ := hcode
      exact exec_shufDec_of_cut hfits hheader hblock hbits hcap htwo hr hv hprefix hproper
    · exact exec_shufDec_of_corrupt hfits hheader hblock hbits hcap
    · exact exec_shufDec_of_outputTooLong hfits hheader hblock hbits hcap

end Sys2Proof
end

section
/-! The adaptive tree's unit commands (R257, R258), and what an update leaves of AHUF_NALLOC and AHUF_LEAF (R255, R256,
R259): only the split writes them, the loop moves and increments records. -/

namespace Sys2Proof.Machine

open Sys2Proof.Safety

variable {u : Ahuf}

/-! ## AHUF_NALLOC and AHUF_LEAF through an update -/

theorem incrementWeight_table (u : Ahuf) (x : BitVec 10) :
    (incrementWeight u x).nalloc = u.nalloc ∧ (incrementWeight u x).leaf = u.leaf := by
  unfold incrementWeight
  split_ifs <;> exact ⟨rfl, rfl⟩

theorem swapWithLeader_table (u : Ahuf) (x : BitVec 10) :
    (swapWithLeader u x).nalloc = u.nalloc ∧ (swapWithLeader u x).leaf = u.leaf := by
  unfold swapWithLeader
  split
  · exact ⟨rfl, rfl⟩
  · split_ifs
    · exact ⟨swapNodes_nalloc .., swapNodes_leaf ..⟩
    · exact ⟨rfl, rfl⟩

/-- The loop of R256 allocates nothing and leaves AHUF_LEAF alone. -/
theorem updateFrom_table (fuel : Nat) (u : Ahuf) (x : BitVec 10) :
    (updateFrom fuel u x).nalloc = u.nalloc ∧ (updateFrom fuel u x).leaf = u.leaf := by
  induction fuel generalizing u x with
  | zero => exact ⟨rfl, rfl⟩
  | succ fuel ih =>
    rw [updateFrom]
    split_ifs
    · exact ⟨rfl, rfl⟩
    · obtain ⟨hnalloc, hleaf⟩ := ih (updateLevel u x) (ahufNode (updateLevel u x) x).parent
      obtain ⟨hnalloc', hleaf'⟩ := incrementWeight_table (swapWithLeader u x) x
      obtain ⟨hnalloc'', hleaf''⟩ := swapWithLeader_table u x
      exact ⟨hnalloc.trans (hnalloc'.trans hnalloc''), hleaf.trans (hleaf'.trans hleaf'')⟩

theorem ahufLeaf_updateFrom (fuel : Nat) (u : Ahuf) (x : BitVec 10) (sym : Nat) :
    ahufLeaf (updateFrom fuel u x) sym = ahufLeaf u sym := by
  rw [ahufLeaf, (updateFrom_table fuel u x).2, ahufLeaf]

/-- R255: an unseen byte allocates two records, a seen one none. -/
theorem ahufUpdateTree_nalloc (h : AhufInv u) (sym : Byte) :
    (ahufUpdateTree u sym).nalloc.toNat = u.nalloc.toNat + (if ahufLeaf u sym.toNat = noIndex then 2 else 0) := by
  unfold ahufUpdateTree
  split_ifs with hsym
  · rw [(updateFrom_table ..).1, splitNyt_nalloc (shape_of_ahufInv h) hsym]
  · rw [(updateFrom_table ..).1, Nat.add_zero]

/-- After its update a byte has a leaf. -/
theorem ahufLeaf_ahufUpdateTree_self (h : AhufInv u) (sym : Byte) :
    ahufLeaf (ahufUpdateTree u sym) sym.toNat ≠ noIndex := by
  unfold ahufUpdateTree
  split_ifs with hsym
  · rw [ahufLeaf_updateFrom, ahufLeaf_splitNyt, if_pos rfl]
    exact (newNyt_ne_noIndex (shape_of_ahufInv h) hsym).2
  · rwa [ahufLeaf_updateFrom]

/-! ## The unit commands (R257, R258, R302) -/

theorem exec_ahufInit (s : State) : exec .ahufInit s = .next (succeeded (onAhuf initTree s)) := rfl

theorem exec_lzwInit (s : State) : exec .lzwInit s = .next (succeeded { s with lzw := freshLzw }) := rfl

theorem exec_ahufUpdate (s : State) :
    exec .ahufUpdate s = .next
      (if s.arg0.toNat < 256 then succeeded (onAhuf (fun u => ahufUpdateTree u (s.arg0.setWidth 8)) s)
        else failed badOperand 0 s) := by
  change execAhufUpdate s = _
  rw [execAhufUpdate, argByte_eq]
  split_ifs
  · rw [← complete_begin, ← onAhuf_begin]
  · rw [← failUnit_begin]

end Sys2Proof.Machine

namespace Sys2Proof

open Sys2Proof.Machine Sys2Proof.Safety

/-- Settles O33: the invariants by `ahufUpdateTree_keeps`, whose loop invariant is `WeightsPending`; the loop leaves
AHUF_NALLOC and AHUF_LEAF as the split made them. -/
theorem ahufUpdateKeepsSiblingProperty : Obligations.AhufUpdateKeepsSiblingProperty := by
  refine ⟨initTree_inv, fun u b hinv hroom => ?_⟩
  obtain ⟨hinv', hroot⟩ := ahufUpdateTree_keeps hinv hroom b
  exact ⟨hinv', hroot, ahufUpdateTree_nalloc hinv b, ahufLeaf_ahufUpdateTree_self hinv b⟩

/-- Settles O32: the two sides of the check on ARG0[31:8]. -/
theorem ahufUpdateCommand : Obligations.AhufUpdateCommand := by
  refine fun s => ⟨fun hbyte => ?_, fun hbig => ?_⟩
  · rw [exec_ahufUpdate, if_pos hbyte]
    rfl
  · rw [exec_ahufUpdate, if_neg (Nat.not_lt.mpr hbig)]

/-- Settles O31: neither command has a check, so each is its own update between begin and complete. -/
theorem initCommands : Obligations.InitCommands :=
  fun s => ⟨⟨_, exec_ahufInit s, rfl, rfl, rfl, rfl⟩, _, exec_lzwInit s, rfl, rfl, fun _ => rfl⟩

end Sys2Proof
end

section
/-! The codes of the adaptive tree (R252, R260, R262). A code is a walk down the tree from the root, so it ends at its
record within the bound of DecodeSymbol. The bits of a block do not depend on the numbers of the free draws (`redraw`):
coding looks at allocated records only. -/

namespace Sys2Proof.Machine

open Sys2Proof.Safety

variable {u : Ahuf} {i p x : BitVec 10} {c : List Bool} {d e : Nat}

/-! ## Walks down the tree (R252) -/

/-- The child that a bit names: 0 left and 1 right. -/
def childAt (u : Ahuf) (p : BitVec 10) (b : Bool) : BitVec 10 :=
  if b then (ahufNode u p).right else (ahufNode u p).left

/-- From the first record the bits lead down to the second. -/
inductive Walk (u : Ahuf) : BitVec 10 → List Bool → BitVec 10 → Prop where
  /-- No bit is left. -/
  | here (i : BitVec 10) : Walk u i [] i
  /-- A bit leads from an internal record to one of its children. -/
  | down {p i : BitVec 10} {b : Bool} {c : List Bool} (internal : (ahufNode u p).left ≠ noIndex)
      (below : Walk u (childAt u p b) c i) : Walk u p (b :: c) i

theorem TreeShape.childAt_below (h : TreeShape u) (hp : Allocated u p) (hl : (ahufNode u p).left ≠ noIndex) (b : Bool) :
    Allocated u (childAt u p b) ∧ orderOf u (childAt u p b) < orderOf u p := by
  obtain ⟨hla, hra, -, -, -, hadj, hlt⟩ := h.internal p hp hl
  simp only [childAt, orderOf]
  split_ifs
  · exact ⟨hra, hlt⟩
  · exact ⟨hla, by omega⟩

/-- ORDER falls along a walk, which bounds its length. -/
theorem Walk.bounded (hw : Walk u p c i) (h : TreeShape u) (hp : Allocated u p) :
    Allocated u i ∧ c.length + orderOf u i ≤ orderOf u p := by
  induction hw with
  | here i => exact ⟨hp, by simp⟩
  | down hl _ ih =>
    obtain ⟨hca, hlt⟩ := h.childAt_below hp hl _
    obtain ⟨hi, hle⟩ := ih hca
    exact ⟨hi, by rw [List.length_cons]; omega⟩

/-- A walk to another record begins at an internal one. -/
theorem Walk.internal (hw : Walk u p c i) (hne : i ≠ p) : (ahufNode u p).left ≠ noIndex := by
  cases hw with
  | here => exact absurd rfl hne
  | down hl _ => exact hl

/-- `Code` climbs from a record to the root and gathers the walk back. -/
theorem walk_codeInto {fuel : Nat} {bits : List Bool} {j : BitVec 10} (h : TreeShape u) (hi : Allocated u i)
    (hw : Walk u i bits j) (hfuel : 517 ≤ orderOf u i + fuel) : Walk u 0 (codeInto u fuel i bits) j := by
  induction fuel generalizing i bits with
  | zero =>
    have := (h.orders i hi).1
    rw [orderOf] at hfuel
    omega
  | succ fuel ih =>
    rw [codeInto]
    split_ifs with hpar
    · rwa [(h.parent_eq_noIndex hi).mp hpar] at hw
    · obtain ⟨hpa, hl, hlt, s, -, hne, -, -, hsides⟩ := h.exists_sibling hi (mt (h.parent_eq_noIndex hi).mpr hpar)
      refine ih hpa (.down hl ?_) (by omega)
      rcases hsides with ⟨hleft, hright⟩ | ⟨hleft, hright⟩
      · simpa [childAt, hleft, hright, hne] using hw
      · simpa [childAt, hright] using hw

theorem walk_ahufCode (h : TreeShape u) (hi : Allocated u i) : Walk u 0 (ahufCode u i) i :=
  walk_codeInto h hi (.here i) (h.treeFuel_suffices hi)

/-- No code is as long as the bound of the walks. -/
theorem ahufCode_length_lt (h : TreeShape u) (hi : Allocated u i) : (ahufCode u i).length < treeFuel := by
  obtain ⟨-, hle⟩ := (walk_ahufCode h hi).bounded h h.root_allocated
  have hfuel := h.treeFuel_suffices hi
  rw [h.root_order] at hle
  omega

theorem ahufCode_ne_nil (h : TreeShape u) (hi : Allocated u i) (h0 : i ≠ 0) : ahufCode u i ≠ [] := by
  intro hnil
  have hw := walk_ahufCode h hi
  rw [hnil] at hw
  cases hw
  exact h0 rfl

/-- The root is not a leaf: the NYT leaf is below it. -/
theorem TreeShape.root_internal (h : TreeShape u) : (ahufNode u 0).left ≠ noIndex :=
  (walk_ahufCode h h.nyt_allocated).internal h.nyt_ne_root

/-- The record of a symbol that is in the tree: an allocated leaf, and not the root. -/
theorem TreeShape.symbol_leaf (h : TreeShape u) {sym : Nat} (hsym : sym < 258) (hsome : ahufLeaf u sym ≠ noIndex) :
    Allocated u (ahufLeaf u sym) ∧ (ahufNode u (ahufLeaf u sym)).left = noIndex ∧ ahufLeaf u sym ≠ 0 := by
  obtain ⟨ha, hleft, -⟩ := h.inverse sym hsym hsome
  exact ⟨ha, hleft, fun h0 => h.root_internal (h0 ▸ hleft)⟩

theorem encodeByteBits_of_seen {b : Byte} (h : ahufLeaf u b.toNat ≠ noIndex) :
    encodeByteBits u b = ahufCode u (ahufLeaf u b.toNat) := if_pos h

theorem encodeByteBits_of_unseen {b : Byte} (h : ahufLeaf u b.toNat = noIndex) :
    encodeByteBits u b = ahufCode u (ahufLeaf u 257) ++ msbBits b.toNat 8 := if_neg (not_not.mpr h)

/-- Every byte takes at least one bit. -/
theorem encodeByteBits_length_pos (h : TreeShape u) (b : Byte) : 1 ≤ (encodeByteBits u b).length := by
  by_cases hsome : ahufLeaf u b.toNat = noIndex
  · rw [encodeByteBits_of_unseen hsome, List.length_append, msbBits_length]
    omega
  · obtain ⟨ha, -, h0⟩ := h.symbol_leaf (by omega) hsome
    rw [encodeByteBits_of_seen hsome]
    exact List.length_pos_of_ne_nil (ahufCode_ne_nil h ha h0)

/-! ## The bits of a block (R261) -/

@[simp] theorem ahufTreeAfter_cons (u : Ahuf) (b : Byte) (block : List Byte) :
    ahufTreeAfter u (b :: block) = ahufTreeAfter (ahufUpdateTree u b) block := rfl

/-- The bitstream is the codes of the block and the EOF code of the tree after it. -/
theorem ahufBits_eq (u : Ahuf) (block : List Byte) :
    ahufBits u block = ahufDataBits u block
      ++ ahufCode (ahufTreeAfter u block) (ahufLeaf (ahufTreeAfter u block) 256) := by
  induction block generalizing u with
  | nil => rfl
  | cons b block ih => rw [ahufBits, ahufDataBits, ih, List.append_assoc, ahufTreeAfter_cons]

/-- The updates of a block keep the invariants while the root's weight has room for all of them (R259). -/
theorem ahufTreeAfter_inv {block : List Byte} (h : AhufInv u) (hroom : weightOf u 0 + block.length < 4294967296) :
    AhufInv (ahufTreeAfter u block) := by
  induction block generalizing u with
  | nil => exact h
  | cons b block ih =>
    rw [List.length_cons] at hroom
    obtain ⟨h', hroot⟩ := ahufUpdateTree_keeps h (by omega) b
    exact ih h' (by omega)

/-! ## Free draws do not matter -/

/-- The unit with other numbers of the free draws (log entries 2, 5). -/
def redraw (d e : Nat) (u : Ahuf) : Ahuf := { u with arena := { u.arena with draw := d }, weightDraw := e }

theorem initTree_eq_redraw (u v : Ahuf) : initTree v = redraw (v.arena.draw + 1) v.weightDraw (initTree u) := rfl

/-- Record `i` has been written, so a read of it is no free draw. -/
def Listed (u : Ahuf) (i : BitVec 10) : Prop := (getCell u.arena.cells i.toNat).isSome

theorem TreeShape.listed (h : TreeShape u) (hi : Allocated u i) : Listed u i := by
  have hr : rising u.arena.cells = true := rising_iff_pairwise.mpr (h.keys ▸ List.pairwise_lt_range)
  rw [Listed, getCell_of_mem hr (h.mem_cells hi)]
  rfl

theorem Listed.setNode (h : Listed u i) (j : BitVec 10) (n : AhufNode) : Listed (setNode u j n) i := by
  simp only [Listed, Machine.setNode, Ram.write, getCell_putCell]
  split_ifs
  · rfl
  · exact h

theorem Listed.setChild (h : Listed u i) (p : BitVec 10) (right : Bool) (b : BitVec 10) :
    Listed (setChild u p right b) i := by
  unfold Machine.setChild
  split_ifs <;> exact h.setNode _ _

theorem ahufNode_redraw (h : Listed u i) : ahufNode (redraw d e u) i = ahufNode u i := by
  obtain ⟨n, hn⟩ := Option.isSome_iff_exists.mp h
  simp only [ahufNode, redraw, Ram.read]
  rw [hn]
  rfl

theorem setNode_redraw (u : Ahuf) (i : BitVec 10) (n : AhufNode) :
    setNode (redraw d e u) i n = redraw d e (setNode u i n) := rfl

theorem setChild_redraw (hp : Listed u p) (right : Bool) (b : BitVec 10) :
    setChild (redraw d e u) p right b = redraw d e (setChild u p right b) := by
  rw [setChild, setChild, ahufNode_redraw hp]
  split_ifs <;> rfl

theorem swapNodes_redraw {a b : BitVec 10} (ha : Listed u a) (hb : Listed u b)
    (hpa : Listed u (ahufNode u a).parent) (hpb : Listed u (ahufNode u b).parent) :
    swapNodes (redraw d e u) a b = redraw d e (swapNodes u a b) := by
  simp only [swapNodes, ahufNode_redraw ha, ahufNode_redraw hb, ahufNode_redraw hpa, ahufNode_redraw hpb,
    setChild_redraw hpa, setChild_redraw (hpb.setChild _ _ _), ahufNode_redraw ((ha.setChild _ _ _).setChild _ _ _),
    setNode_redraw, ahufNode_redraw (((hb.setChild _ _ _).setChild _ _ _).setNode _ _)]

theorem updateLevel_redraw (hs : TreeShape u) (hw : WeightsPending u x) (hx : x ≠ noIndex)
    (hroom : weightOf u 0 + 1 < 4294967296) : updateLevel (redraw d e u) x = redraw d e (updateLevel u x) := by
  have hxa := (hw.place hx).1
  have hle := hw.weight_le_root hs hxa
  have hnode : ahufNode (redraw d e u) x = ahufNode u x := ahufNode_redraw (hs.listed hxa)
  obtain ⟨b, hleader, hb, hweight, hheads⟩ := hs.exists_leader hxa
  have hleader' : leader (redraw d e u) (ahufNode u x).weight = some b := hleader
  have hincrement {v : Ahuf} (hv : Listed v x) (hvroom : weightOf v x + 1 < 4294967296) :
      incrementWeight (redraw d e v) x = redraw d e (incrementWeight v x) := by
    have hweight' : weightOf (redraw d e v) x = weightOf v x := by rw [weightOf, ahufNode_redraw hv, weightOf]
    rw [incrementWeight_eq (hweight' ▸ hvroom), incrementWeight_eq hvroom, ahufNode_redraw hv, setNode_redraw]
  simp only [updateLevel, swapWithLeader, hnode, hleader, hleader']
  split_ifs with hcase
  · have helse : LeaderElsewhere u x b := ⟨hw, hxa, hb, hweight, hheads, hcase.1, hcase.2⟩
    obtain ⟨⟨-, hx0⟩, ⟨-, hb0⟩, -⟩ := helse.swappable hs
    have hxa' := allocated_swapNodes (a := x) (b := b) |>.mpr hxa
    rw [swapNodes_redraw (hs.listed hxa) (hs.listed hb) (hs.listed (hs.exists_sibling hxa hx0).1)
      (hs.listed (hs.exists_sibling hb hb0).1)]
    exact hincrement ((helse.shape hs).listed hxa') (by rw [helse.weightOf_swapNodes hs hxa]; omega)
  · exact hincrement (hs.listed hxa) (by omega)

theorem updateFrom_redraw {fuel : Nat} (hs : TreeShape u) (hw : x ≠ noIndex → WeightsPending u x)
    (hroom : x ≠ noIndex → weightOf u 0 + 1 < 4294967296) :
    updateFrom fuel (redraw d e u) x = redraw d e (updateFrom fuel u x) := by
  induction fuel generalizing u x with
  | zero => rfl
  | succ fuel ih =>
    rw [updateFrom, updateFrom]
    split_ifs with hx
    · rfl
    · obtain ⟨hs', hw', hxa, -, hroot⟩ := (hw hx).updateLevel hs hx (hroom hx)
      rw [updateLevel_redraw hs (hw hx) hx (hroom hx), ahufNode_redraw (hs'.listed hxa)]
      refine ih hs' (fun _ => hw') fun hpar => ?_
      rw [hroot, if_neg (mt (hs'.parent_eq_noIndex hxa).mpr hpar)]
      exact hroom hx

theorem splitNyt_redraw (hs : TreeShape u) (sym : Byte) :
    splitNyt (redraw d e u) sym = (redraw d e (splitNyt u sym).1, (splitNyt u sym).2) := by
  have hnyt : Listed u (ahufLeaf u nytSymbol) := hs.listed hs.nyt_allocated
  have hleaf : ahufLeaf (redraw d e u) nytSymbol = ahufLeaf u nytSymbol := rfl
  have hnalloc : (redraw d e u).nalloc = u.nalloc := rfl
  simp only [splitNyt, hleaf, hnalloc, ahufNode_redraw hnyt, setNode_redraw,
    ahufNode_redraw ((hnyt.setNode _ _).setNode _ _)]
  rfl

theorem ahufUpdateTree_redraw (h : AhufInv u) (hroom : weightOf u 0 + 1 < 4294967296) (sym : Byte) :
    ahufUpdateTree (redraw d e u) sym = redraw d e (ahufUpdateTree u sym) := by
  have hs := shape_of_ahufInv h
  have hw := weights_of_ahufInv h
  have hleaf : ahufLeaf (redraw d e u) sym.toNat = ahufLeaf u sym.toNat := rfl
  simp only [ahufUpdateTree, hleaf, splitNyt_redraw hs]
  split_ifs with hsym
  · exact updateFrom_redraw (splitNyt_shape hs hsym) (fun _ => splitNyt_weights hs hsym hw) fun _ =>
      weightOf_splitNyt_root hs hsym ▸ hroom
  · exact updateFrom_redraw hs (fun _ => hw.at_leaf hs hsym) fun _ => hroom

theorem codeInto_redraw {fuel : Nat} {bits : List Bool} (hs : TreeShape u) (hi : Allocated u i) :
    codeInto (redraw d e u) fuel i bits = codeInto u fuel i bits := by
  induction fuel generalizing i bits with
  | zero => rfl
  | succ fuel ih =>
    rw [codeInto, codeInto, ahufNode_redraw (hs.listed hi)]
    split_ifs with hpar
    · rfl
    · have hpa := (hs.exists_sibling hi (mt (hs.parent_eq_noIndex hi).mpr hpar)).1
      rw [ahufNode_redraw (hs.listed hpa), ih hpa]

theorem ahufCode_redraw (hs : TreeShape u) {sym : Nat} (hsym : sym < 258) (hsome : ahufLeaf u sym ≠ noIndex) :
    ahufCode (redraw d e u) (ahufLeaf (redraw d e u) sym) = ahufCode u (ahufLeaf u sym) :=
  codeInto_redraw hs (hs.symbol_leaf hsym hsome).1

theorem encodeByteBits_redraw (hs : TreeShape u) (b : Byte) :
    encodeByteBits (redraw d e u) b = encodeByteBits u b := by
  by_cases hsome : ahufLeaf u b.toNat = noIndex
  · rw [encodeByteBits_of_unseen hsome, encodeByteBits_of_unseen (u := redraw d e u) hsome,
      ahufCode_redraw hs (by decide) hs.nyt.1]
  · rw [encodeByteBits_of_seen hsome, encodeByteBits_of_seen (u := redraw d e u) hsome,
      ahufCode_redraw hs (by omega) hsome]

/-- The bitstream of a block is that of every unit that differs in the free draws only. -/
theorem ahufBits_redraw {block : List Byte} (h : AhufInv u) (hroom : weightOf u 0 + block.length < 4294967296) :
    ahufBits (redraw d e u) block = ahufBits u block := by
  induction block generalizing u with
  | nil =>
    have hs := shape_of_ahufInv h
    exact ahufCode_redraw hs (by decide) hs.eof
  | cons b block ih =>
    rw [List.length_cons] at hroom
    obtain ⟨h', hroot⟩ := ahufUpdateTree_keeps h (by omega) b
    rw [ahufBits, ahufBits, encodeByteBits_redraw (shape_of_ahufInv h), ahufUpdateTree_redraw h (by omega),
      ih h' (by omega)]

/-- Whatever unit encodes a block, the bitstream is the same (R251, R277). -/
theorem ahufBits_initTree (u v : Ahuf) {block : List Byte} (h : block.length ≤ 268435456) :
    ahufBits (initTree v) block = ahufBits (initTree u) block := by
  rw [initTree_eq_redraw u v]
  exact ahufBits_redraw (initTree_inv u) (by rw [weightOf_initTree_root]; omega)

end Sys2Proof.Machine
end

section
/-! AHUF_ENC (R260, R261, R265, R270). The encoder's working states are `Work.wrote` of the bits given so far, on the
machine whose tree and checksum have taken the bytes coded so far (`afterBlock`). -/

namespace Sys2Proof.Machine

open Sys2Proof.Safety

variable {w : Work} {bits : List Bool} {x : List Byte} {s : State}

/-! ## The machine under the adaptive commands -/

/-- The machine once the bytes of a block are coded: for each a step of the checksum and an update of the tree (R270,
R275). -/
def afterBlock (block : List Byte) (s : State) : State :=
  { s with ahuf := ahufTreeAfter s.ahuf block, crcacc := crcSteps s.params s.crcacc block }

/-- The working state once the bytes of a block are coded. -/
def Work.coded (w : Work) (block : List Byte) : Work := { w with mach := afterBlock block w.mach }

theorem Change.of_ahufCodec {i : Instr} {s t : State} (hi : i ∈ [Instr.ahufEnc, .ahufDec]) (h : Change i s t) :
    t = { s with ahuf := t.ahuf, crcacc := t.crcacc } := by
  cases h with
  | crc | freshTree | update => rfl
  | suffixes _ user | draw user | freshTable user | insert _ _ user | record _ _ user =>
    rcases List.mem_pair.mp hi with rfl | rfl <;> simp at user

theorem coded_emitted (k : Nat) (s : State) (bytes block : List Byte) :
    (Work.emitted k s bytes).coded block = Work.emitted k (afterBlock block s) bytes := rfl

theorem extended_emitted (k : Nat) (s : State) (a b : List Byte) :
    (Work.emitted k s a).extended b = Work.emitted k s (a ++ b) := by
  rw [← extended_start, extended_extended, extended_start]

/-- Tree and checksum are all that the two commands change before their results. -/
theorem Changes.of_ahufCodec {i : Instr} {s t : State} (hi : i ∈ [Instr.ahufEnc, .ahufDec]) (h : Changes i s t) :
    t = { s with ahuf := t.ahuf, crcacc := t.crcacc } := by
  induction h with
  | refl => rfl
  | @tail m t _ hc ih =>
    have hlast := hc.of_ahufCodec hi
    rw [ih] at hlast
    exact hlast

/-- A byte-producing command whose body raises with the machine `m` as it was changed by then (R373). -/
theorem runCodec_of_error {body : List Byte → Cmd Unit} {m : State} {e : FatalError} {v : Work}
    (hfits : InputFits s) (hbody : body s.input (Work.start 0 (beginCommand s)) = .error e v)
    (hmach : v.mach = beginCommand m) : runCodec keepNothing body s = failed e 0 (discardOutput m) := by
  rw [runCodec_fits keepNothing body hfits, hbody, finishCodec_error, keepNothing, if_neg Bool.false_ne_true, hmach,
    fail_discard_begin]

/-! ## The bytes of a block (R260) -/

theorem encodeByte_of_ok {v : Work} {b : Byte} (h : putBitList (encodeByteBits w.mach.ahuf b) w = .ok () v) :
    encodeByte b w = .ok () { v with mach := onAhuf (fun u => ahufUpdateTree u b) v.mach } := by
  rw [encodeByte, Cmd.get_bind, Cmd.bind_ok h, onMachine_run]

theorem encodeByte_of_error {v : Work} {b : Byte} {e : FatalError}
    (h : putBitList (encodeByteBits w.mach.ahuf b) w = .error e v) : encodeByte b w = .error e v := by
  rw [encodeByte, Cmd.get_bind, Cmd.bind_error h]

/-- One byte of the block, while its bits fit. -/
theorem ahufEncBytes_cons_wrote (b : Byte)
    (h : w.olen + (bits.length + (encodeByteBits w.mach.ahuf b).length) / 8 ≤ w.mach.params.bufCap) :
    ahufEncBytes (b :: x) (w.wrote bits)
      = ahufEncBytes x ((w.coded [b]).wrote (bits ++ encodeByteBits w.mach.ahuf b)) := by
  have hput := putBitList_wrote (w := { w with mach := feedCrc b w.mach }) (bits := bits) h
  rw [ahufEncBytes, Cmd.bind_ok (onMachine_run _ _), Cmd.bind_ok (encodeByte_of_ok hput)]
  rfl

/-- The bits of a block that fit are written one code after the other. -/
theorem ahufEncBytes_wrote
    (h : w.olen + (bits.length + (ahufDataBits w.mach.ahuf x).length) / 8 ≤ w.mach.params.bufCap) :
    ahufEncBytes x (w.wrote bits) = .ok () ((w.coded x).wrote (bits ++ ahufDataBits w.mach.ahuf x)) := by
  induction x generalizing w bits with
  | nil => rw [ahufEncBytes, Cmd.pure_run, ahufDataBits, List.append_nil]; rfl
  | cons b x ih =>
    rw [ahufDataBits, List.length_append] at h
    have hrest := ih (w := w.coded [b]) (bits := bits ++ encodeByteBits w.mach.ahuf b)
      (by rwa [List.length_append, Nat.add_assoc])
    rw [ahufEncBytes_cons_wrote b (by omega), hrest, ahufDataBits, ← List.append_assoc]
    rfl

/-- The bits of a block that do not fit overflow the output buffer (R72). -/
theorem ahufEncBytes_wrote_of_tooLong (h0 : w.olen + bits.length / 8 ≤ w.mach.params.bufCap)
    (h : w.mach.params.bufCap < w.olen + (bits.length + (ahufDataBits w.mach.ahuf x).length) / 8) :
    ∃ v, ahufEncBytes x (w.wrote bits) = .error outputTooLong v := by
  induction x generalizing w bits with
  | nil => exact absurd h (Nat.not_lt.mpr h0)
  | cons b x ih =>
    rw [ahufDataBits, List.length_append] at h
    rcases Nat.lt_or_ge w.mach.params.bufCap (w.olen + (bits.length + (encodeByteBits w.mach.ahuf b).length) / 8)
      with hb | hb
    · obtain ⟨v, hv⟩ := putBitList_wrote_of_tooLong (w := { w with mach := feedCrc b w.mach }) h0 hb
      rw [ahufEncBytes, Cmd.bind_ok (onMachine_run _ _)]
      exact ⟨v, Cmd.bind_error (encodeByte_of_error hv) _⟩
    · rw [ahufEncBytes_cons_wrote b hb]
      exact ih (w := w.coded [b]) (by rwa [List.length_append]) (by rwa [List.length_append, Nat.add_assoc])

/-! ## The bitstream (R261) -/

/-- EncodeEnd completes the string of all bits written since the byte boundary. -/
theorem encodeEnd_wrote (hw : w.Aligned) (h : w.olen + bits.length / 8 ≤ w.mach.params.bufCap) :
    encodeEnd (w.wrote bits)
      = (putBitList (bits ++ ahufCode w.mach.ahuf (ahufLeaf w.mach.ahuf 256)) >>= fun _ => flushBits) w := by
  rw [encodeEnd, Cmd.get_bind, Cmd.bind_run (putBitList (bits ++ _)), putBitList_append,
    Cmd.bind_ok (putBitList_of_aligned hw h), ← Cmd.bind_run]
  rfl

theorem encodeBlock_of_fits (hw : w.Aligned)
    (h : w.olen + (packBits (ahufBits w.mach.ahuf x)).length ≤ w.mach.params.bufCap) :
    (ahufEncBytes x >>= fun _ => encodeEnd) w
      = .ok () ((w.coded x).extended (packBits (ahufBits w.mach.ahuf x))) := by
  have hdata : w.olen + (ahufDataBits w.mach.ahuf x).length / 8 ≤ w.mach.params.bufCap := by
    rw [packBits_length, ahufBits_eq, List.length_append] at h
    omega
  have hbytes := ahufEncBytes_wrote (w := w) (bits := []) (x := x) (by rwa [List.length_nil, Nat.zero_add])
  rw [wrote_nil hw.1 hw.2, List.nil_append] at hbytes
  rw [Cmd.bind_ok hbytes, encodeEnd_wrote (w := w.coded x) hw hdata, ahufBits_eq]
  exact (emits_bits _).ok (w.coded x) hw (by rwa [ahufBits_eq] at h)

theorem encodeBlock_of_tooLong (hw : w.Aligned) (h0 : w.olen ≤ w.mach.params.bufCap)
    (h : w.mach.params.bufCap < w.olen + (packBits (ahufBits w.mach.ahuf x)).length) :
    ∃ v, (ahufEncBytes x >>= fun _ => encodeEnd) w = .error outputTooLong v := by
  rcases Nat.lt_or_ge w.mach.params.bufCap (w.olen + (ahufDataBits w.mach.ahuf x).length / 8) with hdata | hdata
  · obtain ⟨v, hv⟩ := ahufEncBytes_wrote_of_tooLong (w := w) (bits := []) (x := x) h0
      (by rwa [List.length_nil, Nat.zero_add])
    rw [wrote_nil hw.1 hw.2] at hv
    exact ⟨v, Cmd.bind_error hv _⟩
  · have hbytes := ahufEncBytes_wrote (w := w) (bits := []) (x := x) (by rwa [List.length_nil, Nat.zero_add])
    rw [wrote_nil hw.1 hw.2, List.nil_append] at hbytes
    rw [Cmd.bind_ok hbytes, encodeEnd_wrote (w := w.coded x) hw hdata]
    exact (emits_bits _).error (w.coded x) hw h0 (by rwa [ahufBits_eq] at h)

/-! ## The container (R265) -/

/-- The header with LENGTH and CRC still zero (R270). -/
def blankHeader : List Byte := ahufMagic ++ List.replicate 12 0

theorem overwrite_append {off : Nat} {front old v more : List Byte} (hoff : front.length = off)
    (hlen : old.length = v.length) : overwrite off v (front ++ (old ++ more)) = front ++ (v ++ more) := by
  rw [overwrite, List.take_left' hoff, ← hlen, ← hoff, ← List.drop_drop, List.drop_left, List.drop_left,
    List.append_assoc]

/-- LENGTH and CRC are filled in. -/
theorem overwrite_blankHeader (n crc : Nat) (payload : List Byte) :
    overwrite 12 (leBytes 4 crc) (overwrite 4 (leBytes 8 n) (blankHeader ++ payload))
      = ahufMagic ++ leBytes 8 n ++ leBytes 4 crc ++ payload := by
  have hblank : blankHeader ++ payload
      = ahufMagic ++ (List.replicate 8 0 ++ (List.replicate 4 0 ++ payload)) := rfl
  have hmagic : ahufMagic.length = 4 := rfl
  have hfront : (ahufMagic ++ leBytes 8 n).length = 12 := by rw [List.length_append, leBytes_length]; rfl
  rw [hblank, overwrite_append (old := List.replicate 8 0) hmagic (leBytes_length 8 n).symm, ← List.append_assoc,
    overwrite_append (old := List.replicate 4 0) hfront (leBytes_length 4 crc).symm]
  simp only [List.append_assoc]

theorem ahufContainerWith_length (crc : Word) (u : Ahuf) (block : List Byte) :
    (ahufContainerWith crc u block).length = 16 + (ahufPayload u block).length := by
  simp only [ahufContainerWith, List.length_append, leBytes_length]
  rfl

/-! ## AHUF_ENC (R270) -/

theorem ahufEncStage_eq (x : List Byte) :
    ahufEncStage x = onMachine startAhuf >>= fun _ => (emitAll ahufMagic >>= fun _ => emitAll (List.replicate 12 0))
      >>= fun _ => (ahufEncBytes x >>= fun _ => encodeEnd) >>= fun _ => ahufEncFinish := by
  simp only [ahufEncStage, bind_assoc]

theorem emits_blankHeader :
    Emits (emitAll ahufMagic >>= fun _ => emitAll (List.replicate 12 0)) blankHeader :=
  (emits_emitAll ahufMagic).bind (emits_emitAll _)

/-- With header and payload emitted, the two fields and the results are left to write. -/
theorem ahufEncFinish_emitted (k : Nat) (s : State) (x : List Byte) :
    ahufEncFinish (Work.emitted k (afterBlock x (startAhuf s)) (blankHeader ++ ahufPayload s.ahuf x))
      = .ok () (Work.emitted k (ahufCoded x (crc32 s.params x) s) (ahufContainer s.params s.ahuf x)) := by
  have hlen : (blankHeader ++ ahufPayload s.ahuf x).length = 16 + (ahufPayload s.ahuf x).length := by
    rw [List.length_append]
    rfl
  simp only [ahufEncFinish, Cmd.get_bind, Cmd.bind_ok (memWriteOut_run _ _ _), onMachine_run, Work.emitted,
    List.reverse_reverse, overwrite_blankHeader, ahufContainer, ahufContainerWith_length, hlen]
  rfl

theorem ahufEncStage_of_fits (k : Nat) (h : (ahufContainer s.params s.ahuf x).length ≤ s.params.bufCap) :
    ahufEncStage x (Work.start k s)
      = .ok () (Work.emitted k (ahufCoded x (crc32 s.params x) s) (ahufContainer s.params s.ahuf x)) := by
  rw [ahufContainer, ahufContainerWith_length] at h
  have hheader := emits_blankHeader.ok (Work.start k (startAhuf s)) (work_start_aligned _ _)
    ((Nat.zero_add _).trans_le (Nat.le_of_add_right_le h))
  have hblock := encodeBlock_of_fits (w := Work.emitted k (startAhuf s) blankHeader) (x := x)
    ⟨rfl, rfl⟩ h
  rw [extended_start] at hheader
  rw [coded_emitted, extended_emitted] at hblock
  rw [ahufEncStage_eq, Cmd.bind_ok (onMachine_start _ _ _), Cmd.bind_ok hheader, Cmd.bind_ok hblock]
  exact ahufEncFinish_emitted k s x

theorem ahufEncStage_of_tooLong (k : Nat) (h : s.params.bufCap < (ahufContainer s.params s.ahuf x).length) :
    ∃ v, ahufEncStage x (Work.start k s) = .error outputTooLong v := by
  rw [ahufContainer, ahufContainerWith_length] at h
  rw [ahufEncStage_eq, Cmd.bind_ok (onMachine_start _ _ _)]
  rcases Nat.lt_or_ge s.params.bufCap 16 with hcap | hcap
  · obtain ⟨v, hv⟩ := emits_blankHeader.error (Work.start k (startAhuf s)) (work_start_aligned _ _) (Nat.zero_le _)
      (hcap.trans_eq (Nat.zero_add _).symm)
    exact ⟨v, Cmd.bind_error hv _⟩
  · have hheader := emits_blankHeader.ok (Work.start k (startAhuf s)) (work_start_aligned _ _)
      ((Nat.zero_add _).trans_le hcap)
    obtain ⟨v, hv⟩ := encodeBlock_of_tooLong (w := Work.emitted k (startAhuf s) blankHeader) (x := x)
      ⟨rfl, rfl⟩ hcap h
    rw [extended_start] at hheader
    rw [Cmd.bind_ok hheader]
    exact ⟨v, Cmd.bind_error hv _⟩

theorem exec_ahufEnc_of_fits (hfits : InputFits s)
    (h : (ahufContainer s.params s.ahuf s.input).length ≤ s.params.bufCap) :
    exec .ahufEnc s = .next (succeeded (commitOutput (ahufContainer s.params s.ahuf s.input)
      (ahufCoded s.input (crc32 s.params s.input) s))) :=
  congrArg _ (runCodec_of_emitted (t := ahufCoded s.input (crc32 s.params s.input) s) keepNothing hfits
    (ahufEncStage_of_fits (s := beginCommand s) 0 h))

theorem exec_ahufEnc_of_outputTooLong (hfits : InputFits s)
    (h : s.params.bufCap < (ahufContainer s.params s.ahuf s.input).length) :
    ∃ t, exec .ahufEnc s = .next t
      ∧ t = failed outputTooLong 0 (discardOutput { s with ahuf := t.ahuf, crcacc := t.crcacc }) := by
  obtain ⟨v, hv⟩ := ahufEncStage_of_tooLong (s := beginCommand s) 0 h
  have hmach := ((ahufEncStage_does _).error hv).1.changes.of_ahufCodec (by simp)
  have hrun := runCodec_of_error (m := { s with ahuf := v.mach.ahuf, crcacc := v.mach.crcacc }) hfits hv hmach
  exact ⟨_, congrArg Host.Outcome.next hrun, rfl⟩

theorem exec_ahufEnc_of_inputTooLong (h : s.params.bufCap < s.ilen.toNat) :
    exec .ahufEnc s = .next (failed inputTooLong 0 (discardOutput s)) :=
  congrArg _ (runCodec_keepNothing_tooLong ahufEncStage h)

end Sys2Proof.Machine

namespace Sys2Proof

open Sys2Proof.Machine Sys2Proof.Safety

/-- Settles O34: the three ways AHUF_ENC can end. -/
theorem ahufEncWritesContainer : Obligations.AhufEncWritesContainer :=
  fun _ => ⟨exec_ahufEnc_of_fits, exec_ahufEnc_of_outputTooLong, exec_ahufEnc_of_inputTooLong⟩

end Sys2Proof
end

section
/-! The loop of AHUF_DEC (R262, R275). The reader stands behind the bits `front` of the input; each part of the loop is
said once as what it makes of the bits that follow, in a tree with the invariants of R40. -/

namespace Sys2Proof.Machine

open Sys2Proof.Safety

variable {w : Work} {x : List Byte} {front more r : List Bool} {e : FatalError} {fuel n sym v : Nat}

/-! ## DecodeSymbol (R262) -/

theorem decodeSymbolFrom_leaf {i : BitVec 10} (hleaf : (ahufNode w.mach.ahuf i).left = noIndex) :
    decodeSymbolFrom (fuel + 1) i w = .ok (ahufNode w.mach.ahuf i).sym w := by
  rw [decodeSymbolFrom, Cmd.get_bind, if_pos hleaf, Cmd.pure_run]

theorem decodeSymbolFrom_internal {p : BitVec 10} (hl : (ahufNode w.mach.ahuf p).left ≠ noIndex) :
    decodeSymbolFrom (fuel + 1) p w
      = (getBit (corrupt 1) >>= fun b => decodeSymbolFrom fuel (childAt w.mach.ahuf p b)) w := by
  rw [decodeSymbolFrom, Cmd.get_bind, if_neg hl]
  rfl

theorem decodeSymbolFrom_down {p : BitVec 10} {b : Bool} (hl : (ahufNode w.mach.ahuf p).left ≠ noIndex)
    (hx : bitsOf x = front ++ b :: more) :
    decodeSymbolFrom (fuel + 1) p (w.atBit x front.length)
      = decodeSymbolFrom fuel (childAt w.mach.ahuf p b) (w.atBit x (front ++ [b]).length) :=
  (decodeSymbolFrom_internal (w := w.atBit x front.length) hl).trans (Cmd.bind_ok (getBit_of_bits _ w hx) _)

/-- The bits of a walk to a leaf give its symbol. -/
theorem decodeSymbolFrom_walk {p i : BitVec 10} {c : List Bool} (hwalk : Walk w.mach.ahuf p c i)
    (hleaf : (ahufNode w.mach.ahuf i).left = noIndex) (hfuel : c.length < fuel)
    (hx : bitsOf x = front ++ (c ++ more)) :
    decodeSymbolFrom fuel p (w.atBit x front.length)
      = .ok (ahufNode w.mach.ahuf i).sym (w.atBit x (front ++ c).length) := by
  obtain ⟨fuel, rfl⟩ := Nat.exists_eq_add_of_le' (Nat.one_le_of_lt hfuel)
  induction hwalk generalizing front fuel with
  | here i =>
    rw [List.append_nil]
    exact decodeSymbolFrom_leaf hleaf
  | @down p i b c hl _ ih =>
    rw [List.length_cons] at hfuel
    obtain ⟨fuel, rfl⟩ := Nat.exists_eq_add_of_le' (show 1 ≤ fuel by omega)
    rw [decodeSymbolFrom_down hl hx, ih hleaf (hx.trans (List.append_cons ..)) fuel (by omega), ← List.append_cons]

/-- Bits that end inside a walk (R262). -/
theorem decodeSymbolFrom_cut {p i : BitVec 10} {c : List Bool} (hwalk : Walk w.mach.ahuf p (r ++ c) i) (hne : c ≠ [])
    (hx : bitsOf x = front ++ r) :
    ∃ u, decodeSymbolFrom fuel p (w.atBit x front.length) = .error (corrupt 1) u := by
  induction fuel generalizing p front r with
  | zero => exact ⟨_, rfl⟩
  | succ fuel ih =>
    cases r with
    | nil =>
      obtain ⟨b, c, rfl⟩ := List.exists_cons_of_ne_nil hne
      rw [List.nil_append] at hwalk
      rw [List.append_nil] at hx
      cases hwalk with
      | down hl _ =>
        exact ⟨_, (decodeSymbolFrom_internal (w := w.atBit x front.length) hl).trans
          (Cmd.bind_error (getBit_of_end _ w hx) _)⟩
    | cons b r =>
      rw [List.cons_append] at hwalk
      cases hwalk with
      | down hl below =>
        rw [decodeSymbolFrom_down hl hx]
        exact ih below (hx.trans (List.append_cons ..))

section Symbol

variable (hs : TreeShape w.mach.ahuf) (hsym : sym < 258) (hsome : ahufLeaf w.mach.ahuf sym ≠ noIndex)
include hs hsym hsome

/-- The code of a symbol gives the symbol. -/
theorem decodeSymbol_of_code (hx : bitsOf x = front ++ (ahufCode w.mach.ahuf (ahufLeaf w.mach.ahuf sym) ++ more)) :
    decodeSymbol (w.atBit x front.length) = .ok (BitVec.ofNat 9 sym)
      (w.atBit x (front ++ ahufCode w.mach.ahuf (ahufLeaf w.mach.ahuf sym)).length) := by
  obtain ⟨ha, hleaf, -⟩ := hs.symbol_leaf hsym hsome
  have hnode : (ahufNode w.mach.ahuf (ahufLeaf w.mach.ahuf sym)).sym = BitVec.ofNat 9 sym :=
    BitVec.eq_of_toNat_eq (by rw [hs.leaf_sym hsym hsome, BitVec.toNat_ofNat]; omega)
  rw [decodeSymbol, decodeSymbolFrom_walk (walk_ahufCode hs ha) hleaf (ahufCode_length_lt hs ha) hx, hnode]

theorem decodeSymbol_of_cut (hx : bitsOf x = front ++ r)
    (hprefix : r <+: ahufCode w.mach.ahuf (ahufLeaf w.mach.ahuf sym))
    (hproper : r ≠ ahufCode w.mach.ahuf (ahufLeaf w.mach.ahuf sym)) :
    ∃ u, decodeSymbol (w.atBit x front.length) = .error (corrupt 1) u := by
  obtain ⟨c, hc⟩ := hprefix
  refine decodeSymbolFrom_cut (c := c) (hc ▸ walk_ahufCode hs (hs.symbol_leaf hsym hsome).1) ?_ hx
  rintro rfl
  exact hproper (by rwa [List.append_nil] at hc)

end Symbol

/-! ## The raw byte (R137, R275) -/

theorem foldl_msbBits (v n a : Nat) :
    (msbBits v n).foldl (fun a b => 2 * a + b.toNat) a = a * 2 ^ n + v % 2 ^ n := by
  induction n generalizing a with
  | zero => simp [msbBits, Nat.mod_one]
  | succ n ih =>
    rw [msbBits, List.foldl_cons, ih, Nat.toNat_testBit, Nat.mod_pow_succ, Nat.pow_succ]
    ring

theorem getBits_of_msbBits (e : FatalError) (w : Work) (hx : bitsOf x = front ++ (msbBits v n ++ more)) :
    getBits e n (w.atBit x front.length) = .ok (v % 2 ^ n) (w.atBit x (front ++ msbBits v n).length) := by
  have hlen := congrArg List.length hx
  simp only [bitsOf_length, List.length_append, msbBits_length] at hlen
  have htake : ((bitsOf x).drop front.length).take n = msbBits v n := by
    rw [hx, List.drop_left, List.take_left' (msbBits_length v n)]
  rw [getBits_atBit e w (by omega), htake, foldl_msbBits, Nat.zero_mul, Nat.zero_add, List.length_append,
    msbBits_length]

theorem getBits_of_cut (e : FatalError) (w : Work) (hx : bitsOf x = front ++ r) (h : r.length < n) :
    ∃ u, getBits e n (w.atBit x front.length) = .error e u := by
  suffices hinto : ∀ a, ∃ u, getBitsInto e a n (w.atBit x front.length) = .error e u from hinto 0
  induction n generalizing front r with
  | zero => exact absurd h (Nat.not_lt_zero _)
  | succ n ih =>
    intro a
    cases r with
    | nil =>
      rw [List.append_nil] at hx
      exact ⟨_, Cmd.bind_error (getBit_of_end e w hx) _⟩
    | cons b r =>
      rw [getBitsInto, Cmd.bind_ok (getBit_of_bits e w hx)]
      exact ih (hx.trans (List.append_cons ..)) (Nat.lt_of_succ_lt_succ h) _

theorem rawByte_of_bits (hv : v < 256) (hx : bitsOf x = front ++ (msbBits v 8 ++ more)) :
    rawByte (w.atBit x front.length)
      = if ahufLeaf w.mach.ahuf v ≠ noIndex then .error (corrupt 2) (w.atBit x (front ++ msbBits v 8).length)
        else .ok (BitVec.ofNat 8 v) (w.atBit x (front ++ msbBits v 8).length) := by
  rw [rawByte, Cmd.bind_ok (getBits_of_msbBits _ w hx), Nat.mod_eq_of_lt (show v < 2 ^ 8 from hv), Cmd.get_bind,
    Cmd.ite_run]
  rfl

/-! ## One pass of the loop (R275) -/

/-- A byte's bits, whether it was seen before or not, give the byte. -/
theorem ahufDecLoop_byte (hs : TreeShape w.mach.ahuf) (b : Byte)
    (hx : bitsOf x = front ++ (encodeByteBits w.mach.ahuf b ++ more)) :
    ahufDecLoop (fuel + 1) (w.atBit x front.length) = (acceptByte b >>= fun _ => ahufDecLoop fuel)
      (w.atBit x (front ++ encodeByteBits w.mach.ahuf b).length) := by
  by_cases hsome : ahufLeaf w.mach.ahuf b.toNat = noIndex
  · rw [encodeByteBits_of_unseen hsome] at hx ⊢
    rw [List.append_assoc] at hx
    have hraw := rawByte_of_bits (w := w) (front := front ++ ahufCode w.mach.ahuf (ahufLeaf w.mach.ahuf 257)) b.isLt
      (by rw [hx, List.append_assoc])
    rw [if_neg (not_not.mpr hsome), BitVec.ofNat_toNat, BitVec.setWidth_eq, List.append_assoc] at hraw
    rw [ahufDecLoop, Cmd.bind_ok (decodeSymbol_of_code hs (by decide) hs.nyt.1 hx), if_neg (by decide),
      if_pos (by decide), Cmd.bind_ok hraw]
  · have hb := b.isLt
    have hnat : (BitVec.ofNat 9 b.toNat).toNat = b.toNat := by rw [BitVec.toNat_ofNat]; omega
    have hbyte : (BitVec.ofNat 9 b.toNat).setWidth 8 = b :=
      BitVec.eq_of_toNat_eq (by rw [BitVec.toNat_setWidth, hnat]; omega)
    rw [encodeByteBits_of_seen hsome] at hx ⊢
    rw [ahufDecLoop, Cmd.bind_ok (decodeSymbol_of_code hs (by omega) hsome hx), hnat,
      if_neg (by rw [eofSymbol]; omega), if_neg (by rw [nytSymbol]; omega), Cmd.bind_ok (Cmd.pure_run _ _), hbyte]

/-- R275: a decoded byte is emitted, or the output is full. -/
theorem acceptByte_atBit (b : Byte) (w : Work) (x : List Byte) (k : Nat) :
    acceptByte b (w.atBit x k) = if w.olen = w.mach.params.bufCap then .error outputTooLong (w.atBit x k)
      else .ok () (((w.coded [b]).extended [b]).atBit x k) := by
  have hemit := emit_atBit b w x k
  split_ifs at hemit ⊢
  · exact Cmd.bind_error hemit _
  · rw [acceptByte, Cmd.bind_ok hemit]
    rfl

/-- The codes of a block that fits give the block, and leave a pass for what follows. -/
theorem ahufDecLoop_block {block : List Byte} (hinv : AhufInv w.mach.ahuf)
    (hroom : weightOf w.mach.ahuf 0 + block.length < 4294967296)
    (hcap : w.olen + block.length ≤ w.mach.params.bufCap)
    (hx : bitsOf x = front ++ (ahufDataBits w.mach.ahuf block ++ more))
    (hfuel : (ahufDataBits w.mach.ahuf block).length < fuel) :
    ∃ k, ahufDecLoop fuel (w.atBit x front.length) = ahufDecLoop (k + 1)
      (((w.coded block).extended block).atBit x (front ++ ahufDataBits w.mach.ahuf block).length) := by
  obtain ⟨fuel, rfl⟩ := Nat.exists_eq_add_of_le' (Nat.one_le_of_lt hfuel)
  induction block generalizing w front fuel with
  | nil => exact ⟨fuel, by rw [ahufDataBits, List.append_nil]; rfl⟩
  | cons b block ih =>
    have hs := shape_of_ahufInv hinv
    have hpos := encodeByteBits_length_pos hs b
    rw [List.length_cons] at hroom hcap
    rw [ahufDataBits, List.length_append] at hfuel
    rw [ahufDataBits, List.append_assoc] at hx
    obtain ⟨hinv', hroot⟩ := ahufUpdateTree_keeps hinv (by omega) b
    obtain ⟨fuel, rfl⟩ := Nat.exists_eq_add_of_le' (show 1 ≤ fuel by omega)
    have haccept := acceptByte_atBit b w x (front ++ encodeByteBits w.mach.ahuf b).length
    rw [if_neg (by omega)] at haccept
    obtain ⟨k, hk⟩ := ih (w := (w.coded [b]).extended [b]) (front := front ++ encodeByteBits w.mach.ahuf b) hinv'
      (by change weightOf (ahufUpdateTree w.mach.ahuf b) 0 + _ < _; omega)
      (by change w.olen + 1 + _ ≤ w.mach.params.bufCap; omega) (by rw [hx, List.append_assoc]; rfl) fuel
      (by change (ahufDataBits (ahufUpdateTree w.mach.ahuf b) block).length < _; omega)
    have hcoded : (((w.coded [b]).extended [b]).coded block).extended block
        = (w.coded (b :: block)).extended (b :: block) := extended_extended (w.coded (b :: block)) [b] block
    refine ⟨k, ?_⟩
    rw [ahufDecLoop_byte hs b hx, Cmd.bind_ok haccept, hk, hcoded, ahufDataBits, ← List.append_assoc]
    rfl

/-! ## The passes that end the loop (R275) -/

/-- The next pass of the loop raises `e` before it changes the machine. -/
def StopsNext (e : FatalError) (w : Work) : Prop :=
  ∀ fuel, ∃ u, ahufDecLoop (fuel + 1) w = .error e u ∧ u.mach = w.mach

section Ends

variable {u : Ahuf} (hu : w.mach.ahuf = u) (hs : TreeShape u)
include hu hs

theorem ahufDecLoop_eof (hx : bitsOf x = front ++ (ahufCode u (ahufLeaf u 256) ++ more)) :
    ahufDecLoop (fuel + 1) (w.atBit x front.length)
      = .ok () (w.atBit x (front ++ ahufCode u (ahufLeaf u 256)).length) := by
  subst hu
  rw [ahufDecLoop, Cmd.bind_ok (decodeSymbol_of_code hs (by decide) hs.eof hx)]
  exact congrFun (if_pos (by decide)) _

/-- The input ends inside a code. -/
theorem stopsNext_of_cut (hsym : sym < 258) (hsome : ahufLeaf u sym ≠ noIndex) (hx : bitsOf x = front ++ r)
    (hprefix : r <+: ahufCode u (ahufLeaf u sym)) (hproper : r ≠ ahufCode u (ahufLeaf u sym)) :
    StopsNext (corrupt 1) (w.atBit x front.length) := by
  subst hu
  obtain ⟨v, hv⟩ := decodeSymbol_of_cut hs hsym hsome hx hprefix hproper
  have hmach := decodeSymbol_mach (w.atBit x front.length)
  rw [hv] at hmach
  exact fun fuel => ⟨v, Cmd.bind_error hv _, hmach⟩

/-- After the NYT code the raw byte raises. -/
theorem stopsNext_of_rawByte (hx : bitsOf x = front ++ (ahufCode u (ahufLeaf u 257) ++ more))
    (h : ∃ v, rawByte (w.atBit x (front ++ ahufCode u (ahufLeaf u 257)).length) = .error e v) :
    StopsNext e (w.atBit x front.length) := by
  subst hu
  obtain ⟨v, hv⟩ := h
  have hmach := rawByte_mach (w.atBit x (front ++ ahufCode w.mach.ahuf (ahufLeaf w.mach.ahuf 257)).length)
  rw [hv] at hmach
  refine fun fuel => ⟨v, ?_, hmach⟩
  rw [ahufDecLoop, Cmd.bind_ok (decodeSymbol_of_code hs (by decide) hs.nyt.1 hx), if_neg (by decide),
    if_pos (by decide), Cmd.bind_error hv]

/-- The input ends inside the NYT code or the raw byte behind it. -/
theorem stopsNext_of_cut_raw (hx : bitsOf x = front ++ r)
    (hprefix : r <+: ahufCode u (ahufLeaf u 257) ++ msbBits v 8)
    (hproper : r ≠ ahufCode u (ahufLeaf u 257) ++ msbBits v 8) :
    StopsNext (corrupt 1) (w.atBit x front.length) := by
  by_cases hnyt : ahufCode u (ahufLeaf u 257) <+: r
  · obtain ⟨raw, rfl⟩ := hnyt
    rw [List.prefix_append_right_inj] at hprefix
    have hlen : raw.length < 8 := by
      refine lt_of_le_of_ne (hprefix.length_le.trans_eq (msbBits_length v 8)) fun hlen => hproper ?_
      rw [hprefix.eq_of_length (hlen.trans (msbBits_length v 8).symm)]
    obtain ⟨t, ht⟩ := getBits_of_cut (corrupt 1) w (hx.trans (List.append_assoc ..).symm) hlen
    exact stopsNext_of_rawByte hu hs hx ⟨t, Cmd.bind_error ht _⟩
  · have hshort := (List.prefix_or_prefix_of_prefix hprefix (List.prefix_append ..)).resolve_right hnyt
    exact stopsNext_of_cut hu hs (by decide) hs.nyt.1 hx hshort fun he => hnyt (he ▸ List.prefix_rfl)

/-- The NYT code is followed by a byte that has a leaf. -/
theorem stopsNext_of_seen_raw (hv : v < 256) (hsome : ahufLeaf u v ≠ noIndex)
    (hx : bitsOf x = front ++ (ahufCode u (ahufLeaf u 257) ++ msbBits v 8 ++ more)) :
    StopsNext (corrupt 2) (w.atBit x front.length) := by
  rw [List.append_assoc] at hx
  have hraw := rawByte_of_bits (w := w) hv (hx.trans (List.append_assoc ..).symm)
  rw [hu, if_pos hsome] at hraw
  exact stopsNext_of_rawByte hu hs hx ⟨_, hraw⟩

/-- One byte more than the output buffer holds. -/
theorem stopsNext_of_full (hfull : w.olen = w.mach.params.bufCap) (b : Byte)
    (hx : bitsOf x = front ++ (encodeByteBits u b ++ more)) :
    StopsNext outputTooLong (w.atBit x front.length) := by
  subst hu
  have haccept := acceptByte_atBit b w x (front ++ encodeByteBits w.mach.ahuf b).length
  rw [if_pos hfull] at haccept
  exact fun _ => ⟨_, (ahufDecLoop_byte hs b hx).trans (Cmd.bind_error haccept _), rfl⟩

end Ends

end Sys2Proof.Machine
end

section
/-! AHUF_DEC (R265, R275 to R277, R376): the checks of the header, the loop over the payload from the fresh tree, and
the checksum. What the body does as stage `k` of a command is said once, for the command alone (`k = 0`) and for the
pipelines. -/

namespace Sys2Proof.Machine

open Sys2Proof.Safety

variable {s : State} {x block : List Byte} {r : List Bool} {e : FatalError}

/-! ## The header (R265, R275) -/

/-- The CRC field of a container. -/
def storedCrc (x : List Byte) : Word := BitVec.ofNat 32 (unle ((x.drop 12).take 4))

/-- An input that passes the checks of R275 before the payload. -/
structure HasAhufHeader (x : List Byte) : Prop where
  room : 16 ≤ x.length
  magic : x.take 4 = ahufMagic
  size : unle ((x.drop 4).take 8) = x.length

theorem ahufDecStage_of_short (w : Work) (h : x.length < 16) : ahufDecStage x w = .error (malformed 1) w := by
  rw [ahufDecStage, if_pos h, Cmd.raise_run]

theorem ahufDecStage_of_magic_ne (w : Work) (hroom : 16 ≤ x.length) (h : x.take 4 ≠ ahufMagic) :
    ahufDecStage x w = .error (malformed 2) w := by
  rw [ahufDecStage, if_neg (Nat.not_lt.mpr hroom), if_pos h, Cmd.raise_run]

theorem ahufDecStage_of_size_ne (w : Work) (hroom : 16 ≤ x.length) (hmagic : x.take 4 = ahufMagic)
    (h : unle ((x.drop 4).take 8) ≠ x.length) : ahufDecStage x w = .error (malformed 3) w := by
  rw [ahufDecStage, if_neg (Nat.not_lt.mpr hroom), if_neg (not_not.mpr hmagic), if_pos h, Cmd.raise_run]

/-- Past the checks the payload is decoded from the fresh tree. -/
theorem ahufDecStage_of_header (k : Nat) (s : State) (h : HasAhufHeader x) :
    ahufDecStage x (Work.start k s) = (ahufDecLoop (8 * x.length + 1) >>= fun _ => ahufDecFinish (storedCrc x))
      ((Work.start k (startAhuf s)).atBit x 128) := by
  rw [ahufDecStage, if_neg (Nat.not_lt.mpr h.room), if_neg (not_not.mpr h.magic), if_neg (not_not.mpr h.size),
    Cmd.bind_ok (onMachine_start _ _ _), Cmd.bind_ok (openBits_atBit x 16 _)]
  rfl

/-! ## The payload -/

theorem Cmd.bind_of_run_eq {α β : Type} {y z : Cmd α} {v w : Work} (h : y v = z w) (f : α → Cmd β) :
    (y >>= f) v = (z >>= f) w := by
  rw [Cmd.bind_run, h, ← Cmd.bind_run]

/-- The tree once a block that fits is coded from the fresh one. -/
theorem treeAfter_shape (hwf : s.params.wf = true) (hcap : block.length ≤ s.params.bufCap) :
    TreeShape (ahufTreeAfter (initTree s.ahuf) block) := by
  have hmax := bufCap_le hwf
  have hroot := weightOf_initTree_root s.ahuf
  exact shape_of_ahufInv (ahufTreeAfter_inv (initTree_inv s.ahuf) (by omega))

/-- Once the bits of a block that fits are read, the rest `r` of the payload is left. -/
theorem ahufDecStage_of_data (k : Nat) (hheader : HasAhufHeader x) (hwf : s.params.wf = true)
    (hcap : block.length ≤ s.params.bufCap)
    (hbits : bitsOf (x.drop 16) = ahufDataBits (initTree s.ahuf) block ++ r) :
    ∃ fuel front, bitsOf x = front ++ r
      ∧ ahufDecStage x (Work.start k s) = (ahufDecLoop (fuel + 1) >>= fun _ => ahufDecFinish (storedCrc x))
          ((Work.emitted k (afterBlock block (startAhuf s)) block).atBit x front.length) := by
  have hmax := bufCap_le hwf
  have hfront : (bitsOf (x.take 16)).length = 128 := by
    rw [bitsOf_length, List.length_take, Nat.min_eq_left hheader.room]
  have hx : bitsOf x = bitsOf (x.take 16) ++ (ahufDataBits (initTree s.ahuf) block ++ r) := by
    rw [← hbits, ← bitsOf_append, List.take_append_drop]
  have hlen : (ahufDataBits (initTree s.ahuf) block).length < 8 * x.length + 1 := by
    have := congrArg List.length hx
    simp only [bitsOf_length, List.length_append] at this
    omega
  have hroot := weightOf_initTree_root s.ahuf
  obtain ⟨fuel, hloop⟩ := ahufDecLoop_block (w := Work.start k (startAhuf s)) (initTree_inv s.ahuf)
    (by change weightOf (initTree s.ahuf) 0 + _ < _; omega) ((Nat.zero_add _).trans_le hcap) hx hlen
  refine ⟨fuel, bitsOf (x.take 16) ++ ahufDataBits (initTree s.ahuf) block, by rw [hx, List.append_assoc], ?_⟩
  rw [hfront] at hloop
  have hcoded : ((Work.start k (startAhuf s)).coded block).extended block
      = Work.emitted k (afterBlock block (startAhuf s)) block := extended_start k _ block
  rw [hcoded] at hloop
  exact (ahufDecStage_of_header k s hheader).trans (Cmd.bind_of_run_eq hloop _)

/-- The machine after the block and the comparison of the checksums, in stage `k` (R275, R376). -/
def decoded (k : Nat) (block : List Byte) (stored : Word) (s : State) : State :=
  if stored = crc32 s.params block then ahufCoded block stored s
  else warnChecksumMismatch k (ahufCoded block stored s)

theorem ahufDecFinish_run (stored : Word) {w : Work} (hmach : w.mach = afterBlock block (startAhuf s)) :
    ahufDecFinish stored w = .ok () { w with mach := decoded w.stage block stored s } := by
  have hresults : { w.mach with res0 := checksum w.mach, res1 := stored } = ahufCoded block stored s := by
    rw [hmach]
    rfl
  rw [ahufDecFinish, Cmd.bind_ok (onMachine_run _ _), Cmd.get_bind, hresults, decoded]
  have hcompare : (ahufCoded block stored s).res0 ≠ (ahufCoded block stored s).res1 ↔ stored ≠ crc32 s.params block :=
    ne_comm
  by_cases h : stored = crc32 s.params block
  · rw [if_pos h, if_neg (mt hcompare.mp (not_not.mpr h)), Cmd.pure_run]
  · rw [if_neg h, if_pos (hcompare.mpr h), onMachine_run]

theorem ahufDecStage_of_block (k : Nat) (hheader : HasAhufHeader x) (hwf : s.params.wf = true)
    (hcap : block.length ≤ s.params.bufCap)
    (hbits : bitsOf (x.drop 16) = ahufDataBits (initTree s.ahuf) block ++ r)
    (heof : ahufCode (ahufTreeAfter (initTree s.ahuf) block)
      (ahufLeaf (ahufTreeAfter (initTree s.ahuf) block) 256) <+: r) :
    ∃ v, ahufDecStage x (Work.start k s) = .ok () v ∧ v.out.reverse = block
      ∧ v.mach = decoded k block (storedCrc x) s := by
  obtain ⟨more, rfl⟩ := heof
  obtain ⟨fuel, front, hx, hstage⟩ := ahufDecStage_of_data k hheader hwf hcap hbits
  have hloop := ahufDecLoop_eof (w := Work.emitted k (afterBlock block (startAhuf s)) block) (fuel := fuel) rfl
    (treeAfter_shape hwf hcap) hx
  rw [hstage, Cmd.bind_ok hloop, ahufDecFinish_run (block := block) (s := s) _ rfl]
  exact ⟨_, rfl, List.reverse_reverse block, rfl⟩

/-- A payload on which the next pass of the loop raises. -/
theorem ahufDecStage_of_stop (k : Nat) (hheader : HasAhufHeader x) (hwf : s.params.wf = true)
    (hcap : block.length ≤ s.params.bufCap)
    (hbits : bitsOf (x.drop 16) = ahufDataBits (initTree s.ahuf) block ++ r)
    (hstop : ∀ (w : Work) front, w.mach = afterBlock block (startAhuf s) → w.olen = block.length →
      bitsOf x = front ++ r → StopsNext e (w.atBit x front.length)) :
    ∃ v, ahufDecStage x (Work.start k s) = .error e v ∧ v.mach = afterBlock block (startAhuf s) := by
  obtain ⟨fuel, front, hx, hstage⟩ := ahufDecStage_of_data k hheader hwf hcap hbits
  obtain ⟨v, hloop, hmach⟩ := hstop (Work.emitted k (afterBlock block (startAhuf s)) block) front rfl rfl hx fuel
  exact ⟨v, hstage.trans (Cmd.bind_error hloop _), hmach⟩

/-! ## The container of a block (R265, R276) -/

/-- A container has a header, its CRC field, and the bitstream of its block as payload. -/
theorem ahufContainerWith_reads (crc : Word) (u : Ahuf) (block : List Byte)
    (hsize : (ahufContainerWith crc u block).length < 18446744073709551616) :
    HasAhufHeader (ahufContainerWith crc u block) ∧ storedCrc (ahufContainerWith crc u block) = crc
      ∧ (ahufContainerWith crc u block).drop 16 = ahufPayload u block := by
  have hlen := ahufContainerWith_length crc u block
  have hx : ahufContainerWith crc u block = ahufMagic ++ (leBytes 8 (16 + (ahufPayload u block).length)
      ++ (leBytes 4 crc.toNat ++ ahufPayload u block)) := by
    rw [ahufContainerWith, List.append_assoc, List.append_assoc]
  generalize ahufContainerWith crc u block = x at hx hlen hsize ⊢
  have hmagic : ahufMagic.length = 4 := rfl
  have hafter4 : x.drop 4 = leBytes 8 (16 + (ahufPayload u block).length)
      ++ (leBytes 4 crc.toNat ++ ahufPayload u block) := by rw [hx, List.drop_left' hmagic]
  have hafter12 : x.drop 12 = leBytes 4 crc.toNat ++ ahufPayload u block := by
    rw [show 12 = 4 + 8 from rfl, ← List.drop_drop, hafter4, List.drop_left' (leBytes_length _ _)]
  refine ⟨⟨by omega, by rw [hx, List.take_left' hmagic], ?_⟩, ?_, ?_⟩
  · rw [hafter4, List.take_left' (leBytes_length _ _), unle_leBytes, hlen]
    exact Nat.mod_eq_of_lt (by omega)
  · rw [storedCrc, hafter12, List.take_left' (leBytes_length _ _), unle_leBytes,
      Nat.mod_eq_of_lt (show crc.toNat < 256 ^ 4 from crc.isLt), BitVec.ofNat_toNat, BitVec.setWidth_eq]
  · rw [show 16 = 12 + 4 from rfl, ← List.drop_drop, hafter12, List.drop_left' (leBytes_length _ _)]

/-- Whatever unit encoded the block, the decoder's fresh tree reads its payload (R277). -/
theorem bitsOf_ahufPayload (u v : Ahuf) (h : block.length ≤ 268435456) :
    bitsOf (ahufPayload u block) = ahufDataBits (initTree v) block
      ++ (ahufCode (ahufTreeAfter (initTree v) block) (ahufLeaf (ahufTreeAfter (initTree v) block) 256)
        ++ padding (ahufBits (initTree v) block)) := by
  rw [ahufPayload, ahufBits_initTree v u h, bitsOf_packBits, ← List.append_assoc, ← ahufBits_eq]

theorem ahufDecStage_of_container (k : Nat) {u : Ahuf} {crc : Word} (hwf : s.params.wf = true)
    (hx : (ahufContainerWith crc u block).length ≤ s.params.bufCap) (hcap : block.length ≤ s.params.bufCap) :
    ∃ v, ahufDecStage (ahufContainerWith crc u block) (Work.start k s) = .ok () v ∧ v.out.reverse = block
      ∧ v.mach = decoded k block crc s := by
  have hmax := bufCap_le hwf
  obtain ⟨hheader, hcrc, hpayload⟩ := ahufContainerWith_reads crc u block (by omega)
  have hstage := ahufDecStage_of_block k hheader hwf hcap
    ((congrArg bitsOf hpayload).trans (bitsOf_ahufPayload u s.ahuf (hcap.trans hmax))) (List.prefix_append _ _)
  rwa [hcrc] at hstage

/-! ## AHUF_DEC (R275) -/

/-- The two ends of AHUF_DEC on the bits of a block: with the CRC field right, or with the warning (R376). -/
theorem exec_ahufDec_of_ok {v : Work} {stored : Word} (hfits : InputFits s)
    (hbody : ahufDecStage s.input (Work.start 0 (beginCommand s)) = .ok () v) (hout : v.out.reverse = block)
    (hmach : v.mach = decoded 0 block stored (beginCommand s)) :
    exec .ahufDec s = .next (if stored = crc32 s.params block then
        succeeded (commitOutput block (ahufCoded block stored s))
      else warned 0 (commitOutput block (ahufCoded block stored s))) := by
  change Host.Outcome.next (runCodec keepNothing ahufDecStage s) = _
  rw [runCodec_fits keepNothing _ hfits, hbody, finishCodec_ok, hout, hmach, decoded]
  change Host.Outcome.next (completeCommand (commitOutput block (if stored = crc32 s.params block then _ else _))) = _
  split_ifs <;> rfl

theorem exec_ahufDec_of_container {u : Ahuf} {crc : Word} (hwf : s.params.wf = true) (hfits : InputFits s)
    (hcap : block.length ≤ s.params.bufCap) (hinput : s.input = ahufContainerWith crc u block) :
    exec .ahufDec s = .next (if crc = crc32 s.params block then
        succeeded (commitOutput block (ahufCoded block crc s))
      else warned 0 (commitOutput block (ahufCoded block crc s))) := by
  have hx : (ahufContainerWith crc u block).length ≤ s.params.bufCap := by
    rw [← hinput, input_length]
    exact hfits
  obtain ⟨v, hbody, hout, hmach⟩ := ahufDecStage_of_container (s := beginCommand s) 0 hwf hx hcap
  exact exec_ahufDec_of_ok hfits (hinput ▸ hbody) hout hmach

/-- A fatal error inside the payload: the tree and CRCACC are those of the block decoded so far (R275). -/
theorem exec_ahufDec_of_stop (hfits : InputFits s) (hheader : HasAhufHeader s.input) (hwf : s.params.wf = true)
    (hcap : block.length ≤ s.params.bufCap)
    (hbits : bitsOf (s.input.drop 16) = ahufDataBits (initTree s.ahuf) block ++ r)
    (hstop : ∀ (w : Work) front, w.mach.ahuf = ahufTreeAfter (initTree s.ahuf) block → w.mach.params = s.params →
      w.olen = block.length → bitsOf s.input = front ++ r → StopsNext e (w.atBit s.input front.length)) :
    exec .ahufDec s = .next (failed e 0 (discardOutput
      { s with ahuf := ahufTreeAfter (initTree s.ahuf) block, crcacc := crcSteps s.params s.params.crcInit block })) := by
  obtain ⟨v, hbody, hmach⟩ := ahufDecStage_of_stop (s := beginCommand s) 0 hheader hwf hcap hbits
    fun w front hmach => hstop w front (by rw [hmach]; rfl) (by rw [hmach]; rfl)
  exact congrArg _ (runCodec_of_error (m := afterBlock block (startAhuf s)) hfits hbody hmach)

/-- R276: AHUF_DEC after AHUF_ENC. -/
theorem chain_ahufEnc_ahufDec (hwf : s.params.wf = true) (hfits : InputFits s)
    (hroom : (ahufContainer s.params s.ahuf s.input).length ≤ s.params.bufCap) :
    ∃ t, chain [.ahufEnc, .ahufDec] s = some t ∧ t.status = doneStatus ∧ t.output = s.input := by
  have hmax := bufCap_le hwf
  have hsize : (ahufContainer s.params s.ahuf s.input).length < 4294967296 := by omega
  have hblock : s.input.length < 4294967296 := (input_length s).trans_lt s.ilen.isLt
  rw [chain_of_committed (exec_ahufEnc_of_fits hfits hroom) hsize]
  generalize hv : succeeded (hostLoad (ahufContainer s.params s.ahuf s.input) _) = v
  have hinput : v.input = ahufContainer s.params s.ahuf s.input := hv ▸ input_hostLoad _ hsize
  have hparams : v.params = s.params := hv ▸ rfl
  have hfitsV : InputFits v := by rwa [InputFits, ← input_length, hinput, hparams]
  have hlast := exec_ahufDec_of_container (hparams ▸ hwf) hfitsV (by rwa [input_length, hparams]) hinput
  rw [hparams, if_pos rfl] at hlast
  exact ⟨_, chain_singleton hlast, rfl, output_commitOutput _ hblock⟩

end Sys2Proof.Machine

namespace Sys2Proof

open Sys2Proof.Machine Sys2Proof.Safety

/-- Settles O35: the loop takes the bits of a block byte by byte in step with the encoder (`ahufDecLoop_block`), and the
remainder decides how the next pass ends. A container has a header and the bitstream of its block
(`ahufContainerWith_reads`), which does not depend on the unit that encoded it (`ahufBits_initTree`). -/
theorem ahufDecReadsContainer : Obligations.AhufDecReadsContainer := by
  refine ⟨fun s u block crc hwf hfits hcap hinput => ?_, fun s => chain_ahufEnc_ahufDec, fun s hwf hfits =>
    ⟨fun hshort => ?_, fun hroom hmagic => ?_, fun hroom hmagic hsize => ?_,
      fun hroom hmagic hsize block r hcap hbits => ?_⟩⟩
  · have hexec := exec_ahufDec_of_container hwf hfits hcap hinput
    exact ⟨fun hcrc => by rwa [if_pos hcrc] at hexec, fun hcrc => by rwa [if_neg hcrc] at hexec⟩
  · exact congrArg _ (runCodec_of_raise hfits (ahufDecStage_of_short _ hshort))
  · exact congrArg _ (runCodec_of_raise hfits (ahufDecStage_of_magic_ne _ hroom hmagic))
  · exact congrArg _ (runCodec_of_raise hfits (ahufDecStage_of_size_ne _ hroom hmagic hsize))
  · have hheader : HasAhufHeader s.input := ⟨hroom, hmagic, hsize⟩
    have hs : TreeShape (ahufTreeAfter (initTree s.ahuf) block) := treeAfter_shape hwf hcap
    have hstop {e : FatalError} := exec_ahufDec_of_stop (e := e) hfits hheader hwf hcap hbits
    refine ⟨fun heof => ?_, fun ⟨c, hprefix, hproper, hcode⟩ => hstop fun w front hu _ _ hx => ?_,
      fun v hv hsome hr => hstop fun w front hu _ _ hx => ?_,
      fun hfull b hr => hstop fun w front hu hparams holen hx => ?_⟩
    · obtain ⟨v, hbody, hout, hmach⟩ := ahufDecStage_of_block (s := beginCommand s) 0 hheader hwf hcap hbits heof
      exact exec_ahufDec_of_ok hfits hbody hout hmach
    · rcases hcode with rfl | ⟨v, hv, hsome, rfl⟩ | ⟨v, -, rfl⟩
      · exact stopsNext_of_cut hu hs (by decide) hs.eof hx hprefix hproper
      · exact stopsNext_of_cut hu hs (by omega) hsome hx hprefix hproper
      · exact stopsNext_of_cut_raw hu hs hx hprefix hproper
    · obtain ⟨more, rfl⟩ := hr
      exact stopsNext_of_seen_raw hu hs hv hsome hx
    · obtain ⟨more, rfl⟩ := hr
      exact stopsNext_of_full hu hs (by rw [holen, hfull, hparams]) b hx

end Sys2Proof
end

section
/-! The search of the LZW dictionary (R303, R306). The slots of one search are a probe sequence fixed by the pair; a
search passes over slots that hold other pairs up to the first one that is EMPTY or holds the pair. What it finds is
read off from that first slot, before and after another entry is stored. -/

namespace Sys2Proof.Machine

open Sys2Proof.Safety

variable {u : Lzw} {pre p : BitVec 14} {ch c : Byte} {index i k : Nat}

/-! ## The probe sequence -/

/-- The slot that a search from `index` looks at after `k` steps of `lzwOffset index` down, around the table. -/
def probeSlot (index k : Nat) : Nat := (index + k * (Config.lzwTableSize - lzwOffset index)) % Config.lzwTableSize

theorem lzwHash_lt (pre : BitVec 14) (ch : Byte) : lzwHash pre ch < Config.lzwTableSize :=
  (ch.setWidth 14 <<< 6 ^^^ pre).isLt.trans (by decide)

theorem lzwOffset_pos (h : index < Config.lzwTableSize) : 1 ≤ lzwOffset index := by
  unfold lzwOffset
  split_ifs <;> omega

theorem lzwOffset_lt (h : index < Config.lzwTableSize) : lzwOffset index < Config.lzwTableSize := by
  have hsize : Config.lzwTableSize = 18041 := rfl
  unfold lzwOffset
  split_ifs <;> omega

theorem probeSlot_zero (h : index < Config.lzwTableSize) : probeSlot index 0 = index := by
  rw [probeSlot, Nat.zero_mul, Nat.add_zero, Nat.mod_eq_of_lt h]

theorem lzwNextIndex_eq_mod {offset : Nat} (hi : i < Config.lzwTableSize) (hoffset : 1 ≤ offset)
    (hsize : offset < Config.lzwTableSize) :
    lzwNextIndex offset i = (i + (Config.lzwTableSize - offset)) % Config.lzwTableSize := by
  unfold lzwNextIndex
  split_ifs with h
  · rw [← Nat.add_sub_assoc hsize.le, Nat.sub_add_comm h, Nat.add_mod_right, Nat.mod_eq_of_lt (by omega)]
  · rw [Nat.mod_eq_of_lt (by omega), Nat.add_sub_assoc hsize.le]

theorem lzwNextIndex_probeSlot (h : index < Config.lzwTableSize) (k : Nat) :
    lzwNextIndex (lzwOffset index) (probeSlot index k) = probeSlot index (k + 1) := by
  have hinside : probeSlot index k < Config.lzwTableSize := Nat.mod_lt _ (by decide)
  rw [lzwNextIndex_eq_mod hinside (lzwOffset_pos h) (lzwOffset_lt h), probeSlot, probeSlot, Nat.mod_add_mod,
    Nat.add_assoc, Nat.succ_mul]

/-- R306: 18041 is prime, so the sequence visits every slot once before it repeats. -/
theorem probeSlot_injective (h : index < Config.lzwTableSize) {j : Nat} (hj : j < Config.lzwTableSize)
    (hk : k < Config.lzwTableSize) (heq : probeSlot index j = probeSlot index k) : j = k := by
  have hprime : Nat.Prime Config.lzwTableSize := by norm_num [Config.lzwTableSize]
  have hpos := lzwOffset_pos h
  have hlt := lzwOffset_lt h
  have hcoprime : Nat.Coprime Config.lzwTableSize (Config.lzwTableSize - lzwOffset index) :=
    (Nat.Prime.coprime_iff_not_dvd hprime).mpr (Nat.not_dvd_of_pos_of_lt (by omega) (by omega))
  have hmul : j * (Config.lzwTableSize - lzwOffset index) ≡ k * (Config.lzwTableSize - lzwOffset index)
      [MOD Config.lzwTableSize] := Nat.ModEq.add_left_cancel' index heq
  exact (Nat.ModEq.cancel_right_of_coprime hcoprime hmul).eq_of_lt_of_lt hj hk

/-! ## Slots on the way -/

/-- The slot is not EMPTY and holds the pair: the search ends there with a hit (R303). -/
def HoldsPair (u : Lzw) (pre : BitVec 14) (ch : Byte) (i : Nat) : Prop :=
  (lzwSlot u i).code ≠ none ∧ (lzwSlot u i).pre = pre ∧ (lzwSlot u i).char = ch

/-- The slot is not EMPTY and holds another pair: the search goes on (R303). -/
def HoldsOther (u : Lzw) (pre : BitVec 14) (ch : Byte) (i : Nat) : Prop :=
  (lzwSlot u i).code ≠ none ∧ ¬((lzwSlot u i).pre = pre ∧ (lzwSlot u i).char = ch)

/-- The search for a pair passes over the first `k` slots of its sequence. -/
def SearchReaches (u : Lzw) (pre : BitVec 14) (ch : Byte) (k : Nat) : Prop :=
  ∀ j < k, HoldsOther u pre ch (probeSlot (lzwHash pre ch) j)

theorem findFrom_of_empty (offset fuel probes : Nat) (h : (lzwSlot u i).code = none) :
    findFrom u pre ch offset (fuel + 1) i probes = ⟨i, false, probes + 1⟩ := by
  rw [findFrom, if_pos h]

theorem findFrom_of_holdsPair (offset fuel probes : Nat) (h : HoldsPair u pre ch i) :
    findFrom u pre ch offset (fuel + 1) i probes = ⟨i, true, probes + 1⟩ := by
  obtain ⟨hcode, hpair⟩ := h
  rw [findFrom, if_neg hcode, if_pos hpair]

theorem findFrom_of_holdsOther (offset fuel probes : Nat) (h : HoldsOther u pre ch i) :
    findFrom u pre ch offset (fuel + 1) i probes
      = findFrom u pre ch offset fuel (lzwNextIndex offset i) (probes + 1) := by
  obtain ⟨hcode, hpair⟩ := h
  rw [findFrom, if_neg hcode, if_neg hpair]

/-- A search stands, after the slots it passes over, at the next slot of its sequence. -/
theorem lzwFind_of_reaches (h : SearchReaches u pre ch k) (hk : k ≤ Config.lzwTableSize) :
    lzwFind u pre ch = findFrom u pre ch (lzwOffset (lzwHash pre ch)) (Config.lzwTableSize - k)
      (probeSlot (lzwHash pre ch) k) k := by
  induction k with
  | zero => rw [probeSlot_zero (lzwHash_lt pre ch)]; rfl
  | succ k ih =>
    have hfuel : Config.lzwTableSize - k = Config.lzwTableSize - (k + 1) + 1 := by omega
    rw [ih (fun j hj => h j (by omega)) (by omega), hfuel, findFrom_of_holdsOther _ _ _ (h k (by omega)),
      lzwNextIndex_probeSlot (lzwHash_lt pre ch)]

theorem lzwFind_of_empty (h : SearchReaches u pre ch k) (hk : k < Config.lzwTableSize)
    (hempty : (lzwSlot u (probeSlot (lzwHash pre ch) k)).code = none) :
    lzwFind u pre ch = ⟨probeSlot (lzwHash pre ch) k, false, k + 1⟩ := by
  rw [lzwFind_of_reaches h hk.le, show Config.lzwTableSize - k = Config.lzwTableSize - k - 1 + 1 by omega,
    findFrom_of_empty _ _ _ hempty]

theorem lzwFind_of_holdsPair (h : SearchReaches u pre ch k) (hk : k < Config.lzwTableSize)
    (hpair : HoldsPair u pre ch (probeSlot (lzwHash pre ch) k)) :
    lzwFind u pre ch = ⟨probeSlot (lzwHash pre ch) k, true, k + 1⟩ := by
  rw [lzwFind_of_reaches h hk.le, show Config.lzwTableSize - k = Config.lzwTableSize - k - 1 + 1 by omega,
    findFrom_of_holdsPair _ _ _ hpair]

/-- The three ways a search ends: at an EMPTY slot, at the pair, or past all 18041 slots (R303; log entry 6). -/
inductive SearchEnd (u : Lzw) (pre : BitVec 14) (ch : Byte) : LzwFound → Prop where
  | miss {k : Nat} (reaches : SearchReaches u pre ch k) (inside : k < Config.lzwTableSize)
      (empty : (lzwSlot u (probeSlot (lzwHash pre ch) k)).code = none) :
      SearchEnd u pre ch ⟨probeSlot (lzwHash pre ch) k, false, k + 1⟩
  | hit {k : Nat} (reaches : SearchReaches u pre ch k) (inside : k < Config.lzwTableSize)
      (pair : HoldsPair u pre ch (probeSlot (lzwHash pre ch) k)) :
      SearchEnd u pre ch ⟨probeSlot (lzwHash pre ch) k, true, k + 1⟩
  | exhausted (reaches : SearchReaches u pre ch Config.lzwTableSize) :
      SearchEnd u pre ch
        ⟨probeSlot (lzwHash pre ch) Config.lzwTableSize, false, Config.lzwTableSize⟩

/-- The first slot that is not passed over decides how the search ends. -/
theorem lzwFind_end (u : Lzw) (pre : BitVec 14) (ch : Byte) : SearchEnd u pre ch (lzwFind u pre ch) := by
  by_cases hall : SearchReaches u pre ch Config.lzwTableSize
  · rw [lzwFind_of_reaches hall le_rfl, Nat.sub_self]
    exact .exhausted hall
  · have hstop : ∃ k, k < Config.lzwTableSize ∧ ¬HoldsOther u pre ch (probeSlot (lzwHash pre ch) k) := by
      simpa [SearchReaches] using hall
    classical
    obtain ⟨hk, hother⟩ := Nat.find_spec hstop
    have hreaches : SearchReaches u pre ch (Nat.find hstop) := fun j hj =>
      not_not.mp fun hno => Nat.find_min hstop hj ⟨hj.trans hk, hno⟩
    by_cases hempty : (lzwSlot u (probeSlot (lzwHash pre ch) (Nat.find hstop))).code = none
    · rw [lzwFind_of_empty hreaches hk hempty]
      exact .miss hreaches hk hempty
    · have hpair : HoldsPair u pre ch (probeSlot (lzwHash pre ch) (Nat.find hstop)) :=
        ⟨hempty, not_not.mp fun hno => hother ⟨hempty, hno⟩⟩
      rw [lzwFind_of_holdsPair hreaches hk hpair]
      exact .hit hreaches hk hpair

theorem lzwFind_probes_le (u : Lzw) (pre : BitVec 14) (ch : Byte) :
    (lzwFind u pre ch).probes ≤ Config.lzwTableSize := by
  have hend := lzwFind_end u pre ch
  generalize lzwFind u pre ch = f at hend ⊢
  cases hend with
  | miss _ inside | hit _ inside => exact inside
  | exhausted => exact le_rfl

/-- A hit names a slot that holds the pair. -/
theorem holdsPair_of_hit (h : (lzwFind u pre ch).hit = true) : HoldsPair u pre ch (lzwFind u pre ch).slot := by
  have hend := lzwFind_end u pre ch
  generalize lzwFind u pre ch = f at h hend
  cases hend with
  | hit _ _ pair => exact pair
  | miss | exhausted => cases h

/-! ## Termination (R306) -/

/-- A slot that is not EMPTY is listed. -/
theorem mem_slots_of_code (h : (lzwSlot u i).code ≠ none) : i ∈ u.slots.map Prod.fst := by
  unfold lzwSlot at h
  cases hcell : getCell u.slots i with
  | none => rw [hcell] at h; exact absurd rfl h
  | some x => exact mem_keys_of_getCell hcell

/-- The slots passed over are listed and no two of them are the same, so there are no more than slots listed. -/
theorem SearchReaches.le_length (h : SearchReaches u pre ch k) (hk : k ≤ Config.lzwTableSize) : k ≤ u.slots.length := by
  have hnodup : ((List.range k).map (probeSlot (lzwHash pre ch))).Nodup :=
    List.nodup_range.map_on fun i hi j hj =>
      probeSlot_injective (lzwHash_lt pre ch) ((List.mem_range.mp hi).trans_le hk) ((List.mem_range.mp hj).trans_le hk)
  have hlisted : (List.range k).map (probeSlot (lzwHash pre ch)) ⊆ u.slots.map Prod.fst := by
    intro i hi
    obtain ⟨j, hj, rfl⟩ := List.mem_map.mp hi
    exact mem_slots_of_code (h j (List.mem_range.mp hj)).1
  simpa using (hnodup.subperm hlisted).length_le

theorem SearchReaches.le_of_legal (h : SearchReaches u pre ch k) (hk : k ≤ Config.lzwTableSize) (hu : LzwLegal u) :
    k ≤ 16127 := by
  obtain ⟨-, hnext, -, -, hcount⟩ := hu
  have hlength := h.le_length hk
  omega

theorem not_exhausted_of_legal (hu : LzwLegal u) : ¬SearchReaches u pre ch Config.lzwTableSize := fun h =>
  absurd (h.le_of_legal le_rfl hu) (by decide)

/-- In legal tables a miss names an EMPTY slot. -/
theorem empty_of_miss (hu : LzwLegal u) (h : (lzwFind u pre ch).hit = false) :
    (lzwSlot u (lzwFind u pre ch).slot).code = none := by
  have hend := lzwFind_end u pre ch
  generalize lzwFind u pre ch = f at h hend
  cases hend with
  | miss _ _ empty => exact empty
  | hit => cases h
  | exhausted reaches => exact absurd reaches (not_exhausted_of_legal hu)

theorem lzwFind_probes_le_of_legal (hu : LzwLegal u) : (lzwFind u pre ch).probes ≤ 16128 := by
  have hend := lzwFind_end u pre ch
  generalize lzwFind u pre ch = f at hend ⊢
  cases hend with
  | miss reaches inside | hit reaches inside => exact Nat.succ_le_succ (reaches.le_of_legal inside.le hu)
  | exhausted reaches => exact absurd reaches (not_exhausted_of_legal hu)

/-! ## Searches after an entry is stored (R305) -/

theorem lzwSlot_storeEntry (u : Lzw) (i : Nat) (pre : BitVec 14) (ch : Byte) (j : Nat) :
    lzwSlot (storeEntry u i pre ch) j
      = if j = i then { code := some (nextCode u), pre := pre, char := ch } else lzwSlot u j := by
  have hne : ({ code := some (nextCode u), pre := pre, char := ch } : LzwSlot) ≠ emptySlot := by simp [emptySlot]
  simp only [lzwSlot, storeEntry, setSlot, if_neg hne, getCell_putCell]
  split_ifs <;> rfl

theorem lzwSlot_storeEntry_same (u : Lzw) (i : Nat) (pre : BitVec 14) (ch : Byte) :
    lzwSlot (storeEntry u i pre ch) i = { code := some (nextCode u), pre := pre, char := ch } := by
  rw [lzwSlot_storeEntry, if_pos rfl]

theorem lzwSlot_storeEntry_of_code {j : Nat} (hempty : (lzwSlot u i).code = none) (h : (lzwSlot u j).code ≠ none)
    (p : BitVec 14) (c : Byte) : lzwSlot (storeEntry u i p c) j = lzwSlot u j := by
  rw [lzwSlot_storeEntry, if_neg]
  rintro rfl
  exact h hempty

/-- A slot passed over is not EMPTY, so storing into an EMPTY one leaves the way of every search as it was. -/
theorem SearchReaches.storeEntry (h : SearchReaches u pre ch k) (hempty : (lzwSlot u i).code = none) (p : BitVec 14)
    (c : Byte) : SearchReaches (storeEntry u i p c) pre ch k := by
  intro j hj
  have hother := h j hj
  rwa [HoldsOther, lzwSlot_storeEntry_of_code hempty hother.1]

/-- The pair stored where its search ended is found there, after as many probes. -/
theorem lzwFind_storeEntry_same (hmiss : (lzwFind u pre ch).hit = false)
    (hprobes : (lzwFind u pre ch).probes < Config.lzwTableSize) :
    lzwFind (storeEntry u (lzwFind u pre ch).slot pre ch) pre ch = { lzwFind u pre ch with hit := true } := by
  have hend := lzwFind_end u pre ch
  generalize lzwFind u pre ch = f at hmiss hprobes hend
  cases hend with
  | @miss k reaches inside empty =>
    refine lzwFind_of_holdsPair (reaches.storeEntry empty pre ch) inside ?_
    rw [HoldsPair, lzwSlot_storeEntry_same]
    exact ⟨Option.some_ne_none _, rfl, rfl⟩
  | hit => cases hmiss
  | exhausted => exact absurd hprobes (lt_irrefl _)

/-- A pair found stays found in the same slot when another entry is stored in an EMPTY one. -/
theorem lzwFind_storeEntry_of_hit (hhit : (lzwFind u pre ch).hit = true) (hempty : (lzwSlot u i).code = none)
    (p : BitVec 14) (c : Byte) : lzwFind (storeEntry u i p c) pre ch = lzwFind u pre ch := by
  have hend := lzwFind_end u pre ch
  generalize hf : lzwFind u pre ch = f at hhit hend
  cases hend with
  | @hit k reaches inside pair =>
    refine lzwFind_of_holdsPair (reaches.storeEntry hempty p c) inside ?_
    rwa [HoldsPair, lzwSlot_storeEntry_of_code hempty pair.1]
  | miss | exhausted => cases hhit

end Sys2Proof.Machine
end

section
/-! LZW_PROBE and LZW_INSERT (R304, R305): their operand, their results, and the command as an equation. -/

namespace Sys2Proof.Machine

open Sys2Proof.Safety

variable {s : State}

/-- ARG0 is a pair exactly when its number is below 16383 * 256 (R102 (b)). -/
theorem argPair_eq (arg0 : Word) :
    argPair arg0 = if arg0.toNat < 16383 * 256 then some ((arg0 >>> 8).setWidth 14, arg0.setWidth 8) else none := by
  have hpre : arg0.extractLsb' 8 14 = (arg0 >>> 8).setWidth 14 := by
    apply BitVec.eq_of_toNat_eq
    simp
  have hlow : arg0.extractLsb' 0 8 = arg0.setWidth 8 := by ext i hi; simp
  have hrange : arg0.extractLsb' 22 10 = 0 ∧ (arg0.extractLsb' 8 14).toNat ≤ Config.lzwMaxCode
      ↔ arg0.toNat < 16383 * 256 := by
    have hmax : Config.lzwMaxCode = 16382 := rfl
    have hzero : (0 : BitVec 10).toNat = 0 := rfl
    have hword := arg0.isLt
    rw [← BitVec.toNat_inj, BitVec.extractLsb'_toNat, BitVec.extractLsb'_toNat, hmax, hzero, Nat.shiftRight_eq_div_pow,
      Nat.shiftRight_eq_div_pow]
    omega
  rw [argPair, if_congr hrange rfl rfl, hpre, hlow]

/-! ## The results (R304) -/

theorem probeRes0_toNat (u : Lzw) (pre : BitVec 14) (ch : Byte) :
    (probeRes0 (lzwFind u pre ch)).toNat
      = 2147483648 * (lzwFind u pre ch).hit.toNat + (lzwFind u pre ch).slot := by
  have hslot : (lzwFind u pre ch).slot < 18041 := lzwFind_slot_lt u pre ch
  generalize lzwFind u pre ch = f at hslot
  rw [probeRes0, BitVec.toNat_append, BitVec.toNat_ofNat, Nat.mod_eq_of_lt (by omega),
    ← Nat.shiftLeft_add_eq_or_of_lt (by omega), Nat.shiftLeft_eq, BitVec.toNat_ofBool, Nat.mul_comm]

theorem probeRes1_toNat (u : Lzw) (pre : BitVec 14) (ch : Byte) (code : BitVec 14) :
    (probeRes1 (lzwFind u pre ch) code).toNat = 65536 * (lzwFind u pre ch).probes + code.toNat := by
  have hprobes : (lzwFind u pre ch).probes ≤ 18041 := lzwFind_probes_le u pre ch
  generalize lzwFind u pre ch = f at hprobes
  have hcode := code.isLt
  have hlow : (0#2 ++ code).toNat = code.toNat := by rw [BitVec.toNat_append, BitVec.toNat_ofNat]; simp
  rw [probeRes1, BitVec.toNat_append, hlow, BitVec.toNat_ofNat, Nat.mod_eq_of_lt (by omega),
    ← Nat.shiftLeft_add_eq_or_of_lt (by omega), Nat.shiftLeft_eq, Nat.mul_comm]

/-! ## The commands -/

/-- The code in bits 21:8 of ARG0, the first part of the pair (R304). -/
def argPre (s : State) : BitVec 14 := (s.arg0 >>> 8).setWidth 14

/-- The character in bits 7:0 of ARG0 (R304). -/
def argChar (s : State) : Byte := s.arg0.setWidth 8

/-- What the search for the pair in ARG0 finds (R304, R305). -/
def argFind (s : State) : LzwFound := lzwFind s.lzw (argPre s) (argChar s)

/-- The machine with the results of LZW_PROBE or LZW_INSERT of the pair in ARG0 (R304, R305). -/
def reportProbe (s t : State) : State :=
  { t with res0 := probeRes0 (argFind s), res1 := probeRes1 (argFind s) (probeCode s.lzw (argFind s)) }

/-- The machine with the pair in ARG0 stored where its search ended (R305). -/
def storeArgPair (s : State) : State :=
  { s with lzw := storeEntry s.lzw (argFind s).slot (argPre s) (argChar s) }

theorem exec_lzwProbe (h : s.arg0.toNat < 16383 * 256) : exec .lzwProbe s = .next (succeeded (reportProbe s s)) := by
  change execLzwProbe s = _
  rw [execLzwProbe, argPair_eq, if_pos h]
  rfl

theorem exec_lzwProbe_of_badOperand (h : 16383 * 256 ≤ s.arg0.toNat) :
    exec .lzwProbe s = .next (failed badOperand 0 s) := by
  change execLzwProbe s = _
  rw [execLzwProbe, argPair_eq, if_neg (Nat.not_lt.mpr h), ← failUnit_begin]

theorem exec_lzwInsert_of_badOperand (h : 16383 * 256 ≤ s.arg0.toNat) :
    exec .lzwInsert s = .next (failed badOperand 0 s) := by
  change execLzwInsert s = _
  rw [execLzwInsert, argPair_eq, if_neg (Nat.not_lt.mpr h), ← failUnit_begin]

/-- LZW_INSERT of a pair that is there, of a missing one, and of a missing one with no code left (R305). -/
theorem exec_lzwInsert (h : s.arg0.toNat < 16383 * 256) :
    exec .lzwInsert s = .next
      (if (argFind s).hit then succeeded (reportProbe s s)
        else if s.lzw.next.toNat ≤ 16382 then
          succeeded (reportProbe s (storeArgPair s))
        else succeededOverflow true (reportProbe s s)) := by
  change execLzwInsert s = _
  rw [execLzwInsert, argPair_eq, if_pos h]
  change Host.Outcome.next (completeCommand (reportProbe s
    (if (argFind s).hit then beginCommand s
      else insertOrOverflow (argFind s).slot (argPre s) (argChar s) (beginCommand s)))) = _
  have hleft : codeLeft s.lzw = decide (s.lzw.next.toNat ≤ 16382) := rfl
  simp only [insertOrOverflow, beginCommand_lzw, hleft, decide_eq_true_eq]
  split_ifs <;> rfl

theorem exec_lzwInsert_of_hit (h : s.arg0.toNat < 16383 * 256) (hhit : (argFind s).hit = true) :
    exec .lzwInsert s = .next (succeeded (reportProbe s s)) := by
  rw [exec_lzwInsert h, if_pos hhit]

theorem exec_lzwInsert_of_miss (h : s.arg0.toNat < 16383 * 256) (hmiss : (argFind s).hit = false)
    (hleft : s.lzw.next.toNat ≤ 16382) :
    exec .lzwInsert s = .next (succeeded (reportProbe s (storeArgPair s))) := by
  rw [exec_lzwInsert h, if_neg (by rw [hmiss]; exact Bool.false_ne_true), if_pos hleft]

theorem exec_lzwInsert_of_full (h : s.arg0.toNat < 16383 * 256) (hmiss : (argFind s).hit = false)
    (hfull : 16382 < s.lzw.next.toNat) :
    exec .lzwInsert s = .next (succeededOverflow true (reportProbe s s)) := by
  rw [exec_lzwInsert h, if_neg (by rw [hmiss]; exact Bool.false_ne_true), if_neg (Nat.not_le.mpr hfull)]

theorem reportProbe_res0_toNat (s t : State) :
    (reportProbe s t).res0.toNat = 2147483648 * (argFind s).hit.toNat + (argFind s).slot := probeRes0_toNat ..

theorem reportProbe_res1_toNat (s t : State) :
    (reportProbe s t).res1.toNat = 65536 * (argFind s).probes + (probeCode s.lzw (argFind s)).toNat :=
  probeRes1_toNat ..

theorem probeCode_of_hit {u : Lzw} {f : LzwFound} (h : f.hit = true) :
    probeCode u f = ((lzwSlot u f.slot).code).getD 0 := if_pos h

theorem probeCode_of_miss {u : Lzw} {f : LzwFound} (h : f.hit = false) : probeCode u f = nextCode u :=
  if_neg (by rw [h]; exact Bool.false_ne_true)

theorem reportProbe_of_hit (t : State) (h : (argFind s).hit = true) :
    (reportProbe s t).res0.toNat = 2147483648 + (argFind s).slot
      ∧ (reportProbe s t).res1.toNat
          = 65536 * (argFind s).probes + (((lzwSlot s.lzw (argFind s).slot).code).getD 0).toNat := by
  rw [reportProbe_res0_toNat, reportProbe_res1_toNat, probeCode_of_hit h, h]
  exact ⟨rfl, rfl⟩

theorem reportProbe_of_miss (t : State) (h : (argFind s).hit = false) :
    (reportProbe s t).res0.toNat = (argFind s).slot
      ∧ (reportProbe s t).res1.toNat = 65536 * (argFind s).probes + (nextCode s.lzw).toNat := by
  rw [reportProbe_res0_toNat, reportProbe_res1_toNat, probeCode_of_miss h, h]
  exact ⟨Nat.zero_add _, rfl⟩

theorem nextCode_toNat {u : Lzw} (h : u.next.toNat ≤ 16383) : (nextCode u).toNat = u.next.toNat := by
  rw [nextCode, BitVec.toNat_setWidth, Nat.mod_eq_of_lt (by omega)]

/-- The results of LZW_PROBE after LZW_INSERT of a missing pair: those of the insertion, with HIT (R305, R306). -/
theorem reportProbe_after_insert {t : State} (v w : State) (hmiss : (argFind s).hit = false)
    (hprobes : (argFind s).probes < Config.lzwTableSize) (harg : t.arg0 = s.arg0)
    (hstored : t.lzw = (storeArgPair s).lzw) :
    (reportProbe t v).res0.toNat = (reportProbe s w).res0.toNat + 2147483648
      ∧ (reportProbe t v).res1 = (reportProbe s w).res1 := by
  have hfind : argFind t = { argFind s with hit := true } := by
    rw [argFind, argPre, argChar, harg, hstored]
    exact lzwFind_storeEntry_same hmiss hprobes
  have hcode : probeCode t.lzw (argFind t) = nextCode s.lzw := by
    rw [hfind, hstored, probeCode_of_hit rfl, storeArgPair, lzwSlot_storeEntry_same]
    rfl
  obtain ⟨hres0, hres1⟩ := reportProbe_of_miss w hmiss
  refine ⟨?_, BitVec.eq_of_toNat_eq ?_⟩
  · rw [reportProbe_res0_toNat, hfind, hres0]
    exact Nat.add_comm ..
  · rw [reportProbe_res1_toNat, hcode, hfind, hres1]

end Sys2Proof.Machine

namespace Sys2Proof

open Sys2Proof.Machine Sys2Proof.Safety

/-- Settles O39: the slots passed over are distinct listed ones (`SearchReaches.le_length`), so they are at most
16127. -/
theorem lzwSearchTerminates : Obligations.LzwSearchTerminates :=
  fun u pre ch hu => ⟨lzwFind_slot_lt u pre ch, lzwFind_probes_le_of_legal hu, empty_of_miss hu, holdsPair_of_hit⟩

/-- Settles O37: the three cases of `exec_lzwInsert`. -/
theorem lzwInsertStores : Obligations.LzwInsertStores := by
  refine fun s => ⟨fun h => ⟨fun hhit => ?_, fun hmiss hleft => ?_, fun hmiss hfull => ?_⟩,
    exec_lzwInsert_of_badOperand⟩
  · exact ⟨_, exec_lzwInsert_of_hit h hhit, rfl, reportProbe_of_hit s hhit⟩
  · obtain ⟨hres0, hres1⟩ := reportProbe_of_miss (storeArgPair s) hmiss
    rw [nextCode_toNat (by omega)] at hres1
    exact ⟨_, exec_lzwInsert_of_miss h hmiss hleft, rfl, hres0, hres1, rfl, lzwSlot_storeEntry_same ..,
      fun i hi => (lzwSlot_storeEntry ..).trans (if_neg hi)⟩
  · exact ⟨_, exec_lzwInsert_of_full h hmiss hfull, rfl, reportProbe_of_miss s hmiss⟩

/-- Settles O36: the results are those of the search, and a miss in legal tables names the EMPTY slot that LZW_INSERT
then fills (`empty_of_miss`). -/
theorem lzwProbeReports : Obligations.LzwProbeReports := by
  refine fun s => ⟨fun h => ⟨_, exec_lzwProbe h, rfl, reportProbe_res0_toNat s s, reportProbe_res1_toNat s s,
    fun hu hmiss => ⟨empty_of_miss hu hmiss, fun hleft => ?_⟩⟩, exec_lzwProbe_of_badOperand⟩
  exact ⟨_, exec_lzwInsert_of_miss h hmiss hleft, rfl, rfl, lzwSlot_storeEntry_same ..⟩

/-- Settles O38: the search for the pair goes the same way as before the insertion and ends at the entry stored. -/
theorem probeFindsInsertedPair : Obligations.ProbeFindsInsertedPair := by
  intro s t v h hleft hmiss hprobes hinsert hprobe
  have ht : t = succeeded (reportProbe s (storeArgPair s)) :=
    Host.Outcome.next.inj (hinsert.symm.trans (exec_lzwInsert_of_miss h hmiss hleft))
  have harg : t.arg0 = s.arg0 := ht ▸ rfl
  have hv : v = succeeded (reportProbe t t) :=
    Host.Outcome.next.inj (hprobe.symm.trans (exec_lzwProbe (harg ▸ h)))
  obtain ⟨hres0, hres1⟩ := reportProbe_after_insert t (storeArgPair s) hmiss hprobes harg (ht ▸ rfl)
  rw [hv]
  exact ⟨hres0.trans (ht ▸ rfl), hres1.trans (ht ▸ rfl), rfl⟩

end Sys2Proof
end

section
/-! The plain-list LZW coder (R300, R310, R316, R319, R320). The decoder's dictionary is one entry behind the encoder's:
`Behind` is that state between two codes, each code read takes it to the next one, and so the decoder makes of every
beginning of an encoder's codes the strings of those codes. -/

namespace Sys2Proof.Machine

open Sys2Proof.Safety

variable {D E dict dict' : List (Nat × Byte)} {pre old c k : Nat} {ch : Byte} {e : Nat × Byte} {x : List Byte}
  {stop : LzwStop} {more : List Nat}

/-! ## Dictionaries (R300) -/

/-- Entry `k`, whose code is 256 + k, extends a lower code, and there are at most 16127 entries (R300). -/
structure DictWf (dict : List (Nat × Byte)) : Prop where
  extends_lower : ∀ k e, dict[k]? = some e → e.1 < 256 + k
  length_le : dict.length ≤ 16127

/-- No code is left to assign (R319). -/
def dictFull (dict : List (Nat × Byte)) : Bool := decide (16127 ≤ dict.length)

/-- The dictionary after an entry was added, or skipped because no code is left (R305, R319). -/
def dictInsert (dict : List (Nat × Byte)) (e : Nat × Byte) : List (Nat × Byte) :=
  if dict.length < 16127 then dict ++ [e] else dict

theorem dictWf_nil : DictWf [] := ⟨fun _ _ h => by simp at h, Nat.zero_le _⟩

theorem dictInsert_of_room (h : dict.length < 16127) (e : Nat × Byte) : dictInsert dict e = dict ++ [e] := if_pos h

theorem dictInsert_of_full (h : 16127 ≤ dict.length) (e : Nat × Byte) : dictInsert dict e = dict :=
  if_neg (Nat.not_lt.mpr h)

theorem isPrefix_dictInsert (dict : List (Nat × Byte)) (e : Nat × Byte) : dict <+: dictInsert dict e := by
  unfold dictInsert
  split_ifs
  · exact List.prefix_append ..
  · exact List.prefix_rfl

theorem DictWf.insert (h : DictWf dict) (hpre : e.1 < 256 + dict.length) : DictWf (dictInsert dict e) := by
  unfold dictInsert
  split_ifs with hroom
  · refine ⟨fun k e' hk => ?_, by simpa using hroom⟩
    rcases Nat.lt_trichotomy k dict.length with hlt | rfl | hgt
    · exact h.extends_lower k e' (by rwa [List.getElem?_append_left hlt] at hk)
    · rw [List.getElem?_concat_length, Option.some_inj] at hk
      exact hk ▸ hpre
    · rw [List.getElem?_eq_none (by simpa using hgt)] at hk
      cases hk
  · exact h

theorem getElem?_of_prefix {α : Type} {l m : List α} {a : α} (h : l <+: m) (hk : l[k]? = some a) : m[k]? = some a := by
  obtain ⟨t, rfl⟩ := h
  rwa [List.getElem?_append_left (List.getElem?_eq_some_iff.mp hk).1]

/-- Every code from 256 on that is assigned has an entry. -/
theorem exists_entry (hlow : 256 ≤ c) (h : c < 256 + dict.length) : ∃ k e, c = 256 + k ∧ dict[k]? = some e :=
  ⟨c - 256, dict[c - 256]'(by omega), by omega, List.getElem?_eq_getElem (by omega)⟩

/-! ## The string of a code (R300) -/

/-- As many steps as the code, or more, are enough to expand it. -/
theorem dictString_eq_codeString (h : DictWf dict) {fuel : Nat} (hfuel : c ≤ fuel) :
    dictString dict fuel c = codeString dict c := by
  induction c using Nat.strong_induction_on generalizing fuel with
  | _ c ih =>
    rcases Nat.lt_or_ge c 256 with hlit | hlow
    · rw [codeString_literal dict hlit]
      cases fuel with
      | zero => rfl
      | succ fuel => exact if_pos hlit
    · obtain ⟨fuel, rfl⟩ := Nat.exists_eq_add_of_le' (show 1 ≤ fuel by omega)
      obtain ⟨c, rfl⟩ := Nat.exists_eq_add_of_le' (show 1 ≤ c by omega)
      rw [codeString, dictString, dictString, if_neg (Nat.not_lt.mpr hlow), if_neg (Nat.not_lt.mpr hlow)]
      cases hk : dict[c + 1 - 256]? with
      | none => rfl
      | some e =>
        have hlt := h.extends_lower _ _ hk
        simp only [ih e.1 (by omega) (show e.1 ≤ fuel by omega), ih e.1 (by omega) (show e.1 ≤ c by omega)]

/-- The string of an entry is that of the code it extends, followed by its character. -/
theorem codeString_entry (h : DictWf dict) (hk : dict[k]? = some e) :
    codeString dict (256 + k) = codeString dict e.1 ++ [e.2] := by
  have hlt := h.extends_lower k e hk
  have hfuel : 256 + k = (255 + k) + 1 := by omega
  rw [codeString, hfuel, dictString, if_neg (by omega), show 255 + k + 1 - 256 = k by omega, hk]
  exact congrArg (· ++ [e.2]) (dictString_eq_codeString h (by omega))

theorem codeString_toNat (dict : List (Nat × Byte)) (b : Byte) : codeString dict b.toNat = [b] := by
  rw [codeString_literal dict b.isLt, BitVec.ofNat_toNat, BitVec.setWidth_eq]

/-- New entries leave the strings of the codes already assigned as they are. -/
theorem codeString_of_prefix (hwf : DictWf dict') (h : dict <+: dict') (hc : c < 256 + dict.length) :
    codeString dict' c = codeString dict c := by
  have hwf0 : DictWf dict :=
    ⟨fun k e hk => hwf.extends_lower k e (getElem?_of_prefix h hk), h.length_le.trans hwf.length_le⟩
  induction c using Nat.strong_induction_on with
  | _ c ih =>
    rcases Nat.lt_or_ge c 256 with hlit | hlow
    · rw [codeString_literal _ hlit, codeString_literal _ hlit]
    · obtain ⟨k, e, rfl, hk⟩ := exists_entry hlow hc
      have hlt := hwf0.extends_lower k e hk
      rw [codeString_entry hwf0 hk, codeString_entry hwf (getElem?_of_prefix h hk), ih e.1 hlt (by omega)]

theorem codeString_ne_nil (h : DictWf dict) (hc : c < 256 + dict.length) : codeString dict c ≠ [] := by
  rcases Nat.lt_or_ge c 256 with hlit | hlow
  · rw [codeString_literal _ hlit]
    exact List.cons_ne_nil _ _
  · obtain ⟨k, e, rfl, hk⟩ := exists_entry hlow hc
    rw [codeString_entry h hk]
    exact List.append_ne_nil_of_right_ne_nil _ (List.cons_ne_nil _ _)

/-- The first byte of an entry's string is that of the code it extends (R316). -/
theorem headD_codeString_entry (h : DictWf dict) (hk : dict[k]? = some e) (hpre : e.1 < 256 + dict.length) :
    (codeString dict (256 + k)).headD 0 = (codeString dict e.1).headD 0 := by
  obtain ⟨b, t, hcons⟩ := List.exists_cons_of_ne_nil (codeString_ne_nil h hpre)
  rw [codeString_entry h hk, hcons]
  rfl

/-! ## The encoder (R310) -/

theorem dictCode_eq_some (h : dictCode dict pre ch = some c) : ∃ k, c = 256 + k ∧ dict[k]? = some (pre, ch) := by
  obtain ⟨k, hk, rfl⟩ := Option.map_eq_some_iff.mp h
  obtain ⟨hlt, hget, -⟩ := List.idxOf?_eq_some_iff.mp hk
  exact ⟨k, rfl, List.getElem?_eq_some_iff.mpr ⟨hlt, hget⟩⟩

theorem dictCode_eq_none (h : dictCode dict pre ch = none) : (pre, ch) ∉ dict :=
  List.idxOf?_eq_none_iff.mp (Option.map_eq_none_iff.mp h)

theorem dictRunFrom_of_found (h : dictCode dict pre ch = some c) :
    dictRunFrom dict pre (ch :: x) = dictRunFrom dict c x := by
  rw [dictRunFrom, h]

/-- At a missing pair the encoder gives its current code and starts over from the byte (R310, R319). -/
theorem dictRunFrom_of_missing (h : dictCode dict pre ch = none) :
    dictRunFrom dict pre (ch :: x)
      = ⟨pre :: (dictRunFrom (dictInsert dict (pre, ch)) ch.toNat x).codes,
          (dictRunFrom (dictInsert dict (pre, ch)) ch.toNat x).dict,
          dictFull dict || (dictRunFrom (dictInsert dict (pre, ch)) ch.toNat x).overflow⟩ := by
  rw [dictRunFrom, h]
  rcases Nat.lt_or_ge dict.length 16127 with hroom | hfull
  · rw [dictInsert_of_room hroom, dictFull, decide_eq_false (Nat.not_le.mpr hroom)]
    exact if_pos hroom
  · rw [dictInsert_of_full hfull, dictFull, decide_eq_true hfull]
    exact if_neg (Nat.not_lt.mpr hfull)

/-- An encoder's dictionary grows, stays well formed and has an entry for each code given; the strings of the codes
are the block (R300, R310). -/
theorem dictRunFrom_spec (hwf : DictWf dict) (hpre : pre < 256 + dict.length) (x : List Byte) :
    dict <+: (dictRunFrom dict pre x).dict ∧ DictWf (dictRunFrom dict pre x).dict
      ∧ (∀ c ∈ (dictRunFrom dict pre x).codes, c < 256 + (dictRunFrom dict pre x).dict.length)
      ∧ (dictRunFrom dict pre x).codes.flatMap (codeString (dictRunFrom dict pre x).dict)
          = codeString dict pre ++ x := by
  induction x generalizing dict pre with
  | nil => exact ⟨List.prefix_rfl, hwf, by simpa [dictRunFrom] using hpre, by simp [dictRunFrom]⟩
  | cons ch x ih =>
    cases hcode : dictCode dict pre ch with
    | some c =>
      obtain ⟨k, rfl, hk⟩ := dictCode_eq_some hcode
      have hlt := (List.getElem?_eq_some_iff.mp hk).1
      obtain ⟨hgrows, hwf', hcodes, hstring⟩ := ih hwf (show 256 + k < 256 + dict.length by omega)
      rw [dictRunFrom_of_found hcode]
      refine ⟨hgrows, hwf', hcodes, ?_⟩
      rw [hstring, codeString_entry hwf hk, List.append_assoc, List.singleton_append]
    | none =>
      have hchar : ch.toNat < 256 + (dictInsert dict (pre, ch)).length := Nat.lt_add_right _ ch.isLt
      obtain ⟨hgrows, hwf', hcodes, hstring⟩ := ih (hwf.insert hpre) hchar
      have hprefix := (isPrefix_dictInsert dict (pre, ch)).trans hgrows
      rw [dictRunFrom_of_missing hcode]
      refine ⟨hprefix, hwf', ?_, ?_⟩
      · rintro c (_ | ⟨_, hc⟩)
        · exact hpre.trans_le (Nat.add_le_add_left hprefix.length_le 256)
        · exact hcodes c hc
      · rw [List.flatMap_cons, hstring, codeString_of_prefix hwf' hprefix hpre, codeString_toNat]
        rfl

/-! ## The decoder (R316) -/

/-- One code read, at most the next code to assign (R316). -/
theorem dictDecodeFrom_code (hmarker : c ≠ 16383) (hle : c ≤ 256 + dict.length) :
    dictDecodeFrom dict old (c :: more)
      = ⟨nextString dict old c
            ++ (dictDecodeFrom (dictInsert dict (old, (nextString dict old c).headD 0)) c more).bytes,
          (dictDecodeFrom (dictInsert dict (old, (nextString dict old c).headD 0)) c more).dict,
          dictFull dict
            || (dictDecodeFrom (dictInsert dict (old, (nextString dict old c).headD 0)) c more).overflow,
          (dictDecodeFrom (dictInsert dict (old, (nextString dict old c).headD 0)) c more).stop⟩ := by
  rw [dictDecodeFrom, if_neg hmarker, if_neg (Nat.not_lt.mpr hle)]
  rcases Nat.lt_or_ge dict.length 16127 with hroom | hfull
  · rw [dictInsert_of_room hroom, dictFull, decide_eq_false (Nat.not_le.mpr hroom)]
    exact if_pos hroom
  · rw [dictInsert_of_full hfull, dictFull, decide_eq_true hfull]
    exact if_neg (Nat.not_lt.mpr hfull)

/-- In a dictionary grown by the entry that the decoder is about to add, the code read has the string that the decoder
gives it, the not-yet-defined code included (R316). -/
theorem codeString_dictInsert (hwf : DictWf dict) (hold : old < 256 + dict.length) (hmarker : c ≠ 16383)
    (hle : c ≤ 256 + dict.length) {b : Byte} (hb : c = 256 + dict.length → b = (codeString dict old).headD 0) :
    codeString (dictInsert dict (old, b)) c = nextString dict old c := by
  have hprefix := isPrefix_dictInsert dict (old, b)
  have hwf' : DictWf (dictInsert dict (old, b)) := hwf.insert hold
  unfold nextString
  split_ifs with hnew
  · have hroom : dict.length < 16127 := by have := hwf.length_le; omega
    have hentry : (dictInsert dict (old, b))[dict.length]? = some (old, b) := by
      rw [dictInsert_of_room hroom, List.getElem?_concat_length]
    obtain ⟨a, t, hcons⟩ := List.exists_cons_of_ne_nil (codeString_ne_nil hwf hold)
    rw [hnew, codeString_entry hwf' hentry, codeString_of_prefix hwf' hprefix hold, hb hnew, hcons]
    rfl
  · exact codeString_of_prefix hwf' hprefix (by omega)

theorem headD_nextString (hwf : DictWf dict) (hold : old < 256 + dict.length) (hnew : c = 256 + dict.length) :
    (nextString dict old c).headD 0 = (codeString dict old).headD 0 := by
  obtain ⟨b, t, hcons⟩ := List.exists_cons_of_ne_nil (codeString_ne_nil hwf hold)
  rw [nextString, if_pos hnew, hcons]
  rfl

/-- A code read has its entry once the decoder has added the next one (R316). -/
theorem lt_of_read (hwf : DictWf dict) (hmarker : c ≠ 16383) (hle : c ≤ 256 + dict.length) (e : Nat × Byte) :
    c < 256 + (dictInsert dict e).length := by
  have hlength := hwf.length_le
  unfold dictInsert
  split_ifs
  · rw [List.length_append, List.length_singleton]
    omega
  · omega

/-! ## Encoder and decoder in step (R319, R320) -/

/-- The decoder has dictionary `D` and has read `old`; the encoder has dictionary `E`, which has the entry of `old` that
the decoder can add only when it knows the next code, and is about to give `pre` or a longer match. -/
structure Behind (D : List (Nat × Byte)) (old : Nat) (E : List (Nat × Byte)) (pre : Nat) : Prop where
  decoder : DictWf D
  old_lt : old < 256 + D.length
  encoder : E = dictInsert D (old, (codeString E pre).headD 0)
  pre_lt : pre < 256 + E.length

theorem Behind.wf (h : Behind D old E pre) : DictWf E := by
  rw [h.encoder]
  exact h.decoder.insert h.old_lt

theorem Behind.code_bounds (h : Behind D old E pre) : pre ≠ 16383 ∧ pre ≤ 256 + D.length := by
  have hlength := h.wf.length_le
  have hlt := h.pre_lt
  have hgrown := congrArg List.length h.encoder
  unfold dictInsert at hgrown
  split_ifs at hgrown
  · rw [List.length_append, List.length_singleton] at hgrown
    omega
  · omega

/-- The code that the encoder is about to give has, for the decoder, the encoder's string. -/
theorem Behind.nextString_eq (h : Behind D old E pre) : nextString D old pre = codeString E pre := by
  obtain ⟨hmarker, hle⟩ := h.code_bounds
  have hstring := codeString_dictInsert (b := (codeString E pre).headD 0) h.decoder h.old_lt hmarker hle ?_
  · rw [← hstring, ← h.encoder]
  · rintro rfl
    have hroom : D.length < 16127 := by have := h.decoder.length_le; omega
    have hentry : E[D.length]? = some (old, (codeString E (256 + D.length)).headD 0) := by
      have hgrown := h.encoder
      rw [dictInsert_of_room hroom] at hgrown
      exact (congrArg (·[D.length]?) hgrown).trans List.getElem?_concat_length
    have hprefix : D <+: E := h.encoder ▸ isPrefix_dictInsert ..
    have hold := h.old_lt
    have hlonger := hprefix.length_le
    rw [headD_codeString_entry h.wf hentry (by simp only; omega), codeString_of_prefix h.wf hprefix hold]

/-- Once the code is read, the decoder has the encoder's dictionary of the moment when it was given. -/
theorem Behind.decode (h : Behind D old E pre) (more : List Nat) :
    dictDecodeFrom D old (pre :: more)
      = ⟨codeString E pre ++ (dictDecodeFrom E pre more).bytes, (dictDecodeFrom E pre more).dict,
          dictFull D || (dictDecodeFrom E pre more).overflow, (dictDecodeFrom E pre more).stop⟩ := by
  obtain ⟨hmarker, hle⟩ := h.code_bounds
  rw [dictDecodeFrom_code hmarker hle, h.nextString_eq, ← h.encoder]

/-- The encoder gives `pre` at a missing pair. -/
theorem Behind.next (h : Behind D old E pre) (ch : Byte) : Behind E pre (dictInsert E (pre, ch)) ch.toNat where
  decoder := h.wf
  old_lt := h.pre_lt
  encoder := by rw [codeString_toNat]; rfl
  pre_lt := Nat.lt_add_right _ ch.isLt

/-- The encoder extends its match. -/
theorem Behind.extend (h : Behind D old E pre) (hk : E[k]? = some (pre, ch)) : Behind D old E (256 + k) where
  decoder := h.decoder
  old_lt := h.old_lt
  encoder := by
    rw [headD_codeString_entry h.wf hk h.pre_lt]
    exact h.encoder
  pre_lt := Nat.add_lt_add_left (List.getElem?_eq_some_iff.mp hk).1 256

/-- Codes at which every decoder stops at once: none, or the end marker first. -/
structure StopsAt (more : List Nat) (stop : LzwStop) : Prop where
  first : dictDecode more = ⟨[], [], false, stop⟩
  later : ∀ dict old, dictDecodeFrom dict old more = ⟨[], dict, false, stop⟩

theorem stopsAt_nil : StopsAt [] .cut := ⟨rfl, fun _ _ => rfl⟩

theorem stopsAt_marker (more : List Nat) : StopsAt (16383 :: more) .marker := ⟨rfl, fun _ _ => rfl⟩

/-- What a decoder `r` makes of the first `j` codes of an encoder's run `q`: their strings; of all of them also the
encoder's dictionary, and the overflow, `full` saying that one was skipped before. -/
structure DecodesFirst (j : Nat) (q : LzwRun (List (Nat × Byte))) (full : Bool) (stop : LzwStop) (r : LzwText) :
    Prop where
  bytes : r.bytes = (q.codes.take j).flatMap (codeString q.dict)
  stop : r.stop = stop
  dict : q.codes.length ≤ j → r.dict = q.dict
  overflow : q.codes.length ≤ j → r.overflow = (full || q.overflow)

theorem dictDecodeFrom_take (h : Behind D old E pre) (hmore : StopsAt more stop) (x : List Byte) (j : Nat) :
    DecodesFirst j (dictRunFrom E pre x) (dictFull D) stop
      (dictDecodeFrom D old ((dictRunFrom E pre x).codes.take j ++ more)) := by
  induction x generalizing D old E pre j with
  | nil =>
    cases j with
    | zero =>
      rw [List.take_zero, List.nil_append, hmore.later]
      exact ⟨rfl, rfl, fun hj => absurd hj (by simp [dictRunFrom]), fun hj => absurd hj (by simp [dictRunFrom])⟩
    | succ j =>
      rw [dictRunFrom, List.take_succ_cons, List.take_nil, List.singleton_append, h.decode, hmore.later]
      exact ⟨by simp, rfl, fun _ => rfl, fun _ => rfl⟩
  | cons ch x ih =>
    cases hcode : dictCode E pre ch with
    | some c =>
      obtain ⟨k, rfl, hk⟩ := dictCode_eq_some hcode
      rw [dictRunFrom_of_found hcode]
      exact ih (h.extend hk) j
    | none =>
      rw [dictRunFrom_of_missing hcode]
      cases j with
      | zero =>
        rw [List.take_zero, List.nil_append, hmore.later]
        exact ⟨rfl, rfl, fun hj => absurd hj (by simp), fun hj => absurd hj (by simp)⟩
      | succ j =>
        obtain ⟨hbytes, hstop, hdict, hoverflow⟩ := ih (h.next ch) j
        obtain ⟨hgrows, hwf, -, -⟩ := dictRunFrom_spec (h.next ch).wf (h.next ch).pre_lt x
        have hstring := codeString_of_prefix hwf ((isPrefix_dictInsert E (pre, ch)).trans hgrows) h.pre_lt
        rw [List.take_succ_cons, List.cons_append, h.decode]
        refine ⟨?_, hstop, fun hj => hdict (Nat.le_of_succ_le_succ hj), fun hj => ?_⟩
        · rw [List.take_succ_cons, List.flatMap_cons, hbytes, hstring]
        · simp only [hoverflow (Nat.le_of_succ_le_succ hj)]

theorem behind_first (b ch : Byte) : Behind [] b.toNat (dictInsert [] (b.toNat, ch)) ch.toNat where
  decoder := dictWf_nil
  old_lt := b.isLt
  encoder := by rw [codeString_toNat]; rfl
  pre_lt := Nat.lt_add_right _ ch.isLt

theorem dictDecode_literal (b : Byte) (more : List Nat) :
    dictDecode (b.toNat :: more)
      = ⟨b :: (dictDecodeFrom [] b.toNat more).bytes, (dictDecodeFrom [] b.toNat more).dict,
          (dictDecodeFrom [] b.toNat more).overflow, (dictDecodeFrom [] b.toNat more).stop⟩ := by
  have hlt := b.isLt
  rw [dictDecode, if_neg (by omega), if_neg (by omega), BitVec.ofNat_toNat, BitVec.setWidth_eq]

/-- The first pair is always missing. -/
theorem dictRun_cons_cons (b ch : Byte) (x : List Byte) :
    dictRun (b :: ch :: x)
      = ⟨b.toNat :: (dictRunFrom (dictInsert [] (b.toNat, ch)) ch.toNat x).codes,
          (dictRunFrom (dictInsert [] (b.toNat, ch)) ch.toNat x).dict,
          (dictRunFrom (dictInsert [] (b.toNat, ch)) ch.toNat x).overflow⟩ :=
  dictRunFrom_of_missing (dict := []) (pre := b.toNat) (ch := ch) rfl

theorem dictRun_codes_ne_nil (b : Byte) (x : List Byte) : (dictRun (b :: x)).codes ≠ [] := by
  cases x with
  | nil => exact List.cons_ne_nil _ _
  | cons ch x => rw [dictRun_cons_cons]; exact List.cons_ne_nil _ _

/-- The decoder on the first `j` data codes of a block (R316, R320). -/
theorem dictDecode_take (hmore : StopsAt more stop) (block : List Byte) (j : Nat) :
    DecodesFirst j (dictRun block) false stop (dictDecode ((dictRun block).codes.take j ++ more)) := by
  cases block with
  | nil =>
    rw [dictRun, List.take_nil, List.nil_append, hmore.first]
    exact ⟨by simp, rfl, fun _ => rfl, fun _ => rfl⟩
  | cons b x =>
    cases j with
    | zero =>
      have hcodes : ¬(dictRun (b :: x)).codes.length ≤ 0 := fun h =>
        dictRun_codes_ne_nil b x (List.length_eq_zero_iff.mp (Nat.le_zero.mp h))
      rw [List.take_zero, List.nil_append, hmore.first]
      exact ⟨rfl, rfl, fun hj => absurd hj hcodes, fun hj => absurd hj hcodes⟩
    | succ j =>
      cases x with
      | nil =>
        rw [dictRun, dictRunFrom, List.take_succ_cons, List.take_nil, List.singleton_append, dictDecode_literal,
          hmore.later]
        refine ⟨?_, rfl, fun _ => rfl, fun _ => rfl⟩
        rw [List.take_succ_cons, List.take_nil, List.flatMap_singleton, codeString_toNat]
      | cons ch x =>
        obtain ⟨hbytes, hstop, hdict, hoverflow⟩ := dictDecodeFrom_take (behind_first b ch) hmore x j
        rw [dictRun_cons_cons, List.take_succ_cons, List.cons_append, dictDecode_literal]
        refine ⟨?_, hstop, fun hj => hdict (Nat.le_of_succ_le_succ hj), fun hj => hoverflow (Nat.le_of_succ_le_succ hj)⟩
        rw [List.take_succ_cons, List.flatMap_cons, codeString_toNat, hbytes]
        rfl

/-- The codes of a block are below the end marker, and their strings are the block (R300, R310). -/
theorem dictRun_spec (block : List Byte) :
    DictWf (dictRun block).dict ∧ (∀ c ∈ (dictRun block).codes, c < 16383)
      ∧ (dictRun block).codes.flatMap (codeString (dictRun block).dict) = block := by
  cases block with
  | nil => exact ⟨dictWf_nil, by simp [dictRun], rfl⟩
  | cons b x =>
    obtain ⟨-, hwf, hcodes, hstring⟩ := dictRunFrom_spec dictWf_nil (Nat.lt_add_right _ b.isLt) x
    have hlength := hwf.length_le
    rw [codeString_toNat] at hstring
    exact ⟨hwf, fun c hc => (hcodes c hc).trans_le (by omega), hstring⟩

end Sys2Proof.Machine
end

section
/-! LZW codes as bits (R132, R137, R308): 14 bits for each code, cut to whole bytes. The whole codes of a byte string
are what the reader takes from it 14 bits at a time, and those of a cut stream are its first codes. -/

namespace Sys2Proof.Machine

open Sys2Proof.Safety

variable {x : List Byte} {codes : List Nat} {c j k n : Nat}

/-! ## The bits of codes (R308) -/

/-- Each code in 14 bits, most significant bit first. -/
def codeBits (codes : List Nat) : List Bool := codes.flatMap fun c => msbBits c 14

theorem codeBits_cons (c : Nat) (codes : List Nat) : codeBits (c :: codes) = msbBits c 14 ++ codeBits codes := rfl

theorem codeBits_append (a b : List Nat) : codeBits (a ++ b) = codeBits a ++ codeBits b := List.flatMap_append

@[simp] theorem codeBits_length (codes : List Nat) : (codeBits codes).length = 14 * codes.length := by
  induction codes with
  | nil => rfl
  | cons c codes ih =>
    rw [codeBits_cons, List.length_append, msbBits_length, ih, List.length_cons]
    omega

theorem codeBits_drop (codes : List Nat) (j : Nat) : (codeBits codes).drop (14 * j) = codeBits (codes.drop j) := by
  induction codes generalizing j with
  | nil => simp [codeBits]
  | cons c codes ih =>
    cases j with
    | zero => rfl
    | succ j =>
      rw [List.drop_succ_cons, ← ih, codeBits_cons, Nat.mul_succ, Nat.add_comm, ← List.drop_drop,
        List.drop_left' (msbBits_length c 14)]

/-! ## Streams (R308) -/

@[simp] theorem packWhole_length (bits : List Bool) : (packWhole bits).length = bits.length / 8 := by simp [packWhole]

/-- The whole bytes of a bit string hold its first bits. -/
theorem bitsOf_packWhole_prefix (bits : List Bool) : bitsOf (packWhole bits) <+: bits := by
  rw [List.prefix_iff_eq_take]
  refine List.ext_getElem (by simp; omega) fun k hk hbits => ?_
  have hsplit : 8 * (k / 8) + k % 8 = k := Nat.div_add_mod k 8
  have hlow : k % 8 < 8 := Nat.mod_lt k (by decide)
  rw [List.length_take] at hbits
  rw [getElem_bitsOf, List.getElem_take]
  simp [packWhole, hlow, hsplit, List.getD_eq_getElem?_getD, List.getElem?_eq_getElem (show k < bits.length by omega)]

theorem bitsOf_take_prefix (x : List Byte) (k : Nat) : bitsOf (x.take k) <+: bitsOf x := by
  conv_rhs => rw [← List.take_append_drop k x, bitsOf_append]
  exact List.prefix_append ..

theorem lzwStream_eq (codes : List Nat) : lzwStream codes = packWhole (codeBits (codes ++ [16383, 0])) := rfl

theorem lzwStream_length (codes : List Nat) : (lzwStream codes).length = 14 * (codes.length + 2) / 8 := by
  rw [lzwStream_eq, packWhole_length, codeBits_length, List.length_append]
  rfl

/-! ## The codes of a byte string -/

@[simp] theorem codesOf_length (x : List Byte) : (codesOf x).length = 8 * x.length / 14 := by simp [codesOf]

theorem codesOf_getElem (h : j < (codesOf x).length) :
    (codesOf x)[j] = (((bitsOf x).drop (14 * j)).take 14).foldl (fun v b => 2 * v + b.toNat) 0 := by simp [codesOf]

/-- If the bits are the beginning of those of codes, the whole codes are the first ones. -/
theorem codesOf_of_prefix (hprefix : bitsOf x <+: codeBits codes) (hcodes : ∀ c ∈ codes, c < 16384) :
    codesOf x = codes.take (8 * x.length / 14) := by
  have hlength := hprefix.length_le
  rw [bitsOf_length, codeBits_length] at hlength
  refine List.ext_getElem (by rw [codesOf_length, List.length_take]; omega) fun j hj htake => ?_
  have hj' : j < 8 * x.length / 14 := by rwa [codesOf_length] at hj
  have hcode : j < codes.length := by omega
  obtain ⟨rest, hrest⟩ := hprefix
  have hwindow : ((bitsOf x).drop (14 * j)).take 14 = msbBits codes[j] 14 := by
    have htail : (bitsOf x).drop (14 * j) ++ rest = msbBits codes[j] 14 ++ codeBits (codes.drop (j + 1)) := by
      rw [← List.drop_append_of_le_length (by rw [bitsOf_length]; omega), hrest, codeBits_drop,
        List.drop_eq_getElem_cons hcode, codeBits_cons]
    rw [← List.take_append_of_le_length (by rw [List.length_drop, bitsOf_length]; omega), htail,
      List.take_left' (msbBits_length _ 14)]
  rw [codesOf_getElem, hwindow, foldl_msbBits, Nat.zero_mul, Nat.zero_add, List.getElem_take,
    Nat.mod_eq_of_lt (show codes[j] < 2 ^ 14 from hcodes _ (List.getElem_mem hcode))]

/-- The whole codes of a stream cut after any number of bytes (R308). -/
theorem codesOf_of_cut_stream (hcodes : ∀ c ∈ codes, c < 16384) (hx : x = (lzwStream codes).take k) :
    codesOf x = (codes ++ [16383, 0]).take (8 * x.length / 14) := by
  subst hx
  refine codesOf_of_prefix ((bitsOf_take_prefix _ k).trans (bitsOf_packWhole_prefix _)) fun c hc => ?_
  rcases List.mem_append.mp hc with hc | hc
  · exact hcodes c hc
  · rcases List.mem_pair.mp hc with rfl | rfl <;> omega

/-! ## Reading codes (R137) -/

/-- Too few bits left: the reader takes them and signals the end. -/
theorem getBits_atBit_cut (e : FatalError) (w : Work) (hk : k ≤ 8 * x.length) (h : 8 * x.length < k + n) :
    getBits e n (w.atBit x k) = .error e (w.atBit x (8 * x.length)) := by
  suffices hinto : ∀ v, getBitsInto e v n (w.atBit x k) = .error e (w.atBit x (8 * x.length)) from hinto 0
  induction n generalizing k with
  | zero => exact absurd h (Nat.not_lt.mpr hk)
  | succ n ih =>
    intro v
    rcases Nat.eq_or_lt_of_le hk with rfl | hlt
    · exact Cmd.bind_error (getBit_atBit_end e w x) _
    · rw [getBitsInto, Cmd.bind_ok (getBit_atBit e w (by rwa [bitsOf_length]))]
      exact ih hlt (by omega) _

theorem getBits_code (e : FatalError) (w : Work) (h : j < (codesOf x).length) :
    getBits e 14 (w.atBit x (14 * j)) = .ok (codesOf x)[j] (w.atBit x (14 * (j + 1))) := by
  have hlength := h
  rw [codesOf_length] at hlength
  rw [getBits_atBit e w (by omega), codesOf_getElem]
  rfl

theorem getBits_code_end (e : FatalError) (w : Work) (hj : 14 * j ≤ 8 * x.length) (h : (codesOf x).length ≤ j) :
    getBits e 14 (w.atBit x (14 * j)) = .error e (w.atBit x (8 * x.length)) := by
  rw [codesOf_length] at h
  exact getBits_atBit_cut e w hj (by omega)

end Sys2Proof.Machine
end

section
/-! The machine under LZW_ENC and LZW_DEC (R310, R316): what the two commands can change, and how they end when the
output does not fit. -/

namespace Sys2Proof.Machine

open Sys2Proof.Safety

variable {s t : State} {i : Instr}

/-- The machine with other LZW tables, and STATUS.DOVF set if an entry was skipped (R319). -/
def withTables (u : Lzw) (skipped : Bool) (s : State) : State :=
  { s with lzw := u, status := { s.status with dovf := s.status.dovf || skipped } }

theorem withTables_withTables (u v : Lzw) (a b : Bool) (s : State) :
    withTables v b (withTables u a s) = withTables v (a || b) s := by
  simp only [withTables, Bool.or_assoc]

theorem codeLeft_iff {u : Lzw} : codeLeft u = true ↔ u.next.toNat ≤ 16382 := decide_eq_true_iff

/-- The encoder's tables after an insertion was attempted (R310). -/
def tableInsert (u : Lzw) (slot : Nat) (pre : BitVec 14) (ch : Byte) : Lzw :=
  if codeLeft u then storeEntry u slot pre ch else u

/-- The decoder's tables after an entry was recorded, or skipped (R316). -/
def tableRecord (u : Lzw) (old : Nat) (first : Byte) : Lzw :=
  if codeLeft u then
    { setSlot u u.next.toNat
        { code := (lzwSlot u u.next.toNat).code, pre := BitVec.ofNat 14 old, char := first } with
      next := u.next + 1 }
  else u

theorem insertOrOverflow_eq (slot : Nat) (pre : BitVec 14) (ch : Byte) (s : State) :
    insertOrOverflow slot pre ch s = withTables (tableInsert s.lzw slot pre ch) (!codeLeft s.lzw) s := by
  unfold insertOrOverflow tableInsert
  split_ifs with hleft
  · simp [withTables, hleft]
  · simp [withTables, setDictionaryOverflow, hleft]

theorem recordOrOverflow_eq (old : Nat) (first : Byte) (s : State) :
    recordOrOverflow old first s = withTables (tableRecord s.lzw old first) (!codeLeft s.lzw) s := by
  unfold recordOrOverflow tableRecord
  split_ifs with hleft
  · simp [withTables, hleft]
  · simp [withTables, setDictionaryOverflow, hleft]

theorem Change.of_lzwCodec (hi : i ∈ [Instr.lzwEnc, .lzwDec]) (h : Change i s t) :
    t = { s with lzw := t.lzw, status := { s.status with dovf := t.status.dovf } } := by
  cases h with
  | freshTable => rfl
  | insert => rw [insertOrOverflow_eq]; rfl
  | record => rw [recordOrOverflow_eq]; rfl
  | crc _ user | suffixes _ user | draw user | freshTree user | update _ user =>
    rcases List.mem_pair.mp hi with rfl | rfl <;> simp at user

/-- The tables and STATUS.DOVF are all that the two commands change before they commit their output. -/
theorem Changes.of_lzwCodec (hi : i ∈ [Instr.lzwEnc, .lzwDec]) (h : Changes i s t) :
    t = { s with lzw := t.lzw, status := { s.status with dovf := t.status.dovf } } := by
  induction h with
  | refl => rfl
  | @tail m t _ hc ih =>
    have hlast := hc.of_lzwCodec hi
    rw [ih] at hlast
    exact hlast

/-- Either command when its output overflows the buffer: the tables and STATUS.DOVF as reached, OLEN 0 (R373). -/
theorem runCodec_of_lzw_outputTooLong {keep : FatalError → Bool} {body : List Byte → Cmd Unit} {v : Work}
    (hi : i ∈ [Instr.lzwEnc, .lzwDec]) (hdoes : ∀ x w, BodyDoes i (body x) w) (hkeep : keep outputTooLong = false)
    (hfits : InputFits s) (hbody : body s.input (Work.start 0 (beginCommand s)) = .error outputTooLong v) :
    ∃ u d, runCodec keep body s = failedOverflow d outputTooLong (discardOutput { s with lzw := u }) := by
  have hmach := ((hdoes _ _).error hbody).1.changes.of_lzwCodec hi
  refine ⟨v.mach.lzw, v.mach.status.dovf, ?_⟩
  rw [runCodec_fits keep body hfits, hbody, finishCodec_error, hkeep, if_neg Bool.false_ne_true, hmach]
  rfl

end Sys2Proof.Machine
end

section
/-! LZW_DEC (R315, R316, R318). The decoder's tables mirror a plain-list dictionary (`TableMirrors`), one pass of the
loop for each code; how a part of the body ends is compared with what the plain-list decoder makes of the codes left
(`DecodesTo`). -/

namespace Sys2Proof.Machine

open Sys2Proof.Safety

variable {u : Lzw} {dict : List (Nat × Byte)} {old c : Nat} {x : List Byte} {w v : Work} {s : State} {r : LzwText}

/-! ## The tables (R315) -/

/-- The entry with code c stands at index c, and every LZW_CODE slot is EMPTY. -/
structure TableMirrors (u : Lzw) (dict : List (Nat × Byte)) : Prop where
  wf : DictWf dict
  next : u.next.toNat = 256 + dict.length
  canonical : rising u.slots = true
  entry : ∀ k e, dict[k]? = some e → lzwSlot u (256 + k) = { code := none, pre := BitVec.ofNat 14 e.1, char := e.2 }
  empty : ∀ i, (lzwSlot u i).code = none

theorem tableMirrors_fresh : TableMirrors freshLzw [] where
  wf := dictWf_nil
  next := rfl
  canonical := rfl
  entry _ _ h := by simp at h
  empty _ := rfl

theorem codeLeft_eq_not_full (h : u.next.toNat = 256 + dict.length) : codeLeft u = !dictFull dict := by
  rw [Bool.eq_iff_iff, codeLeft_iff, h, dictFull, Bool.not_eq_true', decide_eq_false_iff_not]
  omega

theorem next_succ_toNat (h : u.next.toNat = 256 + dict.length) (hroom : dict.length < 16127) :
    (u.next + 1).toNat = 256 + (dict.length + 1) := by
  have hone : (1 : Word).toNat = 1 := rfl
  rw [BitVec.toNat_add, h, hone, Nat.mod_eq_of_lt (by omega), Nat.add_assoc]

/-- R316: recording an entry is adding it to the dictionary. -/
theorem TableMirrors.record (h : TableMirrors u dict) (hold : old < 256 + dict.length) (b : Byte) :
    TableMirrors (tableRecord u old b) (dictInsert dict (old, b)) := by
  have hwf : DictWf (dictInsert dict (old, b)) := h.wf.insert hold
  have hnext := h.next
  unfold tableRecord
  rcases Nat.lt_or_ge dict.length 16127 with hroom | hfull
  · rw [if_pos (codeLeft_iff.mpr (by omega))]
    have hslot (i : Nat) : lzwSlot { setSlot u u.next.toNat
        { code := (lzwSlot u u.next.toNat).code, pre := BitVec.ofNat 14 old, char := b } with next := u.next + 1 } i
          = if i = 256 + dict.length then { code := none, pre := BitVec.ofNat 14 old, char := b } else lzwSlot u i := by
      rw [← h.next, ← h.empty u.next.toNat]
      exact lzwSlot_setSlot h.canonical _ i _
    refine ⟨hwf, ?_, rising_setSlot h.canonical _ _, fun k e hk => ?_, fun i => ?_⟩
    · rw [dictInsert_of_room hroom, List.length_append]
      exact next_succ_toNat h.next hroom
    · rw [hslot]
      rw [dictInsert_of_room hroom] at hk
      split_ifs with hlast
      · obtain rfl : k = dict.length := by omega
        rw [List.getElem?_concat_length, Option.some_inj] at hk
        rw [← hk]
      · have hlt := (List.getElem?_eq_some_iff.mp hk).1
        rw [List.length_append, List.length_singleton] at hlt
        exact h.entry k e (by rwa [List.getElem?_append_left (by omega)] at hk)
    · rw [hslot]
      split_ifs
      · rfl
      · exact h.empty i
  · rw [if_neg (mt codeLeft_iff.mp (by omega)), dictInsert_of_full hfull]
    exact h

/-- Expand gives the string of a code (R315). -/
theorem expandInto_eq (h : TableMirrors u dict) {fuel : Nat} (hfuel : c < 256 + fuel) (hc : c < 256 + dict.length)
    (st : List Byte) : expandInto u fuel c st = codeString dict c ++ st := by
  induction fuel generalizing c st with
  | zero => rw [codeString_literal _ hfuel]; rfl
  | succ fuel ih =>
    rw [expandInto]
    split_ifs with hlit
    · rw [codeString_literal _ hlit]; rfl
    · obtain ⟨k, e, rfl, hk⟩ := exists_entry (Nat.not_lt.mp hlit) hc
      have hlt := h.wf.extends_lower k e hk
      have hlength := h.wf.length_le
      have hpre : (BitVec.ofNat 14 e.1).toNat = e.1 := by
        rw [BitVec.toNat_ofNat, Nat.mod_eq_of_lt (by omega)]
      rw [h.entry k e hk]
      simp only [hpre]
      rw [ih (by omega) (by omega), codeString_entry h.wf hk, List.append_assoc, List.singleton_append]

theorem lzwExpand_eq (h : TableMirrors u dict) (hc : c < 256 + dict.length) : lzwExpand u c = codeString dict c := by
  have hlength := h.wf.length_le
  rw [lzwExpand, expandInto_eq h (by omega) hc, List.append_nil]

theorem lzwString_eq (h : TableMirrors u dict) (hold : old < 256 + dict.length) (hc : c ≤ 256 + dict.length) :
    lzwString u old ((codeString dict old).headD 0) c = nextString dict old c := by
  obtain ⟨b, t, hcons⟩ := List.exists_cons_of_ne_nil (codeString_ne_nil h.wf hold)
  rw [lzwString, nextString, h.next]
  split_ifs with hnew
  · rw [lzwExpand_eq h hold, hcons]
    rfl
  · exact lzwExpand_eq h (by omega)

/-! ## How a part of the body ends -/

/-- The end at a stop: well at the end marker, else with the stop's error (R316). -/
def stopWith (stop : LzwStop) (v : Work) : EStateM.Result FatalError Work Unit :=
  match stop.error with
  | none => .ok () v
  | some e => .error e v

/-- `result`, reached from the working state `w`, agrees with what a plain-list decoder has made: its bytes are emitted
and its dictionary is in the tables; or its bytes do not fit. -/
structure DecodesTo (result : EStateM.Result FatalError Work Unit) (w : Work) (r : LzwText) : Prop where
  fits : w.olen + r.bytes.length ≤ w.mach.params.bufCap →
    ∃ u v, TableMirrors u r.dict ∧ v.out = r.bytes.reverse ++ w.out ∧ v.mach = withTables u r.overflow w.mach
      ∧ result = stopWith r.stop v
  tooLong : w.mach.params.bufCap < w.olen + r.bytes.length → ∃ v, result = .error outputTooLong v

theorem decodesTo_stop (h : TableMirrors w.mach.lzw dict) (holen : w.olen ≤ w.mach.params.bufCap) (stop : LzwStop)
    (hout : v.out = w.out) (hmach : v.mach = w.mach) :
    DecodesTo (stopWith stop v) w ⟨[], dict, false, stop⟩ where
  fits _ := ⟨w.mach.lzw, v, h, hout, by rw [hmach, withTables, Bool.or_false], rfl⟩
  tooLong hlong := absurd hlong (Nat.not_lt.mpr holen)

/-- A part that starts with the bytes of one more code emitted and the tables changed. -/
theorem DecodesTo.after {result : EStateM.Result FatalError Work Unit} {str : List Byte} {skipped : Bool}
    (h : DecodesTo result v r) (hout : v.out = str.reverse ++ w.out) (holen : v.olen = w.olen + str.length)
    (hmach : v.mach = withTables u skipped w.mach) :
    DecodesTo result w ⟨str ++ r.bytes, r.dict, skipped || r.overflow, r.stop⟩ := by
  have hparams : v.mach.params = w.mach.params := hmach ▸ rfl
  refine ⟨fun hfits => ?_, fun hlong => h.tooLong ?_⟩
  · obtain ⟨u', v', htable, hout', hmach', hresult⟩ :=
      h.fits (by rw [hparams, holen, Nat.add_assoc, ← List.length_append]; exact hfits)
    refine ⟨u', v', htable, ?_, ?_, hresult⟩
    · rw [hout', hout, ← List.append_assoc, ← List.reverse_append]
    · rw [hmach', hmach, withTables_withTables]
  · rw [hparams, holen, Nat.add_assoc, ← List.length_append]
    exact hlong

/-! ## The loop (R316) -/

theorem emitAll_atBit {str : List Byte} (k : Nat) (h : w.olen + str.length ≤ w.mach.params.bufCap) :
    emitAll str (w.atBit x k) = .ok () ((w.extended str).atBit x k) := emitAll_ok str (w.atBit x k) h

/-- The working state once a code's string is emitted and an entry is recorded. -/
def Work.recorded (w : Work) (str : List Byte) (old : Nat) : Work :=
  { w.extended str with mach := recordOrOverflow old (str.headD 0) w.mach }

/-- One code that is neither the end marker nor too great. -/
theorem lzwDecLoop_code {j : Nat} (fuel : Nat) (first : Byte) (hj : j < (codesOf x).length)
    (hmarker : (codesOf x)[j] ≠ 16383) (hle : (codesOf x)[j] ≤ w.mach.lzw.next.toNat) :
    lzwDecLoop (fuel + 1) old first (w.atBit x (14 * j))
      = (emitAll (lzwString w.mach.lzw old first (codesOf x)[j]) >>= fun _ =>
          onMachine (recordOrOverflow old ((lzwString w.mach.lzw old first (codesOf x)[j]).headD 0)) >>= fun _ =>
            lzwDecLoop fuel (codesOf x)[j] ((lzwString w.mach.lzw old first (codesOf x)[j]).headD 0))
          (w.atBit x (14 * (j + 1))) := by
  have hmach : (w.atBit x (14 * (j + 1))).mach = w.mach := rfl
  rw [lzwDecLoop, Cmd.bind_ok (getBits_code _ w hj), if_neg (show ¬(codesOf x)[j] = Config.lzwEndMarker from hmarker),
    Cmd.get_bind, hmach, if_neg (Nat.not_lt.mpr hle)]

/-- The string of a code is emitted whole, an entry recorded and the body goes on, or the string does not fit. -/
theorem decodesTo_string {str : List Byte} {next : Cmd Unit} {k : Nat} (holen : w.olen ≤ w.mach.params.bufCap)
    (h : w.olen + str.length ≤ w.mach.params.bufCap →
      DecodesTo (next ((w.recorded str old).atBit x k)) (w.recorded str old) r) :
    DecodesTo
      ((emitAll str >>= fun _ => onMachine (recordOrOverflow old (str.headD 0)) >>= fun _ => next) (w.atBit x k)) w
      ⟨str ++ r.bytes, r.dict, (!codeLeft w.mach.lzw) || r.overflow, r.stop⟩ := by
  rcases Nat.lt_or_ge w.mach.params.bufCap (w.olen + str.length) with hlong | hfits
  · have herror := emitAll_error str (w.atBit x k) holen hlong
    refine ⟨fun hall => ?_, fun _ => ⟨_, Cmd.bind_error herror _⟩⟩
    rw [List.length_append] at hall
    omega
  · rw [Cmd.bind_ok (emitAll_atBit k hfits), Cmd.bind_ok (onMachine_run _ _)]
    exact (h hfits).after rfl rfl (recordOrOverflow_eq ..)

/-- The loop from code number `j` on does what the plain-list decoder does with the codes from there on. -/
theorem lzwDecLoop_decodes (cs : List Nat) {j fuel : Nat} (h : TableMirrors w.mach.lzw dict)
    (hold : old < 256 + dict.length) (holen : w.olen ≤ w.mach.params.bufCap) (hcs : (codesOf x).drop j = cs)
    (hj : 14 * j ≤ 8 * x.length) (hfuel : cs.length ≤ fuel) :
    DecodesTo (lzwDecLoop fuel old ((codeString dict old).headD 0) (w.atBit x (14 * j))) w
      (dictDecodeFrom dict old cs) := by
  induction cs generalizing w dict old j fuel with
  | nil =>
    cases fuel with
    | zero => exact decodesTo_stop (v := w.atBit x (14 * j)) h holen .cut rfl rfl
    | succ fuel =>
      rw [lzwDecLoop, Cmd.bind_error (getBits_code_end _ w hj (List.drop_eq_nil_iff.mp hcs))]
      exact decodesTo_stop (v := w.atBit x (8 * x.length)) h holen .cut rfl rfl
  | cons c cs ih =>
    obtain ⟨fuel, rfl⟩ := Nat.exists_eq_add_of_le' (show 1 ≤ fuel from (Nat.succ_le_succ (Nat.zero_le _)).trans hfuel)
    have hlt : j < (codesOf x).length := by
      by_contra hend
      rw [List.drop_eq_nil_of_le (Nat.not_lt.mp hend)] at hcs
      cases hcs
    obtain ⟨hcode, hrest⟩ := List.cons.inj ((List.drop_eq_getElem_cons hlt).symm.trans hcs)
    have hread := getBits_code (malformed 10) w hlt
    have hnext := h.next
    by_cases hmarker : c = 16383
    · subst hmarker
      rw [dictDecodeFrom_marker, lzwDecLoop, Cmd.bind_ok hread, hcode]
      exact decodesTo_stop (v := w.atBit x (14 * (j + 1))) h holen .marker rfl rfl
    · rcases Nat.lt_or_ge (256 + dict.length) c with hgreat | hle
      · rw [dictDecodeFrom, if_neg hmarker, if_pos hgreat, lzwDecLoop, Cmd.bind_ok hread, hcode,
          if_neg (show ¬c = Config.lzwEndMarker from hmarker), Cmd.get_bind,
          if_pos (show (w.atBit x (14 * (j + 1))).mach.lzw.next.toNat < c from hnext.trans_lt hgreat)]
        exact decodesTo_stop (v := w.atBit x (14 * (j + 1))) h holen .badCode rfl rfl
      · rw [lzwDecLoop_code fuel _ hlt (hcode.trans_ne hmarker) (hcode.trans_le (hle.trans_eq hnext.symm)), hcode,
          lzwString_eq h hold hle, dictDecodeFrom_code hmarker hle]
        have hfull : dictFull dict = !codeLeft w.mach.lzw := by rw [codeLeft_eq_not_full hnext, Bool.not_not]
        rw [hfull]
        refine decodesTo_string holen fun hfits => ?_
        have hstring := codeString_dictInsert h.wf hold hmarker hle (headD_nextString h.wf hold)
        have htable : TableMirrors (w.recorded (nextString dict old c) old).mach.lzw
            (dictInsert dict (old, (nextString dict old c).headD 0)) := by
          rw [Work.recorded, recordOrOverflow_eq]
          exact h.record hold _
        have hparams : (w.recorded (nextString dict old c) old).mach.params = w.mach.params := by
          rw [Work.recorded, recordOrOverflow_eq]
          rfl
        rw [codesOf_length] at hlt
        have hlater := ih (w := w.recorded (nextString dict old c) old) htable (lt_of_read h.wf hmarker hle _)
          (hparams ▸ hfits) hrest (by omega) (Nat.le_of_succ_le_succ hfuel)
        rwa [hstring] at hlater

/-! ## The body (R316) -/

/-- The literal that starts the output is emitted, or the buffer is full. -/
theorem decodesTo_first {next : Cmd Unit} {b : Byte} {k : Nat} (holen : w.olen ≤ w.mach.params.bufCap)
    (h : w.olen + 1 ≤ w.mach.params.bufCap → DecodesTo (next ((w.extended [b]).atBit x k)) (w.extended [b]) r) :
    DecodesTo ((emit b >>= fun _ => next) (w.atBit x k)) w ⟨b :: r.bytes, r.dict, r.overflow, r.stop⟩ := by
  by_cases hfull : w.olen = w.mach.params.bufCap
  · have herror : emit b (w.atBit x k) = .error outputTooLong (w.atBit x k) := (emit_atBit b w x k).trans (if_pos hfull)
    refine ⟨fun hfits => ?_, fun _ => ⟨_, Cmd.bind_error herror _⟩⟩
    rw [List.length_cons] at hfits
    omega
  · rw [Cmd.bind_ok ((emit_atBit b w x k).trans (if_neg hfull))]
    exact (h (by omega)).after (str := [b]) (u := w.mach.lzw) (skipped := false) rfl rfl
      (by rw [withTables, Bool.or_false]; rfl)

theorem lzwDecStage_decodes (k : Nat) (s : State) (x : List Byte) :
    DecodesTo (lzwDecStage x (Work.start k s)) (Work.start k { s with lzw := freshLzw }) (dictDecode (codesOf x)) := by
  generalize hw : Work.start k { s with lzw := freshLzw } = w
  have htable : TableMirrors w.mach.lzw [] := hw ▸ tableMirrors_fresh
  have holen : w.olen ≤ w.mach.params.bufCap := hw ▸ Nat.zero_le _
  have hopen : openBits x 0 w = .ok () (w.atBit x (14 * 0)) := openBits_atBit x 0 w
  rw [lzwDecStage, Cmd.bind_ok (onMachine_start _ _ _), hw, Cmd.bind_ok hopen]
  cases hcs : codesOf x with
  | nil =>
    have hend := getBits_code_end (malformed 10) w (j := 0) (x := x) (Nat.zero_le _) (by rw [hcs]; rfl)
    rw [Cmd.bind_error hend]
    exact decodesTo_stop (v := w.atBit x (8 * x.length)) htable holen .cut rfl rfl
  | cons c cs =>
    have hlt : 0 < (codesOf x).length := by rw [hcs]; exact Nat.succ_pos _
    have hlength : cs.length + 1 = 8 * x.length / 14 := by rw [← codesOf_length, hcs, List.length_cons]
    have hcode : (codesOf x)[0] = c := by simp only [hcs, List.getElem_cons_zero]
    have hrest : (codesOf x).drop 1 = cs := by rw [hcs]; rfl
    rw [Cmd.bind_ok (getBits_code _ w hlt), hcode]
    by_cases hmarker : c = 16383
    · subst hmarker
      exact decodesTo_stop (v := w.atBit x (14 * 1)) htable holen .marker rfl rfl
    · rw [dictDecode, if_neg hmarker, if_neg (show ¬c = Config.lzwEndMarker from hmarker)]
      rcases Nat.lt_or_ge 255 c with hbad | hliteral
      · rw [if_pos hbad, if_pos hbad]
        exact decodesTo_stop (v := w.atBit x (14 * 1)) htable holen .badFirst rfl rfl
      · rw [if_neg (Nat.not_lt.mpr hliteral), if_neg (Nat.not_lt.mpr hliteral)]
        have hfirst : (codeString [] c).headD 0 = BitVec.ofNat 8 c := by
          rw [codeString_literal _ (Nat.lt_succ_of_le hliteral)]
          rfl
        refine decodesTo_first holen fun hroom => ?_
        rw [← hfirst]
        exact lzwDecLoop_decodes (w := w.extended [(codeString [] c).headD 0]) cs htable
          (Nat.lt_succ_of_le hliteral) hroom hrest (by omega) (by omega)

end Sys2Proof.Machine
end

section
/-! LZW_DEC as a command (R316, R318, R320): what it answers for every input, for the stream of a block and for a cut
stream. -/

namespace Sys2Proof.Machine

open Sys2Proof.Safety

variable {s : State} {block : List Byte} {k : Nat}

/-- The machine after LZW_DEC once the plain-list decoder's bytes are known to fit: the end of R316 that its stop names,
with exactly those bytes committed (R318). -/
def lzwDecoded (r : LzwText) (s : State) : State :=
  match r.stop.error with
  | none => succeededOverflow r.overflow (commitOutput r.bytes s)
  | some e => failedOverflow r.overflow e (commitOutput r.bytes s)

theorem lzwDecoded_of_ok {r : LzwText} (h : r.stop.error = none) (s : State) :
    lzwDecoded r s = succeededOverflow r.overflow (commitOutput r.bytes s) := by
  rw [lzwDecoded, h]

theorem lzwDecoded_of_error {r : LzwText} {e : FatalError} (h : r.stop.error = some e) (s : State) :
    lzwDecoded r s = failedOverflow r.overflow e (commitOutput r.bytes s) := by
  rw [lzwDecoded, h]

@[simp] theorem lzwDecoded_lzw (r : LzwText) (s : State) : (lzwDecoded r s).lzw = s.lzw := by
  cases h : r.stop.error with
  | none => rw [lzwDecoded_of_ok h]; rfl
  | some e => rw [lzwDecoded_of_error h]; rfl

theorem lzwDecoded_output (r : LzwText) (s : State) (h : r.bytes.length < 4294967296) :
    (lzwDecoded r s).output = r.bytes := by
  cases hstop : r.stop.error with
  | none => rw [lzwDecoded_of_ok hstop]; exact output_commitOutput s h
  | some e => rw [lzwDecoded_of_error hstop]; exact output_commitOutput s h

/-- Every stop of the decoder is a MalformedContainer, on which LZW_DEC keeps its output (R318). -/
theorem keepDecoded_of_stop {stop : LzwStop} {e : FatalError} (h : stop.error = some e) : keepDecoded e = true := by
  cases stop <;> cases h <;> rfl

theorem finishCodec_stopWith {r : LzwText} {u : Lzw} {v : Work} (hout : v.out.reverse = r.bytes)
    (hmach : v.mach = withTables u r.overflow (beginCommand s)) :
    finishCodec keepDecoded (stopWith r.stop v) = lzwDecoded r { s with lzw := u } := by
  cases h : r.stop.error with
  | none => rw [stopWith, h, lzwDecoded_of_ok h, finishCodec_ok, hout, hmach]; rfl
  | some e =>
    rw [stopWith, h, lzwDecoded_of_error h, finishCodec_error, keepDecoded_of_stop h, if_pos rfl, hout, hmach]
    rfl

/-- R316, R318: LZW_DEC does what a plain-list decoder makes of the whole codes. -/
theorem exec_lzwDec_of_fits (hfits : InputFits s)
    (hroom : (dictDecode (codesOf s.input)).bytes.length ≤ s.params.bufCap) :
    ∃ u, TableMirrors u (dictDecode (codesOf s.input)).dict
      ∧ exec .lzwDec s = .next (lzwDecoded (dictDecode (codesOf s.input)) { s with lzw := u }) := by
  obtain ⟨u, v, htable, hout, hmach, hresult⟩ :=
    (lzwDecStage_decodes 0 (beginCommand s) s.input).fits ((Nat.zero_add _).trans_le hroom)
  refine ⟨u, htable, ?_⟩
  change Host.Outcome.next (runCodec keepDecoded lzwDecStage s) = _
  rw [runCodec_fits keepDecoded _ hfits, hresult, finishCodec_stopWith (s := s) (by rw [hout]; simp [Work.start]) hmach]

theorem exec_lzwDec_of_outputTooLong (hfits : InputFits s)
    (hlong : s.params.bufCap < (dictDecode (codesOf s.input)).bytes.length) :
    ∃ u d, exec .lzwDec s = .next (failedOverflow d outputTooLong (discardOutput { s with lzw := u })) := by
  obtain ⟨v, hv⟩ := (lzwDecStage_decodes 0 (beginCommand s) s.input).tooLong (hlong.trans_eq (Nat.zero_add _).symm)
  obtain ⟨u, d, hrun⟩ := runCodec_of_lzw_outputTooLong (keep := keepDecoded) (by simp) (fun x _ => lzwDecStage_does x)
    rfl hfits hv
  exact ⟨u, d, congrArg _ hrun⟩

/-! ## The stream of a block, whole or cut (R318, R320) -/

theorem dictRun_codes_lt (block : List Byte) : ∀ c ∈ (dictRun block).codes, c < 16384 := by
  obtain ⟨-, hcodes, -⟩ := dictRun_spec block
  exact fun c hc => (hcodes c hc).trans (by decide)

/-- The strings of the first `j` data codes of a block. -/
def firstStrings (block : List Byte) (j : Nat) : List Byte :=
  ((dictRun block).codes.take j).flatMap (codeString (dictRun block).dict)

theorem firstStrings_of_le (h : (dictRun block).codes.length ≤ k) : firstStrings block k = block := by
  obtain ⟨-, -, hstrings⟩ := dictRun_spec block
  rw [firstStrings, List.take_of_length_le h, hstrings]

theorem firstStrings_length_le (block : List Byte) (j : Nat) : (firstStrings block j).length ≤ block.length := by
  obtain ⟨-, -, hstrings⟩ := dictRun_spec block
  have hprefix : firstStrings block j <+: block := by
    conv_rhs => rw [← hstrings, ← List.take_append_drop j (dictRun block).codes, List.flatMap_append]
    exact List.prefix_append ..
  exact hprefix.length_le

/-- R318: the plain-list decoder on a cut stream in which `j` whole codes are left: it reads the data codes among them,
and stops at the end marker exactly if that is one of them. -/
theorem decodesFirst_of_cut_stream {x : List Byte} (hx : x = (lzwStream (dictRun block).codes).take k) :
    DecodesFirst (8 * x.length / 14) (dictRun block) false
      (if (dictRun block).codes.length < 8 * x.length / 14 then .marker else .cut) (dictDecode (codesOf x)) := by
  rw [codesOf_of_cut_stream (dictRun_codes_lt block) hx]
  generalize 8 * x.length / 14 = j
  split_ifs with hj
  · obtain ⟨n, hn⟩ := Nat.exists_eq_add_of_lt hj
    have hafter : ((dictRun block).codes ++ [16383, 0]).take j
        = (dictRun block).codes.take j ++ 16383 :: [0].take n := by
      rw [List.take_append, show j - (dictRun block).codes.length = n + 1 by omega, List.take_succ_cons]
    rw [hafter]
    exact dictDecode_take (stopsAt_marker _) block j
  · have hbefore : ((dictRun block).codes ++ [16383, 0]).take j = (dictRun block).codes.take j ++ [] := by
      rw [List.take_append_of_le_length (Nat.not_lt.mp hj), List.append_nil]
    rw [hbefore]
    exact dictDecode_take stopsAt_nil block j

/-- LZW_DEC on a cut stream of a block that fits. -/
theorem exec_lzwDec_of_cut_stream (hfits : InputFits s) (hcap : block.length ≤ s.params.bufCap)
    (hx : s.input = (lzwStream (dictRun block).codes).take k) :
    ∃ u r, TableMirrors u r.dict ∧ exec .lzwDec s = .next (lzwDecoded r { s with lzw := u })
      ∧ DecodesFirst (8 * s.input.length / 14) (dictRun block) false
          (if (dictRun block).codes.length < 8 * s.input.length / 14 then .marker else .cut) r := by
  have hdecodes := decodesFirst_of_cut_stream hx
  have hroom : (dictDecode (codesOf s.input)).bytes.length ≤ s.params.bufCap := by
    rw [hdecodes.bytes]
    exact (firstStrings_length_le block _).trans hcap
  obtain ⟨u, htable, hexec⟩ := exec_lzwDec_of_fits hfits hroom
  exact ⟨u, _, htable, hexec, hdecodes⟩

/-- R320: LZW_DEC on the whole stream of a block. -/
theorem exec_lzwDec_of_stream (hfits : InputFits s) (hcap : block.length ≤ s.params.bufCap)
    (hx : s.input = lzwStream (dictRun block).codes) :
    ∃ u, TableMirrors u (dictRun block).dict
      ∧ exec .lzwDec s
          = .next (succeededOverflow (dictRun block).overflow (commitOutput block { s with lzw := u })) := by
  obtain ⟨u, r, htable, hexec, hdecodes⟩ := exec_lzwDec_of_cut_stream hfits hcap (hx.trans List.take_length.symm)
  have hmarker : (dictRun block).codes.length < 8 * s.input.length / 14 := by
    rw [hx, lzwStream_length]
    omega
  rw [if_pos hmarker] at hdecodes
  obtain ⟨hbytes, hstop, hdict, hoverflow⟩ := hdecodes
  have hblock : r.bytes = block := hbytes.trans (firstStrings_of_le hmarker.le)
  rw [lzwDecoded_of_ok (by rw [hstop]; rfl), hoverflow hmarker.le, hblock, Bool.false_or] at hexec
  exact ⟨u, hdict hmarker.le ▸ htable, hexec⟩

end Sys2Proof.Machine

namespace Sys2Proof

open Sys2Proof.Machine Sys2Proof.Safety

/-- Settles O43: pass by pass the loop does what the plain-list decoder does (`lzwDecLoop_decodes`), and the codes of a
cut stream are the first ones of the block (`codesOf_of_cut_stream`), which the decoder reads in step with the encoder
(`dictDecode_take`). -/
theorem lzwDecKeepsDecodedBytes : Obligations.LzwDecKeepsDecodedBytes := by
  refine ⟨fun s _ hfits => ⟨fun hroom => ?_, fun hlong => ?_⟩, fun s block k hwf hfits hcap hx => ?_⟩
  · obtain ⟨u, htable, hexec⟩ := exec_lzwDec_of_fits hfits hroom
    refine ⟨_, hexec, ?_, fun k e hk => ?_, ?_⟩
    · rw [lzwDecoded_lzw]
      exact htable.next
    · rw [lzwDecoded_lzw]
      exact htable.entry k e hk
    · rw [lzwDecoded_lzw]
      rfl
  · obtain ⟨u, d, hexec⟩ := exec_lzwDec_of_outputTooLong hfits hlong
    exact ⟨_, d, hexec, rfl⟩
  · have hmax := bufCap_le hwf
    obtain ⟨u, r, -, hexec, hbytes, hstop, -, -⟩ := exec_lzwDec_of_cut_stream hfits hcap hx
    have hlength := firstStrings_length_le block (8 * s.input.length / 14)
    have hout : (lzwDecoded r { s with lzw := u }).output = firstStrings block (8 * s.input.length / 14) := by
      rw [lzwDecoded_output r _ (by rw [hbytes]; exact hlength.trans_lt (by omega)), hbytes]
      rfl
    refine ⟨_, hexec, hout, fun hmarker => ?_, fun hcut => ?_⟩
    · rw [if_pos hmarker] at hstop
      rw [hout, firstStrings_of_le hmarker.le, lzwDecoded_of_ok (by rw [hstop]; rfl)]
      exact ⟨rfl, rfl, rfl, rfl⟩
    · rw [if_neg (Nat.not_lt.mpr hcut)] at hstop
      rw [lzwDecoded_of_error (e := malformed 10) (by rw [hstop]; rfl)]
      exact ⟨rfl, rfl, rfl⟩

end Sys2Proof
end

section
/-! The hash table is the dictionary (R300, R303, R306, R310): the tables hold exactly the entries of a plain list, each
under its code and where its search ends (`TableHolds`), and storing a missing pair keeps this. -/

namespace Sys2Proof.Machine

open Sys2Proof.Safety

variable {u : Lzw} {dict : List (Nat × Byte)} {pre : BitVec 14} {ch : Byte} {x : List Byte}

/-- The hash table holds the entries of a plain-list dictionary and nothing else, and every search finds them. -/
structure TableHolds (u : Lzw) (dict : List (Nat × Byte)) : Prop where
  legal : LzwLegal u
  wf : DictWf dict
  next : u.next.toNat = 256 + dict.length
  stored : ∀ i, (lzwSlot u i).code ≠ none →
    ∃ k, dict[k]? = some ((lzwSlot u i).pre.toNat, (lzwSlot u i).char)
      ∧ (lzwSlot u i).code = some (BitVec.ofNat 14 (256 + k))
  found : ∀ k e, dict[k]? = some e → (lzwFind u (BitVec.ofNat 14 e.1) e.2).hit = true
    ∧ (lzwSlot u (lzwFind u (BitVec.ofNat 14 e.1) e.2).slot).code = some (BitVec.ofNat 14 (256 + k))

theorem tableHolds_fresh : TableHolds freshLzw [] where
  legal := freshLzw_legal
  wf := dictWf_nil
  next := rfl
  stored _ h := absurd rfl h
  found _ _ h := by simp at h

/-! ## Searches (R303) -/

/-- A pair of the dictionary is found under its code. -/
theorem TableHolds.find_of_entry (h : TableHolds u dict) {k : Nat} (hk : dict[k]? = some (pre.toNat, ch)) :
    (lzwFind u pre ch).hit = true
      ∧ (lzwSlot u (lzwFind u pre ch).slot).code = some (BitVec.ofNat 14 (256 + k)) := by
  simpa using h.found k _ hk

/-- A pair that the dictionary lacks is missed. -/
theorem TableHolds.find_of_missing (h : TableHolds u dict) (hmissing : (pre.toNat, ch) ∉ dict) :
    (lzwFind u pre ch).hit = false := by
  by_contra hhit
  obtain ⟨hcode, hpre, hchar⟩ := holdsPair_of_hit (Bool.eq_true_of_not_eq_false hhit)
  obtain ⟨k, hk, -⟩ := h.stored _ hcode
  rw [hpre, hchar] at hk
  exact hmissing (List.mem_of_getElem? hk)

/-! ## Insertions (R305, R310) -/

theorem nextCode_eq (h : TableHolds u dict) : nextCode u = BitVec.ofNat 14 (256 + dict.length) := by
  have hlength := h.wf.length_le
  have hnext := h.next
  apply BitVec.eq_of_toNat_eq
  rw [nextCode_toNat (by omega), hnext, BitVec.toNat_ofNat, Nat.mod_eq_of_lt (by omega)]

/-- Storing a missing pair where its search ended adds it to the dictionary. -/
theorem TableHolds.store (h : TableHolds u dict) (hmissing : (pre.toNat, ch) ∉ dict)
    (hpre : pre.toNat < 256 + dict.length) (hroom : dict.length < 16127) :
    TableHolds (storeEntry u (lzwFind u pre ch).slot pre ch) (dict ++ [(pre.toNat, ch)]) := by
  have hmiss := h.find_of_missing hmissing
  have hempty := empty_of_miss h.legal hmiss
  have hcode := nextCode_eq h
  have hnext := h.next
  have hwf : DictWf (dict ++ [(pre.toNat, ch)]) := by
    rw [← dictInsert_of_room hroom]
    exact h.wf.insert hpre
  refine ⟨lzwLegal_assign h.legal (codeLeft_iff.mpr (by omega)) (lzwFind_slot_lt ..) _, hwf, ?_, fun i hi => ?_,
    fun k e hk => ?_⟩
  · rw [storeEntry_next, List.length_append]
    exact next_succ_toNat h.next hroom
  · rw [lzwSlot_storeEntry] at hi ⊢
    split_ifs at hi ⊢ with hslot
    · exact ⟨dict.length, List.getElem?_concat_length, congrArg some hcode⟩
    · obtain ⟨k, hk, hstored⟩ := h.stored i hi
      exact ⟨k, getElem?_of_prefix (List.prefix_append ..) hk, hstored⟩
  · rcases Nat.lt_or_ge k dict.length with hold | hlast
    · obtain ⟨hhit, hstored⟩ := h.found k e (by rwa [List.getElem?_append_left hold] at hk)
      rw [lzwFind_storeEntry_of_hit hhit hempty, lzwSlot_storeEntry_of_code hempty (hstored ▸ Option.some_ne_none _)]
      exact ⟨hhit, hstored⟩
    · obtain rfl : k = dict.length := by
        have hlt := (List.getElem?_eq_some_iff.mp hk).1
        rw [List.length_append, List.length_singleton] at hlt
        omega
      rw [List.getElem?_concat_length, Option.some_inj] at hk
      have hprobes : (lzwFind u pre ch).probes < Config.lzwTableSize :=
        (lzwFind_probes_le_of_legal h.legal).trans_lt (by decide)
      subst hk
      simp only [BitVec.ofNat_toNat, BitVec.setWidth_eq, lzwFind_storeEntry_same hmiss hprobes, lzwSlot_storeEntry_same,
        hcode, and_self]

theorem TableHolds.insert (h : TableHolds u dict) (hmissing : (pre.toNat, ch) ∉ dict)
    (hpre : pre.toNat < 256 + dict.length) :
    TableHolds (tableInsert u (lzwFind u pre ch).slot pre ch) (dictInsert dict (pre.toNat, ch)) := by
  have hnext := h.next
  unfold tableInsert
  rcases Nat.lt_or_ge dict.length 16127 with hroom | hfull
  · rw [if_pos (codeLeft_iff.mpr (by omega)), dictInsert_of_room hroom]
    exact h.store hmissing hpre hroom
  · rw [if_neg (mt codeLeft_iff.mp (by omega)), dictInsert_of_full hfull]
    exact h

/-! ## The two encoders in step (R310) -/

theorem tableRunFrom_of_hit (h : (lzwFind u pre ch).hit = true) :
    tableRunFrom u pre (ch :: x)
      = tableRunFrom u (((lzwSlot u (lzwFind u pre ch).slot).code).getD 0) x := by
  rw [tableRunFrom, if_pos h]

/-- At a missing pair the encoder gives its current code and starts over from the byte (R310, R319). -/
theorem tableRunFrom_of_miss (h : (lzwFind u pre ch).hit = false) :
    tableRunFrom u pre (ch :: x)
      = ⟨pre.toNat
            :: (tableRunFrom (tableInsert u (lzwFind u pre ch).slot pre ch) (ch.setWidth 14) x).codes,
          (tableRunFrom (tableInsert u (lzwFind u pre ch).slot pre ch) (ch.setWidth 14) x).dict,
          (!codeLeft u)
            || (tableRunFrom (tableInsert u (lzwFind u pre ch).slot pre ch) (ch.setWidth 14) x).overflow⟩ := by
  rw [tableRunFrom, if_neg (by rw [h]; exact Bool.false_ne_true)]
  unfold tableInsert
  cases hleft : codeLeft u <;> rfl

theorem tableRunFrom_agrees (h : TableHolds u dict) (hpre : pre.toNat < 256 + dict.length) (x : List Byte) :
    (tableRunFrom u pre x).codes = (dictRunFrom dict pre.toNat x).codes
      ∧ (tableRunFrom u pre x).overflow = (dictRunFrom dict pre.toNat x).overflow
      ∧ TableHolds (tableRunFrom u pre x).dict (dictRunFrom dict pre.toNat x).dict := by
  induction x generalizing u dict pre with
  | nil => exact ⟨rfl, rfl, h⟩
  | cons ch x ih =>
    cases hcode : dictCode dict pre.toNat ch with
    | some c =>
      obtain ⟨k, rfl, hk⟩ := dictCode_eq_some hcode
      obtain ⟨hhit, hstored⟩ := h.find_of_entry hk
      have hlt := (List.getElem?_eq_some_iff.mp hk).1
      have hlength := h.wf.length_le
      have hnat : (BitVec.ofNat 14 (256 + k)).toNat = 256 + k := by
        rw [BitVec.toNat_ofNat, Nat.mod_eq_of_lt (by omega)]
      have hlater := ih (pre := BitVec.ofNat 14 (256 + k)) h (by omega)
      rw [hnat] at hlater
      rw [tableRunFrom_of_hit hhit, hstored, dictRunFrom_of_found hcode]
      exact hlater
    | none =>
      have hmissing := dictCode_eq_none hcode
      have hbyte : (ch.setWidth 14).toNat = ch.toNat := BitVec.toNat_setWidth_of_le (by decide)
      obtain ⟨hcodes, hoverflow, htable⟩ := ih (pre := ch.setWidth 14) (h.insert hmissing hpre)
        (hbyte.trans_lt (Nat.lt_add_right _ ch.isLt))
      rw [hbyte] at hcodes hoverflow htable
      rw [tableRunFrom_of_miss (h.find_of_missing hmissing), dictRunFrom_of_missing hcode, hcodes, hoverflow,
        codeLeft_eq_not_full h.next, Bool.not_not]
      exact ⟨rfl, rfl, htable⟩

theorem tableRun_agrees (block : List Byte) :
    (tableRun block).codes = (dictRun block).codes ∧ (tableRun block).overflow = (dictRun block).overflow
      ∧ TableHolds (tableRun block).dict (dictRun block).dict := by
  cases block with
  | nil => exact ⟨rfl, rfl, tableHolds_fresh⟩
  | cons b x =>
    have hbyte : (b.setWidth 14).toNat = b.toNat := BitVec.toNat_setWidth_of_le (by decide)
    have hrun := tableRunFrom_agrees (pre := b.setWidth 14) tableHolds_fresh
      (hbyte.trans_lt (Nat.lt_add_right _ b.isLt)) x
    rwa [hbyte] at hrun

end Sys2Proof.Machine

namespace Sys2Proof

open Sys2Proof.Machine Sys2Proof.Safety

/-- Settles O41: searches in the table and in the list agree at every byte, and an insertion keeps that
(`TableHolds.insert`). -/
theorem hashTableIsTheDictionary : Obligations.HashTableIsTheDictionary := by
  intro block
  obtain ⟨hcodes, hoverflow, htable⟩ := tableRun_agrees block
  exact ⟨hcodes, hoverflow, htable.next, htable.found⟩

end Sys2Proof
end

section
/-! LZW_ENC (R308, R310) and the round trip (R320). A part of the body writes bits while it takes the machine from one
state to another (`Writes`); the parts of LZW_ENC write the codes of the run over the hash table. -/

namespace Sys2Proof.Machine

open Sys2Proof.Safety

variable {s m m' m'' : State} {x y : Cmd Unit} {bits more : List Bool} {w : Work}

/-! ## Parts of a body that write bits -/

/-- From the machine `m`, `x` writes `bits` behind those written before and leaves the machine `m'`; or it raises
CapacityExceeded(2) if they complete more bytes than fit (R72, R131). -/
structure Writes (m : State) (x : Cmd Unit) (bits : List Bool) (m' : State) : Prop where
  params : m'.params = m.params
  ok : ∀ (w : Work) (front : List Bool), w.mach = m →
    w.olen + (front.length + bits.length) / 8 ≤ m.params.bufCap →
      x (w.wrote front) = .ok () (({ w with mach := m' } : Work).wrote (front ++ bits))
  error : ∀ (w : Work) (front : List Bool), w.mach = m → w.olen + front.length / 8 ≤ m.params.bufCap →
    m.params.bufCap < w.olen + (front.length + bits.length) / 8 →
      ∃ v, x (w.wrote front) = .error outputTooLong v

theorem writes_putBitList (m : State) (bits : List Bool) : Writes m (putBitList bits) bits m where
  params := rfl
  ok w front hm h := by
    subst hm
    exact putBitList_wrote h
  error w front hm h0 h := by
    subst hm
    exact putBitList_wrote_of_tooLong h0 h

theorem writes_putCode (m : State) (c : Nat) : Writes m (putCode c) (codeBits [c]) m := by
  have hbits : codeBits [c] = msbBits c 14 := List.append_nil _
  rw [hbits]
  exact writes_putBitList m _

theorem writes_onMachine {f : State → State} (hparams : (f m).params = m.params) : Writes m (onMachine f) [] (f m) where
  params := hparams
  ok w front hm _ := by
    subst hm
    rw [List.append_nil]
    rfl
  error w front _ h0 h := absurd h (Nat.not_lt.mpr h0)

theorem writes_nothing (m : State) : Writes m (pure ()) [] m := writes_putBitList m []

theorem Writes.bind (hx : Writes m x bits m') (hy : Writes m' y more m'') :
    Writes m (x >>= fun _ => y) (bits ++ more) m'' where
  params := hy.params.trans hx.params
  ok w front hm h := by
    rw [List.length_append, ← Nat.add_assoc] at h
    have hcap := hx.params
    rw [Cmd.bind_ok (hx.ok w front hm (by omega)), ← List.append_assoc]
    exact hy.ok { w with mach := m' } (front ++ bits) rfl (by rwa [List.length_append, hcap])
  error w front hm h0 h := by
    rw [List.length_append, ← Nat.add_assoc] at h
    have hcap := hx.params
    rcases Nat.lt_or_ge m.params.bufCap (w.olen + (front.length + bits.length) / 8) with hlong | hfits
    · obtain ⟨v, hv⟩ := hx.error w front hm h0 hlong
      exact ⟨v, Cmd.bind_error hv _⟩
    · rw [Cmd.bind_ok (hx.ok w front hm hfits)]
      exact hy.error { w with mach := m' } (front ++ bits) rfl (by rwa [List.length_append, hcap])
        (by rwa [List.length_append, hcap])

/-- A part that starts by looking at the machine. -/
theorem Writes.get_bind {f : Work → Cmd Unit} (h : ∀ w : Work, w.mach = m → f w = x) (hx : Writes m x bits m') :
    Writes m (get >>= f) bits m' where
  params := hx.params
  ok w front hm hfits := by
    have hrun : (get >>= f) (w.wrote front) = x (w.wrote front) := congrFun (h (w.wrote front) hm) _
    rw [hrun]
    exact hx.ok w front hm hfits
  error w front hm h0 hlong := by
    have hrun : (get >>= f) (w.wrote front) = x (w.wrote front) := congrFun (h (w.wrote front) hm) _
    rw [hrun]
    exact hx.error w front hm h0 hlong

/-! ## LZW_ENC (R310) -/

/-- The loop writes the codes of the run over the hash table, and leaves the tables as the run does. -/
theorem writes_lzwEncFrom (m : State) (pre : BitVec 14) (x : List Byte) :
    Writes m (lzwEncFrom pre x) (codeBits (tableRunFrom m.lzw pre x).codes)
      (withTables (tableRunFrom m.lzw pre x).dict (tableRunFrom m.lzw pre x).overflow m) := by
  induction x generalizing m pre with
  | nil =>
    have hsame : withTables m.lzw false m = m := by rw [withTables, Bool.or_false]
    simp only [tableRunFrom, hsame]
    exact writes_putCode m _
  | cons ch x ih =>
    cases hhit : (lzwFind m.lzw pre ch).hit with
    | true =>
      rw [tableRunFrom_of_hit hhit]
      refine Writes.get_bind (fun w hm => ?_) (ih m _)
      simp only [hm, hhit, if_true]
    | false =>
      have hinsert := writes_onMachine (m := m) (f := insertOrOverflow (lzwFind m.lzw pre ch).slot pre ch)
        (by rw [insertOrOverflow_eq]; rfl)
      rw [insertOrOverflow_eq] at hinsert
      have hparts := (writes_putCode m pre.toNat).bind (hinsert.bind (ih _ (ch.setWidth 14)))
      rw [withTables_withTables, List.nil_append, ← codeBits_append] at hparts
      rw [tableRunFrom_of_miss hhit]
      refine Writes.get_bind (fun w hm => ?_) hparts
      simp only [hm, hhit, Bool.false_eq_true, if_false]

theorem writes_lzwEncBlock (hfresh : m.lzw = freshLzw) (x : List Byte) :
    Writes m (lzwEncBlock x) (codeBits (tableRun x).codes) (withTables (tableRun x).dict (tableRun x).overflow m) := by
  cases x with
  | nil =>
    have hsame : withTables freshLzw false m = m := by rw [withTables, Bool.or_false, ← hfresh]
    rw [tableRun, hsame]
    exact writes_nothing m
  | cons b x =>
    rw [tableRun, ← hfresh]
    exact writes_lzwEncFrom m _ x

/-- Data codes, end marker and flush code (R308, R310). -/
theorem writes_lzwEncCodes (s : State) (x : List Byte) :
    Writes { s with lzw := freshLzw }
      (lzwEncBlock x >>= fun _ => putCode Config.lzwEndMarker >>= fun _ => putCode 0)
      (codeBits ((tableRun x).codes ++ [16383, 0])) (withTables (tableRun x).dict (tableRun x).overflow s) := by
  have hblock := writes_lzwEncBlock (m := { s with lzw := freshLzw }) rfl x
  have hparts := hblock.bind ((writes_putCode _ Config.lzwEndMarker).bind (writes_putCode _ 0))
  rwa [← codeBits_append, ← codeBits_append] at hparts

theorem lzwEncStage_run (k : Nat) (s : State) (x : List Byte) :
    lzwEncStage x (Work.start k s)
      = ((lzwEncBlock x >>= fun _ => putCode Config.lzwEndMarker >>= fun _ => putCode 0) >>= fun _ => dropBits)
          ((Work.start k { s with lzw := freshLzw }).wrote []) := by
  rw [wrote_nil rfl rfl, lzwEncStage, Cmd.bind_ok (onMachine_start _ _ _)]
  simp only [bind_assoc]

/-- DropBits leaves the whole bytes of the stream (R134, R308). -/
theorem lzwEncStage_of_fits (k : Nat) {x : List Byte} (h : (lzwStream (tableRun x).codes).length ≤ s.params.bufCap) :
    lzwEncStage x (Work.start k s)
      = .ok () (Work.emitted k (withTables (tableRun x).dict (tableRun x).overflow s)
          (lzwStream (tableRun x).codes)) := by
  rw [lzwStream_eq, packWhole_length] at h
  have hcodes := (writes_lzwEncCodes s x).ok (Work.start k { s with lzw := freshLzw }) [] rfl
    (by rw [List.length_nil, Nat.zero_add]; exact (Nat.zero_add _).trans_le h)
  rw [lzwEncStage_run, Cmd.bind_ok hcodes, dropBits_wrote, Work.emitted, lzwStream_eq, packWhole_length]
  simp [Work.start]

theorem lzwEncStage_of_tooLong (k : Nat) {x : List Byte} (h : s.params.bufCap < (lzwStream (tableRun x).codes).length) :
    ∃ v, lzwEncStage x (Work.start k s) = .error outputTooLong v := by
  rw [lzwStream_eq, packWhole_length] at h
  obtain ⟨v, hv⟩ := (writes_lzwEncCodes s x).error (Work.start k { s with lzw := freshLzw }) [] rfl (Nat.zero_le _)
    (by rw [List.length_nil, Nat.zero_add]; exact h.trans_eq (Nat.zero_add _).symm)
  exact ⟨v, by rw [lzwEncStage_run, Cmd.bind_error hv]⟩

theorem exec_lzwEnc_of_fits (hfits : InputFits s) (h : (lzwStream (tableRun s.input).codes).length ≤ s.params.bufCap) :
    exec .lzwEnc s = .next (succeededOverflow (tableRun s.input).overflow
      (commitOutput (lzwStream (tableRun s.input).codes) { s with lzw := (tableRun s.input).dict })) := by
  change Host.Outcome.next (runCodec keepNothing lzwEncStage s) = _
  rw [runCodec_fits keepNothing _ hfits, lzwEncStage_of_fits (s := beginCommand s) 0 h, finishCodec_ok, Work.emitted,
    List.reverse_reverse]
  rfl

theorem exec_lzwEnc_of_outputTooLong (hfits : InputFits s)
    (h : s.params.bufCap < (lzwStream (tableRun s.input).codes).length) :
    ∃ u d, exec .lzwEnc s = .next (failedOverflow d outputTooLong (discardOutput { s with lzw := u })) := by
  obtain ⟨v, hv⟩ := lzwEncStage_of_tooLong (s := beginCommand s) 0 h
  obtain ⟨u, d, hrun⟩ := runCodec_of_lzw_outputTooLong (keep := keepNothing) (by simp) (fun x _ => lzwEncStage_does x)
    rfl hfits hv
  exact ⟨u, d, congrArg _ hrun⟩

theorem exec_lzwEnc_of_inputTooLong (h : s.params.bufCap < s.ilen.toNat) :
    exec .lzwEnc s = .next (failed inputTooLong 0 (discardOutput s)) :=
  congrArg _ (runCodec_keepNothing_tooLong lzwEncStage h)

/-! ## The round trip (R320) -/

/-- As `chain_of_committed`, after a command that may have reported DictionaryOverflow. -/
theorem chain_of_committed_overflow {i j : Instr} {rest : List Instr} {t : State} {d : Bool} {bytes : List Byte}
    (h : exec i s = .next (succeededOverflow d (commitOutput bytes t))) (hsize : bytes.length < 4294967296) :
    chain (i :: j :: rest) s
      = chain (j :: rest) (succeeded (hostLoad bytes (succeededOverflow d (commitOutput bytes t)))) := by
  have hout : (succeededOverflow d (commitOutput bytes t)).output = bytes := output_commitOutput t hsize
  have hok : (succeededOverflow d (commitOutput bytes t)).status.err = 0 := rfl
  rw [chain, h]
  dsimp only
  rw [if_neg (not_not.mpr hok), exec_xfer, hout]

/-- R320: LZW_DEC after LZW_ENC. -/
theorem chain_lzwEnc_lzwDec (hwf : s.params.wf = true) (hfits : InputFits s)
    (hroom : (lzwStream (dictRun s.input).codes).length ≤ s.params.bufCap) :
    ∃ t, chain [.lzwEnc, .lzwDec] s = some t ∧ t.output = s.input
      ∧ t.status = { doneStatus with dovf := (dictRun s.input).overflow } := by
  have hmax := bufCap_le hwf
  have hsize : (lzwStream (dictRun s.input).codes).length < 4294967296 := by omega
  have hblock : s.input.length < 4294967296 := (input_length s).trans_lt s.ilen.isLt
  obtain ⟨hcodes, -, -⟩ := tableRun_agrees s.input
  have hfirst := exec_lzwEnc_of_fits hfits (hcodes.symm ▸ hroom)
  rw [hcodes] at hfirst
  rw [chain_of_committed_overflow hfirst hsize]
  generalize hv : succeeded (hostLoad (lzwStream (dictRun s.input).codes) _) = v
  have hinput : v.input = lzwStream (dictRun s.input).codes := hv ▸ input_hostLoad _ hsize
  have hparams : v.params = s.params := hv ▸ rfl
  have hfitsV : InputFits v := by rwa [InputFits, ← input_length, hinput, hparams]
  obtain ⟨u, -, hlast⟩ := exec_lzwDec_of_stream hfitsV (by rwa [input_length, hparams]) hinput
  exact ⟨_, chain_singleton hlast, output_commitOutput _ hblock, rfl⟩

end Sys2Proof.Machine

namespace Sys2Proof

open Sys2Proof.Machine Sys2Proof.Safety

/-- Settles O40: the parts of the body write the codes of the run (`writes_lzwEncCodes`), of which DropBits leaves the
stream. -/
theorem lzwEncWritesStream : Obligations.LzwEncWritesStream := by
  refine fun s => ⟨exec_lzwEnc_of_fits, fun hfits hlong => ?_, exec_lzwEnc_of_inputTooLong⟩
  obtain ⟨u, d, hexec⟩ := exec_lzwEnc_of_outputTooLong hfits hlong
  exact ⟨_, d, hexec, rfl⟩

/-- Settles O42: LZW_DEC is the plain-list decoder (`exec_lzwDec_of_fits`), which reads the codes of a block in step
with the plain-list encoder (`dictDecode_take`), whose codes LZW_ENC writes (`tableRun_agrees`). -/
theorem lzwDecReadsStream : Obligations.LzwDecReadsStream := by
  refine ⟨fun s block _ hfits hcap hinput => ?_, fun s => chain_lzwEnc_lzwDec⟩
  obtain ⟨u, htable, hexec⟩ := exec_lzwDec_of_stream hfits hcap hinput
  exact ⟨_, hexec, rfl, htable.next, htable.entry⟩

end Sys2Proof
end

section
/-! The pipelines on blocks (R343 to R348): each stage that ends well hands its bytes and its machine to the next one,
so a pipeline is its stages' formats one after the other, and a decompress pipeline undoes them stage by stage
(R350). -/

namespace Sys2Proof.Machine

open Sys2Proof.Safety

variable {s t : State} {x y block : List Byte} {body : List Byte → Cmd Unit} {k : Nat} {v : Work}

/-! ## Stages that end well (R341) -/

theorem runStages_of_ok (hx : x.length ≤ s.params.bufCap) (hbody : body x (Work.start k s) = .ok () v)
    (hout : v.out.reverse = y) (hmach : v.mach = t) (more : List (List Byte → Cmd Unit)) :
    runStages (body :: more) k s x = runStages more (k + 1) t y := by
  rw [runStages_ok ((runStage_fits body k hx).trans hbody), hout, hmach]

theorem runStages_of_emitted (hx : x.length ≤ s.params.bufCap)
    (hbody : body x (Work.start k s) = .ok () (Work.emitted k t y)) (more : List (List Byte → Cmd Unit)) :
    runStages (body :: more) k s x = runStages more (k + 1) t y :=
  runStages_of_ok hx hbody (List.reverse_reverse y) rfl more

theorem runStages_mtfEnc (hx : x.length ≤ s.params.bufCap) (more : List (List Byte → Cmd Unit)) :
    runStages (mtfEncStage :: more) k s x = runStages more (k + 1) s (mtfEncode x) :=
  runStages_of_emitted hx
    ((congrFun (mtfEncStage_eq_emitAll x) _).trans (emitAll_start k (by rwa [mtfEncode_length]))) more

theorem runStages_mtfDec (hx : x.length ≤ s.params.bufCap) (more : List (List Byte → Cmd Unit)) :
    runStages (mtfDecStage :: more) k s x = runStages more (k + 1) s (mtfDecode x) :=
  runStages_of_emitted hx
    ((congrFun (mtfDecStage_eq_emitAll x) _).trans (emitAll_start k (by rwa [mtfDecode_length]))) more

/-- The last stage of every decompress pipeline, on a transform (R186). -/
theorem runStages_bwtInv (hwf : s.params.wf = true) (hcap : block.length + 4 ≤ s.params.bufCap) :
    runStages [bwtInvStage] k s (bwt block) = .finished s block := by
  have hmax := bufCap_le hwf
  exact runStages_of_emitted (by rwa [bwt_length])
    (bwtInvStage_bwt k (by omega) (Nat.le_of_add_right_le hcap)) []

/-! ## The compress pipelines (R343, R345, R347) -/

/-- The first stage of every compress pipeline. -/
theorem runPipeline_bwtFwd (h : s.ilen.toNat + 4 ≤ s.params.bufCap) (more : List (List Byte → Cmd Unit)) :
    runPipeline (bwtFwdStage :: more) s
      = finishPipeline (runStages more 2 (bwtDone s.input (beginCommand s)) (bwt s.input)) := by
  have hfits : s.ilen.toNat ≤ s.params.bufCap := Nat.le_of_add_right_le h
  have hbody := bwtFwdStage_of_fits (x := s.input) (s := beginCommand s) 1 (by rwa [input_length])
  rw [runPipeline_fits _ hfits, runStages_of_emitted (by rwa [input_length]) hbody]

/-- The transform of the input fits as the input of the second stage. -/
theorem bwt_input_length_le (h : s.ilen.toNat + 4 ≤ s.params.bufCap) : (bwt s.input).length ≤ s.params.bufCap := by
  rwa [bwt_length, input_length]

theorem exec_pBwtLzwC_of_fits (h : s.ilen.toNat + 4 ≤ s.params.bufCap)
    (hroom : (lzwStream (tableRun (bwt s.input)).codes).length ≤ s.params.bufCap) :
    exec .pBwtLzwC s = .next (succeededOverflow (tableRun (bwt s.input)).overflow
      (commitOutput (lzwStream (tableRun (bwt s.input)).codes)
        { bwtDone s.input s with lzw := (tableRun (bwt s.input)).dict })) := by
  have hbwt := bwt_input_length_le h
  have hlzw := lzwEncStage_of_fits (s := bwtDone s.input (beginCommand s)) 2 hroom
  change Host.Outcome.next (runPipeline [bwtFwdStage, lzwEncStage] s) = _
  rw [runPipeline_bwtFwd h, runStages_of_emitted (s := bwtDone s.input (beginCommand s)) hbwt hlzw]
  rfl

theorem exec_pBwtMtfShufC_of_fits (h : s.ilen.toNat + 4 ≤ s.params.bufCap)
    (hroom : (shufContainer (mtfEncode (bwt s.input))).length ≤ s.params.bufCap) :
    exec .pBwtMtfShufC s
      = .next (succeeded (commitOutput (shufContainer (mtfEncode (bwt s.input))) (bwtDone s.input s))) := by
  have hbwt := bwt_input_length_le h
  have hshuf := (emits_shufEncStage (mtfEncode (bwt s.input))).ok
    (Work.start 3 (bwtDone s.input (beginCommand s))) (work_start_aligned _ _) ((Nat.zero_add _).trans_le hroom)
  rw [extended_start] at hshuf
  change Host.Outcome.next (runPipeline [bwtFwdStage, mtfEncStage, shufEncStage] s) = _
  rw [runPipeline_bwtFwd h, runStages_mtfEnc (s := bwtDone s.input (beginCommand s)) hbwt,
    runStages_of_emitted (by rwa [mtfEncode_length]) hshuf]
  rfl

theorem exec_pBwtMtfAhufC_of_fits (h : s.ilen.toNat + 4 ≤ s.params.bufCap)
    (hroom : (ahufContainer s.params s.ahuf (mtfEncode (bwt s.input))).length ≤ s.params.bufCap) :
    exec .pBwtMtfAhufC s
      = .next (succeeded (commitOutput (ahufContainer s.params s.ahuf (mtfEncode (bwt s.input)))
          (ahufCoded (mtfEncode (bwt s.input)) (crc32 s.params (mtfEncode (bwt s.input))) (bwtDone s.input s)))) := by
  have hbwt := bwt_input_length_le h
  have hahuf := ahufEncStage_of_fits (s := bwtDone s.input (beginCommand s)) 3 hroom
  change Host.Outcome.next (runPipeline [bwtFwdStage, mtfEncStage, ahufEncStage] s) = _
  rw [runPipeline_bwtFwd h, runStages_mtfEnc (s := bwtDone s.input (beginCommand s)) hbwt,
    runStages_of_emitted (by rwa [mtfEncode_length]) hahuf]
  rfl

/-! ## The first stages of the decompress pipelines -/

/-- R320 for stage `k`: the stream of a block is decoded to the block. -/
theorem lzwDecStage_of_stream (k : Nat) (s : State) (hcap : block.length ≤ s.params.bufCap) :
    ∃ u v, lzwDecStage (lzwStream (dictRun block).codes) (Work.start k s) = .ok () v ∧ v.out.reverse = block
      ∧ v.mach = withTables u (dictRun block).overflow s := by
  generalize hx : lzwStream (dictRun block).codes = x
  have hmarker : (dictRun block).codes.length < 8 * x.length / 14 := by
    rw [← hx, lzwStream_length]
    omega
  have hdecodes := decodesFirst_of_cut_stream (hx.symm.trans List.take_length.symm)
  rw [if_pos hmarker] at hdecodes
  obtain ⟨hbytes, hstop, -, hoverflow⟩ := hdecodes
  have hblock : (dictDecode (codesOf x)).bytes = block := hbytes.trans (firstStrings_of_le hmarker.le)
  obtain ⟨u, v, -, hout, hmach, hresult⟩ :=
    (lzwDecStage_decodes k s x).fits (by rw [hblock]; exact (Nat.zero_add _).trans_le hcap)
  rw [hstop] at hresult
  rw [hoverflow hmarker.le, Bool.false_or] at hmach
  exact ⟨u, v, hresult, by rw [hout, hblock]; simp [Work.start], hmach⟩

/-- R219 for stage `k`: the container of a block is decoded to the block. -/
theorem shufDecStage_of_container (k : Nat) (hsize : (shufContainer block).length ≤ 268435456)
    (hcap : block.length ≤ s.params.bufCap) :
    ∃ v, shufDecStage (shufContainer block) (Work.start k s) = .ok () v ∧ v.out.reverse = block ∧ v.mach = s := by
  rcases eq_or_ne block [] with rfl | hne
  · exact ⟨Work.start k s, rfl, rfl, rfl⟩
  · obtain ⟨t, ht, -⟩ := huffTree_of_ne_nil hne
    obtain ⟨hheader, hbits⟩ := shufContainer_reads ht hsize
    obtain ⟨front, more, hx, hfront, hlen⟩ := hheader.exists_bits hbits
    have hpayload := decodePayload_block (w := Work.start k s) (p := 0) (fun b hb => (mem_huffLeaves ht).mpr hb) hx
      ((Nat.zero_add _).trans_le hcap)
    rw [Nat.add_zero, hlen, hfront, decodePayload_zero, extended_start] at hpayload
    exact ⟨_, (shufDecStage_of_header _ hheader).trans hpayload, List.reverse_reverse block, rfl⟩

/-! ## The decompress pipelines (R344, R346, R348, R350) -/

/-- MTF_DEC and BWT_INV on what MTF_ENC makes of a transform. -/
theorem runStages_mtfDec_bwtInv (hwf : s.params.wf = true) (hcap : block.length + 4 ≤ s.params.bufCap) :
    runStages [mtfDecStage, bwtInvStage] k s (mtfEncode (bwt block)) = .finished s block := by
  rw [runStages_mtfDec (by rwa [mtfEncode_length, bwt_length]), mtfDecode_mtfEncode, runStages_bwtInv hwf hcap]

theorem exec_pBwtLzwD_of_stream (hwf : s.params.wf = true) (hfits : InputFits s)
    (hcap : block.length + 4 ≤ s.params.bufCap) (hinput : s.input = lzwStream (dictRun (bwt block)).codes) :
    ∃ u, exec .pBwtLzwD s
      = .next (succeededOverflow (dictRun (bwt block)).overflow (commitOutput block { s with lzw := u })) := by
  obtain ⟨u, v, hbody, hout, hmach⟩ := lzwDecStage_of_stream (block := bwt block) 1 (beginCommand s)
    (by rwa [bwt_length])
  refine ⟨u, ?_⟩
  change Host.Outcome.next (runPipeline [lzwDecStage, bwtInvStage] s) = _
  rw [runPipeline_fits _ hfits, runStages_of_ok (by rwa [input_length]) (hinput ▸ hbody) hout hmach,
    runStages_bwtInv (s := withTables u _ (beginCommand s)) hwf hcap]
  rfl

theorem exec_pBwtMtfShufD_of_container (hwf : s.params.wf = true) (hfits : InputFits s)
    (hcap : block.length + 4 ≤ s.params.bufCap) (hinput : s.input = shufContainer (mtfEncode (bwt block))) :
    exec .pBwtMtfShufD s = .next (succeeded (commitOutput block s)) := by
  have hsize : (shufContainer (mtfEncode (bwt block))).length ≤ 268435456 := by
    rw [← hinput, input_length]
    exact hfits.trans (bufCap_le hwf)
  obtain ⟨v, hbody, hout, hmach⟩ := shufDecStage_of_container (s := beginCommand s) 1 hsize
    (by rwa [mtfEncode_length, bwt_length])
  change Host.Outcome.next (runPipeline [shufDecStage, mtfDecStage, bwtInvStage] s) = _
  rw [runPipeline_fits _ hfits, runStages_of_ok (by rwa [input_length]) (hinput ▸ hbody) hout hmach,
    runStages_mtfDec_bwtInv (s := beginCommand s) hwf hcap]
  rfl

/-- With the CRC field right, or with the warning of stage 1 (R376). -/
theorem exec_pBwtMtfAhufD_of_container {u : Ahuf} {crc : Word} (hwf : s.params.wf = true) (hfits : InputFits s)
    (hcap : block.length + 4 ≤ s.params.bufCap) (hinput : s.input = ahufContainerWith crc u (mtfEncode (bwt block))) :
    exec .pBwtMtfAhufD s
      = .next (if crc = crc32 s.params (mtfEncode (bwt block)) then
          succeeded (commitOutput block (ahufCoded (mtfEncode (bwt block)) crc s))
        else warned 1 (commitOutput block (ahufCoded (mtfEncode (bwt block)) crc s))) := by
  have hx : (ahufContainerWith crc u (mtfEncode (bwt block))).length ≤ s.params.bufCap := by
    rw [← hinput, input_length]
    exact hfits
  obtain ⟨v, hbody, hout, hmach⟩ := ahufDecStage_of_container (s := beginCommand s) 1 hwf hx
    (by rwa [mtfEncode_length, bwt_length])
  change Host.Outcome.next (runPipeline [ahufDecStage, mtfDecStage, bwtInvStage] s) = _
  rw [runPipeline_fits _ hfits, runStages_of_ok (by rwa [input_length]) (hinput ▸ hbody) hout hmach, decoded]
  change Host.Outcome.next (finishPipeline (runStages [mtfDecStage, bwtInvStage] 2
    (if crc = crc32 s.params (mtfEncode (bwt block)) then _ else _) _)) = _
  split_ifs
  · exact congrArg _ (congrArg _ (runStages_mtfDec_bwtInv (s := ahufCoded _ crc (beginCommand s)) hwf hcap))
  · exact congrArg _ (congrArg _ (runStages_mtfDec_bwtInv
      (s := warnChecksumMismatch 1 (ahufCoded _ crc (beginCommand s))) hwf hcap))

end Sys2Proof.Machine

namespace Sys2Proof

open Sys2Proof.Machine Sys2Proof.Safety

/-- Settles O45: LZW_DEC gives the transform (`lzwDecStage_of_stream`), and BWT_INV gives the block. -/
theorem bwtLzwPipelineRoundTrip : Obligations.BwtLzwPipelineRoundTrip := by
  intro s block hwf hfits hcap hinput
  obtain ⟨u, hexec⟩ := exec_pBwtLzwD_of_stream hwf hfits hcap hinput
  exact ⟨_, hexec, rfl⟩

/-- Settles O46: SHUF_DEC gives the positions of the transform (`shufDecStage_of_container`), MTF_DEC the transform,
BWT_INV the block. -/
theorem bwtMtfShufPipelineRoundTrip : Obligations.BwtMtfShufPipelineRoundTrip :=
  fun _ _ => exec_pBwtMtfShufD_of_container

/-- Settles O47: as O46 with AHUF_DEC (`ahufDecStage_of_container`), whose warning the later stages leave alone. -/
theorem bwtMtfAhufPipelineRoundTrip : Obligations.BwtMtfAhufPipelineRoundTrip := by
  intro s u block crc hwf hfits hcap hinput
  have hexec := exec_pBwtMtfAhufD_of_container hwf hfits hcap hinput
  exact ⟨fun hcrc => by rwa [if_pos hcrc] at hexec, fun hcrc => by rwa [if_neg hcrc] at hexec⟩

/-- Settles O44: each stage's format of what the stage before it has written. -/
theorem compressPipelines : Obligations.CompressPipelines :=
  fun _ h => ⟨exec_pBwtLzwC_of_fits h, exec_pBwtMtfShufC_of_fits h, exec_pBwtMtfAhufC_of_fits h⟩

end Sys2Proof
end

section
/-! The system commands (R360, R362, R363), the commands as codecs and pipelines, and how every command ends (R361,
R373, R378). -/

namespace Sys2Proof.Machine

open Sys2Proof.Safety

variable {i j : Instr} {s t m q : State} {x y : List Byte} {k l : Nat} {e : FatalError} {w v : Work}

/-! ## Issue and XFER (R360, R363) -/

theorem issue_of_decode {w : Word} (h : decode w = .ok i) (s : State) : issue w s = exec i s := by
  rw [issue, h]

/-- What loading the output leaves: IBUF and ILEN are all it writes, and ILEN is OLEN. -/
theorem hostLoad_output (s : State) :
    hostLoad s.output s = { s with ibuf := (hostLoad s.output s).ibuf, ilen := s.olen } := by
  rw [hostLoad, output_length, BitVec.ofNat_toNat, BitVec.setWidth_eq]

theorem readIbuf_hostLoad_output (h : k < s.olen.toNat) : readIbuf (hostLoad s.output s) k = readObuf s k := by
  rw [readIbuf_hostLoad_of_lt s (by rwa [output_length])]
  simp only [State.output, List.getElem_map, List.getElem_range]

/-! ## Codecs and pipelines (R343 to R348) -/

/-- Which errors keep the output of a codec (R318, R373). -/
def keepOf (i : Instr) : FatalError → Bool := if i = .lzwDec then keepDecoded else keepNothing

/-- A byte-producing command that is no pipeline runs its body. -/
theorem exec_codec (hi : producesBytes i = true) (hstages : pipelineStages i = []) (s : State) :
    exec i s = .next (runCodec (keepOf i) (stageBody i) s) := by
  cases i
  case bwtFwd | bwtInv | mtfEnc | mtfDec | shufEnc | shufDec | ahufEnc | ahufDec | lzwEnc | lzwDec => rfl
  case pBwtLzwC | pBwtLzwD | pBwtMtfShufC | pBwtMtfShufD | pBwtMtfAhufC | pBwtMtfAhufD => cases hstages
  all_goals cases hi

/-- A pipeline command runs the bodies of its stages. -/
theorem exec_pipeline (hi : pipelineStages i ≠ []) (s : State) :
    exec i s = .next (runPipeline ((pipelineStages i).map stageBody) s) := by
  cases i
  case pBwtLzwC | pBwtLzwD | pBwtMtfShufC | pBwtMtfShufD | pBwtMtfAhufC | pBwtMtfAhufD => rfl
  all_goals exact absurd rfl hi

/-- The pipelines have two or three stages, and only the first may be AHUF_DEC. -/
theorem pipelineStages_eq_cons (hi : pipelineStages i ≠ []) :
    ∃ j rest, pipelineStages i = j :: rest ∧ rest.length ≤ 2 ∧ .ahufDec ∉ rest
      ∧ (j = .ahufDec → i = .pBwtMtfAhufD) := by
  cases i
  case pBwtLzwC | pBwtLzwD | pBwtMtfShufC | pBwtMtfShufD | pBwtMtfAhufC | pBwtMtfAhufD =>
    exact ⟨_, _, rfl, by decide, by decide, by decide⟩
  all_goals exact absurd rfl hi

theorem producesBytes_of_pipeline (hi : pipelineStages i ≠ []) : producesBytes i = true := by
  cases i
  case pBwtLzwC | pBwtLzwD | pBwtMtfShufC | pBwtMtfShufD | pBwtMtfAhufC | pBwtMtfAhufD => rfl
  all_goals exact absurd rfl hi

/-- No command is left without a next state. -/
theorem exec_completes (i : Instr) (s : State) : ∃ t, exec i s = .next t := by
  cases i
  case crcByte => exact ⟨_, exec_crcByte s⟩
  case ahufUpdate | lzwProbe | lzwInsert =>
    simp only [exec, execAhufUpdate, execLzwProbe, execLzwInsert]
    split <;> exact ⟨_, rfl⟩
  case crcBuf | saBuild =>
    simp only [exec, execCrcBuf, execSaBuild]
    split <;> exact ⟨_, rfl⟩
  all_goals exact ⟨_, rfl⟩

/-! ## Input that is too long (R378) -/

/-- Of the commands that read IBUF only CRC_BUF and SA_BUILD produce no bytes. -/
theorem mem_of_readsInput (hi : readsInput i = true) (hbytes : producesBytes i = false) :
    i ∈ [Instr.crcBuf, .saBuild] := by
  revert hi hbytes
  cases i <;> decide

theorem exec_unit_of_tooLong (hi : readsInput i = true) (hbytes : producesBytes i = false)
    (hlong : s.params.bufCap < s.ilen.toNat) : exec i s = .next (failed inputTooLong 0 s) := by
  rcases List.mem_pair.mp (mem_of_readsInput hi hbytes) with rfl | rfl
  · exact exec_crcBuf_of_tooLong hlong
  · exact exec_saBuild_of_tooLong hlong

theorem keepOf_inputTooLong (i : Instr) : keepOf i inputTooLong = false := by
  unfold keepOf
  split_ifs <;> rfl

theorem exec_codec_of_tooLong (hi : producesBytes i = true) (hstages : pipelineStages i = [])
    (hlong : s.params.bufCap < s.ilen.toNat) : exec i s = .next (failed inputTooLong 0 (discardOutput s)) := by
  rw [exec_codec hi hstages, runCodec_tooLong _ _ hlong, finishCodec_error, keepOf_inputTooLong,
    if_neg Bool.false_ne_true, Work.start_mach, fail_discard_begin]

theorem exec_pipeline_of_tooLong (hi : pipelineStages i ≠ []) (hlong : s.params.bufCap < s.ilen.toNat) :
    exec i s = .next (failed inputTooLong 1 (discardOutput s)) := by
  rw [exec_pipeline hi, runPipeline_tooLong _ hlong, finishPipeline_failed, fail_discard_begin]

/-! ## What a command has reported (R361, R376) -/

/-- STATUS.WARN and the other reports of a command so far. -/
def reported (s : State) := (s.status.warn, reportFields s)

theorem Change.reported_eq (h : Change i s t) : reported t = reported s := by
  refine Prod.ext ?_ h.reports_eq
  cases h with
  | insert => exact insertOrOverflow_field (f := fun s => s.status.warn) (fun _ _ => rfl) (fun _ => rfl) ..
  | record => exact recordOrOverflow_field (f := fun s => s.status.warn) (fun _ _ => rfl) (fun _ => rfl) ..
  | crc | suffixes | draw | freshTree | update | freshTable => rfl

theorem Changes.reported_eq (h : Changes i s t) : reported t = reported s := by
  induction h with
  | refl => rfl
  | tail _ hc ih => exact hc.reported_eq.trans ih

theorem Report.reported_eq (h : Report i k s t) (hi : i ∉ [Instr.ahufDec]) : reported t = reported s := by
  cases h with
  | nothing | result | results => rfl
  | warned v v' user => exact absurd (List.mem_singleton.mpr user) hi

/-- The warning overwrites the reports, but for ERR and the bits of FAULTLOG. -/
theorem reported_warnChecksumMismatch (k : Nat) (h : reported s = reported t) :
    reported (warnChecksumMismatch k s) = reported (warnChecksumMismatch k t) := by
  simp only [reported, reportFields, Prod.mk.injEq] at h
  simp [reported, reportFields, h]

/-- A part of the state that no change and no report of the command writes is as before. -/
theorem BodyDoes.field_eq {β : Type} {f : State → β} {body : Cmd Unit} (hdoes : BodyDoes i body w)
    (hchange : ∀ s t, Change i s t → f t = f s) (hreport : ∀ k s t, Report i k s t → f t = f s) :
    f (endWork (body w)).mach = f w.mach := by
  have hchanges {m : State} (h : Changes i w.mach m) : f m = f w.mach := by
    induction h with
    | refl => rfl
    | tail _ hc ih => exact (hchange _ _ hc).trans ih
  cases h : body w with
  | ok a v =>
    obtain ⟨m, hm, hr, -⟩ := hdoes.ok h
    exact (hreport _ _ _ hr).trans (hchanges hm.changes)
  | error e v => exact hchanges (hdoes.error h).1.changes

/-- The body of a command reports nothing, or the warning in AHUF_DEC. -/
theorem BodyDoes.reported_eq {body : Cmd Unit} (hdoes : BodyDoes i body w) (h : body w = .ok () v) :
    reported v.mach = reported w.mach
      ∨ i = .ahufDec ∧ reported v.mach = reported (warnChecksumMismatch w.stage w.mach) := by
  obtain ⟨m, hm, hr, -⟩ := hdoes.ok h
  have hchanges := hm.changes.reported_eq
  revert hr
  generalize v.mach = t
  intro hr
  cases hr with
  | nothing | result | results => exact .inl hchanges
  | warned _ _ user => exact .inr ⟨user, reported_warnChecksumMismatch w.stage hchanges⟩

/-! ## The three ends (R361, R373) -/

/-- DONE is set and BUSY clear, and the command ended in one of the three ways of R361. -/
def EndsOneWay (i : Instr) (s t : State) : Prop :=
  t.status.done = true ∧ t.status.busy = false
    ∧ ((t.status.err = 0 ∧ t.status.warn = false ∧ t.errinfo = 0 ∧ t.status.stage = 0 ∧ t.faultlog = s.faultlog)
        ∨ (t.status.err = 0 ∧ t.status.warn = true ∧ t.errinfo = 1 ∧ t.faultlog = s.faultlog ||| 4
          ∧ ((i = .ahufDec ∧ t.status.stage = 0) ∨ (i = .pBwtMtfAhufD ∧ t.status.stage = 1)))
        ∨ (t.status.err.toNat ∈ [1, 4, 5, 6] ∧ t.errinfo ≠ 0 ∧ t.faultlog.getLsbD t.status.err.toNat = true
          ∧ (producesBytes i = true → i ≠ .lzwDec → t.olen = 0)
          ∧ (pipelineStages i = [] ↔ t.status.stage = 0)))

theorem endsOneWay_of_silent (i : Instr) (h : reported m = reported (beginCommand s)) :
    EndsOneWay i s (completeCommand m) := by
  simp only [reported, reportFields, Prod.mk.injEq] at h
  obtain ⟨hwarn, -, herr, hstage, hinfo, hlog⟩ := h
  exact ⟨rfl, rfl, .inl ⟨herr, hwarn, hinfo, hstage, hlog⟩⟩

theorem endsOneWay_of_warned (h : reported m = reported (warnChecksumMismatch k (beginCommand s)))
    (hk : (i = .ahufDec ∧ k = 0) ∨ (i = .pBwtMtfAhufD ∧ k = 1)) : EndsOneWay i s (completeCommand m) := by
  simp only [reported, reportFields, Prod.mk.injEq] at h
  obtain ⟨hwarn, -, herr, hstage, hinfo, hlog⟩ := h
  refine ⟨rfl, rfl, .inr (.inl ⟨herr, hwarn, hinfo, hlog, hk.imp ?_ ?_⟩)⟩
  all_goals
    rintro ⟨hi, rfl⟩
    exact ⟨hi, hstage⟩

theorem fatalCode_lt (e : FatalKind) : fatalCode e < 16 := by cases e <;> decide

theorem fatalCode_mem_fatal (e : FatalKind) : fatalCode e ∈ [1, 4, 5, 6] := by cases e <;> decide

theorem FatalError.Listed.setWidth_ne_zero (he : e.Listed) : (e.sub.setWidth 32 : Word) ≠ 0 := by
  obtain ⟨hsub, -⟩ := he
  bv_omega

theorem ofNat_stage_eq_zero (hk : k ≤ 3) : BitVec.ofNat 3 k = 0 ↔ k = 0 := by
  bv_omega

theorem endsOneWay_of_fatal (he : e.Listed) (holen : producesBytes i = true → i ≠ .lzwDec → m.olen = 0)
    (hstage : pipelineStages i = [] ↔ k = 0) (hk : k ≤ 3) : EndsOneWay i s (completeCommand (raiseFatal e k m)) := by
  have hcode : (BitVec.ofNat 4 (fatalCode e.kind)).toNat = fatalCode e.kind := by
    rw [BitVec.toNat_ofNat]
    exact Nat.mod_eq_of_lt (fatalCode_lt e.kind)
  refine ⟨rfl, rfl, .inr (.inr ⟨?_, ?_, ?_, holen, ?_⟩)⟩ <;>
    simp only [completeCommand_status, completeCommand_errinfo, completeCommand_faultlog, raiseFatal_status,
      raiseFatal_errinfo, raiseFatal_faultlog, hcode]
  · exact fatalCode_mem_fatal e.kind
  · exact he.setWidth_ne_zero
  · rw [logFault, BitVec.getLsbD_or, BitVec.getLsbD_twoPow]
    simp only [(fatalCode_lt e.kind).trans (show 16 < 32 by decide), decide_true, Bool.and_true, Bool.or_true]
  · rw [hstage, ofNat_stage_eq_zero hk]

/-! ### Each kind of command -/

/-- A command that produces no bytes is no pipeline, and AHUF_DEC is another one. -/
theorem runsIn_of_unit (hi : producesBytes i = false) :
    pipelineStages i = [] ∧ ∀ j ∈ runsIn i, j ∉ [Instr.ahufDec] := by
  have hstages : pipelineStages i = [] := by
    by_contra hne
    rw [producesBytes_of_pipeline hne] at hi
    cases hi
  refine ⟨hstages, fun j hj hdec => ?_⟩
  rw [runsIn, hstages, List.mem_singleton] at hj
  rw [← hj, List.mem_singleton.mp hdec] at hi
  cases hi

theorem endsOneWay_of_unit (hi : producesBytes i = false) (hsoft : i ≠ .softReset) (h : exec i s = .next t) :
    EndsOneWay i s t := by
  obtain ⟨hstages, hno⟩ := runsIn_of_unit hi
  cases exec_end h with
  | reset user => exact absurd user hsoft
  | xfer => exact endsOneWay_of_silent i rfl
  | done _ touches =>
    exact endsOneWay_of_silent i
      (touches.field_eq (fun hc _ => hc.reported_eq) (fun hr hj => hr.reported_eq hj) hno)
  | refused _ listed =>
    exact endsOneWay_of_fatal listed (fun hbytes => absurd (hi.symm.trans hbytes) Bool.false_ne_true)
      (iff_of_true hstages rfl) (Nat.zero_le 3)
  | committed produces | stopped produces => exact absurd (hi.symm.trans produces) Bool.false_ne_true

theorem endsOneWay_of_codec (hstages : pipelineStages i = []) (s : State) :
    EndsOneWay i s (runCodec (keepOf i) (stageBody i) s) := by
  have hread : Does i readInput (Work.start 0 (beginCommand s)) :=
    .get_bind ((Does.checkInputLength _).bind fun _ _ _ => .pure _)
  have hbody : BodyDoes i (readInput >>= stageBody i) (Work.start 0 (beginCommand s)) :=
    .bind hread fun x v _ => stageBody_does i x v
  unfold runCodec
  cases h : (readInput >>= stageBody i) (Work.start 0 (beginCommand s)) with
  | ok a v =>
    rcases hbody.reported_eq h with hsame | ⟨hdec, hwarned⟩
    · exact endsOneWay_of_silent (m := commitOutput v.out.reverse v.mach) i hsame
    · exact endsOneWay_of_warned (m := commitOutput v.out.reverse v.mach) hwarned (.inl ⟨hdec, rfl⟩)
  | error e v =>
    obtain ⟨-, he⟩ := hbody.error h
    refine endsOneWay_of_fatal he (fun _ hne => ?_) (iff_of_true hstages rfl) (Nat.zero_le 3)
    rw [keepOf, if_neg hne, keepNothing, if_neg Bool.false_ne_true, discardOutput_olen]

/-! ### The stages of a pipeline (R341) -/

theorem runStage_does (j : Instr) (k : Nat) (s : State) (x : List Byte) :
    BodyDoes j (checkInputLength x.length >>= fun _ => stageBody j x) (Work.start k s) :=
  .bind (.checkInputLength _) fun _ _ _ => stageBody_does j x _

/-- The machine a run of the sequencer ends with. -/
def PipeEnd.machine : PipeEnd → State
  | .finished s _ => s
  | .failed _ _ s => s

/-- A part of the state that the later stages leave alone is as the first stage leaves it. -/
theorem runStages_first {β : Type} {f : State → β} {rest : List Instr}
    (hrest : ∀ k s x, f (runStages (rest.map stageBody) k s x).machine = f s) (k : Nat) (s : State) (x : List Byte) :
    f (runStages ((j :: rest).map stageBody) k s x).machine = f (endWork (runStage (stageBody j) k s x)).mach := by
  rw [List.map_cons]
  cases h : runStage (stageBody j) k s x with
  | ok a v =>
    rw [runStages_ok h]
    exact hrest (k + 1) v.mach v.out.reverse
  | error e v =>
    rw [runStages_error h]
    rfl

/-- A part of the state that no change and no report of the stages writes is as before. -/
theorem runStages_field {β : Type} {f : State → β} {stages : List Instr}
    (hchange : ∀ j ∈ stages, ∀ s t, Change j s t → f t = f s)
    (hreport : ∀ j ∈ stages, ∀ k s t, Report j k s t → f t = f s) (k : Nat) (s : State) (x : List Byte) :
    f (runStages (stages.map stageBody) k s x).machine = f s := by
  induction stages generalizing k s x with
  | nil => rfl
  | cons j rest ih =>
    have hrest := ih (fun j hj => hchange j (List.mem_cons_of_mem _ hj))
      fun j hj => hreport j (List.mem_cons_of_mem _ hj)
    exact (runStages_first hrest k s x).trans ((runStage_does j k s x).field_eq
      (hchange j (List.mem_cons_self ..)) (hreport j (List.mem_cons_self ..)))

/-- The error of a pipeline is listed, and its stage is the number of one of the stages. -/
theorem runStages_failed {stages : List Instr} (h : runStages (stages.map stageBody) k s x = .failed e l q) :
    e.Listed ∧ k ≤ l ∧ l < k + stages.length := by
  induction stages generalizing k s x with
  | nil => cases h
  | cons j rest ih =>
    rw [List.map_cons] at h
    rw [List.length_cons]
    cases hfirst : runStage (stageBody j) k s x with
    | ok a v =>
      rw [runStages_ok hfirst] at h
      obtain ⟨he, hle, hlt⟩ := ih h
      exact ⟨he, by omega, by omega⟩
    | error d v =>
      obtain ⟨-, hd⟩ := (runStage_does j k s x).error hfirst
      rw [runStages_error hfirst] at h
      cases h
      exact ⟨hd, le_rfl, by omega⟩

/-- Stages none of which is AHUF_DEC report nothing. -/
theorem runStages_silent {stages : List Instr} (hno : .ahufDec ∉ stages) (k : Nat) (s : State) (x : List Byte) :
    reported (runStages (stages.map stageBody) k s x).machine = reported s :=
  runStages_field (fun _ _ _ _ hc => hc.reported_eq)
    (fun _ hj _ _ _ hr => hr.reported_eq fun hdec => hno (List.mem_singleton.mp hdec ▸ hj)) k s x

/-- As the first stage AHUF_DEC may have reported the warning. -/
theorem runStages_reported {rest : List Instr} (hrest : .ahufDec ∉ rest)
    (h : runStages ((j :: rest).map stageBody) k s x = .finished q y) :
    reported q = reported s ∨ j = .ahufDec ∧ reported q = reported (warnChecksumMismatch k s) := by
  rw [List.map_cons] at h
  cases hfirst : runStage (stageBody j) k s x with
  | error e v =>
    rw [runStages_error hfirst] at h
    cases h
  | ok a v =>
    have hlater := runStages_silent hrest (k + 1) v.mach v.out.reverse
    rw [runStages_ok hfirst] at h
    rw [h] at hlater
    rw [show reported q = reported v.mach from hlater]
    exact (runStage_does j k s x).reported_eq hfirst

theorem endsOneWay_of_pipeline (hi : pipelineStages i ≠ []) (s : State) :
    EndsOneWay i s (runPipeline ((pipelineStages i).map stageBody) s) := by
  obtain ⟨j, rest, hstages, hlen, hno, hdec⟩ := pipelineStages_eq_cons hi
  have hfatal {e : FatalError} {l : Nat} (m : State) (he : e.Listed) (hl : l ≠ 0) (hl3 : l ≤ 3) :
      EndsOneWay i s (completeCommand (raiseFatal e l (discardOutput m))) :=
    endsOneWay_of_fatal he (fun _ _ => rfl) (iff_of_false hi hl) hl3
  rcases Nat.lt_or_ge s.params.bufCap s.ilen.toNat with hlong | hfits
  · rw [runPipeline_tooLong _ hlong]
    exact hfatal _ inputTooLong_listed (by decide) (by decide)
  · rw [runPipeline_fits _ hfits, hstages]
    cases hrun : runStages ((j :: rest).map stageBody) 1 (beginCommand s) s.input with
    | finished q y =>
      rcases runStages_reported hno hrun with hsame | ⟨hj, hwarned⟩
      · exact endsOneWay_of_silent (m := commitOutput y q) i hsame
      · exact endsOneWay_of_warned (m := commitOutput y q) hwarned (.inr ⟨hdec hj, rfl⟩)
    | failed e l q =>
      obtain ⟨he, hle, hlt⟩ := runStages_failed hrun
      rw [List.length_cons] at hlt
      exact hfatal q he (by omega) (by omega)

end Sys2Proof.Machine

namespace Sys2Proof

open Sys2Proof.Machine Sys2Proof.Safety

/-- Settles O4: the write to CMD issues the word (R360). -/
theorem stepRunsDecodedCommand : Obligations.StepRunsDecodedCommand := by
  intro s w q i hq hw
  rw [step_of_queue hq]
  exact issue_of_decode hw { s with hostQueue := q }

/-- Settles O9: SOFT_RESET is the reset state with the fields it keeps. -/
theorem softResetEffect : Obligations.SoftResetEffect :=
  fun s => ⟨softReset s, rfl, rfl, rfl, rfl, rfl, rfl, rfl, rfl, rfl, rfl, rfl, rfl, rfl, rfl, rfl, fun _ => rfl, rfl,
    rfl, rfl, rfl, rfl⟩

/-- Settles O10: XFER loads the output as the host would (`exec_xfer`). -/
theorem xferCopiesOutput : Obligations.XferCopiesOutput := by
  refine fun s => ⟨_, exec_xfer s, congrArg succeeded (hostLoad_output s), fun i hi => readIbuf_hostLoad_output hi,
    fun a ha => readIbuf_hostLoad_of_le s ?_⟩
  rwa [output_length]

/-- Settles O50: every kind of command that reads IBUF makes the check first. -/
theorem tooLongInputIsRefusedFirst : Obligations.TooLongInputIsRefusedFirst := by
  intro i s hi hlong
  by_cases hstages : pipelineStages i = []
  · rw [if_pos hstages]
    cases hbytes : producesBytes i with
    | true => exact exec_codec_of_tooLong hbytes hstages hlong
    | false => exact exec_unit_of_tooLong hi hbytes hlong
  · rw [if_neg hstages, producesBytes_of_pipeline hstages]
    exact exec_pipeline_of_tooLong hstages hlong

/-- Settles O49: a command produces no bytes, or is a codec, or a pipeline of codecs; of a codec's reports only the
warning of AHUF_DEC is no fatal error (`BodyDoes.reported_eq`). -/
theorem everyCommandEndsInOneOfThreeWays : Obligations.EveryCommandEndsInOneOfThreeWays := by
  intro i s hsoft
  obtain ⟨t, ht⟩ := exec_completes i s
  refine ⟨t, ht, ?_⟩
  change EndsOneWay i s t
  cases hbytes : producesBytes i with
  | false => exact endsOneWay_of_unit hbytes hsoft ht
  | true =>
    by_cases hstages : pipelineStages i = []
    · rw [exec_codec hbytes hstages] at ht
      cases ht
      exact endsOneWay_of_codec hstages s
    · rw [exec_pipeline hstages] at ht
      cases ht
      exact endsOneWay_of_pipeline hstages s

end Sys2Proof
end

section
/-! A command body inside a pipeline (R341, R349). It reads the parameters, the unit state and its own results, so from
two machines that agree on these it does the same to both, whatever the stage number, the buffers and the reports made
before (`Portable`). Only the warning writes a stage number, and that is a report. -/

namespace Sys2Proof.Machine

open Sys2Proof.Safety

variable {α β : Type} {a b : Bool} {m p : State}

/-! ## Machines that agree -/

/-- Machine `p` has the parameters, results, unit state and FAULTLOG of `m`, and the same numbers of free draws. -/
structure SameUnits (m p : State) : Prop where
  params : p.params = m.params
  res0 : p.res0 = m.res0
  res1 : p.res1 = m.res1
  faultlog : p.faultlog = m.faultlog
  crcacc : p.crcacc = m.crcacc
  salen : p.salen = m.salen
  samem : p.samem = m.samem
  ahuf : p.ahuf = m.ahuf
  lzw : p.lzw = m.lzw
  bwtDraw : p.bwtDraw = m.bwtDraw

/-- Besides, WARN and DOVF of `p` are those of `m`, or were set before (`a`, `b`). -/
structure Beside (a b : Bool) (m p : State) : Prop extends SameUnits m p where
  warn : p.status.warn = (a || m.status.warn)
  dovf : p.status.dovf = (b || m.status.dovf)

theorem Beside.checksum_eq (h : Beside a b m p) : checksum p = checksum m := by
  rw [checksum, h.crcacc, h.params, ← checksum]

theorem Beside.storeSuffixArray (h : Beside a b m p) (x : List Byte) :
    Beside a b (storeSuffixArray x m) (storeSuffixArray x p) :=
  { h with
    salen := rfl
    samem := congrArg (fun r => Ram.refill r ((suffixArray x).map (BitVec.ofNat 32))) h.samem }

theorem Beside.res0_set (h : Beside a b m p) (v : Word) : Beside a b { m with res0 := v } { p with res0 := v } :=
  { h with res0 := rfl }

theorem Beside.results_set (h : Beside a b m p) (v v' : Word) :
    Beside a b { m with res0 := v, res1 := v' } { p with res0 := v, res1 := v' } :=
  { h with res0 := rfl, res1 := rfl }

theorem Beside.lzw_set (h : Beside a b m p) (u : Lzw) : Beside a b { m with lzw := u } { p with lzw := u } :=
  { h with lzw := rfl }

theorem Beside.draw (h : Beside a b m p) :
    Beside a b { m with bwtDraw := m.bwtDraw + 1 } { p with bwtDraw := p.bwtDraw + 1 } :=
  { h with bwtDraw := congrArg (· + 1) h.bwtDraw }

theorem Beside.onAhuf (h : Beside a b m p) (f : Ahuf → Ahuf) : Beside a b (onAhuf f m) (onAhuf f p) :=
  { h with ahuf := congrArg f h.ahuf }

theorem Beside.startCrc (h : Beside a b m p) : Beside a b (startCrc m) (startCrc p) :=
  { h with crcacc := congrArg Params.crcInit h.params }

theorem Beside.feedCrc (h : Beside a b m p) (c : Byte) : Beside a b (feedCrc c m) (feedCrc c p) :=
  { h with crcacc := congrArg₂ (crcStep · · c) h.params h.crcacc }

theorem Beside.setDictionaryOverflow (h : Beside a b m p) :
    Beside a b (setDictionaryOverflow m) (setDictionaryOverflow p) :=
  { h with dovf := (Bool.or_true b).symm }

theorem Beside.insertOrOverflow (h : Beside a b m p) (slot : Nat) (pre : BitVec 14) (ch : Byte) :
    Beside a b (insertOrOverflow slot pre ch m) (insertOrOverflow slot pre ch p) := by
  unfold Machine.insertOrOverflow
  rw [h.lzw]
  split_ifs
  · exact h.lzw_set _
  · exact h.setDictionaryOverflow

theorem Beside.recordOrOverflow (h : Beside a b m p) (old : Nat) (first : Byte) :
    Beside a b (recordOrOverflow old first m) (recordOrOverflow old first p) := by
  unfold Machine.recordOrOverflow
  rw [h.lzw]
  split_ifs
  · exact h.lzw_set _
  · exact h.setDictionaryOverflow

/-- The stage number of the warning is not compared. -/
theorem Beside.warnChecksumMismatch (h : Beside a b m p) (k l : Nat) :
    Beside a b (warnChecksumMismatch k m) (warnChecksumMismatch l p) :=
  { h with
    faultlog := congrArg (logFault checksumMismatchCode) h.faultlog
    warn := (Bool.or_true a).symm }

/-! ## Bodies that do the same to both -/

/-- The same work at stage `k` of machine `p`. -/
def Work.moved (w : Work) (k : Nat) (p : State) : Work := { w with mach := p, stage := k }

@[simp] theorem moved_mach (w : Work) (k : Nat) (p : State) : (w.moved k p).mach = p := rfl
@[simp] theorem moved_olen (w : Work) (k : Nat) (p : State) : (w.moved k p).olen = w.olen := rfl
@[simp] theorem moved_wcnt (w : Work) (k : Nat) (p : State) : (w.moved k p).wcnt = w.wcnt := rfl
@[simp] theorem moved_rcnt (w : Work) (k : Nat) (p : State) : (w.moved k p).rcnt = w.rcnt := rfl
@[simp] theorem moved_rest (w : Work) (k : Nat) (p : State) : (w.moved k p).rest = w.rest := rfl

/-- The same end at stage `k` of machine `p`. -/
def movedResult (k : Nat) (p : State) : EStateM.Result FatalError Work α → EStateM.Result FatalError Work α
  | .ok r w => .ok r (w.moved k p)
  | .error e w => .error e (w.moved k p)

/-- From machines that agree `x` ends in the same way, with machines that agree. -/
def Portable (x : Cmd α) : Prop :=
  ∀ (a b : Bool) (k : Nat) (w : Work) (p : State), Beside a b w.mach p →
    ∃ q, Beside a b (endWork (x w)).mach q ∧ x (w.moved k p) = movedResult k q (x w)

theorem Portable.pure (r : α) : Portable (Pure.pure r : Cmd α) := fun _ _ _ _ p h => ⟨p, h, rfl⟩

theorem Portable.raise (e : FatalError) : Portable (Machine.raise e : Cmd α) := fun _ _ _ _ p h => ⟨p, h, rfl⟩

theorem Portable.bind {x : Cmd α} {f : α → Cmd β} (hx : Portable x) (hf : ∀ r, Portable (f r)) :
    Portable (x >>= f) := by
  intro a b k w p h
  obtain ⟨q, hq, hrun⟩ := hx a b k w p h
  rw [Cmd.bind_run, Cmd.bind_run, hrun]
  cases hw : x w with
  | ok r v =>
    rw [hw] at hq
    exact hf r a b k v q hq
  | error e v =>
    rw [hw] at hq
    exact ⟨q, hq, rfl⟩

/-- A part that starts by looking at the work, of which it uses only what the machines agree on. -/
theorem Portable.get_bind {f : Work → Cmd β} (hf : ∀ w, Portable (f w))
    (hsame : ∀ (a b : Bool) (k : Nat) (w : Work) (p : State), Beside a b w.mach p → f (w.moved k p) = f w) :
    Portable (get >>= f) := by
  intro a b k w p h
  rw [Cmd.get_bind, Cmd.get_bind, hsame a b k w p h]
  exact hf w a b k w p h

/-- A change of the work that leaves the machine alone. -/
theorem Portable.modify {f : Work → Work} (hmoved : ∀ w k p, f (w.moved k p) = (f w).moved k p)
    (hmach : ∀ w, (f w).mach = w.mach) : Portable (modify f) :=
  fun _ _ k w p h => ⟨p, (hmach w).symm ▸ h, congrArg (EStateM.Result.ok ()) (hmoved w k p)⟩

theorem Portable.onMachine {f : State → State} (hf : ∀ a b m p, Beside a b m p → Beside a b (f m) (f p)) :
    Portable (onMachine f) :=
  fun a b _ w p h => ⟨f p, hf a b w.mach p h, rfl⟩

/-! ### Bytes and bits -/

theorem portable_emit (c : Byte) : Portable (emit c) := by
  intro a b k w p h
  rw [emit_run, emit_run, moved_mach, moved_olen, h.params]
  split_ifs <;> exact ⟨p, h, rfl⟩

theorem portable_emitAll (bytes : List Byte) : Portable (emitAll bytes) := by
  induction bytes with
  | nil => exact .pure ()
  | cons c bytes ih => exact (portable_emit c).bind fun _ => ih

theorem portable_memWriteOut (off : Nat) (v : List Byte) : Portable (memWriteOut off v) :=
  .modify (fun _ _ _ => rfl) fun _ => rfl

theorem portable_putBit (c : Bool) : Portable (putBit c) := by
  intro a b k w p h
  rw [putBit_run, putBit_run, moved_mach, moved_olen, moved_wcnt, h.params]
  split_ifs <;> exact ⟨p, h, rfl⟩

theorem portable_putBitList (bits : List Bool) : Portable (putBitList bits) := by
  induction bits with
  | nil => exact .pure ()
  | cons c bits ih => exact (portable_putBit c).bind fun _ => ih

theorem portable_flushBits : Portable flushBits := by
  refine .get_bind (fun w => ?_) fun _ _ _ _ _ _ => rfl
  split_ifs
  · exact .pure ()
  · exact portable_putBitList _

theorem portable_dropBits : Portable dropBits := .modify (fun _ _ _ => rfl) fun _ => rfl

theorem portable_openBits (x : List Byte) (start : Nat) : Portable (openBits x start) :=
  .modify (fun _ _ _ => rfl) fun _ => rfl

theorem portable_bitsBytePos : Portable bitsBytePos := .get_bind (fun _ => .pure _) fun _ _ _ _ _ _ => rfl

theorem portable_getBit (e : FatalError) : Portable (getBit e) := by
  intro a b k w p h
  rw [getBit_run, getBit_run, moved_rcnt, moved_rest]
  split_ifs
  · cases w.rest <;> exact ⟨p, h, rfl⟩
  · exact ⟨p, h, rfl⟩

theorem portable_getBits (e : FatalError) (n : Nat) : Portable (getBits e n) := by
  suffices hinto : ∀ v, Portable (getBitsInto e v n) from hinto 0
  induction n with
  | zero => exact fun v => .pure v
  | succ n ih => exact fun v => (portable_getBit e).bind fun _ => ih _

/-! ## BWT and move to front -/

theorem portable_bwtFwdStage (x : List Byte) : Portable (bwtFwdStage x) := by
  refine .get_bind (fun w => ?_) fun a b k w p h => by simp only [moved_mach, h.params]
  split_ifs
  · exact .raise _
  · refine (Portable.onMachine fun _ _ _ _ h => h.storeSuffixArray x).bind fun _ => ?_
    refine (portable_emitAll _).bind fun _ => (portable_emitAll _).bind fun _ => ?_
    exact .onMachine fun _ _ _ _ h => h.res0_set _

/-- The free draw outside the image has the same number in both machines (log entry 3). -/
theorem portable_bwtInvOutput (col : List Byte) (si : Nat) : Portable (bwtInvOutput col si) := by
  unfold bwtInvOutput
  split_ifs
  · exact .pure _
  · intro a b k w p h
    refine ⟨_, h.draw, ?_⟩
    rw [Cmd.get_bind, moved_mach, h.bwtDraw]
    rfl

theorem portable_bwtInvStage (x : List Byte) : Portable (bwtInvStage x) := by
  unfold bwtInvStage
  split_ifs
  · exact .raise _
  · exact (portable_bwtInvOutput _ _).bind fun _ => portable_emitAll _
  · exact .raise _

theorem portable_mtfEncStage (x : List Byte) : Portable (mtfEncStage x) := by
  rw [mtfEncStage_eq_emitAll]
  exact portable_emitAll _

theorem portable_mtfDecStage (x : List Byte) : Portable (mtfDecStage x) := by
  rw [mtfDecStage_eq_emitAll]
  exact portable_emitAll _

/-! ## Static Huffman -/

theorem portable_shufEncStage (x : List Byte) : Portable (shufEncStage x) := by
  unfold shufEncStage
  split
  · exact .pure ()
  · rw [putCodes_eq_putBitList]
    refine (portable_putBitList _).bind fun _ => portable_flushBits.bind fun _ => (portable_emitAll _).bind fun _ => ?_
    exact (portable_emitAll _).bind fun _ => (portable_putBitList _).bind fun _ => portable_flushBits

theorem portable_parseShape (fuel nleaf nint : Nat) : Portable (parseShape fuel nleaf nint) := by
  induction fuel generalizing nleaf nint with
  | zero => exact .raise _
  | succ fuel ih =>
    refine (portable_getBit _).bind fun c => ?_
    split_ifs
    · exact .raise _
    · exact .pure _
    · exact .raise _
    · exact (ih _ _).bind fun _ => (ih _ _).bind fun _ => .pure _

theorem portable_decodeSingle (v : Byte) (n : Nat) : Portable (decodeSingle v n) := by
  induction n with
  | zero => exact .pure ()
  | succ n ih =>
    refine (portable_getBit _).bind fun c => ?_
    split_ifs
    · exact .raise _
    · exact (portable_emit v).bind fun _ => ih

theorem portable_decodeWalk (root : HuffTree) (n : Nat) (node : HuffTree) (atRoot : Bool) :
    Portable (decodeWalk root n node atRoot) := by
  induction n generalizing node atRoot with
  | zero =>
    unfold decodeWalk
    split_ifs
    · exact .pure ()
    · exact .raise _
  | succ n ih =>
    refine (portable_getBit _).bind fun c => ?_
    split
    · exact (portable_emit _).bind fun _ => ih _ _
    · exact ih _ _

theorem portable_decodeBody (x : List Byte) (shape : HuffShape) (nleaf pos : Nat) :
    Portable (decodeBody x shape nleaf pos) := by
  unfold decodeBody
  dsimp only
  split_ifs
  · exact .raise _
  · exact .raise _
  · refine (portable_openBits _ _).bind fun _ => ?_
    unfold decodePayload
    split
    · exact portable_decodeSingle _ _
    · exact portable_decodeWalk _ _ _ _
  · exact .raise _

theorem portable_shufDecStage (x : List Byte) : Portable (shufDecStage x) := by
  unfold shufDecStage
  split_ifs
  · exact .pure ()
  · refine (portable_openBits _ _).bind fun _ => (portable_parseShape _ _ _).bind fun _ => ?_
    exact portable_bitsBytePos.bind fun _ => portable_decodeBody _ _ _ _

/-! ## Adaptive Huffman -/

theorem portable_startAhuf : Portable (onMachine startAhuf) :=
  .onMachine fun _ _ _ _ h => (h.onAhuf initTree).startCrc

theorem portable_updateTree (c : Byte) : Portable (onMachine (onAhuf fun u => ahufUpdateTree u c)) :=
  .onMachine fun _ _ _ _ h => h.onAhuf _

theorem portable_feedCrc (c : Byte) : Portable (onMachine (feedCrc c)) := .onMachine fun _ _ _ _ h => h.feedCrc c

theorem portable_encodeByte (c : Byte) : Portable (encodeByte c) :=
  .get_bind (fun _ => (portable_putBitList _).bind fun _ => portable_updateTree c)
    fun a b k w p h => by simp only [moved_mach, h.ahuf]

theorem portable_ahufEncBytes (x : List Byte) : Portable (ahufEncBytes x) := by
  induction x with
  | nil => exact .pure ()
  | cons c x ih => exact (portable_feedCrc c).bind fun _ => (portable_encodeByte c).bind fun _ => ih

theorem portable_encodeEnd : Portable encodeEnd :=
  .get_bind (fun _ => (portable_putBitList _).bind fun _ => portable_flushBits)
    fun a b k w p h => by simp only [moved_mach, h.ahuf]

theorem portable_ahufEncFinish : Portable ahufEncFinish := by
  refine .get_bind (fun w => ?_) fun a b k w p h => by simp only [moved_mach, moved_olen, h.checksum_eq]
  refine (portable_memWriteOut _ _).bind fun _ => (portable_memWriteOut _ _).bind fun _ => ?_
  refine .onMachine fun a b m p h => ?_
  rw [h.checksum_eq]
  exact h.results_set _ _

theorem portable_ahufEncStage (x : List Byte) : Portable (ahufEncStage x) :=
  portable_startAhuf.bind fun _ => (portable_emitAll _).bind fun _ => (portable_emitAll _).bind fun _ =>
    (portable_ahufEncBytes x).bind fun _ => portable_encodeEnd.bind fun _ => portable_ahufEncFinish

theorem portable_decodeSymbol : Portable decodeSymbol := by
  suffices hfrom : ∀ fuel r, Portable (decodeSymbolFrom fuel r) from hfrom _ _
  intro fuel
  induction fuel with
  | zero => exact fun r => .raise _
  | succ fuel ih =>
    refine fun r => .get_bind (fun w => ?_) fun a b k w p h => by simp only [moved_mach, h.ahuf]
    split_ifs
    · exact .pure _
    · exact (portable_getBit _).bind fun _ => ih _

theorem portable_rawByte : Portable rawByte := by
  refine (portable_getBits _ 8).bind fun v => .get_bind (fun w => ?_) fun a b k w p h => by
    simp only [moved_mach, h.ahuf]
  split_ifs
  · exact .raise _
  · exact .pure _

theorem portable_acceptByte (c : Byte) : Portable (acceptByte c) :=
  (portable_emit c).bind fun _ => (portable_feedCrc c).bind fun _ => portable_updateTree c

theorem portable_ahufDecLoop (fuel : Nat) : Portable (ahufDecLoop fuel) := by
  induction fuel with
  | zero => exact .raise _
  | succ fuel ih =>
    refine portable_decodeSymbol.bind fun sym => ?_
    split_ifs
    · exact .pure ()
    · exact portable_rawByte.bind fun c => (portable_acceptByte c).bind fun _ => ih
    · exact (Portable.pure _).bind fun c => (portable_acceptByte c).bind fun _ => ih

/-- The comparison of the checksums, with the warning in the stage where it is made (R376). -/
theorem portable_ahufDecFinish (stored : Word) : Portable (ahufDecFinish stored) := by
  refine (Portable.onMachine fun a b m p h => ?_).bind fun _ => ?_
  · rw [h.checksum_eq]
    exact h.results_set _ _
  · intro a b k w p h
    rw [Cmd.get_bind, Cmd.get_bind, moved_mach, h.res0, h.res1]
    split_ifs
    · exact ⟨_, h.warnChecksumMismatch w.stage k, rfl⟩
    · exact ⟨p, h, rfl⟩

theorem portable_ahufDecStage (x : List Byte) : Portable (ahufDecStage x) := by
  unfold ahufDecStage
  split_ifs
  · exact .raise _
  · exact .raise _
  · exact .raise _
  · refine portable_startAhuf.bind fun _ => (portable_openBits _ _).bind fun _ => ?_
    exact (portable_ahufDecLoop _).bind fun _ => portable_ahufDecFinish _

/-! ## LZW -/

theorem portable_freshLzw : Portable (onMachine fun s => { s with lzw := freshLzw }) :=
  .onMachine fun _ _ _ _ h => h.lzw_set freshLzw

theorem portable_putCode (c : Nat) : Portable (putCode c) := portable_putBitList _

theorem portable_lzwEncFrom (pre : BitVec 14) (x : List Byte) : Portable (lzwEncFrom pre x) := by
  induction x generalizing pre with
  | nil => exact portable_putCode _
  | cons ch x ih =>
    refine .get_bind (fun w => ?_) fun a b k w p h => by simp only [moved_mach, h.lzw]
    dsimp only
    split_ifs
    · exact ih _
    · refine (portable_putCode _).bind fun _ => ?_
      exact (Portable.onMachine fun _ _ _ _ h => h.insertOrOverflow _ _ _).bind fun _ => ih _

theorem portable_lzwEncBlock (x : List Byte) : Portable (lzwEncBlock x) := by
  cases x with
  | nil => exact .pure ()
  | cons c x => exact portable_lzwEncFrom _ x

theorem portable_lzwEncStage (x : List Byte) : Portable (lzwEncStage x) :=
  portable_freshLzw.bind fun _ => (portable_lzwEncBlock x).bind fun _ => (portable_putCode _).bind fun _ =>
    (portable_putCode _).bind fun _ => portable_dropBits

theorem portable_lzwDecLoop (fuel old : Nat) (first : Byte) : Portable (lzwDecLoop fuel old first) := by
  induction fuel generalizing old first with
  | zero => exact .raise _
  | succ fuel ih =>
    refine (portable_getBits _ 14).bind fun new => ?_
    split_ifs
    · exact .pure ()
    · refine .get_bind (fun w => ?_) fun a b k w p h => by simp only [moved_mach, h.lzw]
      dsimp only
      split_ifs
      · exact .raise _
      · refine (portable_emitAll _).bind fun _ => ?_
        exact (Portable.onMachine fun _ _ _ _ h => h.recordOrOverflow _ _).bind fun _ => ih _ _

theorem portable_lzwDecStage (x : List Byte) : Portable (lzwDecStage x) := by
  refine portable_freshLzw.bind fun _ => (portable_openBits _ _).bind fun _ => ?_
  refine (portable_getBits _ 14).bind fun old => ?_
  split_ifs
  · exact .pure ()
  · exact .raise _
  · exact (portable_emit _).bind fun _ => portable_lzwDecLoop _ _ _

theorem portable_stageBody (i : Instr) (x : List Byte) : Portable (stageBody i x) := by
  cases i
  case bwtFwd => exact portable_bwtFwdStage x
  case bwtInv => exact portable_bwtInvStage x
  case mtfEnc => exact portable_mtfEncStage x
  case mtfDec => exact portable_mtfDecStage x
  case shufEnc => exact portable_shufEncStage x
  case shufDec => exact portable_shufDecStage x
  case ahufEnc => exact portable_ahufEncStage x
  case ahufDec => exact portable_ahufDecStage x
  case lzwEnc => exact portable_lzwEncStage x
  case lzwDec => exact portable_lzwDecStage x
  all_goals exact .pure ()

end Sys2Proof.Machine
end

section
/-! A pipeline beside the chain of its stages (R341, R342, R349): each stage ends as its command does alone, so the two
agree stage by stage, and a stage that raises ends both. -/

namespace Sys2Proof.Machine

open Sys2Proof.Safety

variable {i j : Instr} {s t p c q d : State} {x y : List Byte} {k : Nat} {e : FatalError} {rest stages : List Instr}
  {r : PipeEnd}

/-! ## One stage -/

/-- The start of a command clears WARN and DOVF, and a stage of a pipeline does not. -/
theorem SameUnits.begin (h : SameUnits s p) : Beside p.status.warn p.status.dovf (beginCommand s) p :=
  { h with warn := (Bool.or_false _).symm, dovf := (Bool.or_false _).symm }

/-- After a command that ended well: the machine `c` beside the pipeline's machine `q` with the intermediate `y`. -/
structure EndsWell (c q : State) (y : List Byte) : Prop extends SameUnits c q where
  err : c.status.err = 0
  olen : c.olen = BitVec.ofNat 32 y.length
  output : c.output = y
  fits : y.length ≤ c.params.bufCap

/-- After a fatal error: the machine `c` beside the pipeline's machine `q` before its error entry. -/
structure EndsBadly (c q : State) (e : FatalError) : Prop extends SameUnits c (raiseFatal e 0 q) where
  err : c.status.err = BitVec.ofNat 4 (fatalCode e.kind)
  errinfo : c.errinfo = e.sub.setWidth 32

theorem EndsBadly.err_ne_zero (h : EndsBadly c q e) : c.status.err ≠ 0 := by
  rw [h.err]
  cases e.kind <;> decide

/-- The end of a stage beside the machine `c` that its command alone leaves. -/
def StageBeside (c : State) : EStateM.Result FatalError Work Unit → Prop
  | .ok _ v => EndsWell c v.mach v.out.reverse
  | .error e v => EndsBadly c v.mach e

/-- `q` has WARN and DOVF of `p`, and besides what the command that left `c` has set. -/
structure AddsFlags (p c q : State) : Prop where
  warn : q.status.warn = (p.status.warn || c.status.warn)
  dovf : q.status.dovf = (p.status.dovf || c.status.dovf)

/-- The body of a command leaves the parameters and STATUS.ERR alone and emits no more than fits. -/
theorem stageBody_frame {v : Work} (h : stageBody j x (Work.start k s) = .ok () v) :
    v.mach.params = s.params ∧ v.mach.status.err = s.status.err ∧ v.out.reverse.length ≤ s.params.bufCap := by
  have hdoes := stageBody_does j x (Work.start k s)
  have houter := hdoes.field_eq (f := outerFields) (fun _ _ hc => hc.outer_eq) fun _ _ _ hr => hr.outer_eq
  obtain ⟨m, hm, -, hfits⟩ := hdoes.ok h
  rw [h] at houter
  simp only [outerFields, Prod.mk.injEq] at houter
  obtain ⟨hparams, -, -, -, -, -, -, herr⟩ := houter
  have hlength := (hfits (hm.fits (Work.start_outFits k s))).output_length
  rw [show v.mach.params = s.params from hparams] at hlength
  exact ⟨hparams, herr, hlength⟩

/-- A stage on the units of `s` and the input of `s` ends as its command does from `s`. -/
theorem stage_beside (hbytes : producesBytes j = true) (hstages : pipelineStages j = []) (h : SameUnits s p)
    (hwf : s.params.wf = true) (hfits : InputFits s) (k : Nat) :
    ∃ c, exec j s = .next c ∧ StageBeside c (runStage (stageBody j) k p s.input)
      ∧ AddsFlags p c (endWork (runStage (stageBody j) k p s.input)).mach := by
  have hmax := bufCap_le hwf
  have hrun : runStage (stageBody j) k p s.input
      = stageBody j s.input ((Work.start 0 (beginCommand s)).moved k p) :=
    runStage_fits _ k (by rw [input_length, h.params]; exact hfits)
  obtain ⟨q, hq, hmoved⟩ := portable_stageBody j s.input _ _ k (Work.start 0 (beginCommand s)) p h.begin
  refine ⟨_, exec_codec hbytes hstages s, ?_⟩
  rw [runCodec_fits _ _ hfits, hrun, hmoved]
  cases hbody : stageBody j s.input (Work.start 0 (beginCommand s)) with
  | ok a v =>
    rw [hbody] at hq
    obtain ⟨hparams, herr, hlength⟩ := stageBody_frame hbody
    have hsize : v.out.reverse.length < 4294967296 := hlength.trans_lt (show s.params.bufCap < _ by omega)
    exact ⟨{ hq.toSameUnits with
      err := herr
      olen := rfl
      output := output_commitOutput v.mach hsize
      fits := hlength.trans_eq (congrArg Params.bufCap hparams).symm }, hq.warn, hq.dovf⟩
  | error e v =>
    rw [hbody] at hq
    rw [finishCodec_error]
    split_ifs <;>
      exact ⟨{ hq.toSameUnits with
        faultlog := congrArg (logFault (fatalCode e.kind)) hq.faultlog
        err := rfl
        errinfo := rfl }, hq.warn, hq.dovf⟩

/-! ## The chain (R349) -/

/-- The machine with the last output as the next input (R363). -/
def afterXfer (c : State) : State := succeeded (hostLoad c.output c)

/-- After a stage that ended well, XFER gives the next command the units of the pipeline and its intermediate. -/
theorem EndsWell.afterXfer (h : EndsWell c q y) :
    SameUnits (afterXfer c) q ∧ (afterXfer c).input = y ∧ InputFits (afterXfer c) := by
  have hsize : c.output.length < 4294967296 := (output_length c).trans_lt c.olen.isLt
  have hinput : (Machine.afterXfer c).input = y := (input_hostLoad c hsize).trans h.output
  refine ⟨{ h.toSameUnits with }, hinput, ?_⟩
  rw [InputFits, ← input_length, hinput]
  exact h.fits

theorem chain_of_error (h : exec j s = .next c) (herr : c.status.err ≠ 0) (rest : List Instr) :
    chain (j :: rest) s = some c := by
  cases rest with
  | nil => exact chain_singleton h
  | cons j' rest =>
    rw [chain, h]
    exact if_pos herr

theorem chain_of_ok (h : exec j s = .next c) (herr : c.status.err = 0) (hne : rest ≠ []) :
    chain (j :: rest) s = chain rest (afterXfer c) := by
  cases rest with
  | nil => exact absurd rfl hne
  | cons j' rest =>
    rw [chain, h]
    dsimp only
    rw [if_neg (not_not.mpr herr), exec_xfer]
    rfl

/-- The chain of `stages` from `s` beside the end of a pipeline whose first stage has number `k`: it ends well with the
same output, or its command number `n` ends with the pipeline's error after `n` that ended well. -/
def ChainBeside (stages : List Instr) (k : Nat) (s : State) : PipeEnd → Prop
  | .finished q y => ∃ c, chain stages s = some c ∧ EndsWell c q y
  | .failed e l q => ∃ c n, chain stages s = some c ∧ EndsBadly c q e ∧ l = k + n ∧ n < stages.length
      ∧ chain (stages.take (n + 1)) s = some c
      ∧ ∀ m, 1 ≤ m → m ≤ n → ∃ d, chain (stages.take m) s = some d ∧ d.status.err = 0

/-- One command that ends well in front of a chain. -/
theorem ChainBeside.cons (hexec : exec j s = .next c) (herr : c.status.err = 0) (hne : rest ≠ [])
    (h : ChainBeside rest (k + 1) (afterXfer c) r) : ChainBeside (j :: rest) k s r := by
  have hchain := chain_of_ok hexec herr hne
  have htake {m : Nat} (hm : m ≠ 0) : chain ((j :: rest).take (m + 1)) s = chain (rest.take m) (afterXfer c) :=
    chain_of_ok hexec herr (mt List.take_eq_nil_iff.mp fun h => h.elim hm hne)
  cases r with
  | finished q y =>
    obtain ⟨c', hc', hwell⟩ := h
    exact ⟨c', hchain.trans hc', hwell⟩
  | failed e l q =>
    obtain ⟨c', n, hc', hbadly, hl, hn, hfirst, hbefore⟩ := h
    refine ⟨c', n + 1, hchain.trans hc', hbadly, by omega, Nat.succ_lt_succ hn,
      (htake (Nat.succ_ne_zero n)).trans hfirst, fun m hm hmn => ?_⟩
    obtain ⟨m, rfl⟩ := Nat.exists_eq_add_of_le' hm
    rcases Nat.eq_zero_or_pos m with rfl | hpos
    · exact ⟨c, chain_singleton hexec, herr⟩
    · rw [htake hpos.ne']
      exact hbefore m hpos (Nat.le_of_succ_le_succ hmn)

/-- Stage by stage a pipeline ends as the chain of its stages does. -/
theorem runStages_beside (hcodec : ∀ j ∈ stages, producesBytes j = true ∧ pipelineStages j = []) (hne : stages ≠ [])
    (h : SameUnits s p) (hwf : s.params.wf = true) (hfits : InputFits s) (k : Nat) :
    ChainBeside stages k s (runStages (stages.map stageBody) k p s.input) := by
  induction stages generalizing s p k with
  | nil => exact absurd rfl hne
  | cons j rest ih =>
    obtain ⟨⟨hbytes, hstages⟩, hcodec⟩ := List.forall_mem_cons.mp hcodec
    obtain ⟨c, hexec, hstage, -⟩ := stage_beside hbytes hstages h hwf hfits k
    have hparams : c.params = s.params := (bufferFrames j s c hexec).1
    rw [List.map_cons]
    cases hrun : runStage (stageBody j) k p s.input with
    | error e v =>
      rw [hrun] at hstage
      rw [runStages_error hrun]
      exact ⟨c, 0, chain_of_error hexec hstage.err_ne_zero rest, hstage, rfl, Nat.succ_pos _, chain_singleton hexec,
        fun m hm hm0 => absurd hm (Nat.not_le_of_lt (Nat.lt_succ_of_le hm0))⟩
    | ok a v =>
      rw [hrun] at hstage
      rw [runStages_ok hrun]
      rcases eq_or_ne rest [] with rfl | hrest
      · exact ⟨c, chain_singleton hexec, hstage⟩
      · obtain ⟨hunits, hinput, hfitsNext⟩ := EndsWell.afterXfer hstage
        have hnext := ih hcodec hrest hunits (show c.params.wf = true from hparams ▸ hwf) hfitsNext (k + 1)
        rw [hinput] at hnext
        exact .cons hexec hstage.err hrest hnext

/-! ## The end of the pipeline (R341, R342) -/

theorem codec_of_mem_pipelineStages (i : Instr) :
    ∀ j ∈ pipelineStages i, producesBytes j = true ∧ pipelineStages j = [] := by
  cases i <;> decide

theorem exec_pipeline_of_fits (hi : pipelineStages i ≠ []) (hfits : InputFits s) :
    exec i s
      = .next (finishPipeline (runStages ((pipelineStages i).map stageBody) 1 (beginCommand s) s.input)) := by
  rw [exec_pipeline hi, runPipeline_fits _ hfits]

theorem sameUnits_begin (s : State) : SameUnits s (beginCommand s) := ⟨rfl, rfl, rfl, rfl, rfl, rfl, rfl, rfl, rfl, rfl⟩

/-- Where the chain ends well the pipeline commits the chain's output. -/
theorem EndsWell.finishPipeline (h : EndsWell c q y) :
    SameUnits c (finishPipeline (.finished q y)) ∧ c.olen = (finishPipeline (.finished q y)).olen
      ∧ c.output = (finishPipeline (.finished q y)).output := by
  have hsize : y.length < 4294967296 := by
    rw [← h.output, output_length]
    exact c.olen.isLt
  exact ⟨{ h.toSameUnits with }, h.olen, h.output.trans (output_commitOutput q hsize).symm⟩

theorem EndsBadly.finishPipeline (h : EndsBadly c q e) (l : Nat) :
    SameUnits c (finishPipeline (.failed e l q)) ∧ c.status.err = (finishPipeline (.failed e l q)).status.err
      ∧ c.errinfo = (finishPipeline (.failed e l q)).errinfo :=
  ⟨{ h.toSameUnits with }, h.err, h.errinfo⟩

/-- How a pipeline and its chain compare once the input fits: WARN and DOVF apart (R341, R349). -/
theorem pipeline_beside (hi : pipelineStages i ≠ []) (hwf : s.params.wf = true) (hfits : InputFits s)
    (ht : exec i s = .next t) (hc : chain (pipelineStages i) s = some c) :
    SameUnits c t ∧ c.status.err = t.status.err ∧ (c.status.err ≠ 0 → c.errinfo = t.errinfo)
      ∧ (t.status.err = 0 → c.olen = t.olen ∧ c.output = t.output)
      ∧ (t.status.err ≠ 0 →
          1 ≤ t.status.stage.toNat ∧ t.status.stage.toNat ≤ (pipelineStages i).length
            ∧ chain ((pipelineStages i).take t.status.stage.toNat) s = some c
            ∧ ∀ j, 1 ≤ j → j < t.status.stage.toNat →
                ∃ d, chain ((pipelineStages i).take j) s = some d ∧ d.status.err = 0) := by
  have hbeside := runStages_beside (codec_of_mem_pipelineStages i) hi (sameUnits_begin s) hwf hfits 1
  have herr := runStages_field (f := fun s => s.status.err) (stages := pipelineStages i)
    (fun _ _ _ _ hch => congrArg (fun r => r.2.2.1) hch.reported_eq)
    (fun _ _ _ _ _ hr => by cases hr <;> rfl) 1 (beginCommand s) s.input
  rw [exec_pipeline_of_fits hi hfits] at ht
  obtain rfl := Host.Outcome.next.inj ht
  revert hbeside herr
  cases runStages ((pipelineStages i).map stageBody) 1 (beginCommand s) s.input with
  | finished q y =>
    rintro ⟨c', hc', hwell⟩ herr
    obtain rfl : c' = c := Option.some.inj (hc'.symm.trans hc)
    have htErr : (finishPipeline (.finished q y)).status.err = 0 := herr
    obtain ⟨hunits, hout⟩ := hwell.finishPipeline
    exact ⟨hunits, hwell.err.trans htErr.symm, fun h => absurd hwell.err h, fun _ => hout, fun h => absurd htErr h⟩
  | failed e l q =>
    rintro ⟨c', n, hc', hbadly, rfl, hn, hfirst, hbefore⟩ -
    obtain rfl : c' = c := Option.some.inj (hc'.symm.trans hc)
    obtain ⟨_, rest, hstages, hlen, -⟩ := pipelineStages_eq_cons hi
    have hcount : (pipelineStages i).length = rest.length + 1 := by rw [hstages, List.length_cons]
    have hstage : (finishPipeline (.failed e (1 + n) q)).status.stage.toNat = n + 1 := by
      rw [finishPipeline_failed, completeCommand_status, raiseFatal_status, BitVec.toNat_ofNat]
      omega
    obtain ⟨hunits, herr, hinfo⟩ := hbadly.finishPipeline (1 + n)
    refine ⟨hunits, herr, fun _ => hinfo, fun h => absurd (herr.trans h) hbadly.err_ne_zero, fun _ => ?_⟩
    rw [hstage]
    exact ⟨Nat.succ_pos n, hn, hfirst, fun m hm hmn => hbefore m hm (Nat.le_of_lt_succ hmn)⟩

/-! ## WARN and DOVF (R342) -/

theorem finishPipeline_warn (r : PipeEnd) : (finishPipeline r).status.warn = r.machine.status.warn := by
  cases r <;> rfl

theorem finishPipeline_dovf (r : PipeEnd) : (finishPipeline r).status.dovf = r.machine.status.dovf := by
  cases r <;> rfl

/-- Stages that do not run AHUF_DEC leave WARN alone. -/
theorem runStages_warn (hno : .ahufDec ∉ stages) (k : Nat) (s : State) (x : List Byte) :
    (runStages (stages.map stageBody) k s x).machine.status.warn = s.status.warn :=
  congrArg Prod.fst (runStages_silent hno k s x)

/-- Stages that do not run the LZW coder leave DOVF alone. -/
theorem runStages_dovf (hno : ∀ j ∈ stages, j ∉ [Instr.lzwInsert, .lzwEnc, .lzwDec]) (k : Nat) (s : State)
    (x : List Byte) : (runStages (stages.map stageBody) k s x).machine.status.dovf = s.status.dovf :=
  runStages_field (f := fun s => s.status.dovf) (fun j hj _ _ hc => hc.dovf_eq (hno j hj))
    (fun _ _ _ _ _ hr => hr.dovf_eq) k s x

/-- What the first command alone reports is what a pipeline reports, if its later stages cannot. -/
theorem pipeline_flags_of_first (hi : pipelineStages i = j :: rest) (hwf : s.params.wf = true) (hfits : InputFits s)
    (ht : exec i s = .next t) :
    ∃ d, exec j s = .next d ∧ (.ahufDec ∉ rest → t.status.warn = d.status.warn)
      ∧ ((∀ j ∈ rest, j ∉ [Instr.lzwInsert, .lzwEnc, .lzwDec]) → t.status.dovf = d.status.dovf) := by
  have hne : pipelineStages i ≠ [] := hi ▸ List.cons_ne_nil j rest
  obtain ⟨hbytes, hstages⟩ := codec_of_mem_pipelineStages i j (hi ▸ List.mem_cons_self ..)
  obtain ⟨d, hd, -, hwarn, hdovf⟩ := stage_beside hbytes hstages (sameUnits_begin s) hwf hfits 1
  rw [exec_pipeline_of_fits hne hfits, hi] at ht
  obtain rfl := Host.Outcome.next.inj ht
  refine ⟨d, hd, fun hno => ?_, fun hno => ?_⟩
  · rw [finishPipeline_warn]
    exact (runStages_first (f := fun s => s.status.warn) (runStages_warn hno) 1 _ _).trans hwarn
  · rw [finishPipeline_dovf]
    exact (runStages_first (f := fun s => s.status.dovf) (runStages_dovf hno) 1 _ _).trans hdovf

/-- WARN is set by AHUF_DEC only (R376). -/
theorem CommandEnd.warn_eq (h : CommandEnd i s t) (hrun : ∀ j ∈ runsIn i, j ∉ [Instr.ahufDec]) :
    t.status.warn = false := by
  have htouch {m : State} (ht : Touches i (beginCommand s) m) : m.status.warn = false :=
    congrArg Prod.fst (ht.field_eq (f := reported) (fun hc _ => hc.reported_eq) (fun hr hj => hr.reported_eq hj) hrun)
  cases h with
  | reset | xfer | refused => rfl
  | done _ ht | committed _ ht | stopped _ ht => exact (htouch ht).symm ▸ rfl

theorem ahufDec_notMem_runsIn (hi : pipelineStages i ≠ []) (hne : i ≠ .pBwtMtfAhufD) :
    ∀ j ∈ runsIn i, j ∉ [Instr.ahufDec] := by
  revert hi hne
  cases i <;> decide

/-- BWT_FWD leaves DOVF clear, so what P_BWT_LZW_C reports is what LZW_ENC does, and the chain if it gets there. -/
theorem pBwtLzwC_dovf (hwf : s.params.wf = true) (hfits : InputFits s) (ht : exec .pBwtLzwC s = .next t)
    (hc : chain [.bwtFwd, .lzwEnc] s = some c) : t.status.dovf = c.status.dovf := by
  obtain ⟨d, hd, hstage, -, hdovf⟩ := stage_beside (j := .bwtFwd) rfl rfl (sameUnits_begin s) hwf hfits 1
  have hclear : d.status.dovf = false := (exec_end hd).dovf_eq (by decide)
  have hne : pipelineStages .pBwtLzwC ≠ [] := List.cons_ne_nil _ _
  rw [exec_pipeline_of_fits hne hfits] at ht
  obtain rfl := Host.Outcome.next.inj ht
  rw [finishPipeline_dovf]
  change (runStages [stageBody .bwtFwd, stageBody .lzwEnc] 1 (beginCommand s) s.input).machine.status.dovf = _
  cases hrun : runStage (stageBody .bwtFwd) 1 (beginCommand s) s.input with
  | error e v =>
    rw [hrun] at hstage hdovf
    obtain rfl : d = c := Option.some.inj ((chain_of_error hd hstage.err_ne_zero _).symm.trans hc)
    rw [runStages_error hrun]
    exact hdovf
  | ok a v =>
    rw [hrun] at hstage hdovf
    obtain ⟨hunits, hinput, hfitsNext⟩ := EndsWell.afterXfer hstage
    have hparams : d.params = s.params := (bufferFrames _ s d hd).1
    obtain ⟨c', hc', -, -, hdovf'⟩ := stage_beside (j := .lzwEnc) rfl rfl hunits
      (show d.params.wf = true from hparams ▸ hwf) hfitsNext 2
    have hchain := chain_of_ok (rest := [.lzwEnc]) hd hstage.err (List.cons_ne_nil _ _)
    obtain rfl : c' = c := Option.some.inj (((chain_singleton hc').symm.trans hchain.symm).trans hc)
    have hstart : v.mach.status.dovf = false := by
      rw [show v.mach.status.dovf = (false || d.status.dovf) from hdovf, hclear, Bool.or_false]
    rw [hinput, hstart, Bool.false_or] at hdovf'
    rw [runStages_ok hrun]
    exact (runStages_first (f := fun s => s.status.dovf) (rest := []) (fun _ _ _ => rfl) 2 _ _).trans hdovf'

end Sys2Proof.Machine

namespace Sys2Proof

open Sys2Proof.Machine Sys2Proof.Safety

/-- Settles O48: a stage's body does the same inside the pipeline as alone (`portable_stageBody`), so each stage ends
beside its command (`stage_beside`) and the pipeline beside the chain (`runStages_beside`). -/
theorem pipelineEqualsChain : Obligations.PipelineEqualsChain := by
  intro i s t c hi hwf hfits ht hc
  obtain ⟨hunits, herr, hinfo, hout, hstage⟩ := pipeline_beside hi hwf hfits ht hc
  refine ⟨hunits.res0.symm, hunits.res1.symm, hunits.crcacc.symm, hunits.samem.symm, hunits.salen.symm,
    hunits.ahuf.symm, hunits.lzw.symm, hunits.faultlog.symm, herr, hinfo, hout, hstage, ?_, fun hne => ?_, ?_, ?_⟩
  · rintro rfl
    obtain ⟨d, hd, hwarn, -⟩ := pipeline_flags_of_first rfl hwf hfits ht
    exact ⟨d, hd, hwarn (by decide)⟩
  · exact (exec_end ht).warn_eq (ahufDec_notMem_runsIn hi hne)
  · rintro rfl
    exact pBwtLzwC_dovf hwf hfits ht hc
  · rintro rfl
    obtain ⟨d, hd, -, hdovf⟩ := pipeline_flags_of_first rfl hwf hfits ht
    exact ⟨d, hd, hdovf (by decide)⟩

end Sys2Proof
end
